-- ==== Sys2Proof/Word.lean ====
section
/-! DEFINITION. Word.lean: the word types of the machine (spec/00_scope.md R9, R12). Bits are numbered from 0 at the
least significant end; all register arithmetic is modulo 2^32, which is what `BitVec 32` addition does. -/

namespace Sys2Proof

/-- A 32-bit general register, address or status word (R9). -/
abbrev Word := BitVec 32

/-- A 16-bit I/O register or Thumb halfword. -/
abbrev Half := BitVec 16

/-- The smallest addressable unit of memory. -/
abbrev Byte := BitVec 8

end Sys2Proof
end

