-- ==== Sys2Proof/Syntax.lean ====
section
/-! DEFINITION. Syntax.lean: the instructions, one constructor for each row of spec/opcode_table.json (ARM rows of
spec/30_encoding.md R152 to R168, then Thumb rows of R180 to R199). A field the spec says is ignored (R168: "should be
zero") is kept in the term as `sbz`, so that a term and its word carry the same bits. -/

namespace Sys2Proof

/-- The conditions of R201 with codes 0x0 to 0xE. Code 0xF is not one of them: it never passes, and every word that
carries it is the constructor `armNever` of Instr (R169). -/
inductive Cond where
  | eq | ne | cs | cc | mi | pl | vs | vc | hi | ls | ge | lt | gt | le | al
deriving DecidableEq, Repr

/-- The shift types of R162. -/
inductive ShiftTy where
  | lsl | lsr | asr | ror
deriving DecidableEq, Repr

/-- A visible general register R0 to R15 (R30). -/
abbrev Reg := Fin 16

/-- A low register R0 to R7, what a three-bit Thumb field names (R34). -/
abbrev LowReg := Fin 8

/-- Operand 2 of a data-processing instruction (R161, R162). -/
inductive Op2 where
  | imm (rotate : BitVec 4) (imm8 : BitVec 8)
  | shiftImm (rm : Reg) (ty : ShiftTy) (amount : BitVec 5)
  | shiftReg (rm : Reg) (ty : ShiftTy) (rs : Reg)
deriving DecidableEq, Repr

/-- The offset of a single data transfer (R163). -/
inductive Offset where
  | imm (imm12 : BitVec 12)
  | reg (rm : Reg) (ty : ShiftTy) (amount : BitVec 5)
deriving DecidableEq, Repr

/-- The instructions. `p`, `u`, `w` are the bits P, U, W of R163 and R164; `s` is the S bit; `c` is the condition. -/
inductive Instr where
  -- ARM (spec/30_encoding.md section 3)
  | armNever (bits : BitVec 28)
  | bx (c : Cond) (rm : Reg)
  | mrs (c : Cond) (ps : Bool) (rd : Reg)
  | msrReg (c : Cond) (pd : Bool) (fields : BitVec 4) (rm : Reg)
  | msrImm (c : Cond) (pd : Bool) (fields rotate : BitVec 4) (imm8 : BitVec 8)
  | mul (c : Cond) (s : Bool) (rd : Reg) (sbz : BitVec 4) (rs rm : Reg)
  | mla (c : Cond) (s : Bool) (rd rn rs rm : Reg)
  | umull (c : Cond) (s : Bool) (rdHi rdLo rs rm : Reg)
  | umlal (c : Cond) (s : Bool) (rdHi rdLo rs rm : Reg)
  | smull (c : Cond) (s : Bool) (rdHi rdLo rs rm : Reg)
  | smlal (c : Cond) (s : Bool) (rdHi rdLo rs rm : Reg)
  | swp (c : Cond) (rn rd rm : Reg)
  | swpb (c : Cond) (rn rd rm : Reg)
  | ldrhReg (c : Cond) (p u w : Bool) (rn rd rm : Reg)
  | ldrhImm (c : Cond) (p u w : Bool) (rn rd : Reg) (imm8 : BitVec 8)
  | strhReg (c : Cond) (p u w : Bool) (rn rd rm : Reg)
  | strhImm (c : Cond) (p u w : Bool) (rn rd : Reg) (imm8 : BitVec 8)
  | ldrsbReg (c : Cond) (p u w : Bool) (rn rd rm : Reg)
  | ldrsbImm (c : Cond) (p u w : Bool) (rn rd : Reg) (imm8 : BitVec 8)
  | ldrshReg (c : Cond) (p u w : Bool) (rn rd rm : Reg)
  | ldrshImm (c : Cond) (p u w : Bool) (rn rd : Reg) (imm8 : BitVec 8)
  | undefMul (c : Cond) (bits : BitVec 28)
  | undefCompare (c : Cond) (bits : BitVec 28)
  | and (c : Cond) (s : Bool) (rn rd : Reg) (op2 : Op2)
  | eor (c : Cond) (s : Bool) (rn rd : Reg) (op2 : Op2)
  | sub (c : Cond) (s : Bool) (rn rd : Reg) (op2 : Op2)
  | rsb (c : Cond) (s : Bool) (rn rd : Reg) (op2 : Op2)
  | add (c : Cond) (s : Bool) (rn rd : Reg) (op2 : Op2)
  | adc (c : Cond) (s : Bool) (rn rd : Reg) (op2 : Op2)
  | sbc (c : Cond) (s : Bool) (rn rd : Reg) (op2 : Op2)
  | rsc (c : Cond) (s : Bool) (rn rd : Reg) (op2 : Op2)
  | tst (c : Cond) (rn : Reg) (sbz : BitVec 4) (op2 : Op2)
  | teq (c : Cond) (rn : Reg) (sbz : BitVec 4) (op2 : Op2)
  | cmp (c : Cond) (rn : Reg) (sbz : BitVec 4) (op2 : Op2)
  | cmn (c : Cond) (rn : Reg) (sbz : BitVec 4) (op2 : Op2)
  | orr (c : Cond) (s : Bool) (rn rd : Reg) (op2 : Op2)
  | mov (c : Cond) (s : Bool) (sbz : BitVec 4) (rd : Reg) (op2 : Op2)
  | bic (c : Cond) (s : Bool) (rn rd : Reg) (op2 : Op2)
  | mvn (c : Cond) (s : Bool) (sbz : BitVec 4) (rd : Reg) (op2 : Op2)
  | undefTransfer (c : Cond) (bits : BitVec 28)
  | ldrt (c : Cond) (u : Bool) (rn rd : Reg) (off : Offset)
  | strt (c : Cond) (u : Bool) (rn rd : Reg) (off : Offset)
  | ldrbt (c : Cond) (u : Bool) (rn rd : Reg) (off : Offset)
  | strbt (c : Cond) (u : Bool) (rn rd : Reg) (off : Offset)
  | ldr (c : Cond) (p u w : Bool) (rn rd : Reg) (off : Offset)
  | str (c : Cond) (p u w : Bool) (rn rd : Reg) (off : Offset)
  | ldrb (c : Cond) (p u w : Bool) (rn rd : Reg) (off : Offset)
  | strb (c : Cond) (p u w : Bool) (rn rd : Reg) (off : Offset)
  | ldmRet (c : Cond) (p u w : Bool) (rn : Reg) (list : BitVec 16)
  | ldmUser (c : Cond) (p u w : Bool) (rn : Reg) (list : BitVec 16)
  | stmUser (c : Cond) (p u w : Bool) (rn : Reg) (list : BitVec 16)
  | ldm (c : Cond) (p u w : Bool) (rn : Reg) (list : BitVec 16)
  | stm (c : Cond) (p u w : Bool) (rn : Reg) (list : BitVec 16)
  | b (c : Cond) (offset24 : BitVec 24)
  | bl (c : Cond) (offset24 : BitVec 24)
  | swi (c : Cond) (comment : BitVec 24)
  | ldc (c : Cond) (p u n w : Bool) (rn : Reg) (crd cp : BitVec 4) (offset8 : BitVec 8)
  | stc (c : Cond) (p u n w : Bool) (rn : Reg) (crd cp : BitVec 4) (offset8 : BitVec 8)
  | cdp (c : Cond) (opc1 crn crd cp : BitVec 4) (opc2 : BitVec 3) (crm : BitVec 4)
  | mrc (c : Cond) (opc1 : BitVec 3) (crn : BitVec 4) (rd : Reg) (cp : BitVec 4) (opc2 : BitVec 3) (crm : BitVec 4)
  | mcr (c : Cond) (opc1 : BitVec 3) (crn : BitVec 4) (rd : Reg) (cp : BitVec 4) (opc2 : BitVec 3) (crm : BitVec 4)
  -- Thumb (spec/30_encoding.md section 5)
  | tLslImm (amount : BitVec 5) (rs rd : LowReg)
  | tLsrImm (amount : BitVec 5) (rs rd : LowReg)
  | tAsrImm (amount : BitVec 5) (rs rd : LowReg)
  | tAddReg (rn rs rd : LowReg)
  | tSubReg (rn rs rd : LowReg)
  | tAddImm3 (imm3 : BitVec 3) (rs rd : LowReg)
  | tSubImm3 (imm3 : BitVec 3) (rs rd : LowReg)
  | tMovImm8 (rd : LowReg) (imm8 : BitVec 8)
  | tCmpImm8 (rd : LowReg) (imm8 : BitVec 8)
  | tAddImm8 (rd : LowReg) (imm8 : BitVec 8)
  | tSubImm8 (rd : LowReg) (imm8 : BitVec 8)
  | tAnd (rs rd : LowReg)
  | tEor (rs rd : LowReg)
  | tLslReg (rs rd : LowReg)
  | tLsrReg (rs rd : LowReg)
  | tAsrReg (rs rd : LowReg)
  | tAdc (rs rd : LowReg)
  | tSbc (rs rd : LowReg)
  | tRorReg (rs rd : LowReg)
  | tTst (rs rd : LowReg)
  | tNeg (rs rd : LowReg)
  | tCmpReg (rs rd : LowReg)
  | tCmn (rs rd : LowReg)
  | tOrr (rs rd : LowReg)
  | tMul (rs rd : LowReg)
  | tBic (rs rd : LowReg)
  | tMvn (rs rd : LowReg)
  | tAddHi (rs rd : Reg)
  | tCmpHi (rs rd : Reg)
  | tMovHi (rs rd : Reg)
  | tBx (rs : Reg) (sbz : BitVec 3)
  | tBlxReg (rs : Reg) (sbz : BitVec 3)
  | tLdrPc (rd : LowReg) (word8 : BitVec 8)
  | tStrReg (ro rb rd : LowReg)
  | tStrbReg (ro rb rd : LowReg)
  | tLdrReg (ro rb rd : LowReg)
  | tLdrbReg (ro rb rd : LowReg)
  | tStrhReg (ro rb rd : LowReg)
  | tLdrhReg (ro rb rd : LowReg)
  | tLdsbReg (ro rb rd : LowReg)
  | tLdshReg (ro rb rd : LowReg)
  | tStrImm (offset5 : BitVec 5) (rb rd : LowReg)
  | tLdrImm (offset5 : BitVec 5) (rb rd : LowReg)
  | tStrbImm (offset5 : BitVec 5) (rb rd : LowReg)
  | tLdrbImm (offset5 : BitVec 5) (rb rd : LowReg)
  | tStrhImm (offset5 : BitVec 5) (rb rd : LowReg)
  | tLdrhImm (offset5 : BitVec 5) (rb rd : LowReg)
  | tStrSp (rd : LowReg) (word8 : BitVec 8)
  | tLdrSp (rd : LowReg) (word8 : BitVec 8)
  | tAddPc (rd : LowReg) (word8 : BitVec 8)
  | tAddSp (rd : LowReg) (word8 : BitVec 8)
  | tIncSp (sword7 : BitVec 7)
  | tDecSp (sword7 : BitVec 7)
  | tPush (lr : Bool) (list : BitVec 8)
  | tPop (pc : Bool) (list : BitVec 8)
  | tStmia (rb : LowReg) (list : BitVec 8)
  | tLdmia (rb : LowReg) (list : BitVec 8)
  | tBeq (soffset8 : BitVec 8)
  | tBne (soffset8 : BitVec 8)
  | tBcs (soffset8 : BitVec 8)
  | tBcc (soffset8 : BitVec 8)
  | tBmi (soffset8 : BitVec 8)
  | tBpl (soffset8 : BitVec 8)
  | tBvs (soffset8 : BitVec 8)
  | tBvc (soffset8 : BitVec 8)
  | tBhi (soffset8 : BitVec 8)
  | tBls (soffset8 : BitVec 8)
  | tBge (soffset8 : BitVec 8)
  | tBlt (soffset8 : BitVec 8)
  | tBgt (soffset8 : BitVec 8)
  | tBle (soffset8 : BitVec 8)
  | tUndefCond (bits : BitVec 8)
  | tSwi (value8 : BitVec 8)
  | tB (offset11 : BitVec 11)
  | tBlxLow (offset11 : BitVec 11)
  | tBlHigh (offset11 : BitVec 11)
  | tBlLow (offset11 : BitVec 11)
  | tUndefB1 (bits : BitVec 8)
  | tUndefB2 (bits : BitVec 9)
  | tUndefB6 (bits : BitVec 9)
  | tUndefB8 (bits : BitVec 10)
  | tUndefBE (bits : BitVec 9)
deriving DecidableEq, Repr

end Sys2Proof
end

