-- ==== Sys2Proof/WellFormed.lean ====
section
/-! DEFINITION. WellFormed.lean: which terms of Instr are instructions. The types bound every register number and
immediate already; what is left are the selections of spec/30_encoding.md R152, R163, R164 and R168 that tell two rows
of the opcode table apart by the values of the same bits. -/

namespace Sys2Proof

/-- Row 5u of R152 (R168): bits 27:25 = 000, bit 7 = 1, bit 4 = 1, and the low 28 bits are no multiply (row 3a), long
multiply (3b), swap (4) or halfword transfer (5a, 5b). -/
def isUndefMul (x : Nat) : Bool :=
  x / 2^25 % 2^3 == 0 && x / 2^7 % 2 == 1 && x / 2^4 % 2 == 1
  && !(x / 2^22 % 2^6 == 0 && x / 2^4 % 2^4 == 9)
  && !(x / 2^23 % 2^5 == 1 && x / 2^4 % 2^4 == 9)
  && !(x / 2^23 % 2^5 == 2 && x / 2^20 % 2^2 == 0 && x / 2^4 % 2^8 == 9)
  && !(x / 2^5 % 2^2 != 0 && !(x / 2^20 % 2 == 0 && x / 2^6 % 2 == 1)
        && (x / 2^22 % 2 == 1 || x / 2^8 % 2^4 == 0))

/-- Row 6u of R152 (R168): a comparison opcode (bits 27:26 = 00, bits 24:23 = 10) without S that is not in the space of
row 5u and is no BX (row 1), MRS (2a) or MSR (2b, 2c). -/
def isUndefCompare (x : Nat) : Bool :=
  x / 2^26 % 2^2 == 0 && x / 2^23 % 2^2 == 2 && x / 2^20 % 2 == 0
  && !(x / 2^25 % 2 == 0 && x / 2^7 % 2 == 1 && x / 2^4 % 2 == 1)
  && !(x / 2^4 % 2^24 == 0x12FFF1)
  && !(x / 2^23 % 2^5 == 2 && x / 2^16 % 2^6 == 15 && x % 2^12 == 0)
  && !(x / 2^23 % 2^5 == 2 && x / 2^20 % 2^2 == 2 && x / 2^4 % 2^12 == 0xF00)
  && !(x / 2^23 % 2^5 == 6 && x / 2^20 % 2^2 == 2 && x / 2^12 % 2^4 == 15)

/-- Row 7u of R152 (R168): a register-offset transfer (bits 27:25 = 011) with bit 4 set. -/
def isUndefTransfer (x : Nat) : Bool :=
  x / 2^25 % 2^3 == 3 && x / 2^4 % 2 == 1

/-- The term is the instruction of some word. -/
def Instr.wf : Instr → Bool
  | .undefMul _ bits => isUndefMul bits.toNat
  | .undefCompare _ bits => isUndefCompare bits.toNat
  | .undefTransfer _ bits => isUndefTransfer bits.toNat
  -- P = 0 with W = 1 is the T form (R163), a row of its own
  | .ldr _ p _ w _ _ _ | .str _ p _ w _ _ _ | .ldrb _ p _ w _ _ _ | .strb _ p _ w _ _ _ => p || !w
  -- S = 1 with L = 1 is the exception return exactly when the list names R15 (R373, R374)
  | .ldmRet _ _ _ _ _ list => list.getLsbD 15
  | .ldmUser _ _ _ _ _ list => !list.getLsbD 15
  | _ => true

end Sys2Proof
end

