-- ==== Sys2Proof/Decode.lean ====
section
/-! DEFINITION. Decode.lean: the decoder of spec/30_encoding.md, total on words (R152: every 32-bit word matches some
row; R199), rejecting by name only bytes that are too few to be an instruction, and the encoder written from the same
tables. -/

namespace Sys2Proof

/-- The field of `len` bits of `w` that begins at bit `lo` (R12: `w[lo+len-1:lo]`). -/
def fld (w lo len : Nat) : Nat := w / 2^lo % 2^len

/-- Bit `i` of `w`. -/
def bit (w i : Nat) : Bool := fld w i 1 == 1

/-- The register named by the four bits at `lo`. -/
def regAt (w lo : Nat) : Reg := Fin.ofNat 16 (fld w lo 4)

/-- The low register named by the three bits at `lo`. -/
def lowAt (w lo : Nat) : LowReg := Fin.ofNat 8 (fld w lo 3)

/-- The `len` bits at `lo` as a bit vector. -/
def bvAt (w lo len : Nat) : BitVec len := BitVec.ofNat len (fld w lo len)

/-! ## Codes of the small enumerations -/

/-- The condition code of R201. -/
def Cond.code : Cond → Nat
  | .eq => 0 | .ne => 1 | .cs => 2 | .cc => 3 | .mi => 4 | .pl => 5 | .vs => 6 | .vc => 7
  | .hi => 8 | .ls => 9 | .ge => 10 | .lt => 11 | .gt => 12 | .le => 13 | .al => 14

/-- The condition with a code; none is the code 0xF, "never". -/
def Cond.ofCode : Nat → Option Cond
  | 0 => some .eq | 1 => some .ne | 2 => some .cs | 3 => some .cc | 4 => some .mi | 5 => some .pl
  | 6 => some .vs | 7 => some .vc | 8 => some .hi | 9 => some .ls | 10 => some .ge | 11 => some .lt
  | 12 => some .gt | 13 => some .le | 14 => some .al | _ => none

/-- The shift type field of R162. -/
def ShiftTy.code : ShiftTy → Nat
  | .lsl => 0 | .lsr => 1 | .asr => 2 | .ror => 3

/-- The shift type with a two-bit code. -/
def ShiftTy.ofCode : Nat → ShiftTy
  | 0 => .lsl | 1 => .lsr | 2 => .asr | _ => .ror

/-! ## ARM decoder (R152) -/

/-- Operand 2 by bit 25 (I) and bit 4 (R161, R162). -/
def decodeOp2 (w : Nat) : Op2 :=
  if bit w 25 then .imm (bvAt w 8 4) (bvAt w 0 8)
  else if bit w 4 then .shiftReg (regAt w 0) (ShiftTy.ofCode (fld w 5 2)) (regAt w 8)
  else .shiftImm (regAt w 0) (ShiftTy.ofCode (fld w 5 2)) (bvAt w 7 5)

/-- The sixteen data-processing instructions, row 6 (R160). -/
def decodeDataProcessing (c : Cond) (w : Nat) : Instr :=
  match fld w 21 4 with
  | 0 => .and c (bit w 20) (regAt w 16) (regAt w 12) (decodeOp2 w)
  | 1 => .eor c (bit w 20) (regAt w 16) (regAt w 12) (decodeOp2 w)
  | 2 => .sub c (bit w 20) (regAt w 16) (regAt w 12) (decodeOp2 w)
  | 3 => .rsb c (bit w 20) (regAt w 16) (regAt w 12) (decodeOp2 w)
  | 4 => .add c (bit w 20) (regAt w 16) (regAt w 12) (decodeOp2 w)
  | 5 => .adc c (bit w 20) (regAt w 16) (regAt w 12) (decodeOp2 w)
  | 6 => .sbc c (bit w 20) (regAt w 16) (regAt w 12) (decodeOp2 w)
  | 7 => .rsc c (bit w 20) (regAt w 16) (regAt w 12) (decodeOp2 w)
  | 8 => .tst c (regAt w 16) (bvAt w 12 4) (decodeOp2 w)
  | 9 => .teq c (regAt w 16) (bvAt w 12 4) (decodeOp2 w)
  | 10 => .cmp c (regAt w 16) (bvAt w 12 4) (decodeOp2 w)
  | 11 => .cmn c (regAt w 16) (bvAt w 12 4) (decodeOp2 w)
  | 12 => .orr c (bit w 20) (regAt w 16) (regAt w 12) (decodeOp2 w)
  | 13 => .mov c (bit w 20) (bvAt w 16 4) (regAt w 12) (decodeOp2 w)
  | 14 => .bic c (bit w 20) (regAt w 16) (regAt w 12) (decodeOp2 w)
  | _ => .mvn c (bit w 20) (bvAt w 16 4) (regAt w 12) (decodeOp2 w)

/-- The halfword and signed transfers, rows 5a and 5b (R158): the caller has seen that SH ≠ 00 and that a store has
SH = 01, and for the register form that bits 11:8 are 0. -/
def decodeHalfword (c : Cond) (w : Nat) : Instr :=
  let p := bit w 24
  let u := bit w 23
  let wb := bit w 21
  let rn := regAt w 16
  let rd := regAt w 12
  let rm := regAt w 0
  let imm8 := BitVec.ofNat 8 (fld w 8 4 * 2^4 + fld w 0 4)
  match bit w 22, bit w 20, fld w 5 2 with
  | false, false, _ => .strhReg c p u wb rn rd rm
  | true, false, _ => .strhImm c p u wb rn rd imm8
  | false, true, 1 => .ldrhReg c p u wb rn rd rm
  | true, true, 1 => .ldrhImm c p u wb rn rd imm8
  | false, true, 2 => .ldrsbReg c p u wb rn rd rm
  | true, true, 2 => .ldrsbImm c p u wb rn rd imm8
  | false, true, _ => .ldrshReg c p u wb rn rd rm
  | true, true, _ => .ldrshImm c p u wb rn rd imm8

/-- Rows 3a to 5u: bits 27:25 = 000, bit 7 = 1, bit 4 = 1. -/
def decodeExtra (c : Cond) (w : Nat) : Instr :=
  if fld w 22 6 = 0 ∧ fld w 4 4 = 9 then
    if bit w 21 then .mla c (bit w 20) (regAt w 16) (regAt w 12) (regAt w 8) (regAt w 0)
    else .mul c (bit w 20) (regAt w 16) (bvAt w 12 4) (regAt w 8) (regAt w 0)
  else if fld w 23 5 = 1 ∧ fld w 4 4 = 9 then
    match bit w 22, bit w 21 with
    | false, false => .umull c (bit w 20) (regAt w 16) (regAt w 12) (regAt w 8) (regAt w 0)
    | false, true => .umlal c (bit w 20) (regAt w 16) (regAt w 12) (regAt w 8) (regAt w 0)
    | true, false => .smull c (bit w 20) (regAt w 16) (regAt w 12) (regAt w 8) (regAt w 0)
    | true, true => .smlal c (bit w 20) (regAt w 16) (regAt w 12) (regAt w 8) (regAt w 0)
  else if fld w 23 5 = 2 ∧ fld w 20 2 = 0 ∧ fld w 4 8 = 9 then
    if bit w 22 then .swpb c (regAt w 16) (regAt w 12) (regAt w 0)
    else .swp c (regAt w 16) (regAt w 12) (regAt w 0)
  else if fld w 5 2 ≠ 0 ∧ ¬ (fld w 20 1 = 0 ∧ fld w 6 1 = 1) ∧ (fld w 22 1 = 1 ∨ fld w 8 4 = 0) then
    decodeHalfword c w
  else .undefMul c (bvAt w 0 28)

/-- Rows 1, 2a, 2b, 6u and 6 with bits 27:25 = 000, after rows 3a to 5u (which no word of rows 1 to 2b matches). -/
def decodeRegisterForm (c : Cond) (w : Nat) : Instr :=
  if fld w 4 24 = 0x12FFF1 then .bx c (regAt w 0)
  else if fld w 23 5 = 2 ∧ fld w 16 6 = 15 ∧ fld w 0 12 = 0 then .mrs c (bit w 22) (regAt w 12)
  else if fld w 23 5 = 2 ∧ fld w 20 2 = 2 ∧ fld w 4 12 = 0xF00 then
    .msrReg c (bit w 22) (bvAt w 16 4) (regAt w 0)
  else if fld w 23 2 = 2 ∧ fld w 20 1 = 0 then .undefCompare c (bvAt w 0 28)
  else decodeDataProcessing c w

/-- Rows 2c, 6u and 6 with bits 27:25 = 001. -/
def decodeImmediateForm (c : Cond) (w : Nat) : Instr :=
  if fld w 23 5 = 6 ∧ fld w 20 2 = 2 ∧ fld w 12 4 = 15 then
    .msrImm c (bit w 22) (bvAt w 16 4) (bvAt w 8 4) (bvAt w 0 8)
  else if fld w 23 2 = 2 ∧ fld w 20 1 = 0 then .undefCompare c (bvAt w 0 28)
  else decodeDataProcessing c w

/-- The offset of a single data transfer; I = 0 is the immediate (R163). -/
def decodeOffset (w : Nat) : Offset :=
  if bit w 25 then .reg (regAt w 0) (ShiftTy.ofCode (fld w 5 2)) (bvAt w 7 5)
  else .imm (bvAt w 0 12)

/-- Row 7 (R163); P = 0 with W = 1 selects the T forms. -/
def decodeTransfer (c : Cond) (w : Nat) : Instr :=
  let p := bit w 24
  let u := bit w 23
  let wb := bit w 21
  let rn := regAt w 16
  let rd := regAt w 12
  let off := decodeOffset w
  if p = false ∧ wb = true then
    match bit w 22, bit w 20 with
    | false, true => .ldrt c u rn rd off
    | false, false => .strt c u rn rd off
    | true, true => .ldrbt c u rn rd off
    | true, false => .strbt c u rn rd off
  else
    match bit w 22, bit w 20 with
    | false, true => .ldr c p u wb rn rd off
    | false, false => .str c p u wb rn rd off
    | true, true => .ldrb c p u wb rn rd off
    | true, false => .strb c p u wb rn rd off

/-- Row 8 (R164); S = 1 selects the exception return (R15 loaded) or the user bank (R373, R374). -/
def decodeBlock (c : Cond) (w : Nat) : Instr :=
  let p := bit w 24
  let u := bit w 23
  let wb := bit w 21
  let rn := regAt w 16
  let list : BitVec 16 := bvAt w 0 16
  match bit w 22, bit w 20 with
  | true, true => if bit w 15 then .ldmRet c p u wb rn list else .ldmUser c p u wb rn list
  | true, false => .stmUser c p u wb rn list
  | false, true => .ldm c p u wb rn list
  | false, false => .stm c p u wb rn list

/-- Row 11a (R167). -/
def decodeCoprocessorTransfer (c : Cond) (w : Nat) : Instr :=
  if bit w 20 then
    .ldc c (bit w 24) (bit w 23) (bit w 22) (bit w 21) (regAt w 16) (bvAt w 12 4) (bvAt w 8 4) (bvAt w 0 8)
  else
    .stc c (bit w 24) (bit w 23) (bit w 22) (bit w 21) (regAt w 16) (bvAt w 12 4) (bvAt w 8 4) (bvAt w 0 8)

/-- Rows 10, 11b and 11c: bits 27:25 = 111 (R166, R167). -/
def decodeSwiCoprocessor (c : Cond) (w : Nat) : Instr :=
  if bit w 24 then .swi c (bvAt w 0 24)
  else if bit w 4 = false then
    .cdp c (bvAt w 20 4) (bvAt w 16 4) (bvAt w 12 4) (bvAt w 8 4) (bvAt w 5 3) (bvAt w 0 4)
  else if bit w 20 then
    .mrc c (bvAt w 21 3) (bvAt w 16 4) (regAt w 12) (bvAt w 8 4) (bvAt w 5 3) (bvAt w 0 4)
  else
    .mcr c (bvAt w 21 3) (bvAt w 16 4) (regAt w 12) (bvAt w 8 4) (bvAt w 5 3) (bvAt w 0 4)

/-- The class of an ARM word whose condition is not 0xF. The priority order of R152 matters inside bits 27:26 = 00 and
01 only, where the functions above test the rows in that order. -/
def decodeArmClass (c : Cond) (w : Nat) : Instr :=
  match fld w 25 3 with
  | 0 => if bit w 7 = true ∧ bit w 4 = true then decodeExtra c w else decodeRegisterForm c w
  | 1 => decodeImmediateForm c w
  | 2 => decodeTransfer c w
  | 3 => if bit w 4 then .undefTransfer c (bvAt w 0 28) else decodeTransfer c w
  | 4 => decodeBlock c w
  | 5 => if bit w 24 then .bl c (bvAt w 0 24) else .b c (bvAt w 0 24)
  | 6 => decodeCoprocessorTransfer c w
  | _ => decodeSwiCoprocessor c w

/-- The instruction of a 32-bit ARM word (R151, R152, R169). -/
def decodeArm (w : Nat) : Instr :=
  match Cond.ofCode (fld w 28 4) with
  | none => .armNever (bvAt w 0 28)
  | some c => decodeArmClass c w

/-! ## Thumb decoder (R199, formats R180 to R198) -/

/-- Format 4, ALU operations (R183). -/
def decodeThumbAlu (w : Nat) : Instr :=
  let rs := lowAt w 3
  let rd := lowAt w 0
  match fld w 6 4 with
  | 0 => .tAnd rs rd | 1 => .tEor rs rd | 2 => .tLslReg rs rd | 3 => .tLsrReg rs rd
  | 4 => .tAsrReg rs rd | 5 => .tAdc rs rd | 6 => .tSbc rs rd | 7 => .tRorReg rs rd
  | 8 => .tTst rs rd | 9 => .tNeg rs rd | 10 => .tCmpReg rs rd | 11 => .tCmn rs rd
  | 12 => .tOrr rs rd | 13 => .tMul rs rd | 14 => .tBic rs rd | _ => .tMvn rs rd

/-- Format 5, hi-register operations and branch exchange (R184): H1 and H2 are the high bits of the numbers. -/
def decodeThumbHigh (w : Nat) : Instr :=
  let rs := regAt w 3
  let rd : Reg := Fin.ofNat 16 (fld w 7 1 * 8 + fld w 0 3)
  match fld w 8 2 with
  | 0 => .tAddHi rs rd
  | 1 => .tCmpHi rs rd
  | 2 => .tMovHi rs rd
  | _ => if bit w 7 then .tBlxReg rs (bvAt w 0 3) else .tBx rs (bvAt w 0 3)

/-- Formats 1 and 2 (R180, R181): op 11 of format 1 is format 2. -/
def decodeThumbShift (w : Nat) : Instr :=
  match fld w 11 2 with
  | 0 => .tLslImm (bvAt w 6 5) (lowAt w 3) (lowAt w 0)
  | 1 => .tLsrImm (bvAt w 6 5) (lowAt w 3) (lowAt w 0)
  | 2 => .tAsrImm (bvAt w 6 5) (lowAt w 3) (lowAt w 0)
  | _ =>
    match fld w 9 2 with
    | 0 => .tAddReg (lowAt w 6) (lowAt w 3) (lowAt w 0)
    | 1 => .tSubReg (lowAt w 6) (lowAt w 3) (lowAt w 0)
    | 2 => .tAddImm3 (bvAt w 6 3) (lowAt w 3) (lowAt w 0)
    | _ => .tSubImm3 (bvAt w 6 3) (lowAt w 3) (lowAt w 0)

/-- Format 3 (R182). -/
def decodeThumbImm8 (w : Nat) : Instr :=
  match fld w 11 2 with
  | 0 => .tMovImm8 (lowAt w 8) (bvAt w 0 8)
  | 1 => .tCmpImm8 (lowAt w 8) (bvAt w 0 8)
  | 2 => .tAddImm8 (lowAt w 8) (bvAt w 0 8)
  | _ => .tSubImm8 (lowAt w 8) (bvAt w 0 8)

/-- Formats 7 and 8 (R186, R187): bits 11:9 are L B 0 or H S 1. -/
def decodeThumbRegOffset (w : Nat) : Instr :=
  let ro := lowAt w 6
  let rb := lowAt w 3
  let rd := lowAt w 0
  match fld w 9 3 with
  | 0 => .tStrReg ro rb rd
  | 1 => .tStrhReg ro rb rd
  | 2 => .tStrbReg ro rb rd
  | 3 => .tLdsbReg ro rb rd
  | 4 => .tLdrReg ro rb rd
  | 5 => .tLdrhReg ro rb rd
  | 6 => .tLdrbReg ro rb rd
  | _ => .tLdshReg ro rb rd

/-- Format 9 (R188): bits 12:11 are B L. -/
def decodeThumbImmOffset (w : Nat) : Instr :=
  match fld w 11 2 with
  | 0 => .tStrImm (bvAt w 6 5) (lowAt w 3) (lowAt w 0)
  | 1 => .tLdrImm (bvAt w 6 5) (lowAt w 3) (lowAt w 0)
  | 2 => .tStrbImm (bvAt w 6 5) (lowAt w 3) (lowAt w 0)
  | _ => .tLdrbImm (bvAt w 6 5) (lowAt w 3) (lowAt w 0)

/-- Bits 15:12 = 1011: formats 13 and 14 (R192, R193) and the unassigned space (R199). -/
def decodeThumbMisc (w : Nat) : Instr :=
  match fld w 8 4 with
  | 0 => if bit w 7 then .tDecSp (bvAt w 0 7) else .tIncSp (bvAt w 0 7)
  | 1 => .tUndefB1 (bvAt w 0 8)
  | 2 => .tUndefB2 (bvAt w 0 9)
  | 3 => .tUndefB2 (bvAt w 0 9)
  | 4 => .tPush false (bvAt w 0 8)
  | 5 => .tPush true (bvAt w 0 8)
  | 6 => .tUndefB6 (bvAt w 0 9)
  | 7 => .tUndefB6 (bvAt w 0 9)
  | 12 => .tPop false (bvAt w 0 8)
  | 13 => .tPop true (bvAt w 0 8)
  | 14 => .tUndefBE (bvAt w 0 9)
  | 15 => .tUndefBE (bvAt w 0 9)
  | _ => .tUndefB8 (bvAt w 0 10)

/-- Formats 16 and 17 (R195, R196) and the undefined condition 14. -/
def decodeThumbCond (w : Nat) : Instr :=
  let o : BitVec 8 := bvAt w 0 8
  match fld w 8 4 with
  | 0 => .tBeq o | 1 => .tBne o | 2 => .tBcs o | 3 => .tBcc o | 4 => .tBmi o | 5 => .tBpl o
  | 6 => .tBvs o | 7 => .tBvc o | 8 => .tBhi o | 9 => .tBls o | 10 => .tBge o | 11 => .tBlt o
  | 12 => .tBgt o | 13 => .tBle o | 14 => .tUndefCond o | _ => .tSwi o

/-- The instruction of a 16-bit Thumb halfword. -/
def decodeThumb (w : Nat) : Instr :=
  match fld w 12 4 with
  | 0 => decodeThumbShift w
  | 1 => decodeThumbShift w
  | 2 => decodeThumbImm8 w
  | 3 => decodeThumbImm8 w
  | 4 =>
    match fld w 10 2 with
    | 0 => decodeThumbAlu w
    | 1 => decodeThumbHigh w
    | _ => .tLdrPc (lowAt w 8) (bvAt w 0 8)
  | 5 => decodeThumbRegOffset w
  | 6 => decodeThumbImmOffset w
  | 7 => decodeThumbImmOffset w
  | 8 => if bit w 11 then .tLdrhImm (bvAt w 6 5) (lowAt w 3) (lowAt w 0)
         else .tStrhImm (bvAt w 6 5) (lowAt w 3) (lowAt w 0)
  | 9 => if bit w 11 then .tLdrSp (lowAt w 8) (bvAt w 0 8) else .tStrSp (lowAt w 8) (bvAt w 0 8)
  | 10 => if bit w 11 then .tAddSp (lowAt w 8) (bvAt w 0 8) else .tAddPc (lowAt w 8) (bvAt w 0 8)
  | 11 => decodeThumbMisc w
  | 12 => if bit w 11 then .tLdmia (lowAt w 8) (bvAt w 0 8) else .tStmia (lowAt w 8) (bvAt w 0 8)
  | 13 => decodeThumbCond w
  | 14 => if bit w 11 then .tBlxLow (bvAt w 0 11) else .tB (bvAt w 0 11)
  | _ => if bit w 11 then .tBlLow (bvAt w 0 11) else .tBlHigh (bvAt w 0 11)

/-! ## Decoding bytes -/

/-- Why bytes are no instruction. Every complete word is one (R152, R199), so only a shortage of bytes is left. -/
inductive DecodeError where
  | truncatedArm    -- fewer than four bytes in ARM state
  | truncatedThumb  -- fewer than two bytes in Thumb state
deriving DecidableEq, Repr

/-- The instruction set in use, CPSR bit 5, alone tells the length (R150); the bytes are little-endian (R89). Answers
the instruction and the bytes after it. -/
def decode (thumb : Bool) (bytes : List Byte) : Except DecodeError (Instr × List Byte) :=
  if thumb then
    match bytes with
    | b0 :: b1 :: rest => .ok (decodeThumb (b0.toNat + 2^8 * b1.toNat), rest)
    | _ => .error .truncatedThumb
  else
    match bytes with
    | b0 :: b1 :: b2 :: b3 :: rest =>
      .ok (decodeArm (b0.toNat + 2^8 * b1.toNat + 2^16 * b2.toNat + 2^24 * b3.toNat), rest)
    | _ => .error .truncatedArm

/-! ## Encoder -/

/-- True for the instructions of Thumb state. -/
def Instr.isThumb : Instr → Bool
  | .tLslImm .. | .tLsrImm .. | .tAsrImm .. | .tAddReg .. | .tSubReg .. | .tAddImm3 .. | .tSubImm3 ..
  | .tMovImm8 .. | .tCmpImm8 .. | .tAddImm8 .. | .tSubImm8 .. | .tAnd .. | .tEor .. | .tLslReg .. | .tLsrReg ..
  | .tAsrReg .. | .tAdc .. | .tSbc .. | .tRorReg .. | .tTst .. | .tNeg .. | .tCmpReg .. | .tCmn .. | .tOrr ..
  | .tMul .. | .tBic .. | .tMvn .. | .tAddHi .. | .tCmpHi .. | .tMovHi .. | .tBx .. | .tBlxReg .. | .tLdrPc ..
  | .tStrReg .. | .tStrbReg .. | .tLdrReg .. | .tLdrbReg .. | .tStrhReg .. | .tLdrhReg .. | .tLdsbReg ..
  | .tLdshReg .. | .tStrImm .. | .tLdrImm .. | .tStrbImm .. | .tLdrbImm .. | .tStrhImm .. | .tLdrhImm ..
  | .tStrSp .. | .tLdrSp .. | .tAddPc .. | .tAddSp .. | .tIncSp .. | .tDecSp .. | .tPush .. | .tPop ..
  | .tStmia .. | .tLdmia .. | .tBeq .. | .tBne .. | .tBcs .. | .tBcc .. | .tBmi .. | .tBpl .. | .tBvs ..
  | .tBvc .. | .tBhi .. | .tBls .. | .tBge .. | .tBlt .. | .tBgt .. | .tBle .. | .tUndefCond .. | .tSwi ..
  | .tB .. | .tBlxLow .. | .tBlHigh .. | .tBlLow .. | .tUndefB1 .. | .tUndefB2 .. | .tUndefB6 ..
  | .tUndefB8 .. | .tUndefBE .. => true
  | _ => false

/-- Bits 25 and 11:0 of a data-processing word (R161, R162). -/
def Op2.encode : Op2 → Nat
  | .imm rotate imm8 => 2^25 + rotate.toNat * 2^8 + imm8.toNat
  | .shiftImm rm ty amount => amount.toNat * 2^7 + ty.code * 2^5 + rm.val
  | .shiftReg rm ty rs => rs.val * 2^8 + ty.code * 2^5 + 2^4 + rm.val

/-- Bits 25 and 11:0 of a single data transfer (R163). -/
def Offset.encode : Offset → Nat
  | .imm imm12 => imm12.toNat
  | .reg rm ty amount => 2^25 + amount.toNat * 2^7 + ty.code * 2^5 + rm.val

/-- A data-processing word (R160). -/
def encodeDp (c : Cond) (opcode : Nat) (s : Bool) (rn rd : Nat) (op2 : Op2) : Nat :=
  c.code * 2^28 + opcode * 2^21 + s.toNat * 2^20 + rn * 2^16 + rd * 2^12 + op2.encode

/-- A multiply word (R155, R156); `kind` is bits 27:21. -/
def encodeMul (c : Cond) (kind : Nat) (s : Bool) (r19 r15 r11 r3 : Nat) : Nat :=
  c.code * 2^28 + kind * 2^21 + s.toNat * 2^20 + r19 * 2^16 + r15 * 2^12 + r11 * 2^8 + 9 * 2^4 + r3

/-- The P, U, W bits, Rn and Rd, where R158 and R163 put them. -/
def encodeAddr (c : Cond) (p u w : Bool) (rn rd : Nat) : Nat :=
  c.code * 2^28 + p.toNat * 2^24 + u.toNat * 2^23 + w.toNat * 2^21 + rn * 2^16 + rd * 2^12

/-- A halfword or signed transfer with a register offset (R158); `lsh` is L·2^20 + SH·2^5. -/
def encodeHalfReg (c : Cond) (lsh : Nat) (p u w : Bool) (rn rd rm : Nat) : Nat :=
  encodeAddr c p u w rn rd + lsh + 9 * 2^4 + rm

/-- The same with an immediate offset, split over bits 11:8 and 3:0. -/
def encodeHalfImm (c : Cond) (lsh : Nat) (p u w : Bool) (rn rd imm8 : Nat) : Nat :=
  encodeAddr c p u w rn rd + lsh + 2^22 + imm8 / 2^4 * 2^8 + 9 * 2^4 + imm8 % 2^4

/-- A single data transfer (R163); `bl` is B·2^22 + L·2^20. -/
def encodeTransfer (c : Cond) (bl : Nat) (p u w : Bool) (rn rd : Nat) (off : Offset) : Nat :=
  encodeAddr c p u w rn rd + 2^26 + bl + off.encode

/-- A block data transfer (R164); `sl` is S·2^22 + L·2^20. -/
def encodeBlock (c : Cond) (sl : Nat) (p u w : Bool) (rn list : Nat) : Nat :=
  c.code * 2^28 + 2^27 + p.toNat * 2^24 + u.toNat * 2^23 + w.toNat * 2^21 + sl + rn * 2^16 + list

/-- LDC and STC (R167); `l` is L·2^20. -/
def encodeLdc (c : Cond) (l : Nat) (p u n w : Bool) (rn crd cp offset8 : Nat) : Nat :=
  c.code * 2^28 + 6 * 2^25 + p.toNat * 2^24 + u.toNat * 2^23 + n.toNat * 2^22 + w.toNat * 2^21 + l
    + rn * 2^16 + crd * 2^12 + cp * 2^8 + offset8

/-- MRC and MCR (R167); `l` is L·2^20. -/
def encodeMrc (c : Cond) (l opc1 crn rd cp opc2 crm : Nat) : Nat :=
  c.code * 2^28 + 14 * 2^24 + opc1 * 2^21 + l + crn * 2^16 + rd * 2^12 + cp * 2^8 + opc2 * 2^5 + 2^4 + crm

/-- A Thumb word made of a leading code and three low-register fields, or a field above two of them. -/
def encodeThumb3 (code a rs rd : Nat) : Nat := code + a * 2^6 + rs * 2^3 + rd

/-- A Thumb word made of a leading code, a low register in bits 10:8 and eight bits. -/
def encodeThumb8 (code rd imm8 : Nat) : Nat := code + rd * 2^8 + imm8

/-- A Thumb hi-register word (R184). -/
def encodeThumbHi (code : Nat) (rs rd : Reg) : Nat := code + rd.val / 2^3 * 2^7 + rs.val * 2^3 + rd.val % 2^3

/-- The word of an instruction: 32 bits for ARM, 16 for Thumb. -/
def encodeWord : Instr → Nat
  | .armNever bits => 15 * 2^28 + bits.toNat
  | .bx c rm => c.code * 2^28 + 0x012FFF10 + rm.val
  | .mrs c ps rd => c.code * 2^28 + 0x010F0000 + ps.toNat * 2^22 + rd.val * 2^12
  | .msrReg c pd fields rm => c.code * 2^28 + 0x0120F000 + pd.toNat * 2^22 + fields.toNat * 2^16 + rm.val
  | .msrImm c pd fields rotate imm8 =>
    c.code * 2^28 + 0x0320F000 + pd.toNat * 2^22 + fields.toNat * 2^16 + rotate.toNat * 2^8 + imm8.toNat
  | .mul c s rd sbz rs rm => encodeMul c 0 s rd.val sbz.toNat rs.val rm.val
  | .mla c s rd rn rs rm => encodeMul c 1 s rd.val rn.val rs.val rm.val
  | .umull c s hi lo rs rm => encodeMul c 4 s hi.val lo.val rs.val rm.val
  | .umlal c s hi lo rs rm => encodeMul c 5 s hi.val lo.val rs.val rm.val
  | .smull c s hi lo rs rm => encodeMul c 6 s hi.val lo.val rs.val rm.val
  | .smlal c s hi lo rs rm => encodeMul c 7 s hi.val lo.val rs.val rm.val
  | .swp c rn rd rm => c.code * 2^28 + 0x01000090 + rn.val * 2^16 + rd.val * 2^12 + rm.val
  | .swpb c rn rd rm => c.code * 2^28 + 0x01400090 + rn.val * 2^16 + rd.val * 2^12 + rm.val
  | .ldrhReg c p u w rn rd rm => encodeHalfReg c (2^20 + 1 * 2^5) p u w rn.val rd.val rm.val
  | .ldrhImm c p u w rn rd i => encodeHalfImm c (2^20 + 1 * 2^5) p u w rn.val rd.val i.toNat
  | .strhReg c p u w rn rd rm => encodeHalfReg c (1 * 2^5) p u w rn.val rd.val rm.val
  | .strhImm c p u w rn rd i => encodeHalfImm c (1 * 2^5) p u w rn.val rd.val i.toNat
  | .ldrsbReg c p u w rn rd rm => encodeHalfReg c (2^20 + 2 * 2^5) p u w rn.val rd.val rm.val
  | .ldrsbImm c p u w rn rd i => encodeHalfImm c (2^20 + 2 * 2^5) p u w rn.val rd.val i.toNat
  | .ldrshReg c p u w rn rd rm => encodeHalfReg c (2^20 + 3 * 2^5) p u w rn.val rd.val rm.val
  | .ldrshImm c p u w rn rd i => encodeHalfImm c (2^20 + 3 * 2^5) p u w rn.val rd.val i.toNat
  | .undefMul c bits => c.code * 2^28 + bits.toNat
  | .undefCompare c bits => c.code * 2^28 + bits.toNat
  | .and c s rn rd op2 => encodeDp c 0 s rn.val rd.val op2
  | .eor c s rn rd op2 => encodeDp c 1 s rn.val rd.val op2
  | .sub c s rn rd op2 => encodeDp c 2 s rn.val rd.val op2
  | .rsb c s rn rd op2 => encodeDp c 3 s rn.val rd.val op2
  | .add c s rn rd op2 => encodeDp c 4 s rn.val rd.val op2
  | .adc c s rn rd op2 => encodeDp c 5 s rn.val rd.val op2
  | .sbc c s rn rd op2 => encodeDp c 6 s rn.val rd.val op2
  | .rsc c s rn rd op2 => encodeDp c 7 s rn.val rd.val op2
  | .tst c rn sbz op2 => encodeDp c 8 true rn.val sbz.toNat op2
  | .teq c rn sbz op2 => encodeDp c 9 true rn.val sbz.toNat op2
  | .cmp c rn sbz op2 => encodeDp c 10 true rn.val sbz.toNat op2
  | .cmn c rn sbz op2 => encodeDp c 11 true rn.val sbz.toNat op2
  | .orr c s rn rd op2 => encodeDp c 12 s rn.val rd.val op2
  | .mov c s sbz rd op2 => encodeDp c 13 s sbz.toNat rd.val op2
  | .bic c s rn rd op2 => encodeDp c 14 s rn.val rd.val op2
  | .mvn c s sbz rd op2 => encodeDp c 15 s sbz.toNat rd.val op2
  | .undefTransfer c bits => c.code * 2^28 + bits.toNat
  | .ldrt c u rn rd off => encodeTransfer c (2^20) false u true rn.val rd.val off
  | .strt c u rn rd off => encodeTransfer c 0 false u true rn.val rd.val off
  | .ldrbt c u rn rd off => encodeTransfer c (2^22 + 2^20) false u true rn.val rd.val off
  | .strbt c u rn rd off => encodeTransfer c (2^22) false u true rn.val rd.val off
  | .ldr c p u w rn rd off => encodeTransfer c (2^20) p u w rn.val rd.val off
  | .str c p u w rn rd off => encodeTransfer c 0 p u w rn.val rd.val off
  | .ldrb c p u w rn rd off => encodeTransfer c (2^22 + 2^20) p u w rn.val rd.val off
  | .strb c p u w rn rd off => encodeTransfer c (2^22) p u w rn.val rd.val off
  | .ldmRet c p u w rn list => encodeBlock c (2^22 + 2^20) p u w rn.val list.toNat
  | .ldmUser c p u w rn list => encodeBlock c (2^22 + 2^20) p u w rn.val list.toNat
  | .stmUser c p u w rn list => encodeBlock c (2^22) p u w rn.val list.toNat
  | .ldm c p u w rn list => encodeBlock c (2^20) p u w rn.val list.toNat
  | .stm c p u w rn list => encodeBlock c 0 p u w rn.val list.toNat
  | .b c o => c.code * 2^28 + 10 * 2^24 + o.toNat
  | .bl c o => c.code * 2^28 + 11 * 2^24 + o.toNat
  | .swi c o => c.code * 2^28 + 15 * 2^24 + o.toNat
  | .ldc c p u n w rn crd cp o => encodeLdc c (2^20) p u n w rn.val crd.toNat cp.toNat o.toNat
  | .stc c p u n w rn crd cp o => encodeLdc c 0 p u n w rn.val crd.toNat cp.toNat o.toNat
  | .cdp c opc1 crn crd cp opc2 crm =>
    c.code * 2^28 + 14 * 2^24 + opc1.toNat * 2^20 + crn.toNat * 2^16 + crd.toNat * 2^12 + cp.toNat * 2^8
      + opc2.toNat * 2^5 + crm.toNat
  | .mrc c opc1 crn rd cp opc2 crm =>
    encodeMrc c (2^20) opc1.toNat crn.toNat rd.val cp.toNat opc2.toNat crm.toNat
  | .mcr c opc1 crn rd cp opc2 crm =>
    encodeMrc c 0 opc1.toNat crn.toNat rd.val cp.toNat opc2.toNat crm.toNat
  | .tLslImm n rs rd => encodeThumb3 0x0000 n.toNat rs.val rd.val
  | .tLsrImm n rs rd => encodeThumb3 0x0800 n.toNat rs.val rd.val
  | .tAsrImm n rs rd => encodeThumb3 0x1000 n.toNat rs.val rd.val
  | .tAddReg rn rs rd => encodeThumb3 0x1800 rn.val rs.val rd.val
  | .tSubReg rn rs rd => encodeThumb3 0x1A00 rn.val rs.val rd.val
  | .tAddImm3 i rs rd => encodeThumb3 0x1C00 i.toNat rs.val rd.val
  | .tSubImm3 i rs rd => encodeThumb3 0x1E00 i.toNat rs.val rd.val
  | .tMovImm8 rd i => encodeThumb8 0x2000 rd.val i.toNat
  | .tCmpImm8 rd i => encodeThumb8 0x2800 rd.val i.toNat
  | .tAddImm8 rd i => encodeThumb8 0x3000 rd.val i.toNat
  | .tSubImm8 rd i => encodeThumb8 0x3800 rd.val i.toNat
  | .tAnd rs rd => encodeThumb3 0x4000 0 rs.val rd.val
  | .tEor rs rd => encodeThumb3 0x4000 1 rs.val rd.val
  | .tLslReg rs rd => encodeThumb3 0x4000 2 rs.val rd.val
  | .tLsrReg rs rd => encodeThumb3 0x4000 3 rs.val rd.val
  | .tAsrReg rs rd => encodeThumb3 0x4000 4 rs.val rd.val
  | .tAdc rs rd => encodeThumb3 0x4000 5 rs.val rd.val
  | .tSbc rs rd => encodeThumb3 0x4000 6 rs.val rd.val
  | .tRorReg rs rd => encodeThumb3 0x4000 7 rs.val rd.val
  | .tTst rs rd => encodeThumb3 0x4000 8 rs.val rd.val
  | .tNeg rs rd => encodeThumb3 0x4000 9 rs.val rd.val
  | .tCmpReg rs rd => encodeThumb3 0x4000 10 rs.val rd.val
  | .tCmn rs rd => encodeThumb3 0x4000 11 rs.val rd.val
  | .tOrr rs rd => encodeThumb3 0x4000 12 rs.val rd.val
  | .tMul rs rd => encodeThumb3 0x4000 13 rs.val rd.val
  | .tBic rs rd => encodeThumb3 0x4000 14 rs.val rd.val
  | .tMvn rs rd => encodeThumb3 0x4000 15 rs.val rd.val
  | .tAddHi rs rd => encodeThumbHi 0x4400 rs rd
  | .tCmpHi rs rd => encodeThumbHi 0x4500 rs rd
  | .tMovHi rs rd => encodeThumbHi 0x4600 rs rd
  | .tBx rs sbz => 0x4700 + rs.val * 2^3 + sbz.toNat
  | .tBlxReg rs sbz => 0x4780 + rs.val * 2^3 + sbz.toNat
  | .tLdrPc rd i => encodeThumb8 0x4800 rd.val i.toNat
  | .tStrReg ro rb rd => encodeThumb3 0x5000 ro.val rb.val rd.val
  | .tStrbReg ro rb rd => encodeThumb3 0x5400 ro.val rb.val rd.val
  | .tLdrReg ro rb rd => encodeThumb3 0x5800 ro.val rb.val rd.val
  | .tLdrbReg ro rb rd => encodeThumb3 0x5C00 ro.val rb.val rd.val
  | .tStrhReg ro rb rd => encodeThumb3 0x5200 ro.val rb.val rd.val
  | .tLdrhReg ro rb rd => encodeThumb3 0x5A00 ro.val rb.val rd.val
  | .tLdsbReg ro rb rd => encodeThumb3 0x5600 ro.val rb.val rd.val
  | .tLdshReg ro rb rd => encodeThumb3 0x5E00 ro.val rb.val rd.val
  | .tStrImm o rb rd => encodeThumb3 0x6000 o.toNat rb.val rd.val
  | .tLdrImm o rb rd => encodeThumb3 0x6800 o.toNat rb.val rd.val
  | .tStrbImm o rb rd => encodeThumb3 0x7000 o.toNat rb.val rd.val
  | .tLdrbImm o rb rd => encodeThumb3 0x7800 o.toNat rb.val rd.val
  | .tStrhImm o rb rd => encodeThumb3 0x8000 o.toNat rb.val rd.val
  | .tLdrhImm o rb rd => encodeThumb3 0x8800 o.toNat rb.val rd.val
  | .tStrSp rd i => encodeThumb8 0x9000 rd.val i.toNat
  | .tLdrSp rd i => encodeThumb8 0x9800 rd.val i.toNat
  | .tAddPc rd i => encodeThumb8 0xA000 rd.val i.toNat
  | .tAddSp rd i => encodeThumb8 0xA800 rd.val i.toNat
  | .tIncSp o => 0xB000 + o.toNat
  | .tDecSp o => 0xB080 + o.toNat
  | .tPush lr list => 0xB400 + lr.toNat * 2^8 + list.toNat
  | .tPop pc list => 0xBC00 + pc.toNat * 2^8 + list.toNat
  | .tStmia rb list => encodeThumb8 0xC000 rb.val list.toNat
  | .tLdmia rb list => encodeThumb8 0xC800 rb.val list.toNat
  | .tBeq o => 0xD000 + o.toNat
  | .tBne o => 0xD100 + o.toNat
  | .tBcs o => 0xD200 + o.toNat
  | .tBcc o => 0xD300 + o.toNat
  | .tBmi o => 0xD400 + o.toNat
  | .tBpl o => 0xD500 + o.toNat
  | .tBvs o => 0xD600 + o.toNat
  | .tBvc o => 0xD700 + o.toNat
  | .tBhi o => 0xD800 + o.toNat
  | .tBls o => 0xD900 + o.toNat
  | .tBge o => 0xDA00 + o.toNat
  | .tBlt o => 0xDB00 + o.toNat
  | .tBgt o => 0xDC00 + o.toNat
  | .tBle o => 0xDD00 + o.toNat
  | .tUndefCond bits => 0xDE00 + bits.toNat
  | .tSwi n => 0xDF00 + n.toNat
  | .tB o => 0xE000 + o.toNat
  | .tBlxLow o => 0xE800 + o.toNat
  | .tBlHigh o => 0xF000 + o.toNat
  | .tBlLow o => 0xF800 + o.toNat
  | .tUndefB1 bits => 0xB100 + bits.toNat
  | .tUndefB2 bits => 0xB200 + bits.toNat
  | .tUndefB6 bits => 0xB600 + bits.toNat
  | .tUndefB8 bits => 0xB800 + bits.toNat
  | .tUndefBE bits => 0xBE00 + bits.toNat

/-- The bytes of an instruction, first byte first (R89, R150). -/
def encode (i : Instr) : List Byte :=
  let w := encodeWord i
  let b (k : Nat) : Byte := BitVec.ofNat 8 (fld w (8 * k) 8)
  if i.isThumb then [b 0, b 1] else [b 0, b 1, b 2, b 3]

/-- The decoder on an opcode-table row's word: `nbits` is 32 for an ARM row and 16 for a Thumb row (R150: the length
and the instruction set go together). -/
def decodeTableWord (nbits w : Nat) : Option Instr :=
  let b (k : Nat) : Byte := BitVec.ofNat 8 (fld w (8 * k) 8)
  let bytes := if nbits = 32 then some (false, [b 0, b 1, b 2, b 3])
    else if nbits = 16 then some (true, [b 0, b 1]) else none
  match bytes with
  | none => none
  | some (thumb, bs) =>
    match decode thumb bs with
    | .ok (i, _) => some i
    | .error _ => none

end Sys2Proof
end

