-- ==== Sys2Proof/Config.lean ====
section
/-! DEFINITION. Config.lean: the implementation parameters of spec/00_scope.md R10, the device records that RESET_STATE is
written with, and the free values the spec leaves open. The parameters stand as plain data in State (field `params`), so
that every statement holds for every choice of them; `Params.default` holds the spec's defaults. The parameters ROM,
ROM_SIZE, BIOS_IMAGE and RTC_BASE are fields of State themselves. -/

namespace Sys2Proof.Machine

/-! ## The devices' registers (R57 to R60) -/

/-- One DMA channel (R57). The spec's `enabled`, `irq_enable`, `repeat` and `word_transfer` are decoded from `ctrl`
(R114), so they are stored once, in `ctrl`, and read by the accessors of Machine/Bus.lean. -/
structure DmaChannel where
  src : Word             -- DMAnSAD
  dst : Word             -- DMAnDAD
  count : Half           -- DMAnCNT_L
  ctrl : Half            -- DMAnCNT_H
  internalSrc : Word
  internalDst : Word
  internalCount : BitVec 17
deriving DecidableEq, Repr

/-- One timer (R58). The spec's `enabled`, `irq_enable`, `cascade` and `prescaler` are decoded from `ctrl` (R115). -/
structure Timer where
  reload : Half          -- TMnCNT_L as written
  counter : Half         -- TMnCNT_L as read
  ctrl : Half            -- TMnCNT_H
  accumulator : Nat      -- cycles not yet counted
deriving DecidableEq, Repr

/-- The real-time clock behind the cartridge GPIO (R59). `sec` to `ctrl` are inventory: no rule reads them (R719). -/
structure Rtc where
  sec : Byte
  min : Byte
  hr : Byte
  daysLo : Byte
  daysHi : Byte
  ctrl : Byte
  status : Byte
  command : Byte
  bitIndex : Fin 8
  buffer : Vector Byte 8
  bufferPos : Fin 8
  reading : Bool
  writing : Bool
  lastSck : Bool
  lastCs : Bool
  sioOut : Bool          -- rtc_sio_out
  haveCommand : Bool     -- have_command
  baseTime : Nat         -- base timestamp, the host clock at init or reset
deriving DecidableEq, Repr

/-- The flash command state (R60, R722). -/
inductive FlashState where
  | ready | gotAA | got55 | program | erase | eraseAA | erase55
deriving DecidableEq, Repr

/-- A DMA channel with every field 0. -/
def DmaChannel.reset : DmaChannel :=
  { src := 0, dst := 0, count := 0, ctrl := 0, internalSrc := 0, internalDst := 0, internalCount := 0 }

/-- A timer with every field 0; ctrl 0 is prescaler 1. -/
def Timer.reset : Timer := { reload := 0, counter := 0, ctrl := 0, accumulator := 0 }

/-- The RTC with every field 0 or false but the base time. -/
def Rtc.reset (clock : Nat) : Rtc :=
  { sec := 0, min := 0, hr := 0, daysLo := 0, daysHi := 0, ctrl := 0, status := 0, command := 0, bitIndex := 0,
    buffer := Vector.replicate 8 0, bufferPos := 0, reading := false, writing := false, lastSck := false,
    lastCs := false, sioOut := false, haveCommand := false, baseTime := clock }

/-- Parameter RESET_STATE (R10, R70, D21): the value `init` and `reset` give to every piece of state that R70 does not keep
or take from the host. The fields are those of State. -/
structure ResetState where
  regs : Vector Word 30
  r15 : Word
  cpsr : Word
  spsrFiq : Word
  spsrIrq : Word
  spsrSvc : Word
  spsrAbt : Word
  spsrUnd : Word
  cycles : BitVec 64
  halted : Bool
  /-- EWRAM, IWRAM, the I/O store, palette, VRAM and OAM; a byte that is not listed is 0. -/
  ram : List Host.Cell
  ie : Half
  if_ : Half
  ime : Half
  dispstat : Half
  vcount : Byte
  lastVcount : Byte
  dma : Vector DmaChannel 4
  timers : Vector Timer 4
  gpioData : Half
  gpioDir : Half
  gpioCtrl : Half
  /-- Its base time is not used: R70 takes that from the host's clock. -/
  rtc : Rtc
  flashState : FlashState
  flashId : Bool
  keyinput : Half
  refX2 : Word
  refY2 : Word
  refX3 : Word
  refY3 : Word
  framebuffer : List (Nat × Half)
  frameCount : BitVec 64
deriving DecidableEq, Repr

/-- The register cells of R70: R13_usr, R13_irq and R13_svc are preset, every other cell is 0. -/
def resetRegs : Vector Word 30 :=
  (((Vector.replicate 30 0).set 13 0x03007F00#32).set 22 0x03007FA0#32).set 24 0x03007FE0#32

/-- The default of RESET_STATE: the values of R70. -/
def ResetState.default : ResetState :=
  { regs := resetRegs, r15 := 0x08000008#32, cpsr := 0x0000001F#32,
    spsrFiq := 0, spsrIrq := 0, spsrSvc := 0, spsrAbt := 0, spsrUnd := 0,
    cycles := 0, halted := false, ram := [],
    ie := 0, if_ := 0, ime := 0, dispstat := 0, vcount := 0, lastVcount := 0,
    dma := Vector.replicate 4 DmaChannel.reset, timers := Vector.replicate 4 Timer.reset,
    gpioData := 0, gpioDir := 0, gpioCtrl := 0, rtc := Rtc.reset 0,
    flashState := .ready, flashId := false, keyinput := 0x03FF#16,
    refX2 := 0, refY2 := 0, refX3 := 0, refY3 := 0, framebuffer := [], frameCount := 0 }

end Sys2Proof.Machine

namespace Sys2Proof

/-! ## The parameters (R10) -/

/-- Parameter UNDEF_POLICY (R10, R420, D7): what an undefined encoding does. -/
inductive UndefPolicy where
  | fault         -- the model stops (the default)
  | nop           -- only the pc advances
  | undException  -- the Undefined Instruction exception of R604 is taken
deriving DecidableEq, Repr

/-- Parameter SWI_ARM_FIELD (R10, R390, D5): where an ARM-state SWI carries its function number. -/
inductive SwiField where
  | hi  -- comment bits 23:16 (the default)
  | lo  -- comment bits 7:0
deriving DecidableEq, Repr

/-- The parameters of R10 but ROM, BIOS_IMAGE and RTC_BASE. -/
structure Params where
  /-- PC_GUARD (R44, D3). -/
  pcGuard : Bool
  /-- SWI_ARM_FIELD. -/
  swiField : SwiField
  /-- UNDEF_POLICY. -/
  undefPolicy : UndefPolicy
  /-- CYCLE_COST (R231, D1) as a finite table: the key is the instruction word, plus 2^32 for a Thumb halfword; a word
  the table does not list costs 1, and no cost is below 1. -/
  costs : List (Nat × Nat)
  /-- RESET_STATE. -/
  resetState : Machine.ResetState
deriving DecidableEq, Repr

/-- The defaults of R10. -/
def Params.default : Params :=
  { pcGuard := true, swiField := .hi, undefPolicy := .fault, costs := [], resetState := Machine.ResetState.default }

/-- FREE VALUE (U13 of spec/93_implementation_defined.md): a byte that LZ77UnComp copies from before the first output
byte. The argument is the model's counter `State.free`, so that each such byte is a fresh value. It has no body: nothing
can be proved about it. -/
opaque Config.freeByte : Nat → Byte

/-- FREE VALUE (R719): the host's clock, an oracle outside the machine. The arguments are the model's counter
`State.free` and the number of the field that is read (0 year … 6 second); `rtcNow` turns the number into a valid
two-digit BCD field and nothing else is known of it. -/
opaque Config.rtcRaw : Nat → Nat → Nat

end Sys2Proof
end

