-- ==== Sys2Proof/Machine/State.lean ====
section
/-! DEFINITION. Machine/State.lean: everything spec/10_state.md gives the machine, as plain data, and its value after
reset (R70); the device records and RESET_STATE are in Config.lean. The frame driver of R671 is a loop; its place in the
loop (`phase`, `line`, `left`) and the commands the host has queued (`host`, R730 to R736) are state of the model, and so
are the parameters of R10 and the counter of the free values. -/

namespace Sys2Proof.Machine

/-- Where the frame driver stands in the schedule of R671. -/
inductive Phase where
  | host       -- between two frames: the host may act (R736)
  | lineStart  -- at the top of the scanline loop
  | run        -- in the CPU loop of a scanline
deriving DecidableEq, Repr

/-- What the host can do to the machine between two frames (R731, R732, R734; read_memory, frame_count and cpu_cycles
change nothing). -/
inductive HostCmd where
  | stepFrame (buttons : Half)
  | writeMemory (addr : Word) (value : Byte)
  | reset (clock : Nat)
deriving DecidableEq, Repr

/-- Why the machine stops (spec/60_exceptions.md section 3). All three are model-level stops of the spec and SAFE: the
spec gives no successor state, so nothing is proved beyond them. -/
inductive Fault where
  /-- R620: an undefined encoding executed with UNDEF_POLICY = fault; raised by the UNDEFINED rows. Safe. -/
  | undefinedEncoding (ia : Word) (instr : Instr)
  /-- R623: an empty register list (U10) or a writeback to R15 as base (U5, U9); raised by the single, halfword and
  block transfers, PUSH, POP, STMIA and LDMIA. Safe. -/
  | unpredictableEncoding (ia : Word) (instr : Instr)
  /-- R622: the Div call with R1 = 0 (U12); raised by SWI. Safe. -/
  | biosDivideByZero
deriving DecidableEq, Repr

/-- Why an instruction has no meaning here. No arm of `exec` answers it; it is the type's one constructor. -/
inductive Refusal where
  /-- An instruction this model gives no meaning; safe. -/
  | notModelled (mnemonic : String)
deriving DecidableEq, Repr

/-- The machine. -/
structure State where
  -- CPU (R30 to R53)
  /-- The 30 banked cells behind R0 to R14: 0 to 7 R0–R7, 8 to 14 R8–R14_usr, 15 to 21 R8–R14_fiq, then R13 and R14 of
  irq (22, 23), svc (24, 25), abt (26, 27) and und (28, 29). -/
  regs : Vector Word 30
  /-- R15: the address of the next instruction plus 8 (ARM) or 4 (Thumb) (R40). -/
  r15 : Word
  cpsr : Word
  spsrFiq : Word
  spsrIrq : Word
  spsrSvc : Word
  spsrAbt : Word
  spsrUnd : Word
  cycles : BitVec 64
  halted : Bool
  -- memory (R55): every region buffer in one canonical store, keyed as Machine/Bus.lean says
  mem : List Host.Cell
  romSize : Nat
  -- interrupt controller (R56)
  ie : Half
  if_ : Half
  ime : Half
  dispstat : Half
  vcount : Byte
  lastVcount : Byte
  -- DMA and timers (R57, R58)
  dma : Vector DmaChannel 4
  timers : Vector Timer 4
  -- GPIO, RTC, flash, keypad (R59, R60, R62)
  gpioData : Half
  gpioDir : Half
  gpioCtrl : Half
  rtc : Rtc
  flashState : FlashState
  flashId : Bool
  keyinput : Half
  -- PPU (R61)
  refX2 : Word
  refY2 : Word
  refX3 : Word
  refY3 : Word
  /-- Pixel (s, x) under the key 240·s + x; a pixel that is not listed is 0. -/
  framebuffer : List (Nat × Half)
  frameCount : BitVec 64
  -- the frame driver's place in its loop (R671) and the host's queued commands
  phase : Phase
  line : Nat
  left : Int
  host : List HostCmd
  -- the parameters of R10
  params : Params
  /-- The model's own: how many free values have been used. -/
  free : Nat
deriving DecidableEq, Repr

/-- The machine as `init` and `reset` leave it (R70, R730, R800): RESET_STATE of the parameters `p`, with the memory and
ROM_SIZE given and the clock the host shows; the host acts first. -/
def State.start (p : Params) (mem : List Host.Cell) (romSize clock : Nat) : State :=
  let r := p.resetState
  { regs := r.regs, r15 := r.r15, cpsr := r.cpsr,
    spsrFiq := r.spsrFiq, spsrIrq := r.spsrIrq, spsrSvc := r.spsrSvc, spsrAbt := r.spsrAbt, spsrUnd := r.spsrUnd,
    cycles := r.cycles, halted := r.halted, mem := mem, romSize := romSize,
    ie := r.ie, if_ := r.if_, ime := r.ime, dispstat := r.dispstat, vcount := r.vcount, lastVcount := r.lastVcount,
    dma := r.dma, timers := r.timers,
    gpioData := r.gpioData, gpioDir := r.gpioDir, gpioCtrl := r.gpioCtrl, rtc := { r.rtc with baseTime := clock },
    flashState := r.flashState, flashId := r.flashId, keyinput := r.keyinput,
    refX2 := r.refX2, refY2 := r.refY2, refX3 := r.refX3, refY3 := r.refY3,
    framebuffer := r.framebuffer, frameCount := r.frameCount,
    phase := .host, line := 0, left := 0, host := [], params := p, free := 0 }

/-- The machine right after `init` with the default parameters and no cartridge. -/
def State.reset : State := State.start Params.default Params.default.resetState.ram 0 0

end Sys2Proof.Machine
end

