-- ==== Sys2Proof/Machine/Store.lean ====
section
/-! DEFINITION. Machine/Store.lean: a sparse store of values by number, in one canonical form: keys strictly rising and
no entry equal to what an unlisted key reads as. Memory (bytes) and the framebuffer (pixels) are such stores, so equal
contents are equal lists. -/

namespace Sys2Proof.Machine

/-- The value at key `k`; `dflt` says what an unlisted key reads as. -/
def Store.get {V : Type} (dflt : Nat → V) (m : List (Nat × V)) (k : Nat) : V :=
  match m with
  | [] => dflt k
  | (k', v) :: m => if k = k' then v else Store.get dflt m k

/-- `m` without key `k`. -/
def Store.erase {V : Type} (m : List (Nat × V)) (k : Nat) : List (Nat × V) :=
  m.filter fun c => c.1 != k

/-- `m` with `(k, v)` before the first larger key. -/
def Store.insert {V : Type} (m : List (Nat × V)) (k : Nat) (v : V) : List (Nat × V) :=
  match m with
  | [] => [(k, v)]
  | (k', v') :: m => if k < k' then (k, v) :: (k', v') :: m else (k', v') :: Store.insert m k v

/-- `m` with the value `v` at key `k`; the value an unlisted key reads as is not listed. -/
def Store.set {V : Type} [DecidableEq V] (dflt : Nat → V) (m : List (Nat × V)) (k : Nat) (v : V) : List (Nat × V) :=
  if v = dflt k then Store.erase m k else Store.insert (Store.erase m k) k v

/-- The canonical form. -/
def Store.wf {V : Type} [DecidableEq V] (dflt : Nat → V) (m : List (Nat × V)) : Bool :=
  match m with
  | [] => true
  | (k, v) :: rest => v != dflt k && rest.all (fun c => decide (k < c.1)) && Store.wf dflt rest

/-- What a byte of memory that nothing has written reads as, by its key: 0xFF in the flash array after `init` (R70,
R730), 0 everywhere else (R70; BIOS_IMAGE is all zero by default, R10). -/
def Memory.unlisted (k : Nat) : Byte := if 0x0E000000 ≤ k then 0xFF#8 else 0#8

/-- The byte at a key of memory. -/
def Memory.get (m : List (Nat × Byte)) (k : Nat) : Byte := Store.get Memory.unlisted m k

/-- Memory with a byte stored. -/
def Memory.set (m : List (Nat × Byte)) (k : Nat) (v : Byte) : List (Nat × Byte) := Store.set Memory.unlisted m k v

/-- Memory is in canonical form. -/
def Memory.wf (m : List (Nat × Byte)) : Bool := Store.wf Memory.unlisted m

/-- A framebuffer pixel that nothing has drawn is 0 (R70). -/
def Framebuffer.unlisted (_ : Nat) : Half := 0#16

/-- Pixel (s, x) of the framebuffer (R796). -/
def Framebuffer.get (m : List (Nat × Half)) (s x : Nat) : Half := Store.get Framebuffer.unlisted m (240 * s + x)

/-- The framebuffer with pixel (s, x) drawn. -/
def Framebuffer.set (m : List (Nat × Half)) (s x : Nat) (v : Half) : List (Nat × Half) :=
  Store.set Framebuffer.unlisted m (240 * s + x) v

/-- The framebuffer is in canonical form. -/
def Framebuffer.wf (m : List (Nat × Half)) : Bool := Store.wf Framebuffer.unlisted m

end Sys2Proof.Machine
end

