-- ==== Sys2Proof/Machine/Ops.lean ====
section
/-! DEFINITION. Machine/Ops.lean: the operations every meaning is built from: the register banks (R30 to R34), the status
registers (R45 to R51), the pc (R40 to R48), conditions (R201), and taking an exception and returning from one (R272,
R604, R610). -/

namespace Sys2Proof.Machine

/-- What executing one instruction answers. -/
abbrev Result := Host.Outcome State Fault Refusal

/-! ## Bits of a word -/

/-- `w` with bit `i` set to `b`. -/
def setBit (w : Word) (i : Nat) (b : Bool) : Word :=
  if b then w ||| (1#32 <<< i) else w &&& ~~~(1#32 <<< i)

/-- The low five bits replaced. -/
def setLow5 (w : Word) (m : BitVec 5) : Word := (w &&& ~~~0x1F#32) ||| m.zeroExtend 32

/-- `ror(v, n)` (R12). -/
def ror (v : Word) (n : Nat) : Word := v.rotateRight n

/-! ## Modes and the register banks -/

/-- The seven modes (R45, R660). -/
inductive Mode where
  | usr | fiq | irq | svc | abt | und | sys
deriving DecidableEq, Repr

/-- The mode field of a mode. -/
def Mode.bits : Mode → BitVec 5
  | .usr => 0x10 | .fiq => 0x11 | .irq => 0x12 | .svc => 0x13 | .abt => 0x17 | .und => 0x1B | .sys => 0x1F

/-- The mode of a mode field; none for the 25 values that are not valid (R50). -/
def Mode.ofBits (b : BitVec 5) : Option Mode :=
  if b = 0x10 then some .usr else if b = 0x11 then some .fiq else if b = 0x12 then some .irq
  else if b = 0x13 then some .svc else if b = 0x17 then some .abt else if b = 0x1B then some .und
  else if b = 0x1F then some .sys else none

/-- The current mode. CPSR[4:0] is always valid (P2, R50; the invariant `Inv` says so): the default is never used in a
state a run reaches. -/
def State.mode (s : State) : Mode := (Mode.ofBits (s.cpsr.extractLsb' 0 5)).getD .sys

/-- The bank map of R32: the cell that visible register `n` names in mode `m`; none is R15, of which there is one. -/
def phys (m : Mode) (n : Reg) : Option (Fin 30) :=
  match n.val, m with
  | 15, _ => none
  | 13, .irq => some 22 | 14, .irq => some 23
  | 13, .svc => some 24 | 14, .svc => some 25
  | 13, .abt => some 26 | 14, .abt => some 27
  | 13, .und => some 28 | 14, .und => some 29
  | k, .fiq => some (Fin.ofNat 30 (if k < 8 then k else k + 7))
  | k, _ => some (Fin.ofNat 30 k)

/-- Register `n` as mode `m` sees it. During an instruction R15 reads IA + 8 or IA + 4, which is what `r15` holds
(R40, R41). -/
def State.regIn (s : State) (m : Mode) (n : Reg) : Word :=
  match phys m n with
  | some j => s.regs[j]
  | none => s.r15

/-- `R[n]` of R13. -/
def State.reg (s : State) (n : Reg) : Word := s.regIn s.mode n

/-- Write register `n` as mode `m` sees it. R15 is written by `branchTo` and `branchExchange`, never here. -/
def State.setRegIn (s : State) (m : Mode) (n : Reg) (v : Word) : State :=
  match phys m n with
  | some j => { s with regs := s.regs.set j v }
  | none => s

/-- `R[n] <- v` for n ≠ 15. -/
def State.setReg (s : State) (n : Reg) (v : Word) : State := s.setRegIn s.mode n v

/-- A Thumb register number as a register. -/
def low (n : LowReg) : Reg := Fin.ofNat 16 n.val

/-! ## Status registers -/

/-- N, Z, C, V: CPSR bits 31 to 28 (R45). -/
def State.flagN (s : State) : Bool := s.cpsr.getLsbD 31
def State.flagZ (s : State) : Bool := s.cpsr.getLsbD 30
def State.flagC (s : State) : Bool := s.cpsr.getLsbD 29
def State.flagV (s : State) : Bool := s.cpsr.getLsbD 28

/-- CPSR.I (bit 7) disables IRQs. -/
def State.irqDisabled (s : State) : Bool := s.cpsr.getLsbD 7

/-- CPSR.T (bit 5) is the instruction-set selector itself (R47). -/
def State.thumb (s : State) : Bool := s.cpsr.getLsbD 5

/-- The four condition flags. -/
structure Nzcv where
  n : Bool
  z : Bool
  c : Bool
  v : Bool
deriving DecidableEq, Repr

/-- CPSR with the flags written and every other bit kept (R14). -/
def withFlags (cpsr : Word) (f : Nzcv) : Word :=
  setBit (setBit (setBit (setBit cpsr 31 f.n) 30 f.z) 29 f.c) 28 f.v

/-- The state with the flags written. -/
def State.setFlags (s : State) (f : Nzcv) : State := { s with cpsr := withFlags s.cpsr f }

/-- The flags written when `b` holds (the S bit). -/
def State.setFlagsIf (s : State) (b : Bool) (f : Nzcv) : State := if b then s.setFlags f else s

/-- The mode's SPSR; User and System have none (R49). -/
def State.spsrOf (s : State) : Mode → Option Word
  | .fiq => some s.spsrFiq | .irq => some s.spsrIrq | .svc => some s.spsrSvc
  | .abt => some s.spsrAbt | .und => some s.spsrUnd | .usr => none | .sys => none

/-- The mode's SPSR written, if it has one. -/
def State.setSpsrOf (s : State) (m : Mode) (v : Word) : State :=
  match m with
  | .fiq => { s with spsrFiq := v } | .irq => { s with spsrIrq := v } | .svc => { s with spsrSvc := v }
  | .abt => { s with spsrAbt := v } | .und => { s with spsrUnd := v } | .usr => s | .sys => s

/-- `SetCPSR(v)` (R50): an invalid mode value keeps the old mode; every other bit is taken from `v`. -/
def State.setCpsr (s : State) (v : Word) : State :=
  match Mode.ofBits (v.extractLsb' 0 5) with
  | some _ => { s with cpsr := v }
  | none => { s with cpsr := setLow5 v (s.cpsr.extractLsb' 0 5) }

/-- `RestoreCPSR()` (R272): the return from exception takes CPSR from the mode's SPSR; in User and System mode it does
nothing. -/
def State.restoreCpsr (s : State) : State :=
  match s.spsrOf s.mode with
  | some v => s.setCpsr v
  | none => s

/-! ## The pc -/

/-- The prefetch offset of R40. -/
def prefetchOffset (thumb : Bool) : Word := if thumb then 4 else 8

/-- The width of an instruction, in bytes (R150). -/
def instrWidth (thumb : Bool) : Word := if thumb then 2 else 4

/-- IA (R40): the address of the instruction about to be executed. -/
def State.ia (s : State) : Word := s.r15 - prefetchOffset s.thumb

/-- The advance of R42 for an instruction that does not branch. -/
def State.advance (s : State) : State := { s with r15 := s.r15 + instrWidth s.thumb }

/-- `BranchTo(target)` (R43) under the T bit of `s`. -/
def State.branchTo (s : State) (target : Word) : State :=
  { s with r15 := if s.thumb then (target &&& ~~~1#32) + 4 else (target &&& ~~~3#32) + 8 }

/-- The branch of BX and the BLX forms (R43, R241): bit 0 of `v` is the new T bit and `v & ~1` the target. -/
def State.branchExchange (s : State) (v : Word) : State :=
  { s with cpsr := setBit s.cpsr 5 (v.getLsbD 0), r15 := (v &&& ~~~1#32) + prefetchOffset (v.getLsbD 0) }

/-- The bits of an address that select storage (R81). -/
def busAddr (a : Word) : Nat := a.toNat % 2^28

/-- `Mapped(addr)` (R88, R96): an access at `addr` is not an unmapped one. -/
def mappedIn (romSize : Nat) (a : Word) : Bool :=
  let off := busAddr a % 2^24
  match busAddr a / 2^24 with
  | 0 => decide (off < 0x4000)
  | 1 => true
  | 2 => true
  | 3 => true
  | 4 => decide (off < 0x400)
  | 5 => true
  | 6 => true
  | 7 => true
  | 8 => decide (off < romSize)
  | 9 => decide (off + 0x1000000 < romSize)
  | 14 => true
  | _ => false

/-- `Mapped(addr)` in a state: only ROM_SIZE matters. -/
def State.mapped (s : State) (a : Word) : Bool := mappedIn s.romSize a

/-- The PC guard refuses the target (R44), which makes the whole instruction a no-op. -/
def State.pcRefused (s : State) (target : Word) : Bool := s.params.pcGuard && !s.mapped target

/-- Ends an instruction that executes `pc <- target` (R43, R44). `s` is the state the instruction started in, `s'` that
state with the instruction's other effects; if the guard refuses the target none of them happens. -/
def jump (s s' : State) (target : Word) : Result :=
  if s.pcRefused target then .next s.advance else .next (s'.branchTo target)

/-- Ends a BX or BLX form: the guard tests `v & ~1` (R241, R483, R484). -/
def jumpExchange (s s' : State) (v : Word) : Result :=
  if s.pcRefused (v &&& ~~~1#32) then .next s.advance else .next (s'.branchExchange v)

/-- Ends an instruction that writes `v` to its destination `rd`: R15 as a destination is `pc <- v` (R43, U2, U4, U6, U8).
`s'` is `s` with the instruction's other effects. -/
def finishWrite (s s' : State) (rd : Reg) (v : Word) : Result :=
  if rd = 15 then jump s s' v else .next (s'.setReg rd v).advance

/-! ## Conditions -/

/-- `ConditionPassed` (R201). -/
def condHolds (c : Cond) (n z cf v : Bool) : Bool :=
  match c with
  | .eq => z | .ne => !z | .cs => cf | .cc => !cf | .mi => n | .pl => !n | .vs => v | .vc => !v
  | .hi => cf && !z | .ls => !cf || z | .ge => n == v | .lt => n != v
  | .gt => !z && (n == v) | .le => z || (n != v) | .al => true

/-- The condition passes in a state. -/
def State.passes (s : State) (c : Cond) : Bool := condHolds c s.flagN s.flagZ s.flagC s.flagV

/-- A conditional instruction: a failed condition only advances the pc (R151). -/
def conditionally (c : Cond) (s : State) (effect : State → Result) : Result :=
  if s.passes c then effect s else .next s.advance

/-! ## Exceptions -/

/-- Taking an exception (R604, R610): the mode's SPSR saves the whole CPSR and its R14 the link; the mode is entered with
IRQs disabled in ARM state, F and the flags unchanged; the next instruction is the vector's. -/
def takeException (s : State) (m : Mode) (vector link : Word) : State :=
  let s1 := (s.setSpsrOf m s.cpsr).setRegIn m 14 link
  { s1 with cpsr := setBit (setBit (setLow5 s.cpsr m.bits) 7 true) 5 false, r15 := vector + 8 }

/-- `handle_irq()` (R610): the link is the address of the next instruction plus 4 in both states. -/
def takeIrq (s : State) : State := takeException s .irq 0x18#32 (s.ia + 4)

/-- What an undefined encoding does with a passing condition (R420): UNDEF_POLICY decides. The link of R604 is the
instruction after the undefined one. -/
def undefinedInstr (i : Instr) (s : State) : Result :=
  match s.params.undefPolicy with
  | .fault => .fault (.undefinedEncoding s.ia i)
  | .nop => .next s.advance
  | .undException => .next (takeException s .und 0x04#32 (s.ia + instrWidth s.thumb))

end Sys2Proof.Machine
end

