-- ==== Sys2Proof/Machine/Cartridge.lean ====
section
/-! DEFINITION. Machine/Cartridge.lean: the cartridge GPIO with its real-time clock (spec/61_devices.md R715 to R719) and
the flash save memory (R721, R722). -/

namespace Sys2Proof.Machine

/-! ## The real-time clock -/

/-- A two-digit binary-coded decimal byte. -/
def bcd (n : Nat) : Byte := BitVec.ofNat 8 (n / 10 % 10 * 16 + n % 10)

/-- The least value and the number of values of field `i` of `RtcNow`: year, month, day, weekday, hour, minute, second
(R719). -/
def rtcRange : Nat → Nat × Nat
  | 0 => (0, 100) | 1 => (1, 12) | 2 => (1, 31) | 3 => (0, 7) | 4 => (0, 24) | 5 => (0, 60) | _ => (0, 60)

/-- Field `i` of the `k`-th reading of the host's clock: a valid two-digit BCD number of its range and otherwise free
(R719; Config.rtcRaw has no body). -/
def rtcField (k i : Nat) : Byte := bcd ((rtcRange i).1 + Config.rtcRaw k i % (rtcRange i).2)

/-- The buffer with `RtcNow()` in bytes 0 to 6 (R718). -/
def loadDateTime (b : Vector Byte 8) (k : Nat) : Vector Byte 8 :=
  ((((((b.set 0 (rtcField k 0)).set 1 (rtcField k 1)).set 2 (rtcField k 2)).set 3 (rtcField k 3)).set 4
    (rtcField k 4)).set 5 (rtcField k 5)).set 6 (rtcField k 6)

/-- The buffer with hour, minute and second in bytes 0 to 2 (R718). -/
def loadTime (b : Vector Byte 8) (k : Nat) : Vector Byte 8 :=
  ((b.set 0 (rtcField k 4)).set 1 (rtcField k 5)).set 2 (rtcField k 6)

/-- `RtcCommand(b)` (R718). Reading the time uses one free value of the host's clock. -/
def rtcCommand (s : State) (b : Byte) : State :=
  let r := s.rtc
  let read := b.getLsbD 0
  match b.toNat / 2 * 2 with
  | 0x60 => { s with rtc := { r with status := 0 } }
  | 0x62 =>
    if read then { s with rtc := { r with buffer := r.buffer.set 0 r.status, reading := true } }
    else { s with rtc := { r with writing := true } }
  | 0x64 =>
    if read then { s with rtc := { r with buffer := loadDateTime r.buffer s.free, reading := true }, free := s.free + 1 }
    else { s with rtc := { r with writing := true } }
  | 0x66 =>
    if read then { s with rtc := { r with buffer := loadTime r.buffer s.free, reading := true }, free := s.free + 1 }
    else { s with rtc := { r with writing := true } }
  | _ => s

/-- `RtcStoreByte(pos)` (R718): the status command stores its one byte; every other byte received is discarded. -/
def rtcStoreByte (r : Rtc) (pos : Fin 8) : Rtc :=
  if pos = 0 ∧ r.command.toNat / 2 * 2 = 0x62 then { r with status := r.buffer[0] } else r

/-- `min(pos + 1, 7)`. -/
def nextPos (pos : Fin 8) : Fin 8 := if pos = 7 then 7 else pos + 1

/-- One more bit of the transaction: the index returns to 0 after bit 7. -/
def byteDone (i : Fin 8) : Bool := i == 7

/-- CS rises: a transaction starts (R717). -/
def rtcStart (r : Rtc) : Rtc :=
  { r with bitIndex := 0, command := 0, buffer := Vector.replicate 8 0, bufferPos := 0, reading := false,
           writing := false, haveCommand := false }

/-- A byte with bit `i` set to `b`. -/
def setByteBit (v : Byte) (i : Nat) (b : Bool) : Byte :=
  if b then v ||| (1#8 <<< i) else v &&& ~~~(1#8 <<< i)

/-- SCK rises while CS is high (R717): a command bit, most significant first; or a data bit out or in, least significant
first. -/
def rtcClock (s : State) (sio : Bool) : State :=
  let r := s.rtc
  if r.haveCommand = false then
    let cmd : Byte := (r.command <<< 1) ||| (if sio then 1#8 else 0#8)
    if byteDone r.bitIndex then
      let s1 := rtcCommand { s with rtc := { r with command := cmd } } cmd
      { s1 with rtc := { s1.rtc with bitIndex := 0, haveCommand := true } }
    else { s with rtc := { r with command := cmd, bitIndex := r.bitIndex + 1 } }
  else if r.reading then
    let out := r.buffer[r.bufferPos].getLsbD r.bitIndex.val
    let pos := if byteDone r.bitIndex then nextPos r.bufferPos else r.bufferPos
    { s with rtc := { r with sioOut := out, bitIndex := r.bitIndex + 1, bufferPos := pos } }
  else if r.writing then
    let r1 := { r with buffer := r.buffer.set r.bufferPos (setByteBit r.buffer[r.bufferPos] r.bitIndex.val sio) }
    if byteDone r.bitIndex then
      { s with rtc := { rtcStoreByte r1 r1.bufferPos with bitIndex := 0, bufferPos := nextPos r1.bufferPos } }
    else { s with rtc := { r1 with bitIndex := r.bitIndex + 1 } }
  else s

/-- `RtcPins(sck, sio, cs)` (R717). -/
def rtcPins (s : State) (sck sio cs : Bool) : State :=
  let s1 := if cs = true ∧ s.rtc.lastCs = false then { s with rtc := rtcStart s.rtc } else s
  let s2 := if cs = true ∧ sck = true ∧ s.rtc.lastSck = false then rtcClock s1 sio else s1
  let r2 := if cs = false then { s2.rtc with reading := false, writing := false } else s2.rtc
  { s2 with rtc := { r2 with lastSck := sck, lastCs := cs } }

/-! ## GPIO registers (R716) -/

/-- GPIO is visible to reads and forwards data writes to the RTC (R716). -/
def State.gpioVisible (s : State) : Bool := s.gpioCtrl.getLsbD 0

/-- A write to GPIO data: each output bit is driven, and the RTC sees the pins when the port is visible. -/
def writeGpioData (s : State) (v : Half) : State :=
  let d := (s.gpioData &&& ~~~s.gpioDir) ||| (v &&& s.gpioDir)
  let s1 := { s with gpioData := d }
  if s1.gpioVisible then rtcPins s1 (d.getLsbD 0) (d.getLsbD 1) (d.getLsbD 2) else s1

/-- A 16-bit write to the GPIO register at ROM offset `r`. -/
def writeGpio (s : State) (r : Nat) (v : Half) : State :=
  if r = 0xC4 then writeGpioData s v
  else if r = 0xC6 then { s with gpioDir := v &&& 0xF#16 }
  else if r = 0xC8 then { s with gpioCtrl := v &&& 1#16 }
  else s

/-- The GPIO register at even ROM offset `r` as the CPU reads it: an input bit reads what the RTC drives. -/
def readGpio (s : State) (r : Nat) : Half :=
  if r = 0xC4 then (s.gpioData &&& s.gpioDir) ||| ((if s.rtc.sioOut then 2#16 else 0#16) &&& ~~~s.gpioDir)
  else if r = 0xC6 then s.gpioDir
  else s.gpioCtrl

/-- The ROM offsets of the GPIO window (R86). -/
def inGpioWindow (r : Nat) : Bool := decide (0xC4 ≤ r) && decide (r ≤ 0xC9)

/-! ## Flash (R721, R722) -/

/-- The key of flash byte `o` in memory. -/
def flashKey (o : Nat) : Nat := 0x0E000000 + o

/-- `FlashRead(o)`; identification mode answers the maker and device bytes at 0 and 1. -/
def flashRead (s : State) (o : Nat) : Byte :=
  if s.flashId = true ∧ o = 0 then 0xC2#8
  else if s.flashId = true ∧ o = 1 then 0x09#8
  else Memory.get s.mem (flashKey o)

/-- `n` bytes of flash from offset `o` erased to 0xFF, which is what an unlisted flash byte reads as. -/
def flashErase (o n : Nat) (m : List (Nat × Byte)) : List (Nat × Byte) :=
  m.filter fun c => !(decide (flashKey o ≤ c.1) && decide (c.1 < flashKey o + n))

/-- `FlashWrite(o, v)` (R722). -/
def flashWrite (s : State) (o : Nat) (v : Byte) : State :=
  match s.flashState with
  | .ready =>
    if o = 0x5555 ∧ v = 0xAA#8 then { s with flashState := .gotAA } else s
  | .gotAA =>
    if o = 0x2AAA ∧ v = 0x55#8 then { s with flashState := .got55 } else { s with flashState := .ready }
  | .got55 =>
    if o = 0x5555 ∧ v = 0x90#8 then { s with flashId := true, flashState := .ready }
    else if o = 0x5555 ∧ v = 0xF0#8 then { s with flashId := false, flashState := .ready }
    else if o = 0x5555 ∧ v = 0xA0#8 then { s with flashState := .program }
    else if o = 0x5555 ∧ v = 0x80#8 then { s with flashState := .erase }
    else { s with flashState := .ready }
  | .program => { s with mem := Memory.set s.mem (flashKey o) v, flashState := .ready }
  | .erase =>
    if o = 0x5555 ∧ v = 0xAA#8 then { s with flashState := .eraseAA } else { s with flashState := .ready }
  | .eraseAA =>
    if o = 0x2AAA ∧ v = 0x55#8 then { s with flashState := .erase55 } else { s with flashState := .ready }
  | .erase55 =>
    if o = 0x5555 ∧ v = 0x10#8 then { s with mem := flashErase 0 0x20000 s.mem, flashState := .ready }
    else if v = 0x30#8 then { s with mem := flashErase (o / 0x1000 * 0x1000) 0x1000 s.mem, flashState := .ready }
    else { s with flashState := .ready }

end Sys2Proof.Machine
end

