-- ==== Sys2Proof/Machine/Operands.lean ====
section
/-! DEFINITION. Machine/Operands.lean: every operand form: the barrel shifter (R205 to R213), operand 2 (R161, R162,
R215), the addressing of the single and halfword transfers (R330, R340) and of the block transfers (R370), sign
extension, and the branch offsets. -/

namespace Sys2Proof.Machine

/-- A shifter result and its carry out. -/
structure Shifted where
  value : Word
  carry : Bool
deriving DecidableEq, Repr

/-- The word every bit of which is bit 31 of `v` (`S` of R214). -/
def signWord (v : Word) : Word := if v.getLsbD 31 then 0xFFFFFFFF#32 else 0#32

/-- A shift by a 5-bit immediate amount (R206 to R209): LSR #0 and ASR #0 mean 32, ROR #0 means RRX. -/
def shiftImmediate (ty : ShiftTy) (v : Word) (n : Nat) (cin : Bool) : Shifted :=
  match ty with
  | .lsl => if n = 0 then ⟨v, cin⟩ else ⟨v <<< n, v.getLsbD (32 - n)⟩
  | .lsr => if n = 0 then ⟨0#32, v.getLsbD 31⟩ else ⟨v >>> n, v.getLsbD (n - 1)⟩
  | .asr => if n = 0 then ⟨signWord v, v.getLsbD 31⟩ else ⟨v.sshiftRight n, v.getLsbD (n - 1)⟩
  | .ror => if n = 0 then ⟨setBit (v >>> 1) 31 cin, v.getLsbD 0⟩ else ⟨ror v n, v.getLsbD (n - 1)⟩

/-- A shift by a register amount, 0 to 255 (R210 to R213). -/
def shiftRegister (ty : ShiftTy) (v : Word) (n : Nat) (cin : Bool) : Shifted :=
  if n = 0 then ⟨v, cin⟩
  else
    match ty with
    | .lsl =>
      if n < 32 then ⟨v <<< n, v.getLsbD (32 - n)⟩ else if n = 32 then ⟨0#32, v.getLsbD 0⟩ else ⟨0#32, false⟩
    | .lsr =>
      if n < 32 then ⟨v >>> n, v.getLsbD (n - 1)⟩ else if n = 32 then ⟨0#32, v.getLsbD 31⟩ else ⟨0#32, false⟩
    | .asr => if n < 32 then ⟨v.sshiftRight n, v.getLsbD (n - 1)⟩ else ⟨signWord v, v.getLsbD 31⟩
    | .ror => if n % 32 = 0 then ⟨v, v.getLsbD 31⟩ else ⟨ror v (n % 32), v.getLsbD (n % 32 - 1)⟩

/-- The rotated immediate of R161 (and of MSR, R154). -/
def rotatedImm (rotate : BitVec 4) (imm8 : BitVec 8) : Word := ror (imm8.zeroExtend 32) (2 * rotate.toNat)

/-- The amount a register shift takes: the low byte of Rs. -/
def shiftAmount (v : Word) : Nat := v.toNat % 2^8

/-- `Operand2` (R215): the value and the shifter carry. R15 reads as IA + 8 in both register forms (R233). -/
def operand2 (s : State) (op2 : Op2) : Shifted :=
  match op2 with
  | .imm rotate imm8 =>
    ⟨rotatedImm rotate imm8, if rotate = 0 then s.flagC else (rotatedImm rotate imm8).getLsbD 31⟩
  | .shiftImm rm ty amount => shiftImmediate ty (s.reg rm) amount.toNat s.flagC
  | .shiftReg rm ty rs => shiftRegister ty (s.reg rm) (shiftAmount (s.reg rs)) s.flagC

/-! ## Addresses of the single and halfword transfers -/

/-- The offset of a single data transfer; the shifter's carry is discarded (R330). -/
def offsetValue (s : State) (off : Offset) : Word :=
  match off with
  | .imm imm12 => imm12.zeroExtend 32
  | .reg rm ty amount => (shiftImmediate ty (s.reg rm) amount.toNat s.flagC).value

/-- `indexed` of R330: the base plus or minus the offset. -/
def indexed (s : State) (u : Bool) (rn : Reg) (offset : Word) : Word :=
  if u then s.reg rn + offset else s.reg rn - offset

/-- `addr` of R330: post-indexing accesses at the base. -/
def transferAddr (s : State) (p u : Bool) (rn : Reg) (offset : Word) : Word :=
  if p then indexed s u rn offset else s.reg rn

/-- Writeback happens when P = 0 or W = 1 (R330; R340, U7: W is ignored when P = 0). -/
def writesBack (p w : Bool) : Bool := !p || w

/-- The base register written back, when the form writes back. -/
def writeBack (s' : State) (wb : Bool) (rn : Reg) (v : Word) : State := if wb then s'.setReg rn v else s'

/-- A load's writeback is lost when the base is the destination (R331). -/
def loadWriteBack (s' : State) (wb : Bool) (rn rd : Reg) (v : Word) : State :=
  writeBack s' (wb && rn != rd) rn v

/-! ## Sign extension -/

/-- `sext_8`, `sext_16` of a loaded byte or halfword. -/
def sext8 (v : Byte) : Word := v.signExtend 32
def sext16 (v : Half) : Word := v.signExtend 32
def zext8 (v : Byte) : Word := v.zeroExtend 32
def zext16 (v : Half) : Word := v.zeroExtend 32

/-! ## Block transfers (R370) -/

/-- All registers in ascending order. -/
def allRegs : List Reg := [0, 1, 2, 3, 4, 5, 6, 7, 8, 9, 10, 11, 12, 13, 14, 15]

/-- The registers of a list, lowest first. -/
def listRegs (list : BitVec 16) : List Reg := allRegs.filter fun i => list.getLsbD i.val

/-- The registers of a Thumb list R0 to R7, lowest first. -/
def lowListRegs (list : BitVec 8) : List Reg := listRegs (list.zeroExtend 16)

/-- Registers paired with their addresses: the lowest-numbered at `a`, each next one 4 higher. -/
def withAddrs (a : Word) : List Reg → List (Reg × Word)
  | [] => []
  | i :: rest => (i, a) :: withAddrs (a + 4) rest

/-- `4·n` for a list of n registers. -/
def blockSize (regs : List Reg) : Word := BitVec.ofNat 32 (4 * regs.length)

/-- `final` of R370. -/
def blockFinal (base : Word) (u : Bool) (regs : List Reg) : Word :=
  if u then base + blockSize regs else base - blockSize regs

/-- `start` of R370. -/
def blockStart (base : Word) (p u : Bool) (regs : List Reg) : Word :=
  match u, p with
  | true, false => base
  | true, true => base + 4
  | false, false => base - blockSize regs + 4
  | false, true => base - blockSize regs

/-- The lowest-numbered register of a list. -/
def isFirst (regs : List Reg) (i : Reg) : Bool := regs.head? == some i

/-! ## Branch offsets -/

/-- `sext_24(offset24) << 2` (R165). -/
def armBranchOffset (o : BitVec 24) : Word := o.signExtend 32 <<< 2

/-- `sext_8(soffset8) << 1` (R195). -/
def thumbCondOffset (o : BitVec 8) : Word := o.signExtend 32 <<< 1

/-- `sext_11(offset11) << 1` (R197). -/
def thumbBranchOffset (o : BitVec 11) : Word := o.signExtend 32 <<< 1

end Sys2Proof.Machine
end

