-- ==== Sys2Proof/Machine/Interrupts.lean ====
section
/-! DEFINITION. Machine/Interrupts.lean: the interrupt controller (spec/60_exceptions.md R640 to R651). -/

namespace Sys2Proof.Machine

/-- `raise(flag)` for source number `i` (R640, R641): recorded in IF whatever the masks are. -/
def State.raiseIrq (s : State) (i : Nat) : State := { s with if_ := s.if_ ||| (1#16 <<< i) }

/-- `pending()` (R640). -/
def State.pending (s : State) : Bool := s.ime.getLsbD 0 && (s.ie &&& s.if_) != 0#16

/-- An IRQ is taken before the next step (R671): pending and CPSR.I = 0. -/
def State.takesIrq (s : State) : Bool := s.pending && !s.irqDisabled

/-- DISPSTAT with its three status flags replaced. -/
def withDispstatFlags (d : Half) (vblank hblank vmatch : Bool) : Half :=
  (d &&& 0xFFF8#16) ||| (if vblank then 1#16 else 0#16) ||| (if hblank then 2#16 else 0#16)
    ||| (if vmatch then 4#16 else 0#16)

/-- The request of source `i`, when `b` holds. -/
def request (b : Bool) (i : Nat) : Half := if b then 1#16 <<< i else 0#16

/-- The scanline equals the compare value of DISPSTAT (R647). -/
def vcountMatches (s : State) (line : Nat) : Bool := (s.dispstat.extractLsb' 8 8).toNat == line

/-- The requests that the start of scanline `line` raises: VBlank on the transition to 160 (R645), HBlank on a visible
scanline (R646), VCount match (R647), each when DISPSTAT enables it. -/
def vcountRequests (s : State) (line : Nat) : Half :=
  request (decide (line = 160) && s.lastVcount != 160#8 && s.dispstat.getLsbD 3) 0
  ||| request (decide (line < 160) && s.dispstat.getLsbD 4) 1
  ||| request (vcountMatches s line && s.dispstat.getLsbD 5) 2

/-- `update_vcount(line)` (R644). -/
def updateVcount (s : State) (line : Nat) : State :=
  { s with vcount := BitVec.ofNat 8 line, lastVcount := BitVec.ofNat 8 line,
           dispstat := withDispstatFlags s.dispstat (decide (160 ≤ line)) false (vcountMatches s line),
           if_ := s.if_ ||| vcountRequests s line }

end Sys2Proof.Machine
end

