-- ==== Sys2Proof/Machine/Timers.lean ====
section
/-! DEFINITION. Machine/Timers.lean: the timer unit (spec/61_devices.md R700 to R708, spec/20_memory.md R115). -/

namespace Sys2Proof.Machine

/-- The fields decoded from TMnCNT_H (R115, R700). -/
def Timer.enabled (t : Timer) : Bool := t.ctrl.getLsbD 7
def Timer.irqEnable (t : Timer) : Bool := t.ctrl.getLsbD 6
def Timer.cascade (t : Timer) : Bool := t.ctrl.getLsbD 2
def Timer.prescaler (t : Timer) : Nat :=
  match t.ctrl.toNat % 4 with
  | 0 => 1 | 1 => 64 | 2 => 256 | _ => 1024

/-- Timer `n`. -/
def State.timer (s : State) (n : Fin 4) : Timer := s.timers[n]

/-- Timer `n` replaced. -/
def State.setTimer (s : State) (n : Fin 4) (t : Timer) : State := { s with timers := s.timers.set n t }

/-- `Tick(n)` with `Overflow(n)` and the cascade chain (R702 to R704); `fuel` bounds the chain, which has at most four
timers. -/
def tick : (fuel : Nat) → Fin 4 → State → State
  | 0, _, s => s
  | fuel + 1, n, s =>
    let t := s.timer n
    if t.counter + 1 = 0#16 then
      let s1 := s.setTimer n { t with counter := t.reload }
      let s2 := if t.irqEnable then s1.raiseIrq (3 + n.val) else s1
      if n.val < 3 ∧ (s2.timer (n + 1)).enabled = true ∧ (s2.timer (n + 1)).cascade = true then
        tick fuel (n + 1) s2
      else s2
    else s.setTimer n { t with counter := t.counter + 1 }

/-- `k` ticks of timer `n`, one after another (R703). -/
def ticks : (k : Nat) → Fin 4 → State → State
  | 0, _, s => s
  | k + 1, n, s => ticks k n (tick 4 n s)

/-- The turn of timer `n` in `TimersUpdate(c)` (R701): the accumulated cycles in whole prescaler periods are ticks, the
rest stays in the accumulator. -/
def timerTurn (c : Nat) (s : State) (n : Fin 4) : State :=
  let t := s.timer n
  if t.enabled = true ∧ t.cascade = false then
    let acc := t.accumulator + c
    ticks (acc / t.prescaler) n (s.setTimer n { t with accumulator := acc % t.prescaler })
  else s

/-- `TimersUpdate(c)` (R701): the timers in index order. -/
def timersUpdate (s : State) (c : Nat) : State :=
  timerTurn c (timerTurn c (timerTurn c (timerTurn c s 0) 1) 2) 3

/-- A write to TMnCNT_L sets the reload and leaves the counter (R115). -/
def writeTimerReload (s : State) (n : Fin 4) (v : Half) : State := s.setTimer n { s.timer n with reload := v }

/-- A write to TMnCNT_H; a rising enable reloads the counter and clears the accumulator (R115, R706). -/
def writeTimerControl (s : State) (n : Fin 4) (v : Half) : State :=
  let t := s.timer n
  if t.enabled = false ∧ v.getLsbD 7 = true then
    s.setTimer n { t with ctrl := v, counter := t.reload, accumulator := 0 }
  else s.setTimer n { t with ctrl := v }

end Sys2Proof.Machine
end

