-- ==== Sys2Proof/Machine/Bus.lean ====
section
/-! DEFINITION. Machine/Bus.lean: the memory map and its access rules (spec/20_memory.md), the I/O registers (R105 to
R120) and the DMA engine (spec/61_devices.md R680 to R691), which a store to an I/O register can run inside itself. -/

namespace Sys2Proof.Machine

/-! ## Address decoding -/

/-- The region number of a bus address (R81). -/
def regionOf (a : Word) : Nat := busAddr a / 2^24

/-- The offset of a bus address in its region (R81). -/
def offsetOf (a : Word) : Nat := busAddr a % 2^24

/-- The VRAM byte an offset names: a 128 KiB window whose upper 32 KiB repeat the 32 KiB at 0x10000 (R84). -/
def vramOffset (off : Nat) : Nat :=
  let o := off % 0x20000
  if o < 0x18000 then o else o - 0x8000

/-- The ROM offset of an address in regions 8 and 9 (R86). -/
def romOffset (a : Word) : Nat := busAddr a - 0x08000000

/-- The memory key of the byte at an address, for the regions that are plain buffers (R82 to R86); none for I/O, flash
and unmapped addresses. -/
def bufferKey (romSize : Nat) (a : Word) : Option Nat :=
  let off := offsetOf a
  match regionOf a with
  | 0 => if off < 0x4000 then some off else none
  | 1 => some (0x03000000 + off % 0x8000)
  | 2 => some (0x02000000 + off % 0x40000)
  | 3 => some (0x03000000 + off % 0x8000)
  | 5 => some (0x05000000 + off % 0x400)
  | 6 => some (0x06000000 + vramOffset off)
  | 7 => some (0x07000000 + off % 0x400)
  | 8 => if romOffset a < romSize then some (0x08000000 + romOffset a) else none
  | 9 => if romOffset a < romSize then some (0x08000000 + romOffset a) else none
  | _ => none

/-- The address forced down to a multiple of 2 or 4 (R90, R91). -/
def align2 (a : Word) : Word := a &&& ~~~1#32
def align4 (a : Word) : Word := a &&& ~~~3#32

/-- Byte `i` of a word. -/
def byteOf (v : Word) (i : Nat) : Byte := v.extractLsb' (8 * i) 8

/-- The two halves of a word. -/
def loHalf (v : Word) : Half := v.extractLsb' 0 16
def hiHalf (v : Word) : Half := v.extractLsb' 16 16

/-- A word with its low or high half replaced. -/
def withLo (v : Word) (h : Half) : Word := hiHalf v ++ h
def withHi (v : Word) (h : Half) : Word := h ++ loHalf v

/-- The low or high byte of a halfword. -/
def loByte (h : Half) : Byte := h.extractLsb' 0 8
def hiByte (h : Half) : Byte := h.extractLsb' 8 8

/-! ## I/O storage (R120) -/

/-- The memory key of a byte of the I/O backing store. -/
def ioKey (off : Nat) : Nat := 0x04000000 + off

/-- The stored halfword at an even I/O offset. -/
def State.ioHalf (s : State) (off : Nat) : Half := Memory.get s.mem (ioKey (off + 1)) ++ Memory.get s.mem (ioKey off)

/-- The halfword stored there. -/
def State.setIoHalf (s : State) (off : Nat) (v : Half) : State :=
  { s with mem := Memory.set (Memory.set s.mem (ioKey off) (loByte v)) (ioKey (off + 1)) (hiByte v) }

/-- The stored word at an I/O offset. -/
def State.ioWord (s : State) (off : Nat) : Word := s.ioHalf (off + 2) ++ s.ioHalf off

/-! ## DMA registers (R681) -/

/-- The fields decoded from DMAnCNT_H (R114, R681). -/
def DmaChannel.enabled (d : DmaChannel) : Bool := d.ctrl.getLsbD 15
def DmaChannel.irqEnable (d : DmaChannel) : Bool := d.ctrl.getLsbD 14
def DmaChannel.timing (d : DmaChannel) : Nat := (d.ctrl.extractLsb' 12 2).toNat
def DmaChannel.wordTransfer (d : DmaChannel) : Bool := d.ctrl.getLsbD 10
def DmaChannel.repeats (d : DmaChannel) : Bool := d.ctrl.getLsbD 9
def DmaChannel.srcMode (d : DmaChannel) : Nat := (d.ctrl.extractLsb' 7 2).toNat
def DmaChannel.dstMode (d : DmaChannel) : Nat := (d.ctrl.extractLsb' 5 2).toNat

/-- Channel `n`. -/
def State.dmaChannel (s : State) (n : Fin 4) : DmaChannel := s.dma[n]

/-- Channel `n` replaced. -/
def State.setDma (s : State) (n : Fin 4) (d : DmaChannel) : State := { s with dma := s.dma.set n d }

/-- `EffCount(n)` (R682): the count is used unmasked; 0 means the channel's maximum. -/
def effCount (n : Fin 4) (count : Half) : BitVec 17 :=
  if count = 0 then (if n = 3 then 0x10000#17 else 0x4000#17) else count.zeroExtend 17

/-- An address masked to 28 bits (D1, R683). -/
def mask28 (a : Word) : Word := a &&& 0x0FFFFFFF#32

/-- `DmaLatch(n)` (R683). -/
def DmaChannel.latch (d : DmaChannel) (n : Fin 4) : DmaChannel :=
  { d with internalSrc := mask28 d.src, internalDst := mask28 d.dst, internalCount := effCount n d.count }

/-- `Adv(a, mode, u)` masked to 28 bits (R684, R685). -/
def dmaAdv (a : Word) (mode : Nat) (u : Word) : Word :=
  match mode with
  | 1 => mask28 (a - u)
  | 2 => mask28 a
  | _ => mask28 (a + u)

/-! ## Reading (R90, R98: reads change nothing) -/

/-- The register of a DMA channel as it is read (R114); `reg` is the offset in the channel's twelve bytes. -/
def readDmaReg (d : DmaChannel) (reg : Nat) : Half :=
  match reg with
  | 0 => loHalf d.src
  | 2 => hiHalf d.src
  | 4 => loHalf d.dst
  | 6 => hiHalf d.dst
  | 8 => d.count
  | _ => d.ctrl

/-- The value a 16-bit read at even I/O offset `off` returns (R106, R110 to R120). -/
def ioRead16 (s : State) (off : Nat) : Half :=
  if off = 0x004 then s.dispstat
  else if off = 0x006 then s.vcount.zeroExtend 16
  else if 0x0B0 ≤ off ∧ off < 0x0E0 then
    readDmaReg (s.dmaChannel (Fin.ofNat 4 ((off - 0x0B0) / 12))) ((off - 0x0B0) % 12)
  else if 0x100 ≤ off ∧ off < 0x110 then
    let t := s.timer (Fin.ofNat 4 ((off - 0x100) / 4))
    if off % 4 = 0 then t.counter else t.ctrl
  else if off = 0x130 then s.keyinput
  else if off = 0x200 then s.ie
  else if off = 0x202 then s.if_
  else if off = 0x208 then s.ime
  else if off = 0x300 then s.ioHalf off &&& 0x00FF#16    -- HALTCNT, the high byte, reads 0 (R118)
  else s.ioHalf off

/-- `MemRead(a, 1)` (R90). A visible GPIO register answers whatever ROM_SIZE is (R86, R716). -/
def State.read8 (s : State) (a : Word) : Byte :=
  let off := offsetOf a
  match regionOf a with
  | 4 =>
    if off < 0x400 then
      let h := ioRead16 s (off / 2 * 2)
      if off % 2 = 0 then loByte h else hiByte h
    else 0
  | 14 => flashRead s (off % 0x20000)
  | r =>
    if r = 8 ∧ s.gpioVisible = true ∧ inGpioWindow (romOffset a) = true then
      let h := readGpio s (romOffset a / 2 * 2)
      if romOffset a % 2 = 0 then loByte h else hiByte h
    else
      match bufferKey s.romSize a with
      | none => 0
      | some k => Memory.get s.mem k

/-- `MemRead(a, 2)`: the aligned halfword, little-endian; 0 from flash (R87, R89, R90). An I/O register's halfword is the
pair of its bytes (R106). Where the aligned address is unmapped, so is every byte after it (R88); where only it lies below
ROM_SIZE, the bytes beyond read 0 (log entry 7). -/
def State.read16 (s : State) (a : Word) : Half :=
  if regionOf a = 14 then 0 else s.read8 (align2 a + 1) ++ s.read8 (align2 a)

/-- `MemRead(a, 4)`: the aligned word, little-endian; 0 from flash. -/
def State.read32 (s : State) (a : Word) : Word :=
  if regionOf a = 14 then 0
  else s.read8 (align4 a + 3) ++ s.read8 (align4 a + 2) ++ s.read8 (align4 a + 1) ++ s.read8 (align4 a)

/-- `MemReadRot(a)` (R92): the aligned word rotated right by 8·a[1:0]. -/
def State.readRot (s : State) (a : Word) : Word := ror (s.read32 a) (8 * (a.toNat % 4))

/-! ## Writing

A write to DMAnCNT_H whose enable bit rises runs the channel. The functions below take that as an argument `rise`, which
the DMA engine further down ties. -/

/-- `RefValue(v)` (R771): bits 27:0 as a signed number. -/
def refValue (v : Word) : Word := (v.extractLsb' 0 28).signExtend 32

/-- A write to half of BGnX or BGnY stores it and reloads the internal reference (R772). -/
def writeRefHalf (s : State) (off : Nat) (v : Half) : State :=
  let s1 := s.setIoHalf off v
  match off / 4 * 4 with
  | 0x28 => { s1 with refX2 := refValue (s1.ioWord 0x28) }
  | 0x2C => { s1 with refY2 := refValue (s1.ioWord 0x2C) }
  | 0x38 => { s1 with refX3 := refValue (s1.ioWord 0x38) }
  | _ => { s1 with refY3 := refValue (s1.ioWord 0x3C) }

/-- The I/O offsets of BG2X, BG2Y, BG3X and BG3Y. -/
def isRefReg (off : Nat) : Bool := (decide (0x28 ≤ off) && decide (off < 0x30)) || (decide (0x38 ≤ off) && decide (off < 0x40))

/-- A write to a register of DMA channel `n` (R114); `reg` is the offset in the channel's twelve bytes. -/
def writeDmaReg (rise : Fin 4 → State → State) (s : State) (n : Fin 4) (reg : Nat) (v : Half) : State :=
  let d := s.dmaChannel n
  match reg with
  | 0 => s.setDma n { d with src := withLo d.src v }
  | 2 => s.setDma n { d with src := withHi d.src v }
  | 4 => s.setDma n { d with dst := withLo d.dst v }
  | 6 => s.setDma n { d with dst := withHi d.dst v }
  | 8 => s.setDma n { d with count := v }
  | _ =>
    let s1 := s.setDma n { d with ctrl := v }
    if d.enabled = false ∧ v.getLsbD 15 = true then rise n s1 else s1

/-- The write behaviour of the register at even I/O offset `off` (R107 to R120). -/
def ioWrite16 (rise : Fin 4 → State → State) (s : State) (off : Nat) (v : Half) : State :=
  if off = 0x004 then { s with dispstat := (v &&& 0xFFF8#16) ||| (s.dispstat &&& 0x0007#16) }
  else if off = 0x006 then s
  else if isRefReg off then writeRefHalf s off v
  else if 0x0B0 ≤ off ∧ off < 0x0E0 then
    writeDmaReg rise s (Fin.ofNat 4 ((off - 0x0B0) / 12)) ((off - 0x0B0) % 12) v
  else if 0x100 ≤ off ∧ off < 0x110 then
    if off % 4 = 0 then writeTimerReload s (Fin.ofNat 4 ((off - 0x100) / 4)) v
    else writeTimerControl s (Fin.ofNat 4 ((off - 0x100) / 4)) v
  else if off = 0x130 then s
  else if off = 0x200 then { s with ie := v }
  else if off = 0x202 then { s with if_ := s.if_ &&& ~~~v }
  else if off = 0x208 then { s with ime := v }
  else if off = 0x300 then
    { s with mem := Memory.set s.mem (ioKey 0x300) (loByte v), halted := true }
  else s.setIoHalf off v

/-- The stored value an 8-bit write merges with (R107): a timer's reload, not its counter; 0 for IF. -/
def ioStored16 (s : State) (off : Nat) : Half :=
  if off = 0x202 then 0
  else if 0x100 ≤ off ∧ off < 0x110 ∧ off % 4 = 0 then (s.timer (Fin.ofNat 4 ((off - 0x100) / 4))).reload
  else ioRead16 s off

/-- An 8-bit I/O write (R107). POSTFLG at 0x300 is a byte of storage of its own: only a write to 0x301 halts (R117,
R118). -/
def ioWrite8 (rise : Fin 4 → State → State) (s : State) (off : Nat) (v : Byte) : State :=
  if off = 0x300 then { s with mem := Memory.set s.mem (ioKey 0x300) v }
  else
    let old := ioStored16 s (off / 2 * 2)
    ioWrite16 rise s (off / 2 * 2) (if off % 2 = 0 then hiByte old ++ v else v ++ loByte old)

/-- A 32-bit I/O write: the low half first (R107). -/
def ioWrite32 (rise : Fin 4 → State → State) (s : State) (off : Nat) (v : Word) : State :=
  ioWrite16 rise (ioWrite16 rise s off (loHalf v)) (off + 2) (hiHalf v)

/-- A byte of a plain buffer stored; the caller has excluded the read-only regions. -/
def storeByte (s : State) (a : Word) (v : Byte) : State :=
  match bufferKey s.romSize a with
  | some k => { s with mem := Memory.set s.mem k v }
  | none => s

/-- Two, and four, bytes of a plain buffer stored at an aligned address, the low byte first. -/
def storeHalf (s : State) (a : Word) (v : Half) : State := storeByte (storeByte s a (loByte v)) (a + 1) (hiByte v)
def storeWord (s : State) (a : Word) (v : Word) : State :=
  storeByte (storeByte (storeByte (storeByte s a (byteOf v 0)) (a + 1) (byteOf v 1)) (a + 2) (byteOf v 2)) (a + 3)
    (byteOf v 3)

/-- The regions whose buffers 16- and 32-bit writes reach: work RAM, palette, VRAM and OAM (R82). -/
def isRam (region : Nat) : Bool :=
  match region with
  | 1 => true | 2 => true | 3 => true | 5 => true | 6 => true | 7 => true | _ => false

/-- `MemWrite(a, 1, v)` (R91, R94, R716). -/
def write8With (rise : Fin 4 → State → State) (s : State) (a : Word) (v : Byte) : State :=
  match regionOf a with
  | 1 => storeByte s a v
  | 2 => storeByte s a v
  | 3 => storeByte s a v
  | 4 => if offsetOf a < 0x400 then ioWrite8 rise s (offsetOf a) v else s
  | 5 => storeHalf s (align2 a) (v ++ v)
  | 6 => storeHalf s (align2 a) (v ++ v)
  | 8 => writeGpio s (romOffset a) (v.zeroExtend 16)   -- an odd offset is no GPIO register: dropped
  | 14 => flashWrite s (offsetOf a % 0x20000) v
  | _ => s

/-- `MemWrite(a, 2, v)` (R91, R716). -/
def write16With (rise : Fin 4 → State → State) (s : State) (a : Word) (v : Half) : State :=
  let a := align2 a
  if isRam (regionOf a) then storeHalf s a v
  else if regionOf a = 4 ∧ offsetOf a < 0x400 then ioWrite16 rise s (offsetOf a) v
  else if regionOf a = 8 then writeGpio s (romOffset a) v
  else s

/-- `MemWrite(a, 4, v)` (R91, R716): a word at the GPIO data register writes data then direction, at the control
register control only. -/
def write32With (rise : Fin 4 → State → State) (s : State) (a : Word) (v : Word) : State :=
  let a := align4 a
  if isRam (regionOf a) then storeWord s a v
  else if regionOf a = 4 ∧ offsetOf a < 0x400 then ioWrite32 rise s (offsetOf a) v
  else if regionOf a = 8 then writeGpio (writeGpio s (romOffset a) (loHalf v)) (romOffset a + 2) (hiHalf v)
  else s

/-! ## The DMA engine -/

/-- One unit of a transfer (R684): read at `src`, written at `dst`, aligned down and never rotated. -/
def dmaUnit (rise : Fin 4 → State → State) (word : Bool) (s : State) (src dst : Word) : State :=
  if word then write32With rise s dst (s.read32 src) else write16With rise s dst (s.read16 src)

/-- The transfer loop of `DmaRun` (R684): `k` units from `src` to `dst`; answers the state and the final addresses. -/
def dmaUnits (rise : Fin 4 → State → State) (word : Bool) (sm dm : Nat) :
    (k : Nat) → State → (src dst : Word) → State × Word × Word
  | 0, s, src, dst => (s, src, dst)
  | k + 1, s, src, dst =>
    let u : Word := if word then 4 else 2
    dmaUnits rise word sm dm k (dmaUnit rise word s src dst) (dmaAdv src sm u) (dmaAdv dst dm u)

/-- The completion of `DmaRun(n)` (R684, R688). The address modes, repeat and size are those the run began with (R690: a
change takes effect at the next run); `irq_enable` is the current one. -/
def dmaComplete (n : Fin 4) (d0 : DmaChannel) (s : State) (src dst : Word) : State :=
  let d := s.dmaChannel n
  let s1 := if d.irqEnable then s.raiseIrq (8 + n.val) else s
  if d0.repeats then
    s1.setDma n { d with internalSrc := src, internalCount := effCount n d.count,
                         internalDst := if d0.dstMode = 3 then mask28 d.dst else dst }
  else s1.setDma n { d with internalSrc := src, internalDst := dst, ctrl := d.ctrl &&& 0x7FFF#16 }

/-- `DmaRun(n)` (R684): the whole transfer. -/
def dmaRunWith (rise : Fin 4 → State → State) (n : Fin 4) (s : State) : State :=
  let d := s.dmaChannel n
  let r := dmaUnits rise d.wordTransfer d.srcMode d.dstMode d.internalCount.toNat s d.internalSrc d.internalDst
  dmaComplete n d r.1 r.2.1 r.2.2

/-- A rising enable of channel `n` (R114): the channel latches and, if its timing is immediate, runs inside the write.
A channel that is running cannot see a rising edge (R686), so at most four runs nest; `fuel` bounds the nesting. -/
def dmaRise : (fuel : Nat) → (running : List (Fin 4)) → Fin 4 → State → State
  | 0, _, _, s => s
  | fuel + 1, running, n, s =>
    if n ∈ running then s
    else
      let s1 := s.setDma n ((s.dmaChannel n).latch n)
      if (s1.dmaChannel n).timing = 0 then dmaRunWith (dmaRise fuel (n :: running)) n s1 else s1

/-- `rise` for a write by the CPU or the host, when no channel is running. -/
def rising : Fin 4 → State → State := dmaRise 4 []

/-- The bus writes of the CPU, the BIOS calls and the host. -/
def State.write8 (s : State) (a : Word) (v : Byte) : State := write8With rising s a v
def State.write16 (s : State) (a : Word) (v : Half) : State := write16With rising s a v
def State.write32 (s : State) (a : Word) (v : Word) : State := write32With rising s a v

/-- The turn of channel `n` in `DmaTrigger(t)` (R687). -/
def dmaTriggerOne (t : Nat) (s : State) (n : Fin 4) : State :=
  if (s.dmaChannel n).enabled = true ∧ (s.dmaChannel n).timing = t then dmaRunWith (dmaRise 3 [n]) n s else s

/-- `DmaTrigger(t)` (R687): VBLANK is 1, HBLANK is 2; channel 0 first. -/
def dmaTrigger (s : State) (t : Nat) : State :=
  dmaTriggerOne t (dmaTriggerOne t (dmaTriggerOne t (dmaTriggerOne t s 0) 1) 2) 3

end Sys2Proof.Machine
end

