-- ==== Sys2Proof/Machine/ArmLoadStore.lean ====
section
/-! DEFINITION. Machine/ArmLoadStore.lean: spec/44_arm_load_store.md R330 to R361. -/

namespace Sys2Proof.Machine

/-- The stop of U5, U9, U10 (R623). -/
def unpredictable (i : Instr) (s : State) : Result := .fault (.unpredictableEncoding s.ia i)

/-- A load (R332): the data is read first, then the base is written back unless it is the destination (R331), then the
destination is written or branched to. A writeback to R15 stops (U5). -/
def execLoad (i : Instr) (s : State) (p u w : Bool) (rn rd : Reg) (offset : Word) (read : Word → Word) : Result :=
  if rn = 15 ∧ writesBack p w = true then unpredictable i s
  else
    finishWrite s (loadWriteBack s (writesBack p w) rn rd (indexed s u rn offset)) rd
      (read (transferAddr s p u rn offset))

/-- A store (R333): `write` makes the access at an address; then the base is written back. -/
def execStore (i : Instr) (s : State) (p u w : Bool) (rn : Reg) (offset : Word) (write : Word → State) : Result :=
  if rn = 15 ∧ writesBack p w = true then unpredictable i s
  else
    .next (writeBack (write (transferAddr s p u rn offset)) (writesBack p w) rn (indexed s u rn offset)).advance

/-- LDR (R332). -/
def execLdr (c : Cond) (p u w : Bool) (rn rd : Reg) (off : Offset) (s : State) : Result :=
  conditionally c s fun s => execLoad (.ldr c p u w rn rd off) s p u w rn rd (offsetValue s off) s.readRot

/-- STR (R333): storing R15 stores IA + 8. -/
def execStr (c : Cond) (p u w : Bool) (rn rd : Reg) (off : Offset) (s : State) : Result :=
  conditionally c s fun s =>
    execStore (.str c p u w rn rd off) s p u w rn (offsetValue s off) fun a => s.write32 a (s.reg rd)

/-- LDRB (R334). -/
def execLdrb (c : Cond) (p u w : Bool) (rn rd : Reg) (off : Offset) (s : State) : Result :=
  conditionally c s fun s =>
    execLoad (.ldrb c p u w rn rd off) s p u w rn rd (offsetValue s off) fun a => zext8 (s.read8 a)

/-- STRB (R335). -/
def execStrb (c : Cond) (p u w : Bool) (rn rd : Reg) (off : Offset) (s : State) : Result :=
  conditionally c s fun s =>
    execStore (.strb c p u w rn rd off) s p u w rn (offsetValue s off) fun a => s.write8 a (byteOf (s.reg rd) 0)

/-- LDRT (R336): LDR with P = 0; the bus checks no privilege. -/
def execLdrt (c : Cond) (u : Bool) (rn rd : Reg) (off : Offset) (s : State) : Result :=
  conditionally c s fun s => execLoad (.ldrt c u rn rd off) s false u true rn rd (offsetValue s off) s.readRot

/-- STRT (R337). -/
def execStrt (c : Cond) (u : Bool) (rn rd : Reg) (off : Offset) (s : State) : Result :=
  conditionally c s fun s =>
    execStore (.strt c u rn rd off) s false u true rn (offsetValue s off) fun a => s.write32 a (s.reg rd)

/-- LDRBT (R338). -/
def execLdrbt (c : Cond) (u : Bool) (rn rd : Reg) (off : Offset) (s : State) : Result :=
  conditionally c s fun s =>
    execLoad (.ldrbt c u rn rd off) s false u true rn rd (offsetValue s off) fun a => zext8 (s.read8 a)

/-- STRBT (R339). -/
def execStrbt (c : Cond) (u : Bool) (rn rd : Reg) (off : Offset) (s : State) : Result :=
  conditionally c s fun s =>
    execStore (.strbt c u rn rd off) s false u true rn (offsetValue s off) fun a => s.write8 a (byteOf (s.reg rd) 0)

/-- LDRH with a register offset (R340, R341). -/
def execLdrhReg (c : Cond) (p u w : Bool) (rn rd rm : Reg) (s : State) : Result :=
  conditionally c s fun s =>
    execLoad (.ldrhReg c p u w rn rd rm) s p u w rn rd (s.reg rm) fun a => zext16 (s.read16 a)

/-- LDRH with an immediate offset. -/
def execLdrhImm (c : Cond) (p u w : Bool) (rn rd : Reg) (imm8 : BitVec 8) (s : State) : Result :=
  conditionally c s fun s =>
    execLoad (.ldrhImm c p u w rn rd imm8) s p u w rn rd (zext8 imm8) fun a => zext16 (s.read16 a)

/-- STRH with a register offset (R342). -/
def execStrhReg (c : Cond) (p u w : Bool) (rn rd rm : Reg) (s : State) : Result :=
  conditionally c s fun s =>
    execStore (.strhReg c p u w rn rd rm) s p u w rn (s.reg rm) fun a => s.write16 a (loHalf (s.reg rd))

/-- STRH with an immediate offset. -/
def execStrhImm (c : Cond) (p u w : Bool) (rn rd : Reg) (imm8 : BitVec 8) (s : State) : Result :=
  conditionally c s fun s =>
    execStore (.strhImm c p u w rn rd imm8) s p u w rn (zext8 imm8) fun a => s.write16 a (loHalf (s.reg rd))

/-- LDRSB with a register offset (R343). -/
def execLdrsbReg (c : Cond) (p u w : Bool) (rn rd rm : Reg) (s : State) : Result :=
  conditionally c s fun s =>
    execLoad (.ldrsbReg c p u w rn rd rm) s p u w rn rd (s.reg rm) fun a => sext8 (s.read8 a)

/-- LDRSB with an immediate offset. -/
def execLdrsbImm (c : Cond) (p u w : Bool) (rn rd : Reg) (imm8 : BitVec 8) (s : State) : Result :=
  conditionally c s fun s =>
    execLoad (.ldrsbImm c p u w rn rd imm8) s p u w rn rd (zext8 imm8) fun a => sext8 (s.read8 a)

/-- LDRSH with a register offset (R344). -/
def execLdrshReg (c : Cond) (p u w : Bool) (rn rd rm : Reg) (s : State) : Result :=
  conditionally c s fun s =>
    execLoad (.ldrshReg c p u w rn rd rm) s p u w rn rd (s.reg rm) fun a => sext16 (s.read16 a)

/-- LDRSH with an immediate offset. -/
def execLdrshImm (c : Cond) (p u w : Bool) (rn rd : Reg) (imm8 : BitVec 8) (s : State) : Result :=
  conditionally c s fun s =>
    execLoad (.ldrshImm c p u w rn rd imm8) s p u w rn rd (zext8 imm8) fun a => sext16 (s.read16 a)

/-- SWP (R360): the read half is rotated like LDR; every source is read before Rd is written. -/
def execSwp (c : Cond) (rn rd rm : Reg) (s : State) : Result :=
  conditionally c s fun s => finishWrite s (s.write32 (s.reg rn) (s.reg rm)) rd (s.readRot (s.reg rn))

/-- SWPB (R361). -/
def execSwpb (c : Cond) (rn rd rm : Reg) (s : State) : Result :=
  conditionally c s fun s =>
    finishWrite s (s.write8 (s.reg rn) (byteOf (s.reg rm) 0)) rd (zext8 (s.read8 (s.reg rn)))

end Sys2Proof.Machine
end

