-- ==== Sys2Proof/Machine/ArmBlock.lean ====
section
/-! DEFINITION. Machine/ArmBlock.lean: spec/45_arm_block_transfer.md R370 to R374: LDM, STM, the exception return and the
user-bank transfers. The shared operations serve the Thumb block transfers too. -/

namespace Sys2Proof.Machine

/-- The registers below R15 of a list loaded, in ascending order, into the bank of `bank`; the words come from the memory
of `m` (reads change nothing, R98). -/
def loadRegs (m : State) (bank : Mode) (ts : List (Reg × Word)) (s : State) : State :=
  ts.foldl (fun s t => s.setRegIn bank t.1 (m.read32 t.2)) s

/-- The word a list loads into R15, if it names it. -/
def loadedPc (m : State) (ts : List (Reg × Word)) : Option Word :=
  (ts.find? fun t => t.1 == 15).map fun t => m.read32 t.2

/-- The words of a list stored in ascending order, each with its side effects before the next (R370, R372). -/
def storeRegs (value : Reg → Word) (ts : List (Reg × Word)) (s : State) : State :=
  ts.foldl (fun s t => s.write32 t.2 (value t.1)) s

/-- The value STM stores for register `i` (R372): the base register that is not the first of the list stores the
written-back value. -/
def stmValue (s : State) (bank : Mode) (w : Bool) (rn : Reg) (regs : List Reg) (final : Word) (i : Reg) : Word :=
  if i = rn ∧ w = true ∧ isFirst regs i = false then final else s.regIn bank i

/-- An empty list (U10), or a writeback to R15 as base (U9), stops. -/
def blockStops (w : Bool) (rn : Reg) (regs : List Reg) : Bool := regs.isEmpty || (rn == 15 && w)

/-- LDM (R371, R373, R374): the writeback first, so that a loaded base overrides it; registers of `bank`; CPSR restored
after all loads when `restore` holds; then the branch. -/
def execLdmWith (i : Instr) (s : State) (bank : Mode) (restore : Bool) (p u w : Bool) (rn : Reg) (list : BitVec 16) :
    Result :=
  let regs := listRegs list
  if blockStops w rn regs then unpredictable i s
  else
    let ts := withAddrs (blockStart (s.reg rn) p u regs) regs
    let s1 := loadRegs s bank ts (writeBack s w rn (blockFinal (s.reg rn) u regs))
    match loadedPc s ts with
    | some v => jump s (if restore then s1.restoreCpsr else s1) v
    | none => .next s1.advance

/-- STM (R372, R374): the stores, then the writeback. -/
def execStmWith (i : Instr) (s : State) (bank : Mode) (p u w : Bool) (rn : Reg) (list : BitVec 16) : Result :=
  let regs := listRegs list
  if blockStops w rn regs then unpredictable i s
  else
    let final := blockFinal (s.reg rn) u regs
    let ts := withAddrs (blockStart (s.reg rn) p u regs) regs
    .next (writeBack (storeRegs (stmValue s bank w rn regs final) ts s) w rn final).advance

/-- LDM (R371). -/
def execLdm (c : Cond) (p u w : Bool) (rn : Reg) (list : BitVec 16) (s : State) : Result :=
  conditionally c s fun s => execLdmWith (.ldm c p u w rn list) s s.mode false p u w rn list

/-- STM (R372). -/
def execStm (c : Cond) (p u w : Bool) (rn : Reg) (list : BitVec 16) (s : State) : Result :=
  conditionally c s fun s => execStmWith (.stm c p u w rn list) s s.mode p u w rn list

/-- LDM with R15 and S = 1, the exception return (R373): the mode changes last. -/
def execLdmRet (c : Cond) (p u w : Bool) (rn : Reg) (list : BitVec 16) (s : State) : Result :=
  conditionally c s fun s => execLdmWith (.ldmRet c p u w rn list) s s.mode true p u w rn list

/-- LDM of the user bank (R374): the base and its writeback are the current mode's. -/
def execLdmUser (c : Cond) (p u w : Bool) (rn : Reg) (list : BitVec 16) (s : State) : Result :=
  conditionally c s fun s => execLdmWith (.ldmUser c p u w rn list) s .usr false p u w rn list

/-- STM of the user bank (R374). -/
def execStmUser (c : Cond) (p u w : Bool) (rn : Reg) (list : BitVec 16) (s : State) : Result :=
  conditionally c s fun s => execStmWith (.stmUser c p u w rn list) s .usr p u w rn list

end Sys2Proof.Machine
end

