-- ==== Sys2Proof/Machine/Flags.lean ====
section
/-! DEFINITION. Machine/Flags.lean: every flag computation of spec/40_arm_common.md section 4 and of the multiplies
(R310). Sums and differences are computed as exact integers; carry and overflow are read off them. -/

namespace Sys2Proof.Machine

/-- N and Z of a 32-bit result, with C and V given. -/
def nzFlags (result : Word) (c v : Bool) : Nzcv := { n := result.getLsbD 31, z := result == 0#32, c := c, v := v }

/-- `update_flags_logical` (R220): C is the shifter's carry, V is untouched. -/
def logicalFlags (s : State) (result : Word) (carry : Bool) : Nzcv := nzFlags result carry s.flagV

/-- N and Z only; C and V are untouched (R310 and the Thumb logical operations of R460 to R475). -/
def nzOnly (s : State) (result : Word) : Nzcv := nzFlags result s.flagC s.flagV

/-- Overflow of a + b: the operands have one sign and the result the other. -/
def addOverflow (a b result : Word) : Bool :=
  a.getLsbD 31 == b.getLsbD 31 && result.getLsbD 31 != a.getLsbD 31

/-- Overflow of a − b: the operands differ in sign and the result differs from `a`. -/
def subOverflow (a b result : Word) : Bool :=
  a.getLsbD 31 != b.getLsbD 31 && result.getLsbD 31 != a.getLsbD 31

/-- `update_flags_add` (R221). -/
def addFlags (a b : Word) : Nzcv :=
  nzFlags (a + b) (decide (2^32 ≤ a.toNat + b.toNat)) (addOverflow a b (a + b))

/-- `update_flags_sub` (R222): C is NOT borrow. -/
def subFlags (a b : Word) : Nzcv :=
  nzFlags (a - b) (decide (b.toNat ≤ a.toNat)) (subOverflow a b (a - b))

/-- A carry as a word. -/
def carryWord (c : Bool) : Word := if c then 1 else 0

/-- `a + b + C` modulo 2^32 (R223). -/
def adcResult (a b : Word) (c : Bool) : Word := a + b + carryWord c

/-- The flags of ADC (R223). -/
def adcFlags (a b : Word) (c : Bool) : Nzcv :=
  nzFlags (adcResult a b c) (decide (2^32 ≤ a.toNat + b.toNat + c.toNat)) (addOverflow a b (adcResult a b c))

/-- `a − b − (1 − C)` modulo 2^32 (R223). -/
def sbcResult (a b : Word) (c : Bool) : Word := a - b - carryWord (!c)

/-- The flags of SBC, and of RSC with the operands exchanged (R223): C is set when the exact difference is not
negative. -/
def sbcFlags (a b : Word) (c : Bool) : Nzcv :=
  nzFlags (sbcResult a b c) (decide (0 ≤ (a.toNat : Int) - b.toNat - (!c).toNat)) (subOverflow a b (sbcResult a b c))

/-- N and Z of a 64-bit product (R310, R313 to R316); C and V are untouched. -/
def longFlags (s : State) (p : BitVec 64) : Nzcv :=
  { n := p.getLsbD 63, z := p == 0#64, c := s.flagC, v := s.flagV }

end Sys2Proof.Machine
end

