-- ==== Sys2Proof/Machine/ArmBranchPsr.lean ====
section
/-! DEFINITION. Machine/ArmBranchPsr.lean: spec/41_arm_branch_psr.md: the words that never execute, BX, B, BL, MRS, MSR. -/

namespace Sys2Proof.Machine

/-- Condition 0xF (R169): a no-op that advances R15, whatever the other bits are. -/
def execArmNever (_bits : BitVec 28) (s : State) : Result := .next s.advance

/-- BX (R241). -/
def execBx (c : Cond) (rm : Reg) (s : State) : Result :=
  conditionally c s fun s => jumpExchange s s (s.reg rm)

/-- B (R243): relative to IA + 8, which R15 reads as. -/
def execB (c : Cond) (offset24 : BitVec 24) (s : State) : Result :=
  conditionally c s fun s => jump s s (s.reg 15 + armBranchOffset offset24)

/-- BL (R244). -/
def execBl (c : Cond) (offset24 : BitVec 24) (s : State) : Result :=
  conditionally c s fun s => jump s (s.setReg 14 (s.ia + 4)) (s.reg 15 + armBranchOffset offset24)

/-- The status register MRS reads (R250): a mode without an SPSR reads CPSR. -/
def psrValue (s : State) (ps : Bool) : Word := if ps then (s.spsrOf s.mode).getD s.cpsr else s.cpsr

/-- MRS (R250); Rd = 15 is `pc <- value` (U2). -/
def execMrs (c : Cond) (ps : Bool) (rd : Reg) (s : State) : Result :=
  conditionally c s fun s => finishWrite s s rd (psrValue s ps)

/-- The bytes of the PSR that the field mask selects (R154, R253). -/
def psrMask (fields : BitVec 4) : Word :=
  (if fields.getLsbD 3 then 0xFF000000#32 else 0) ||| (if fields.getLsbD 2 then 0x00FF0000#32 else 0)
    ||| (if fields.getLsbD 1 then 0x0000FF00#32 else 0) ||| (if fields.getLsbD 0 then 0x000000FF#32 else 0)

/-- The bits of CPSR that MSR writes: in User mode the flags byte only (R253, R661). -/
def cpsrMask (s : State) (fields : BitVec 4) : Word :=
  if s.mode = .usr then psrMask fields &&& 0xFF000000#32 else psrMask fields

/-- `v` in the bits of the mask, `old` elsewhere. -/
def mergeBits (old v m : Word) : Word := (old &&& ~~~m) ||| (v &&& m)

/-- The advance after a write to CPSR: a change of T re-bases R15 to the next instruction in the new state (R48, R253).
`s` is the state before the write. -/
def advanceRebased (s s' : State) : State :=
  if s'.thumb = s.thumb then s'.advance else { s' with r15 := s.ia + 4 + prefetchOffset s'.thumb }

/-- `WritePSR` (R253). An SPSR receives the value unclamped; a mode without one writes nothing. -/
def writePsr (s : State) (pd : Bool) (fields : BitVec 4) (v : Word) : State :=
  if pd then
    match s.spsrOf s.mode with
    | some old => (s.setSpsrOf s.mode (mergeBits old v (psrMask fields))).advance
    | none => s.advance
  else advanceRebased s (s.setCpsr (mergeBits s.cpsr v (cpsrMask s fields)))

/-- MSR, register form (R251). -/
def execMsrReg (c : Cond) (pd : Bool) (fields : BitVec 4) (rm : Reg) (s : State) : Result :=
  conditionally c s fun s => .next (writePsr s pd fields (s.reg rm))

/-- MSR, immediate form (R252). -/
def execMsrImm (c : Cond) (pd : Bool) (fields rotate : BitVec 4) (imm8 : BitVec 8) (s : State) : Result :=
  conditionally c s fun s => .next (writePsr s pd fields (rotatedImm rotate imm8))

end Sys2Proof.Machine
end

