-- ==== Sys2Proof/Machine/ArmDataProcessing.lean ====
section
/-! DEFINITION. Machine/ArmDataProcessing.lean: spec/42_arm_data_processing.md R270 to R295. -/

namespace Sys2Proof.Machine

/-- The end of a data-processing instruction that writes `rd` (R271): with Rd = 15 and S the flags are not written and
CPSR is restored from SPSR before the branch (R272). -/
def finishAlu (s : State) (sBit : Bool) (rd : Reg) (result : Word) (f : Nzcv) : Result :=
  if rd = 15 then jump s (if sBit then s.restoreCpsr else s) result
  else .next ((s.setReg rd result).setFlagsIf sBit f).advance

/-- The end of a comparison (R271): the flags only. -/
def finishCompare (s : State) (f : Nzcv) : Result := .next (s.setFlags f).advance

/-- AND (R280). -/
def execAnd (c : Cond) (sBit : Bool) (rn rd : Reg) (op2 : Op2) (s : State) : Result :=
  conditionally c s fun s =>
    let b := operand2 s op2
    let r := s.reg rn &&& b.value
    finishAlu s sBit rd r (logicalFlags s r b.carry)

/-- EOR (R281). -/
def execEor (c : Cond) (sBit : Bool) (rn rd : Reg) (op2 : Op2) (s : State) : Result :=
  conditionally c s fun s =>
    let b := operand2 s op2
    let r := s.reg rn ^^^ b.value
    finishAlu s sBit rd r (logicalFlags s r b.carry)

/-- SUB (R282). -/
def execSub (c : Cond) (sBit : Bool) (rn rd : Reg) (op2 : Op2) (s : State) : Result :=
  conditionally c s fun s =>
    let a := s.reg rn
    let b := (operand2 s op2).value
    finishAlu s sBit rd (a - b) (subFlags a b)

/-- RSB (R283). -/
def execRsb (c : Cond) (sBit : Bool) (rn rd : Reg) (op2 : Op2) (s : State) : Result :=
  conditionally c s fun s =>
    let a := s.reg rn
    let b := (operand2 s op2).value
    finishAlu s sBit rd (b - a) (subFlags b a)

/-- ADD (R284). -/
def execAdd (c : Cond) (sBit : Bool) (rn rd : Reg) (op2 : Op2) (s : State) : Result :=
  conditionally c s fun s =>
    let a := s.reg rn
    let b := (operand2 s op2).value
    finishAlu s sBit rd (a + b) (addFlags a b)

/-- ADC (R285). -/
def execAdc (c : Cond) (sBit : Bool) (rn rd : Reg) (op2 : Op2) (s : State) : Result :=
  conditionally c s fun s =>
    let a := s.reg rn
    let b := (operand2 s op2).value
    finishAlu s sBit rd (adcResult a b s.flagC) (adcFlags a b s.flagC)

/-- SBC (R286). -/
def execSbc (c : Cond) (sBit : Bool) (rn rd : Reg) (op2 : Op2) (s : State) : Result :=
  conditionally c s fun s =>
    let a := s.reg rn
    let b := (operand2 s op2).value
    finishAlu s sBit rd (sbcResult a b s.flagC) (sbcFlags a b s.flagC)

/-- RSC (R287): SBC with the operands exchanged. -/
def execRsc (c : Cond) (sBit : Bool) (rn rd : Reg) (op2 : Op2) (s : State) : Result :=
  conditionally c s fun s =>
    let a := s.reg rn
    let b := (operand2 s op2).value
    finishAlu s sBit rd (sbcResult b a s.flagC) (sbcFlags b a s.flagC)

/-- TST (R288). -/
def execTst (c : Cond) (rn : Reg) (_sbz : BitVec 4) (op2 : Op2) (s : State) : Result :=
  conditionally c s fun s =>
    let b := operand2 s op2
    finishCompare s (logicalFlags s (s.reg rn &&& b.value) b.carry)

/-- TEQ (R289). -/
def execTeq (c : Cond) (rn : Reg) (_sbz : BitVec 4) (op2 : Op2) (s : State) : Result :=
  conditionally c s fun s =>
    let b := operand2 s op2
    finishCompare s (logicalFlags s (s.reg rn ^^^ b.value) b.carry)

/-- CMP (R290). -/
def execCmp (c : Cond) (rn : Reg) (_sbz : BitVec 4) (op2 : Op2) (s : State) : Result :=
  conditionally c s fun s => finishCompare s (subFlags (s.reg rn) (operand2 s op2).value)

/-- CMN (R291). -/
def execCmn (c : Cond) (rn : Reg) (_sbz : BitVec 4) (op2 : Op2) (s : State) : Result :=
  conditionally c s fun s => finishCompare s (addFlags (s.reg rn) (operand2 s op2).value)

/-- ORR (R292). -/
def execOrr (c : Cond) (sBit : Bool) (rn rd : Reg) (op2 : Op2) (s : State) : Result :=
  conditionally c s fun s =>
    let b := operand2 s op2
    let r := s.reg rn ||| b.value
    finishAlu s sBit rd r (logicalFlags s r b.carry)

/-- MOV (R293); Rn is ignored. -/
def execMov (c : Cond) (sBit : Bool) (_sbz : BitVec 4) (rd : Reg) (op2 : Op2) (s : State) : Result :=
  conditionally c s fun s =>
    let b := operand2 s op2
    finishAlu s sBit rd b.value (logicalFlags s b.value b.carry)

/-- BIC (R294). -/
def execBic (c : Cond) (sBit : Bool) (rn rd : Reg) (op2 : Op2) (s : State) : Result :=
  conditionally c s fun s =>
    let b := operand2 s op2
    let r := s.reg rn &&& ~~~b.value
    finishAlu s sBit rd r (logicalFlags s r b.carry)

/-- MVN (R295); Rn is ignored. -/
def execMvn (c : Cond) (sBit : Bool) (_sbz : BitVec 4) (rd : Reg) (op2 : Op2) (s : State) : Result :=
  conditionally c s fun s =>
    let b := operand2 s op2
    finishAlu s sBit rd (~~~b.value) (logicalFlags s (~~~b.value) b.carry)

end Sys2Proof.Machine
end

