-- ==== Sys2Proof/Machine/ArmMultiply.lean ====
section
/-! DEFINITION. Machine/ArmMultiply.lean: spec/43_arm_multiply.md R310 to R316. C and V are unchanged (D13); R15 as a
destination is `pc <- result` (U4). -/

namespace Sys2Proof.Machine

/-- The end of MUL and MLA. -/
def finishMul (s : State) (sBit : Bool) (rd : Reg) (result : Word) : Result :=
  finishWrite s (s.setFlagsIf sBit (nzOnly s result)) rd result

/-- The end of a long multiply: RdLo is written first, RdHi last (R313, U4). A half that goes to R15 is a branch; if the
PC guard refuses either, the instruction does nothing. -/
def finishLong (s : State) (sBit : Bool) (rdHi rdLo : Reg) (p : BitVec 64) : Result :=
  let lo : Word := p.extractLsb' 0 32
  let hi : Word := p.extractLsb' 32 32
  let s1 := s.setFlagsIf sBit (longFlags s p)
  if rdLo = 15 then
    if s.pcRefused lo then .next s.advance
    else if rdHi = 15 then jump s s1 hi
    else .next ((s1.branchTo lo).setReg rdHi hi)
  else finishWrite s (s1.setReg rdLo lo) rdHi hi

/-- `R[RdHi] ‖ R[RdLo]`. -/
def accumulator (s : State) (rdHi rdLo : Reg) : BitVec 64 := s.reg rdHi ++ s.reg rdLo

/-- The 64-bit products. -/
def unsignedProduct (a b : Word) : BitVec 64 := a.zeroExtend 64 * b.zeroExtend 64
def signedProduct (a b : Word) : BitVec 64 := a.signExtend 64 * b.signExtend 64

/-- MUL (R311). -/
def execMul (c : Cond) (sBit : Bool) (rd : Reg) (_sbz : BitVec 4) (rs rm : Reg) (s : State) : Result :=
  conditionally c s fun s => finishMul s sBit rd (s.reg rm * s.reg rs)

/-- MLA (R312). -/
def execMla (c : Cond) (sBit : Bool) (rd rn rs rm : Reg) (s : State) : Result :=
  conditionally c s fun s => finishMul s sBit rd (s.reg rm * s.reg rs + s.reg rn)

/-- UMULL (R313). -/
def execUmull (c : Cond) (sBit : Bool) (rdHi rdLo rs rm : Reg) (s : State) : Result :=
  conditionally c s fun s => finishLong s sBit rdHi rdLo (unsignedProduct (s.reg rm) (s.reg rs))

/-- UMLAL (R314). -/
def execUmlal (c : Cond) (sBit : Bool) (rdHi rdLo rs rm : Reg) (s : State) : Result :=
  conditionally c s fun s =>
    finishLong s sBit rdHi rdLo (unsignedProduct (s.reg rm) (s.reg rs) + accumulator s rdHi rdLo)

/-- SMULL (R315). -/
def execSmull (c : Cond) (sBit : Bool) (rdHi rdLo rs rm : Reg) (s : State) : Result :=
  conditionally c s fun s => finishLong s sBit rdHi rdLo (signedProduct (s.reg rm) (s.reg rs))

/-- SMLAL (R316). -/
def execSmlal (c : Cond) (sBit : Bool) (rdHi rdLo rs rm : Reg) (s : State) : Result :=
  conditionally c s fun s =>
    finishLong s sBit rdHi rdLo (signedProduct (s.reg rm) (s.reg rs) + accumulator s rdHi rdLo)

end Sys2Proof.Machine
end

