-- ==== Sys2Proof/Machine/Bios.lean ====
section
/-! DEFINITION. Machine/Bios.lean: the high-level BIOS calls of an SWI (spec/46_arm_swi_coproc_undef.md R391 to R413) and
the BIOS-space steps (spec/60_exceptions.md R630, R631). -/

namespace Sys2Proof.Machine

/-! ## SoftReset, the halting calls, arithmetic -/

/-- `n` words from `a` cleared. -/
def clearWords : (n : Nat) → State → Word → State
  | 0, s, _ => s
  | n + 1, s, a => clearWords n (s.write32 a 0) (a + 4)

/-- R0 to R12 of the User bank cleared. -/
def clearLowRegs (s : State) : State :=
  ((List.finRange 13).foldl (fun s i => s.setRegIn .usr (Fin.ofNat 16 i.val) 0) s)

/-- The registers SoftReset presets (R400): R13 and R14 of Supervisor and IRQ mode, and the User bank, which System mode
sees. -/
def softResetRegs (s : State) : State :=
  let s1 := (s.setRegIn .svc 13 0x03007FE0#32).setRegIn .svc 14 0
  let s2 := (s1.setRegIn .irq 13 0x03007FA0#32).setRegIn .irq 14 0
  ((clearLowRegs s2).setRegIn .usr 13 0x03007F00#32).setRegIn .usr 14 0

/-- The byte at 0x03007FFA chooses where SoftReset goes on. -/
def softResetEntry (flag : Byte) : Word := if flag = 0 then 0x08000000#32 else 0x02000000#32

/-- SoftReset (R400): the flag byte is read before the clear; the R15 write is not guarded. -/
def biosSoftReset (s : State) : State :=
  { softResetRegs (clearWords 0x80 s 0x03007E00#32) with
    spsrSvc := 0, spsrIrq := 0, cpsr := 0x0000001F#32, r15 := softResetEntry (s.read8 0x03007FFA#32) + 8 }

/-- Halt, and the function 0x03 that acts as Halt (R401, R402). -/
def biosHalt (s : State) : State := { s with halted := true }

/-- IntrWait and VBlankIntrWait (R403, R404). -/
def biosIntrWait (s : State) : State := { s with ime := 1, halted := true }

/-- Div (R405): truncation toward zero; a zero divisor stops the model (R622, U12). -/
def biosDiv (s : State) : Result :=
  let num := (s.reg 0).toInt
  let den := (s.reg 1).toInt
  if den = 0 then .fault .biosDivideByZero
  else
    let q := num.tdiv den
    let r := num - q * den
    .next (((s.setReg 0 (BitVec.ofInt 32 q)).setReg 1 (BitVec.ofInt 32 r)).setReg 3 (BitVec.ofNat 32 q.natAbs))

/-- The largest number below `2^(k)` above `root` whose square is at most `n`, bit by bit from bit `k − 1`. -/
def isqrtFrom : (k : Nat) → (n root : Nat) → Nat
  | 0, _, root => root
  | k + 1, n, root => if (root + 2^k) * (root + 2^k) ≤ n then isqrtFrom k n (root + 2^k) else isqrtFrom k n root

/-- floor(sqrt n) for n below 2^32. -/
def isqrt (n : Nat) : Nat := isqrtFrom 16 n 0

/-- Sqrt (R406). -/
def biosSqrt (s : State) : State := s.setReg 0 (BitVec.ofNat 32 (isqrt (s.reg 0).toNat))

/-- GetBiosChecksum (R409). -/
def biosChecksum (s : State) : State := s.setReg 0 0xBAAE187F#32

/-! ## Copies -/

/-- The loop of CpuSet and CpuFastSet (R407, R408): `k` units of a word or a halfword. -/
def copyUnits (word fixed : Bool) : (k : Nat) → State → (src dst : Word) → State
  | 0, s, _, _ => s
  | k + 1, s, src, dst =>
    let sz : Word := if word then 4 else 2
    let s1 := if word then s.write32 dst (s.read32 src) else s.write16 dst (s.read16 src)
    copyUnits word fixed k s1 (if fixed then src else src + sz) (dst + sz)

/-- CpuSet (R407). -/
def biosCpuSet (s : State) : State :=
  let ctl := s.reg 2
  copyUnits (ctl.getLsbD 26) (ctl.getLsbD 24) (ctl.toNat % 2^21) s (s.reg 0) (s.reg 1)

/-- CpuFastSet (R408): words, the count rounded up to a multiple of 8. -/
def biosCpuFastSet (s : State) : State :=
  let ctl := s.reg 2
  copyUnits true (ctl.getLsbD 24) ((ctl.toNat % 2^21 + 7) / 8 * 8) s (s.reg 0) (s.reg 1)

/-! ## Decompression

The output is kept newest byte first; memory is read while decompressing and written afterwards (R410). -/

/-- Where a decompression stands: the input address, the output (newest first), its length, and the free values used. -/
structure Unpack where
  p : Word
  out : List Byte
  len : Nat
  free : Nat
deriving DecidableEq, Repr

/-- One byte appended. -/
def Unpack.push (d : Unpack) (b : Byte) : Unpack := { d with out := b :: d.out, len := d.len + 1 }

/-- The output byte `disp` back; before the first output byte it is a free value (U13). -/
def Unpack.copyBack (d : Unpack) (disp : Nat) : Unpack :=
  match d.out[disp - 1]? with
  | some b => d.push b
  | none => { d.push (Config.freeByte d.free) with free := d.free + 1 }

/-- `n` bytes copied from `disp` back, while the output is shorter than `size`. -/
def Unpack.copyRun (disp size : Nat) : (n : Nat) → Unpack → Unpack
  | 0, d => d
  | n + 1, d => if d.len < size then Unpack.copyRun disp size n (d.copyBack disp) else d

/-- One block of LZ77 (R410): a literal byte or a back reference. -/
def lzBlock (s : State) (size : Nat) (flag : Bool) (d : Unpack) : Unpack :=
  if d.len < size then
    if flag then
      let b1 := (s.read8 d.p).toNat
      let b2 := (s.read8 (d.p + 1)).toNat
      Unpack.copyRun (b1 % 16 * 256 + b2 + 1) size (b1 / 16 + 3) { d with p := d.p + 2 }
    else { d.push (s.read8 d.p) with p := d.p + 1 }
  else d

/-- The eight blocks of one flag byte, from bit 7 down. -/
def lzGroup (s : State) (size : Nat) (flags : Byte) (d : Unpack) : Unpack :=
  [7, 6, 5, 4, 3, 2, 1, 0].foldl (fun d i => lzBlock s size (flags.getLsbD i) d) d

/-- The LZ77 loop; each round appends at least one byte, so `size` rounds are enough. -/
def lzLoop (s : State) (size : Nat) : (fuel : Nat) → Unpack → Unpack
  | 0, d => d
  | fuel + 1, d =>
    if d.len < size then lzLoop s size fuel (lzGroup s size (s.read8 d.p) { d with p := d.p + 1 }) else d

/-- `n` equal bytes appended, while the output is shorter than `size`. -/
def Unpack.pushRun (b : Byte) (size : Nat) : (n : Nat) → Unpack → Unpack
  | 0, d => d
  | n + 1, d => if d.len < size then Unpack.pushRun b size n (d.push b) else d

/-- `n` literal bytes appended, while the output is shorter than `size`. -/
def Unpack.literalRun (s : State) (size : Nat) : (n : Nat) → Unpack → Unpack
  | 0, d => d
  | n + 1, d =>
    if d.len < size then Unpack.literalRun s size n { d.push (s.read8 d.p) with p := d.p + 1 } else d

/-- The run-length loop (R412). -/
def rlLoop (s : State) (size : Nat) : (fuel : Nat) → Unpack → Unpack
  | 0, d => d
  | fuel + 1, d =>
    if d.len < size then
      let f := s.read8 d.p
      let d1 : Unpack := { d with p := d.p + 1 }
      let n := f.toNat % 128
      if f.getLsbD 7 then
        rlLoop s size fuel (Unpack.pushRun (s.read8 d1.p) size (n + 3) { d1 with p := d1.p + 1 })
      else rlLoop s size fuel (Unpack.literalRun s size (n + 1) d1)
    else d

/-- The header word at `a` read byte by byte, and the size it gives (R410). -/
def unpackSize (s : State) (a : Word) : Nat :=
  (s.read8 (a + 1)).toNat + 2^8 * (s.read8 (a + 2)).toNat + 2^16 * (s.read8 (a + 3)).toNat

/-- The write-out with 8-bit accesses (R410). -/
def writeBytes : List Byte → State → Word → State
  | [], s, _ => s
  | b :: rest, s, a => writeBytes rest (s.write8 a b) (a + 1)

/-- The write-out with 16-bit accesses (R411): the high byte of an odd last halfword is 0. -/
def writeHalves : List Byte → State → Word → State
  | [], s, _ => s
  | [b], s, a => s.write16 a (0#8 ++ b)
  | b0 :: b1 :: rest, s, a => writeHalves rest (s.write16 a (b1 ++ b0)) (a + 2)

/-- The end of a decompression: the output written at R1, R0 after the input, R1 after the output. -/
def finishUnpack (s : State) (d : Unpack) (size : Nat) (halves : Bool) : State :=
  let dst := s.reg 1
  let s0 := { s with free := d.free }
  let s1 := if halves then writeHalves d.out.reverse s0 dst else writeBytes d.out.reverse s0 dst
  (s1.setReg 0 d.p).setReg 1 (dst + BitVec.ofNat 32 size)

/-- LZ77UnComp (R410, R411). -/
def biosLz77 (s : State) (halves : Bool) : State :=
  let size := unpackSize s (s.reg 0)
  finishUnpack s (lzLoop s size size { p := s.reg 0 + 4, out := [], len := 0, free := s.free }) size halves

/-- RLUnComp (R412, R413). -/
def biosRl (s : State) (halves : Bool) : State :=
  let size := unpackSize s (s.reg 0)
  finishUnpack s (rlLoop s size size { p := s.reg 0 + 4, out := [], len := 0, free := s.free }) size halves

/-! ## The call -/

/-- `BiosCall(n)` with the advance of R390 and R551: only SoftReset writes R15, and only Div can stop. An unrecognised
number changes nothing (R393). -/
def biosCall (n : Nat) (s : State) : Result :=
  match n with
  | 0x00 => .next (biosSoftReset s)
  | 0x02 => .next (biosHalt s).advance
  | 0x03 => .next (biosHalt s).advance
  | 0x04 => .next (biosIntrWait s).advance
  | 0x05 => .next (biosIntrWait s).advance
  | 0x06 =>
    match biosDiv s with
    | .next s' => .next s'.advance
    | .fault e => .fault e
    | .refused r => .refused r
  | 0x08 => .next (biosSqrt s).advance
  | 0x0B => .next (biosCpuSet s).advance
  | 0x0C => .next (biosCpuFastSet s).advance
  | 0x0D => .next (biosChecksum s).advance
  | 0x11 => .next (biosLz77 s false).advance
  | 0x12 => .next (biosLz77 s true).advance
  | 0x14 => .next (biosRl s false).advance
  | 0x15 => .next (biosRl s true).advance
  | _ => .next s.advance

/-! ## BIOS-space steps -/

/-- The instruction address lies in the BIOS region, from which nothing is fetched (R85, R230). -/
def inBiosSpace (ia : Word) : Bool := decide (busAddr ia < 0x4000)

/-- `BiosSpaceStep(IA)`: the IRQ trampoline at 0x18 (R630), else a return to R14 as by BX (R631); neither is guarded. -/
def biosSpaceStep (s : State) : State :=
  if busAddr s.ia = 0x18 then s.branchTo (s.read32 0x03007FFC#32)
  else s.branchExchange (s.reg 14)

end Sys2Proof.Machine
end

