-- ==== Sys2Proof/Machine/ArmSystem.lean ====
section
/-! DEFINITION. Machine/ArmSystem.lean: spec/46_arm_swi_coproc_undef.md: SWI, the coprocessor instructions and the
undefined ARM encodings. -/

namespace Sys2Proof.Machine

/-- The BIOS function number of an ARM SWI (R390): parameter SWI_ARM_FIELD says which byte of the comment. -/
def swiNumber (s : State) (comment : BitVec 24) : Nat :=
  match s.params.swiField with
  | .hi => (comment.extractLsb' 16 8).toNat
  | .lo => (comment.extractLsb' 0 8).toNat

/-- SWI (R390, R391): a high-level call that completes in its step; no exception is taken. -/
def execSwi (c : Cond) (comment : BitVec 24) (s : State) : Result :=
  conditionally c s fun s => biosCall (swiNumber s comment) s

/-- An instruction that is accepted and ignored (section 4 of the file): only the pc advances. -/
def ignored (s : State) : Result := .next s.advance

/-- LDC (R431): no memory read, no writeback. -/
def execLdc (c : Cond) (_p _u _n _w : Bool) (_rn : Reg) (_crd _cp : BitVec 4) (_offset8 : BitVec 8) (s : State) : Result :=
  conditionally c s ignored

/-- STC (R432): no memory write, no writeback. -/
def execStc (c : Cond) (_p _u _n _w : Bool) (_rn : Reg) (_crd _cp : BitVec 4) (_offset8 : BitVec 8) (s : State) : Result :=
  conditionally c s ignored

/-- CDP (R430). -/
def execCdp (c : Cond) (_opc1 _crn _crd _cp : BitVec 4) (_opc2 : BitVec 3) (_crm : BitVec 4) (s : State) : Result :=
  conditionally c s ignored

/-- MRC (R433): Rd is not written, and with Rd = 15 the flags are not written. -/
def execMrc (c : Cond) (_opc1 : BitVec 3) (_crn : BitVec 4) (_rd : Reg) (_cp : BitVec 4) (_opc2 : BitVec 3)
    (_crm : BitVec 4) (s : State) : Result :=
  conditionally c s ignored

/-- MCR (R434). -/
def execMcr (c : Cond) (_opc1 : BitVec 3) (_crn : BitVec 4) (_rd : Reg) (_cp : BitVec 4) (_opc2 : BitVec 3)
    (_crm : BitVec 4) (s : State) : Result :=
  conditionally c s ignored

/-- Row 5u of R152: the rest of the multiply and extra load/store space (R168, R420). -/
def execUndefMul (c : Cond) (bits : BitVec 28) (s : State) : Result :=
  conditionally c s fun s => undefinedInstr (.undefMul c bits) s

/-- Row 6u: a comparison opcode without S. -/
def execUndefCompare (c : Cond) (bits : BitVec 28) (s : State) : Result :=
  conditionally c s fun s => undefinedInstr (.undefCompare c bits) s

/-- Row 7u: a register-offset transfer with bit 4 set. -/
def execUndefTransfer (c : Cond) (bits : BitVec 28) (s : State) : Result :=
  conditionally c s fun s => undefinedInstr (.undefTransfer c bits) s

end Sys2Proof.Machine
end

