-- ==== Sys2Proof/Machine/ThumbAlu.lean ====
section
/-! DEFINITION. Machine/ThumbAlu.lean: spec/47_thumb_alu.md, formats 1 to 5, 12 and 13. The instructions of formats 1 to 4
always write the flags their rule lists (R440). -/

namespace Sys2Proof.Machine

/-- A result written to a low register with its flags. -/
def finishThumb (s : State) (rd : LowReg) (result : Word) (f : Nzcv) : Result :=
  .next ((s.setReg (low rd) result).setFlags f).advance

/-- Flags only. -/
def finishThumbFlags (s : State) (f : Nzcv) : Result := .next (s.setFlags f).advance

/-- A result written to a register without flags. -/
def finishThumbPlain (s : State) (rd : Reg) (result : Word) : Result := .next (s.setReg rd result).advance

/-- A shifter result with the logical flags. -/
def finishThumbShift (s : State) (rd : LowReg) (r : Shifted) : Result :=
  finishThumb s rd r.value (logicalFlags s r.value r.carry)

/-! ## Format 1 -/

/-- LSL with an immediate amount (R441). -/
def execTLslImm (amount : BitVec 5) (rs rd : LowReg) (s : State) : Result :=
  finishThumbShift s rd (shiftImmediate .lsl (s.reg (low rs)) amount.toNat s.flagC)

/-- LSR with an immediate amount (R442); #0 means 32. -/
def execTLsrImm (amount : BitVec 5) (rs rd : LowReg) (s : State) : Result :=
  finishThumbShift s rd (shiftImmediate .lsr (s.reg (low rs)) amount.toNat s.flagC)

/-- ASR with an immediate amount (R443); #0 means 32. -/
def execTAsrImm (amount : BitVec 5) (rs rd : LowReg) (s : State) : Result :=
  finishThumbShift s rd (shiftImmediate .asr (s.reg (low rs)) amount.toNat s.flagC)

/-! ## Format 2 -/

/-- ADD Rd, Rs, Rn (R445). -/
def execTAddReg (rn rs rd : LowReg) (s : State) : Result :=
  finishThumb s rd (s.reg (low rs) + s.reg (low rn)) (addFlags (s.reg (low rs)) (s.reg (low rn)))

/-- SUB Rd, Rs, Rn (R446). -/
def execTSubReg (rn rs rd : LowReg) (s : State) : Result :=
  finishThumb s rd (s.reg (low rs) - s.reg (low rn)) (subFlags (s.reg (low rs)) (s.reg (low rn)))

/-- ADD Rd, Rs, #imm3 (R447). -/
def execTAddImm3 (imm3 : BitVec 3) (rs rd : LowReg) (s : State) : Result :=
  finishThumb s rd (s.reg (low rs) + imm3.zeroExtend 32) (addFlags (s.reg (low rs)) (imm3.zeroExtend 32))

/-- SUB Rd, Rs, #imm3 (R448). -/
def execTSubImm3 (imm3 : BitVec 3) (rs rd : LowReg) (s : State) : Result :=
  finishThumb s rd (s.reg (low rs) - imm3.zeroExtend 32) (subFlags (s.reg (low rs)) (imm3.zeroExtend 32))

/-! ## Format 3 -/

/-- MOV Rd, #imm8 (R450): C and V are unchanged. -/
def execTMovImm8 (rd : LowReg) (imm8 : BitVec 8) (s : State) : Result :=
  finishThumb s rd (zext8 imm8) (nzOnly s (zext8 imm8))

/-- CMP Rd, #imm8 (R451). -/
def execTCmpImm8 (rd : LowReg) (imm8 : BitVec 8) (s : State) : Result :=
  finishThumbFlags s (subFlags (s.reg (low rd)) (zext8 imm8))

/-- ADD Rd, #imm8 (R452). -/
def execTAddImm8 (rd : LowReg) (imm8 : BitVec 8) (s : State) : Result :=
  finishThumb s rd (s.reg (low rd) + zext8 imm8) (addFlags (s.reg (low rd)) (zext8 imm8))

/-- SUB Rd, #imm8 (R453). -/
def execTSubImm8 (rd : LowReg) (imm8 : BitVec 8) (s : State) : Result :=
  finishThumb s rd (s.reg (low rd) - zext8 imm8) (subFlags (s.reg (low rd)) (zext8 imm8))

/-! ## Format 4: a = R[Rd], b = R[Rs] -/

/-- AND (R460): N and Z; C and V are unchanged. -/
def execTAnd (rs rd : LowReg) (s : State) : Result :=
  let r := s.reg (low rd) &&& s.reg (low rs)
  finishThumb s rd r (nzOnly s r)

/-- EOR (R461): N and Z; C and V are unchanged. -/
def execTEor (rs rd : LowReg) (s : State) : Result :=
  let r := s.reg (low rd) ^^^ s.reg (low rs)
  finishThumb s rd r (nzOnly s r)

/-- LSL by a register (R462). -/
def execTLslReg (rs rd : LowReg) (s : State) : Result :=
  finishThumbShift s rd (shiftRegister .lsl (s.reg (low rd)) (shiftAmount (s.reg (low rs))) s.flagC)

/-- LSR by a register (R463). -/
def execTLsrReg (rs rd : LowReg) (s : State) : Result :=
  finishThumbShift s rd (shiftRegister .lsr (s.reg (low rd)) (shiftAmount (s.reg (low rs))) s.flagC)

/-- ASR by a register (R464). -/
def execTAsrReg (rs rd : LowReg) (s : State) : Result :=
  finishThumbShift s rd (shiftRegister .asr (s.reg (low rd)) (shiftAmount (s.reg (low rs))) s.flagC)

/-- ADC (R465). -/
def execTAdc (rs rd : LowReg) (s : State) : Result :=
  finishThumb s rd (adcResult (s.reg (low rd)) (s.reg (low rs)) s.flagC) (adcFlags (s.reg (low rd)) (s.reg (low rs)) s.flagC)

/-- SBC (R466). -/
def execTSbc (rs rd : LowReg) (s : State) : Result :=
  finishThumb s rd (sbcResult (s.reg (low rd)) (s.reg (low rs)) s.flagC) (sbcFlags (s.reg (low rd)) (s.reg (low rs)) s.flagC)

/-- ROR by a register (R467). -/
def execTRorReg (rs rd : LowReg) (s : State) : Result :=
  finishThumbShift s rd (shiftRegister .ror (s.reg (low rd)) (shiftAmount (s.reg (low rs))) s.flagC)

/-- TST (R468). -/
def execTTst (rs rd : LowReg) (s : State) : Result := finishThumbFlags s (nzOnly s (s.reg (low rd) &&& s.reg (low rs)))

/-- NEG (R469): sub flags with a = 0. -/
def execTNeg (rs rd : LowReg) (s : State) : Result :=
  finishThumb s rd (0 - s.reg (low rs)) (subFlags 0 (s.reg (low rs)))

/-- CMP (R470). -/
def execTCmpReg (rs rd : LowReg) (s : State) : Result := finishThumbFlags s (subFlags (s.reg (low rd)) (s.reg (low rs)))

/-- CMN (R471). -/
def execTCmn (rs rd : LowReg) (s : State) : Result := finishThumbFlags s (addFlags (s.reg (low rd)) (s.reg (low rs)))

/-- ORR (R472): N and Z; C and V are unchanged. -/
def execTOrr (rs rd : LowReg) (s : State) : Result :=
  let r := s.reg (low rd) ||| s.reg (low rs)
  finishThumb s rd r (nzOnly s r)

/-- MUL (R473): N and Z; C and V are unchanged. -/
def execTMul (rs rd : LowReg) (s : State) : Result :=
  let r := s.reg (low rd) * s.reg (low rs)
  finishThumb s rd r (nzOnly s r)

/-- BIC (R474): N and Z; C and V are unchanged. -/
def execTBic (rs rd : LowReg) (s : State) : Result :=
  let r := s.reg (low rd) &&& ~~~s.reg (low rs)
  finishThumb s rd r (nzOnly s r)

/-- MVN (R475): N and Z; C and V are unchanged. -/
def execTMvn (rs rd : LowReg) (s : State) : Result :=
  let r := ~~~s.reg (low rs)
  finishThumb s rd r (nzOnly s r)

/-! ## Format 5 -/

/-- ADD with high registers (R480): no flags; Rd = 15 branches in Thumb state. -/
def execTAddHi (rs rd : Reg) (s : State) : Result := finishWrite s s rd (s.reg rd + s.reg rs)

/-- CMP with high registers (R481). -/
def execTCmpHi (rs rd : Reg) (s : State) : Result := finishThumbFlags s (subFlags (s.reg rd) (s.reg rs))

/-- MOV with high registers (R482): no flags; Rd = 15 stays in Thumb state whatever bit 0 is. -/
def execTMovHi (rs rd : Reg) (s : State) : Result := finishWrite s s rd (s.reg rs)

/-- BX (R483). -/
def execTBx (rs : Reg) (_sbz : BitVec 3) (s : State) : Result := jumpExchange s s (s.reg rs)

/-- BLX Rs (R484): the target is read before R14 is written. -/
def execTBlxReg (rs : Reg) (_sbz : BitVec 3) (s : State) : Result :=
  jumpExchange s (s.setReg 14 ((s.ia + 2) ||| 1#32)) (s.reg rs)

/-! ## Formats 12 and 13 -/

/-- ADD Rd, PC, #imm (R490): the base is the word-aligned R15. -/
def execTAddPc (rd : LowReg) (word8 : BitVec 8) (s : State) : Result :=
  finishThumbPlain s (low rd) ((s.reg 15 &&& ~~~3#32) + (zext8 word8 <<< 2))

/-- ADD Rd, SP, #imm (R491). -/
def execTAddSp (rd : LowReg) (word8 : BitVec 8) (s : State) : Result :=
  finishThumbPlain s (low rd) (s.reg 13 + (zext8 word8 <<< 2))

/-- ADD SP, #imm (R495). -/
def execTIncSp (sword7 : BitVec 7) (s : State) : Result :=
  finishThumbPlain s 13 (s.reg 13 + (sword7.zeroExtend 32 <<< 2))

/-- SUB SP, #imm (R496). -/
def execTDecSp (sword7 : BitVec 7) (s : State) : Result :=
  finishThumbPlain s 13 (s.reg 13 - (sword7.zeroExtend 32 <<< 2))

end Sys2Proof.Machine
end

