-- ==== Sys2Proof/Machine/ThumbBranch.lean ====
section
/-! DEFINITION. Machine/ThumbBranch.lean: spec/49_thumb_branch.md, formats 16 to 19, and the undefined Thumb encodings of
R199. -/

namespace Sys2Proof.Machine

/-- Format 16 (R541): relative to IA + 4, which R15 reads as. -/
def thumbCondBranch (c : Cond) (soffset8 : BitVec 8) (s : State) : Result :=
  conditionally c s fun s => jump s s (s.reg 15 + thumbCondOffset soffset8)

/-- BEQ (R541). -/
def execTBeq (soffset8 : BitVec 8) (s : State) : Result := thumbCondBranch .eq soffset8 s

/-- BNE (R541). -/
def execTBne (soffset8 : BitVec 8) (s : State) : Result := thumbCondBranch .ne soffset8 s

/-- BCS (R541). -/
def execTBcs (soffset8 : BitVec 8) (s : State) : Result := thumbCondBranch .cs soffset8 s

/-- BCC (R541). -/
def execTBcc (soffset8 : BitVec 8) (s : State) : Result := thumbCondBranch .cc soffset8 s

/-- BMI (R541). -/
def execTBmi (soffset8 : BitVec 8) (s : State) : Result := thumbCondBranch .mi soffset8 s

/-- BPL (R541). -/
def execTBpl (soffset8 : BitVec 8) (s : State) : Result := thumbCondBranch .pl soffset8 s

/-- BVS (R541). -/
def execTBvs (soffset8 : BitVec 8) (s : State) : Result := thumbCondBranch .vs soffset8 s

/-- BVC (R541). -/
def execTBvc (soffset8 : BitVec 8) (s : State) : Result := thumbCondBranch .vc soffset8 s

/-- BHI (R541). -/
def execTBhi (soffset8 : BitVec 8) (s : State) : Result := thumbCondBranch .hi soffset8 s

/-- BLS (R541). -/
def execTBls (soffset8 : BitVec 8) (s : State) : Result := thumbCondBranch .ls soffset8 s

/-- BGE (R541). -/
def execTBge (soffset8 : BitVec 8) (s : State) : Result := thumbCondBranch .ge soffset8 s

/-- BLT (R541). -/
def execTBlt (soffset8 : BitVec 8) (s : State) : Result := thumbCondBranch .lt soffset8 s

/-- BGT (R541). -/
def execTBgt (soffset8 : BitVec 8) (s : State) : Result := thumbCondBranch .gt soffset8 s

/-- BLE (R541). -/
def execTBle (soffset8 : BitVec 8) (s : State) : Result := thumbCondBranch .le soffset8 s

/-- SWI (R551): the function number is value8; Thumb state is kept, except by SoftReset. -/
def execTSwi (value8 : BitVec 8) (s : State) : Result := biosCall value8.toNat s

/-- B (R545). -/
def execTB (offset11 : BitVec 11) (s : State) : Result := jump s s (s.reg 15 + thumbBranchOffset offset11)

/-- Long branch, first half (R552): `sext_11(hi) << 12` above IA + 4 goes to R14. -/
def execTBlHigh (offset11 : BitVec 11) (s : State) : Result :=
  .next (s.setReg 14 (s.reg 15 + (offset11.signExtend 32 <<< 12))).advance

/-- The target of a second half: R14 plus `lo << 1`, R14 read before it is written (R553, R554). -/
def longBranchTarget (s : State) (offset11 : BitVec 11) : Word := s.reg 14 + (offset11.zeroExtend 32 <<< 1)

/-- The return link of a second half: the next instruction with the Thumb bit. -/
def longBranchLink (s : State) : Word := (s.ia + 2) ||| 1#32

/-- Long branch, BL second half (R553). -/
def execTBlLow (offset11 : BitVec 11) (s : State) : Result :=
  jump s (s.setReg 14 (longBranchLink s)) (longBranchTarget s offset11)

/-- Long branch, BLX second half (R554): to ARM state at the word-aligned target, which is what the guard tests. -/
def execTBlxLow (offset11 : BitVec 11) (s : State) : Result :=
  jumpExchange s (s.setReg 14 (longBranchLink s)) (longBranchTarget s offset11 &&& ~~~3#32)

/-- Condition 14 of format 16 (R199, R420). -/
def execTUndefCond (bits : BitVec 8) (s : State) : Result := undefinedInstr (.tUndefCond bits) s

/-- The unassigned words 0xB100 to 0xB1FF (R199, R420). -/
def execTUndefB1 (bits : BitVec 8) (s : State) : Result := undefinedInstr (.tUndefB1 bits) s

/-- 0xB200 to 0xB3FF. -/
def execTUndefB2 (bits : BitVec 9) (s : State) : Result := undefinedInstr (.tUndefB2 bits) s

/-- 0xB600 to 0xB7FF. -/
def execTUndefB6 (bits : BitVec 9) (s : State) : Result := undefinedInstr (.tUndefB6 bits) s

/-- 0xB800 to 0xBBFF. -/
def execTUndefB8 (bits : BitVec 10) (s : State) : Result := undefinedInstr (.tUndefB8 bits) s

/-- 0xBE00 to 0xBFFF. -/
def execTUndefBE (bits : BitVec 9) (s : State) : Result := undefinedInstr (.tUndefBE bits) s

end Sys2Proof.Machine
end

