-- ==== Sys2Proof/Machine/ThumbLoadStore.lean ====
section
/-! DEFINITION. Machine/ThumbLoadStore.lean: spec/48_thumb_load_store.md, formats 6 to 11, 14 and 15. No instruction here
writes a flag (R500). -/

namespace Sys2Proof.Machine

/-- A loaded value written to a low register. -/
def finishThumbLoad (s : State) (rd : LowReg) (v : Word) : Result := .next (s.setReg (low rd) v).advance

/-- Format 7 and 8 addresses: Rb + Ro. -/
def regOffsetAddr (s : State) (ro rb : LowReg) : Word := s.reg (low rb) + s.reg (low ro)

/-- Format 9 and 10 addresses: Rb plus five bits scaled by 2^k. -/
def immOffsetAddr (s : State) (offset5 : BitVec 5) (k : Nat) (rb : LowReg) : Word :=
  s.reg (low rb) + (offset5.zeroExtend 32 <<< k)

/-- Format 11 addresses: SP plus a word offset. -/
def spOffsetAddr (s : State) (word8 : BitVec 8) : Word := s.reg 13 + (zext8 word8 <<< 2)

/-- LDR Rd, [PC, #imm] (R501): the base is the word-aligned R15. -/
def execTLdrPc (rd : LowReg) (word8 : BitVec 8) (s : State) : Result :=
  finishThumbLoad s rd (s.readRot ((s.reg 15 &&& ~~~3#32) + (zext8 word8 <<< 2)))

/-- STR Rd, [Rb, Ro] (R505). -/
def execTStrReg (ro rb rd : LowReg) (s : State) : Result :=
  .next (s.write32 (regOffsetAddr s ro rb) (s.reg (low rd))).advance

/-- STRB Rd, [Rb, Ro] (R506). -/
def execTStrbReg (ro rb rd : LowReg) (s : State) : Result :=
  .next (s.write8 (regOffsetAddr s ro rb) (byteOf (s.reg (low rd)) 0)).advance

/-- LDR Rd, [Rb, Ro] (R507). -/
def execTLdrReg (ro rb rd : LowReg) (s : State) : Result :=
  finishThumbLoad s rd (s.readRot (regOffsetAddr s ro rb))

/-- LDRB Rd, [Rb, Ro] (R508). -/
def execTLdrbReg (ro rb rd : LowReg) (s : State) : Result :=
  finishThumbLoad s rd (zext8 (s.read8 (regOffsetAddr s ro rb)))

/-- STRH Rd, [Rb, Ro] (R510). -/
def execTStrhReg (ro rb rd : LowReg) (s : State) : Result :=
  .next (s.write16 (regOffsetAddr s ro rb) (loHalf (s.reg (low rd)))).advance

/-- LDRH Rd, [Rb, Ro] (R511). -/
def execTLdrhReg (ro rb rd : LowReg) (s : State) : Result :=
  finishThumbLoad s rd (zext16 (s.read16 (regOffsetAddr s ro rb)))

/-- LDSB Rd, [Rb, Ro] (R512). -/
def execTLdsbReg (ro rb rd : LowReg) (s : State) : Result :=
  finishThumbLoad s rd (sext8 (s.read8 (regOffsetAddr s ro rb)))

/-- LDSH Rd, [Rb, Ro] (R513). -/
def execTLdshReg (ro rb rd : LowReg) (s : State) : Result :=
  finishThumbLoad s rd (sext16 (s.read16 (regOffsetAddr s ro rb)))

/-- STR Rd, [Rb, #imm] (R515). -/
def execTStrImm (offset5 : BitVec 5) (rb rd : LowReg) (s : State) : Result :=
  .next (s.write32 (immOffsetAddr s offset5 2 rb) (s.reg (low rd))).advance

/-- LDR Rd, [Rb, #imm] (R516). -/
def execTLdrImm (offset5 : BitVec 5) (rb rd : LowReg) (s : State) : Result :=
  finishThumbLoad s rd (s.readRot (immOffsetAddr s offset5 2 rb))

/-- STRB Rd, [Rb, #imm] (R517). -/
def execTStrbImm (offset5 : BitVec 5) (rb rd : LowReg) (s : State) : Result :=
  .next (s.write8 (immOffsetAddr s offset5 0 rb) (byteOf (s.reg (low rd)) 0)).advance

/-- LDRB Rd, [Rb, #imm] (R518). -/
def execTLdrbImm (offset5 : BitVec 5) (rb rd : LowReg) (s : State) : Result :=
  finishThumbLoad s rd (zext8 (s.read8 (immOffsetAddr s offset5 0 rb)))

/-- STRH Rd, [Rb, #imm] (R520). -/
def execTStrhImm (offset5 : BitVec 5) (rb rd : LowReg) (s : State) : Result :=
  .next (s.write16 (immOffsetAddr s offset5 1 rb) (loHalf (s.reg (low rd)))).advance

/-- LDRH Rd, [Rb, #imm] (R521). -/
def execTLdrhImm (offset5 : BitVec 5) (rb rd : LowReg) (s : State) : Result :=
  finishThumbLoad s rd (zext16 (s.read16 (immOffsetAddr s offset5 1 rb)))

/-- STR Rd, [SP, #imm] (R523). -/
def execTStrSp (rd : LowReg) (word8 : BitVec 8) (s : State) : Result :=
  .next (s.write32 (spOffsetAddr s word8) (s.reg (low rd))).advance

/-- LDR Rd, [SP, #imm] (R524). -/
def execTLdrSp (rd : LowReg) (word8 : BitVec 8) (s : State) : Result :=
  finishThumbLoad s rd (s.readRot (spOffsetAddr s word8))

/-- The registers of a PUSH or POP list; the optional LR or PC is the highest (R193). -/
def pushRegs (extra : Bool) (last : Reg) (list : BitVec 8) : List Reg :=
  lowListRegs list ++ (if extra then [last] else [])

/-- PUSH (R530): a full descending stack; an empty list stops (U10). -/
def execTPush (lr : Bool) (list : BitVec 8) (s : State) : Result :=
  let regs := pushRegs lr 14 list
  if regs.isEmpty then unpredictable (.tPush lr list) s
  else
    let a := s.reg 13 - blockSize regs
    .next ((storeRegs s.reg (withAddrs a regs) s).setReg 13 a).advance

/-- POP (R531): the loads do not rotate; PC is a branch in Thumb state, and the guard cancels the whole instruction. -/
def execTPop (pc : Bool) (list : BitVec 8) (s : State) : Result :=
  let regs := pushRegs pc 15 list
  if regs.isEmpty then unpredictable (.tPop pc list) s
  else
    let ts := withAddrs (s.reg 13) regs
    let s1 := (loadRegs s s.mode ts s).setReg 13 (s.reg 13 + blockSize regs)
    match loadedPc s ts with
    | some v => jump s s1 v
    | none => .next s1.advance

/-- STMIA (R535): a base that is not first in the list stores the written-back value; an empty list stops (U10). -/
def execTStmia (rb : LowReg) (list : BitVec 8) (s : State) : Result :=
  let regs := lowListRegs list
  if regs.isEmpty then unpredictable (.tStmia rb list) s
  else
    let base := s.reg (low rb)
    let final := base + blockSize regs
    .next ((storeRegs (stmValue s s.mode true (low rb) regs final) (withAddrs base regs) s).setReg (low rb) final).advance

/-- LDMIA (R536): the writeback first, so that a loaded base overrides it; an empty list stops (U10). -/
def execTLdmia (rb : LowReg) (list : BitVec 8) (s : State) : Result :=
  let regs := lowListRegs list
  if regs.isEmpty then unpredictable (.tLdmia rb list) s
  else
    let base := s.reg (low rb)
    .next (loadRegs s s.mode (withAddrs base regs) (s.setReg (low rb) (base + blockSize regs))).advance

end Sys2Proof.Machine
end

