-- ==== Sys2Proof/Machine/Dispatch.lean ====
section
/-! DEFINITION. Machine/Dispatch.lean: one arm per instruction, each one call of its meaning. -/

namespace Sys2Proof.Machine

def exec (i : Instr) (s : State) : Host.Outcome State Fault Refusal :=
  match i with
  | .armNever bits => Sys2Proof.Machine.execArmNever bits s
  | .bx c rm => Sys2Proof.Machine.execBx c rm s
  | .mrs c ps rd => Sys2Proof.Machine.execMrs c ps rd s
  | .msrReg c pd fields rm => Sys2Proof.Machine.execMsrReg c pd fields rm s
  | .msrImm c pd fields rotate imm8 => Sys2Proof.Machine.execMsrImm c pd fields rotate imm8 s
  | .mul c sb rd sbz rs rm => Sys2Proof.Machine.execMul c sb rd sbz rs rm s
  | .mla c sb rd rn rs rm => Sys2Proof.Machine.execMla c sb rd rn rs rm s
  | .umull c sb rdHi rdLo rs rm => Sys2Proof.Machine.execUmull c sb rdHi rdLo rs rm s
  | .umlal c sb rdHi rdLo rs rm => Sys2Proof.Machine.execUmlal c sb rdHi rdLo rs rm s
  | .smull c sb rdHi rdLo rs rm => Sys2Proof.Machine.execSmull c sb rdHi rdLo rs rm s
  | .smlal c sb rdHi rdLo rs rm => Sys2Proof.Machine.execSmlal c sb rdHi rdLo rs rm s
  | .swp c rn rd rm => Sys2Proof.Machine.execSwp c rn rd rm s
  | .swpb c rn rd rm => Sys2Proof.Machine.execSwpb c rn rd rm s
  | .ldrhReg c p u w rn rd rm => Sys2Proof.Machine.execLdrhReg c p u w rn rd rm s
  | .ldrhImm c p u w rn rd imm8 => Sys2Proof.Machine.execLdrhImm c p u w rn rd imm8 s
  | .strhReg c p u w rn rd rm => Sys2Proof.Machine.execStrhReg c p u w rn rd rm s
  | .strhImm c p u w rn rd imm8 => Sys2Proof.Machine.execStrhImm c p u w rn rd imm8 s
  | .ldrsbReg c p u w rn rd rm => Sys2Proof.Machine.execLdrsbReg c p u w rn rd rm s
  | .ldrsbImm c p u w rn rd imm8 => Sys2Proof.Machine.execLdrsbImm c p u w rn rd imm8 s
  | .ldrshReg c p u w rn rd rm => Sys2Proof.Machine.execLdrshReg c p u w rn rd rm s
  | .ldrshImm c p u w rn rd imm8 => Sys2Proof.Machine.execLdrshImm c p u w rn rd imm8 s
  | .undefMul c bits => Sys2Proof.Machine.execUndefMul c bits s
  | .undefCompare c bits => Sys2Proof.Machine.execUndefCompare c bits s
  | .and c sb rn rd op2 => Sys2Proof.Machine.execAnd c sb rn rd op2 s
  | .eor c sb rn rd op2 => Sys2Proof.Machine.execEor c sb rn rd op2 s
  | .sub c sb rn rd op2 => Sys2Proof.Machine.execSub c sb rn rd op2 s
  | .rsb c sb rn rd op2 => Sys2Proof.Machine.execRsb c sb rn rd op2 s
  | .add c sb rn rd op2 => Sys2Proof.Machine.execAdd c sb rn rd op2 s
  | .adc c sb rn rd op2 => Sys2Proof.Machine.execAdc c sb rn rd op2 s
  | .sbc c sb rn rd op2 => Sys2Proof.Machine.execSbc c sb rn rd op2 s
  | .rsc c sb rn rd op2 => Sys2Proof.Machine.execRsc c sb rn rd op2 s
  | .tst c rn sbz op2 => Sys2Proof.Machine.execTst c rn sbz op2 s
  | .teq c rn sbz op2 => Sys2Proof.Machine.execTeq c rn sbz op2 s
  | .cmp c rn sbz op2 => Sys2Proof.Machine.execCmp c rn sbz op2 s
  | .cmn c rn sbz op2 => Sys2Proof.Machine.execCmn c rn sbz op2 s
  | .orr c sb rn rd op2 => Sys2Proof.Machine.execOrr c sb rn rd op2 s
  | .mov c sb sbz rd op2 => Sys2Proof.Machine.execMov c sb sbz rd op2 s
  | .bic c sb rn rd op2 => Sys2Proof.Machine.execBic c sb rn rd op2 s
  | .mvn c sb sbz rd op2 => Sys2Proof.Machine.execMvn c sb sbz rd op2 s
  | .undefTransfer c bits => Sys2Proof.Machine.execUndefTransfer c bits s
  | .ldrt c u rn rd off => Sys2Proof.Machine.execLdrt c u rn rd off s
  | .strt c u rn rd off => Sys2Proof.Machine.execStrt c u rn rd off s
  | .ldrbt c u rn rd off => Sys2Proof.Machine.execLdrbt c u rn rd off s
  | .strbt c u rn rd off => Sys2Proof.Machine.execStrbt c u rn rd off s
  | .ldr c p u w rn rd off => Sys2Proof.Machine.execLdr c p u w rn rd off s
  | .str c p u w rn rd off => Sys2Proof.Machine.execStr c p u w rn rd off s
  | .ldrb c p u w rn rd off => Sys2Proof.Machine.execLdrb c p u w rn rd off s
  | .strb c p u w rn rd off => Sys2Proof.Machine.execStrb c p u w rn rd off s
  | .ldmRet c p u w rn list => Sys2Proof.Machine.execLdmRet c p u w rn list s
  | .ldmUser c p u w rn list => Sys2Proof.Machine.execLdmUser c p u w rn list s
  | .stmUser c p u w rn list => Sys2Proof.Machine.execStmUser c p u w rn list s
  | .ldm c p u w rn list => Sys2Proof.Machine.execLdm c p u w rn list s
  | .stm c p u w rn list => Sys2Proof.Machine.execStm c p u w rn list s
  | .b c offset24 => Sys2Proof.Machine.execB c offset24 s
  | .bl c offset24 => Sys2Proof.Machine.execBl c offset24 s
  | .swi c comment => Sys2Proof.Machine.execSwi c comment s
  | .ldc c p u n w rn crd cp offset8 => Sys2Proof.Machine.execLdc c p u n w rn crd cp offset8 s
  | .stc c p u n w rn crd cp offset8 => Sys2Proof.Machine.execStc c p u n w rn crd cp offset8 s
  | .cdp c opc1 crn crd cp opc2 crm => Sys2Proof.Machine.execCdp c opc1 crn crd cp opc2 crm s
  | .mrc c opc1 crn rd cp opc2 crm => Sys2Proof.Machine.execMrc c opc1 crn rd cp opc2 crm s
  | .mcr c opc1 crn rd cp opc2 crm => Sys2Proof.Machine.execMcr c opc1 crn rd cp opc2 crm s
  | .tLslImm amount rs rd => Sys2Proof.Machine.execTLslImm amount rs rd s
  | .tLsrImm amount rs rd => Sys2Proof.Machine.execTLsrImm amount rs rd s
  | .tAsrImm amount rs rd => Sys2Proof.Machine.execTAsrImm amount rs rd s
  | .tAddReg rn rs rd => Sys2Proof.Machine.execTAddReg rn rs rd s
  | .tSubReg rn rs rd => Sys2Proof.Machine.execTSubReg rn rs rd s
  | .tAddImm3 imm3 rs rd => Sys2Proof.Machine.execTAddImm3 imm3 rs rd s
  | .tSubImm3 imm3 rs rd => Sys2Proof.Machine.execTSubImm3 imm3 rs rd s
  | .tMovImm8 rd imm8 => Sys2Proof.Machine.execTMovImm8 rd imm8 s
  | .tCmpImm8 rd imm8 => Sys2Proof.Machine.execTCmpImm8 rd imm8 s
  | .tAddImm8 rd imm8 => Sys2Proof.Machine.execTAddImm8 rd imm8 s
  | .tSubImm8 rd imm8 => Sys2Proof.Machine.execTSubImm8 rd imm8 s
  | .tAnd rs rd => Sys2Proof.Machine.execTAnd rs rd s
  | .tEor rs rd => Sys2Proof.Machine.execTEor rs rd s
  | .tLslReg rs rd => Sys2Proof.Machine.execTLslReg rs rd s
  | .tLsrReg rs rd => Sys2Proof.Machine.execTLsrReg rs rd s
  | .tAsrReg rs rd => Sys2Proof.Machine.execTAsrReg rs rd s
  | .tAdc rs rd => Sys2Proof.Machine.execTAdc rs rd s
  | .tSbc rs rd => Sys2Proof.Machine.execTSbc rs rd s
  | .tRorReg rs rd => Sys2Proof.Machine.execTRorReg rs rd s
  | .tTst rs rd => Sys2Proof.Machine.execTTst rs rd s
  | .tNeg rs rd => Sys2Proof.Machine.execTNeg rs rd s
  | .tCmpReg rs rd => Sys2Proof.Machine.execTCmpReg rs rd s
  | .tCmn rs rd => Sys2Proof.Machine.execTCmn rs rd s
  | .tOrr rs rd => Sys2Proof.Machine.execTOrr rs rd s
  | .tMul rs rd => Sys2Proof.Machine.execTMul rs rd s
  | .tBic rs rd => Sys2Proof.Machine.execTBic rs rd s
  | .tMvn rs rd => Sys2Proof.Machine.execTMvn rs rd s
  | .tAddHi rs rd => Sys2Proof.Machine.execTAddHi rs rd s
  | .tCmpHi rs rd => Sys2Proof.Machine.execTCmpHi rs rd s
  | .tMovHi rs rd => Sys2Proof.Machine.execTMovHi rs rd s
  | .tBx rs sbz => Sys2Proof.Machine.execTBx rs sbz s
  | .tBlxReg rs sbz => Sys2Proof.Machine.execTBlxReg rs sbz s
  | .tLdrPc rd word8 => Sys2Proof.Machine.execTLdrPc rd word8 s
  | .tStrReg ro rb rd => Sys2Proof.Machine.execTStrReg ro rb rd s
  | .tStrbReg ro rb rd => Sys2Proof.Machine.execTStrbReg ro rb rd s
  | .tLdrReg ro rb rd => Sys2Proof.Machine.execTLdrReg ro rb rd s
  | .tLdrbReg ro rb rd => Sys2Proof.Machine.execTLdrbReg ro rb rd s
  | .tStrhReg ro rb rd => Sys2Proof.Machine.execTStrhReg ro rb rd s
  | .tLdrhReg ro rb rd => Sys2Proof.Machine.execTLdrhReg ro rb rd s
  | .tLdsbReg ro rb rd => Sys2Proof.Machine.execTLdsbReg ro rb rd s
  | .tLdshReg ro rb rd => Sys2Proof.Machine.execTLdshReg ro rb rd s
  | .tStrImm offset5 rb rd => Sys2Proof.Machine.execTStrImm offset5 rb rd s
  | .tLdrImm offset5 rb rd => Sys2Proof.Machine.execTLdrImm offset5 rb rd s
  | .tStrbImm offset5 rb rd => Sys2Proof.Machine.execTStrbImm offset5 rb rd s
  | .tLdrbImm offset5 rb rd => Sys2Proof.Machine.execTLdrbImm offset5 rb rd s
  | .tStrhImm offset5 rb rd => Sys2Proof.Machine.execTStrhImm offset5 rb rd s
  | .tLdrhImm offset5 rb rd => Sys2Proof.Machine.execTLdrhImm offset5 rb rd s
  | .tStrSp rd word8 => Sys2Proof.Machine.execTStrSp rd word8 s
  | .tLdrSp rd word8 => Sys2Proof.Machine.execTLdrSp rd word8 s
  | .tAddPc rd word8 => Sys2Proof.Machine.execTAddPc rd word8 s
  | .tAddSp rd word8 => Sys2Proof.Machine.execTAddSp rd word8 s
  | .tIncSp sword7 => Sys2Proof.Machine.execTIncSp sword7 s
  | .tDecSp sword7 => Sys2Proof.Machine.execTDecSp sword7 s
  | .tPush lr list => Sys2Proof.Machine.execTPush lr list s
  | .tPop pc list => Sys2Proof.Machine.execTPop pc list s
  | .tStmia rb list => Sys2Proof.Machine.execTStmia rb list s
  | .tLdmia rb list => Sys2Proof.Machine.execTLdmia rb list s
  | .tBeq soffset8 => Sys2Proof.Machine.execTBeq soffset8 s
  | .tBne soffset8 => Sys2Proof.Machine.execTBne soffset8 s
  | .tBcs soffset8 => Sys2Proof.Machine.execTBcs soffset8 s
  | .tBcc soffset8 => Sys2Proof.Machine.execTBcc soffset8 s
  | .tBmi soffset8 => Sys2Proof.Machine.execTBmi soffset8 s
  | .tBpl soffset8 => Sys2Proof.Machine.execTBpl soffset8 s
  | .tBvs soffset8 => Sys2Proof.Machine.execTBvs soffset8 s
  | .tBvc soffset8 => Sys2Proof.Machine.execTBvc soffset8 s
  | .tBhi soffset8 => Sys2Proof.Machine.execTBhi soffset8 s
  | .tBls soffset8 => Sys2Proof.Machine.execTBls soffset8 s
  | .tBge soffset8 => Sys2Proof.Machine.execTBge soffset8 s
  | .tBlt soffset8 => Sys2Proof.Machine.execTBlt soffset8 s
  | .tBgt soffset8 => Sys2Proof.Machine.execTBgt soffset8 s
  | .tBle soffset8 => Sys2Proof.Machine.execTBle soffset8 s
  | .tUndefCond bits => Sys2Proof.Machine.execTUndefCond bits s
  | .tSwi value8 => Sys2Proof.Machine.execTSwi value8 s
  | .tB offset11 => Sys2Proof.Machine.execTB offset11 s
  | .tBlxLow offset11 => Sys2Proof.Machine.execTBlxLow offset11 s
  | .tBlHigh offset11 => Sys2Proof.Machine.execTBlHigh offset11 s
  | .tBlLow offset11 => Sys2Proof.Machine.execTBlLow offset11 s
  | .tUndefB1 bits => Sys2Proof.Machine.execTUndefB1 bits s
  | .tUndefB2 bits => Sys2Proof.Machine.execTUndefB2 bits s
  | .tUndefB6 bits => Sys2Proof.Machine.execTUndefB6 bits s
  | .tUndefB8 bits => Sys2Proof.Machine.execTUndefB8 bits s
  | .tUndefBE bits => Sys2Proof.Machine.execTUndefBE bits s

end Sys2Proof.Machine
end

