-- ==== Sys2Proof/Machine/Ppu.lean ====
section
/-! DEFINITION. Machine/Ppu.lean: the scanline renderer and compositor (spec/62_ppu.md). It reads the buffers and registers
of one state and writes one row of the framebuffer; the only PPU state that evolves by itself is the affine reference
points. -/

namespace Sys2Proof.Machine

/-! ## Memory and registers as the PPU reads them (R744) -/

/-- `V8(o)`: a VRAM byte through the 128 KiB window. -/
def State.vram8 (s : State) (o : Nat) : Nat := (Memory.get s.mem (0x06000000 + vramOffset o)).toNat

/-- `V16(o)`. -/
def State.vram16 (s : State) (o : Nat) : Nat := s.vram8 (o / 2 * 2) + 256 * s.vram8 (o / 2 * 2 + 1)

/-- `P16(i)`: colour `i`; 0 to 255 background, 256 to 511 sprites. -/
def State.palette (s : State) (i : Nat) : Nat :=
  (Memory.get s.mem (0x05000000 + 2 * i)).toNat + 256 * (Memory.get s.mem (0x05000000 + 2 * i + 1)).toNat

/-- A halfword of OAM. -/
def State.oam16 (s : State) (o : Nat) : Nat :=
  (Memory.get s.mem (0x07000000 + o)).toNat + 256 * (Memory.get s.mem (0x07000000 + o + 1)).toNat

/-- A 16-bit I/O register of the PPU, all of which are storage (R741, R743, R750, R770, R790). -/
def State.ppuReg (s : State) (off : Nat) : Nat := (s.ioHalf off).toNat

/-- DISPCNT (R741). -/
def State.dispcnt (s : State) : Nat := s.ppuReg 0x000

/-- BGnCNT (R743). -/
def State.bgcnt (s : State) (n : Nat) : Nat := s.ppuReg (0x008 + 2 * n)

/-! ## Layers (R742, R743) -/

/-- What a background is in a mode. -/
inductive BgKind where
  | text | affine | bitmap3 | bitmap4 | bitmap5
deriving DecidableEq, Repr

/-- The table of R742; none is a background that is not mode-legal. -/
def bgKind (mode n : Nat) : Option BgKind :=
  match mode, n with
  | 0, _ => some .text
  | 1, 0 => some .text | 1, 1 => some .text | 1, 2 => some .affine
  | 2, 2 => some .affine | 2, 3 => some .affine
  | 3, 2 => some .bitmap3
  | 4, 2 => some .bitmap4
  | 5, 2 => some .bitmap5
  | _, _ => none

/-- The fields of BGnCNT. -/
def bgPrio (cnt : Nat) : Nat := fld cnt 0 2
def bgCharBase (cnt : Nat) : Nat := fld cnt 2 2 * 0x4000
def bgIs8bpp (cnt : Nat) : Bool := bit cnt 7
def bgScreenBase (cnt : Nat) : Nat := fld cnt 8 5 * 0x800
def bgWraps (cnt : Nat) : Bool := bit cnt 13
def bgSize (cnt : Nat) : Nat := fld cnt 14 2

/-! ## Text backgrounds (R750 to R752) -/

/-- Text map width and height by size (R751). -/
def textWidth (size : Nat) : Nat := if size % 2 = 1 then 512 else 256
def textHeight (size : Nat) : Nat := if 2 ≤ size then 512 else 256

/-- The screen block of a map pixel (R751). -/
def screenBlock (size mx my : Nat) : Nat :=
  match size with
  | 0 => 0
  | 1 => mx / 256
  | 2 => my / 256
  | _ => mx / 256 + 2 * (my / 256)

/-- The colour index in a 4 bpp byte: the left pixel is the low nibble. -/
def nibble (b px : Nat) : Nat := if px % 2 = 1 then b / 16 else b % 16

/-- A coordinate inside an 8-pixel tile, flipped or not. -/
def flip8 (flip : Bool) (p : Nat) : Nat := if flip then 7 - p else p

/-- A colour index as a colour; index 0 is transparent. -/
def opaqueColour (i colour : Nat) : Option Nat := if i = 0 then none else some colour

/-- `TextPixel(n, x, line)` (R752). -/
def textPixel (s : State) (n x line : Nat) : Option Nat :=
  let cnt := s.bgcnt n
  let hofs := s.ppuReg (0x010 + 4 * n) % 512
  let vofs := s.ppuReg (0x012 + 4 * n) % 512
  let mx := (x + hofs) % textWidth (bgSize cnt)
  let my := (line + vofs) % textHeight (bgSize cnt)
  let e := s.vram16 (bgScreenBase cnt + screenBlock (bgSize cnt) mx my * 0x800 + my % 256 / 8 * 64 + mx % 256 / 8 * 2)
  let tile := fld e 0 10
  let px := flip8 (bit e 10) (mx % 8)
  let py := flip8 (bit e 11) (my % 8)
  if bgIs8bpp cnt then
    let i := s.vram8 (bgCharBase cnt + tile * 64 + py * 8 + px)
    opaqueColour i (s.palette i)
  else
    let i := nibble (s.vram8 (bgCharBase cnt + tile * 32 + py * 4 + px / 2)) px
    opaqueColour i (s.palette (fld e 12 4 * 16 + i))

/-! ## Affine backgrounds (R770 to R774) -/

/-- An affine parameter register, sign-extended (R770). -/
def State.affineParam (s : State) (off : Nat) : Word := sext16 (s.ioHalf off)

/-- The base of BG2's or BG3's affine registers. -/
def affineBase (n : Nat) : Nat := if n = 2 then 0x020 else 0x030

/-- `ReloadAffineRefs()` (R772). -/
def reloadAffineRefs (s : State) : State :=
  { s with refX2 := refValue (s.ioWord 0x28), refY2 := refValue (s.ioWord 0x2C),
           refX3 := refValue (s.ioWord 0x38), refY3 := refValue (s.ioWord 0x3C) }

/-- `AdvanceAffineRefs()` (R773). -/
def advanceAffineRefs (s : State) : State :=
  { s with refX2 := s.refX2 + s.affineParam 0x24, refY2 := s.refY2 + s.affineParam 0x26,
           refX3 := s.refX3 + s.affineParam 0x34, refY3 := s.refY3 + s.affineParam 0x36 }

/-- `AffinePixel(n, x)` (R774). -/
def affinePixel (s : State) (n x : Nat) : Option Nat :=
  let cnt := s.bgcnt n
  let rx := if n = 2 then s.refX2 else s.refX3
  let ry := if n = 2 then s.refY2 else s.refY3
  let fx := rx + BitVec.ofNat 32 x * s.affineParam (affineBase n)
  let fy := ry + BitVec.ofNat 32 x * s.affineParam (affineBase n + 2)
  let tx := (fx.sshiftRight 8).toInt
  let ty := (fy.sshiftRight 8).toInt
  let size : Nat := 128 * 2 ^ bgSize cnt
  if bgWraps cnt = false ∧ (tx < 0 ∨ (size : Int) ≤ tx ∨ ty < 0 ∨ (size : Int) ≤ ty) then none
  else
    let mx := (tx % (size : Int)).toNat
    let my := (ty % (size : Int)).toNat
    let tile := s.vram8 (bgScreenBase cnt + my / 8 * (size / 8) + mx / 8)
    let i := s.vram8 (bgCharBase cnt + tile * 64 + my % 8 * 8 + mx % 8)
    opaqueColour i (s.palette i)

/-! ## Bitmap backgrounds (R776 to R778) -/

/-- The page of modes 4 and 5. -/
def State.bitmapPage (s : State) : Nat := fld s.dispcnt 4 1 * 0xA000

/-- Mode 3. -/
def bitmap3Pixel (s : State) (x line : Nat) : Option Nat := some (s.vram16 ((line * 240 + x) * 2))

/-- Mode 4. -/
def bitmap4Pixel (s : State) (x line : Nat) : Option Nat :=
  let i := s.vram8 (s.bitmapPage + line * 240 + x)
  opaqueColour i (s.palette i)

/-- Mode 5. -/
def bitmap5Pixel (s : State) (x line : Nat) : Option Nat :=
  if x < 160 ∧ line < 128 then some (s.vram16 (s.bitmapPage + (line * 160 + x) * 2)) else none

/-- `BgPixel(n, x, line)` (R761). -/
def bgPixel (s : State) (kind : BgKind) (n x line : Nat) : Option Nat :=
  match kind with
  | .text => textPixel s n x line
  | .affine => affinePixel s n x
  | .bitmap3 => bitmap3Pixel s x line
  | .bitmap4 => bitmap4Pixel s x line
  | .bitmap5 => bitmap5Pixel s x line

/-! ## Sprites (R780 to R784) -/

/-- The attributes of a sprite (R780). -/
structure Sprite where
  y : Nat
  x : Nat
  affine : Bool
  disabled : Bool     -- attribute 0 bit 9 with the affine flag clear
  gfx : Nat
  bpp8 : Bool
  shape : Nat
  size : Nat
  hflip : Bool
  vflip : Bool
  tile : Nat
  prio : Nat
  bank : Nat
deriving DecidableEq, Repr

/-- OAM entry `k`. The flips read as 0 when the affine flag is set. -/
def State.sprite (s : State) (k : Nat) : Sprite :=
  let a0 := s.oam16 (8 * k)
  let a1 := s.oam16 (8 * k + 2)
  let a2 := s.oam16 (8 * k + 4)
  { y := fld a0 0 8, x := fld a1 0 9, affine := bit a0 8, disabled := !bit a0 8 && bit a0 9, gfx := fld a0 10 2,
    bpp8 := bit a0 13, shape := fld a0 14 2, size := fld a1 14 2, hflip := !bit a0 8 && bit a1 12,
    vflip := !bit a0 8 && bit a1 13, tile := fld a2 0 10, prio := fld a2 10 2, bank := fld a2 12 4 }

/-- A sprite that draws no colour (R780). DESIGN CHOICE (log entry 26): the affine flag is no ground to skip a sprite. The
spec's files conflict: R780 and D29 draw such a sprite unflipped; 93_implementation_defined.md section 3 item 7 says that it
is not rendered. -/
def Sprite.skipped (o : Sprite) : Bool := o.shape == 3 || o.disabled || decide (2 ≤ o.gfx)

/-- Width and height by shape and size (R781). -/
def spriteDims (shape size : Nat) : Nat × Nat :=
  match shape, size with
  | 0, 0 => (8, 8) | 0, 1 => (16, 16) | 0, 2 => (32, 32) | 0, _ => (64, 64)
  | 1, 0 => (16, 8) | 1, 1 => (32, 8) | 1, 2 => (32, 16) | 1, _ => (64, 32)
  | _, 0 => (8, 16) | _, 1 => (8, 32) | _, 2 => (16, 32) | _, _ => (32, 64)

/-- `ObjPixel(k, j, r)` (R783). -/
def objPixel (s : State) (o : Sprite) (j r : Nat) : Option Nat :=
  let w := (spriteDims o.shape o.size).1
  let h := (spriteDims o.shape o.size).2
  let sx := if o.hflip then w - 1 - j else j
  let sy := if o.vflip then h - 1 - r else r
  let oneDim := bit s.dispcnt 6
  if o.bpp8 then
    let t := o.tile + (if oneDim then sy / 8 * 2 * (w / 8) else sy / 8 * 32) + 2 * (sx / 8)
    let i := s.vram8 (0x10000 + t % 0x400 * 32 + sy % 8 * 8 + sx % 8)
    opaqueColour i (s.palette (256 + i))
  else
    let t := o.tile + (if oneDim then sy / 8 * (w / 8) else sy / 8 * 32) + sx / 8
    let i := nibble (s.vram8 (0x10000 + t % 0x400 * 32 + sy % 8 * 4 + sx % 8 / 2)) sx
    opaqueColour i (s.palette (256 + o.bank * 16 + i))

/-- A sprite pixel: its colour and whether the sprite is semitransparent. -/
structure ObjCell where
  colour : Nat
  semi : Bool
deriving DecidableEq, Repr

/-- What sprite `k` draws at column `c` of scanline `line` into the buffer of priority `q` (R782, R784): its column there
is (c − x) mod 512 and its row (line − y) mod 256. -/
def spriteCell (s : State) (line q c k : Nat) : Option ObjCell :=
  let o := s.sprite k
  let r := (line + 256 - o.y) % 256
  let j := (c + 512 - o.x) % 512
  if o.skipped = false ∧ o.prio = q ∧ r < (spriteDims o.shape o.size).2 ∧ j < (spriteDims o.shape o.size).1 then
    (objPixel s o j r).map fun colour => { colour := colour, semi := o.gfx == 1 }
  else none

/-- `obj[q][c]` of R784: entries are written from 127 down to 0, so the lowest-numbered sprite that draws there wins. -/
def objCell (s : State) (line q c : Nat) : Option ObjCell :=
  (List.range 128).findSome? (spriteCell s line q c)

/-! ## Compositor (R788 to R796) -/

/-- The layer a candidate comes from. -/
inductive Layer where
  | bg (n : Nat)
  | obj (semi : Bool)
  | backdrop
deriving DecidableEq, Repr

/-- A candidate pixel. -/
structure Pixel where
  layer : Layer
  colour : Nat
deriving DecidableEq, Repr

/-- The layer's bit number in the target flags of BLDCNT (R790). -/
def Layer.targetBit : Layer → Nat
  | .bg n => n
  | .obj _ => 4
  | .backdrop => 5

/-- The background candidate of layer `n` when its priority is `q` (R760). -/
def bgCandidate (s : State) (line x q n : Nat) : Option Pixel :=
  if bit s.dispcnt (8 + n) = true ∧ bgPrio (s.bgcnt n) = q then
    match bgKind (fld s.dispcnt 0 3) n with
    | some kind => (bgPixel s kind n x line).map fun c => { layer := .bg n, colour := c }
    | none => none
  else none

/-- The sprite candidate of priority `q`. -/
def objCandidate (s : State) (line x q : Nat) : Option Pixel :=
  if bit s.dispcnt 12 then (objCell s line q x).map fun o => { layer := .obj o.semi, colour := o.colour } else none

/-- The candidates of a pixel in the order of R788: priority, then sprites before backgrounds, then background number; the
backdrop last. -/
def candidates (s : State) (line x : Nat) : List Pixel :=
  ([0, 1, 2, 3].flatMap fun q =>
    (objCandidate s line x q).toList ++ [0, 1, 2, 3].filterMap (bgCandidate s line x q))
  ++ [{ layer := .backdrop, colour := s.palette 0 }]

/-- The three 5-bit channels of a colour (R744), and a colour of three channels. -/
def red (c : Nat) : Nat := fld c 0 5
def green (c : Nat) : Nat := fld c 5 5
def blue (c : Nat) : Nat := fld c 10 5
def colourOf (r g b : Nat) : Nat := r + 32 * g + 1024 * b

/-- A colour with `f` applied to each channel, and to the channels of two colours. -/
def mapChannels (f : Nat → Nat) (c : Nat) : Nat := colourOf (f (red c)) (f (green c)) (f (blue c))
def zipChannels (f : Nat → Nat → Nat) (a b : Nat) : Nat :=
  colourOf (f (red a) (red b)) (f (green a) (green b)) (f (blue a) (blue b))

/-- The channel formulas of R791. -/
def alphaChannel (eva evb t b : Nat) : Nat := min 31 ((t * eva + b * evb) / 16)
def brighten (evy t : Nat) : Nat := t + (31 - t) * evy / 16
def darken (evy t : Nat) : Nat := t - t * evy / 16

/-- A blend coefficient: five bits, at most 16 (R790). -/
def blendCoefficient (v lo : Nat) : Nat := min 16 (fld v lo 5)

/-- A layer is a first target, or a second target, of BLDCNT. -/
def firstTarget (bldcnt : Nat) (l : Layer) : Bool := bit bldcnt l.targetBit
def secondTarget (bldcnt : Nat) (l : Layer) : Bool := bit bldcnt (8 + l.targetBit)

/-- A semitransparent sprite pixel. -/
def Layer.isSemi : Layer → Bool
  | .obj semi => semi
  | _ => false

/-- The blend rule of R791 for the top pixel and the one below it, if there is one. DESIGN CHOICE (log entry 27): a
semitransparent sprite is blended in every mode. The spec's files conflict: R791 and D42 blend it;
93_implementation_defined.md section 3 item 8 calls that not implemented. -/
def blend (bldcnt bldalpha bldy : Nat) (top : Pixel) (below : Option Pixel) : Nat :=
  let mode := fld bldcnt 6 2
  let first := firstTarget bldcnt top.layer
  let alphaBelow := if (mode = 1 ∧ first = true) ∨ top.layer.isSemi = true then
      below.filter fun p => secondTarget bldcnt p.layer
    else none
  match alphaBelow with
  | some p =>
    zipChannels (alphaChannel (blendCoefficient bldalpha 0) (blendCoefficient bldalpha 8)) top.colour p.colour
  | none =>
    if mode = 2 ∧ first = true then mapChannels (brighten (blendCoefficient bldy 0)) top.colour
    else if mode = 3 ∧ first = true then mapChannels (darken (blendCoefficient bldy 0)) top.colour
    else top.colour

/-- `Compose` (R788, R791). -/
def compose (s : State) (cand : List Pixel) : Nat :=
  match cand with
  | [] => s.palette 0
  | top :: rest => blend (s.ppuReg 0x050) (s.ppuReg 0x052) (s.ppuReg 0x054) top rest.head?

/-- `Host(c)` (R796): RGB565, green's top bit duplicated below it. -/
def hostPixel (c : Nat) : Half :=
  BitVec.ofNat 16 (red c * 2^11 + green c * 2^6 + green c / 16 * 2^5 + blue c)

/-- Pixel (line, x) as R760 renders it. -/
def renderPixel (s : State) (line x : Nat) : Half := hostPixel (compose s (candidates s line x))

/-- `n` pixels of a row from column `x`; every pixel is a function of the state `s` at the start. -/
def renderRow (s : State) (line : Nat) : (n : Nat) → (x : Nat) → List (Nat × Half) → List (Nat × Half)
  | 0, _, fb => fb
  | n + 1, x, fb => renderRow s line n (x + 1) (Framebuffer.set fb line x (renderPixel s line x))

/-- `RenderScanline(line)` (R760): row `line` of the framebuffer and nothing else. -/
def renderScanline (s : State) (line : Nat) : State :=
  { s with framebuffer := renderRow s line 240 0 s.framebuffer }

end Sys2Proof.Machine
end

