-- ==== Sys2Proof/Machine/Driver.lean ====
section
/-! DEFINITION. Machine/Driver.lean: the CPU step (spec/40_arm_common.md R230), the frame driver (spec/61_devices.md R670 to
R676), the host's operations (R730 to R736), and the placing of one instruction where the next step fetches it. -/

namespace Sys2Proof.Machine

/-! ## The CPU step -/

/-- The word of an ARM fetch: `MemRead(IA, 4)` (R93), but the first word of a ROM shorter than 4 bytes is an unmapped read,
the word 0 (R803). -/
def State.fetchArm (s : State) : Word :=
  if s.romSize < 4 ∧ busAddr (align4 s.ia) = 0x08000000 then 0 else s.read32 s.ia

/-- The word fetched at IA (R93). -/
def State.fetchWord (s : State) : Nat := if s.thumb then (s.read16 s.ia).toNat else s.fetchArm.toNat

/-- The instruction of a fetched word in the instruction set that CPSR bit 5 selects (R150). -/
def decodeWord (thumb : Bool) (w : Nat) : Instr := if thumb then decodeThumb w else decodeArm w

/-- CYCLE_COST (R231): at least 1. -/
def cycleCost (p : Params) (key : Nat) : Nat := max 1 ((p.costs.lookup key).getD 1)

/-- The key of the cost table for a word. -/
def costKey (thumb : Bool) (w : Nat) : Nat := if thumb then 2^32 + w else w

/-- The cost of the step about to be made; a BIOS-space step costs as a BX R14 (R630). -/
def State.stepCost (s : State) : Nat :=
  if inBiosSpace s.ia then cycleCost s.params (costKey s.thumb (if s.thumb then 0x4770 else 0xE12FFF1E))
  else cycleCost s.params (costKey s.thumb s.fetchWord)

/-- `step()` up to the cycle count (R230): a BIOS-space step or the fetched instruction. -/
def cpuStep (s : State) : Result :=
  if inBiosSpace s.ia then .next (biosSpaceStep s) else exec (decodeWord s.thumb s.fetchWord) s

/-- What the loop of R671 does with the value `c` that the step returned: the cycle counter, the timers, the budget. -/
def afterStep (c : Nat) (s : State) : State :=
  let s1 := timersUpdate { s with cycles := s.cycles + BitVec.ofNat 64 c } c
  { s1 with left := s1.left - c }

/-- One turn of the CPU loop without IRQ entry. -/
def runStep (s : State) : Result :=
  match cpuStep s with
  | .next s' => .next (afterStep s.stepCost s')
  | .fault e => .fault e
  | .refused r => .refused r

/-! ## The frame driver (R671) -/

/-- `HostInput(buttons)` (R733). -/
def hostInput (s : State) (buttons : Half) : State :=
  { s with keyinput := ~~~buttons &&& 0x03FF#16, mem := Memory.set s.mem 0x0203CF64 (loByte buttons) }

/-- The call of `step_frame(buttons)`: the host input, then scanline 0. -/
def beginFrame (s : State) (buttons : Half) : State :=
  { hostInput s buttons with phase := .lineStart, line := 0 }

/-- BIOS is below these keys, ROM and FLASH from these on; between them lie the buffers that RESET_STATE fills. -/
def belowRam (c : Host.Cell) : Bool := decide (c.1 < 0x4000)
def aboveRam (c : Host.Cell) : Bool := decide (0x08000000 ≤ c.1)

/-- The memory of RESET_STATE between a BIOS and a cartridge: only its cells of RAM and I/O count. -/
def startMem (bios ram cartridge : List Host.Cell) : List Host.Cell :=
  bios ++ ram.filter (fun c => !belowRam c && !aboveRam c) ++ cartridge

/-- The bytes of an image from key `k` on, as cells; a byte 0 is not listed. -/
def imageCells : (k : Nat) → List Byte → List Host.Cell
  | _, [] => []
  | k, b :: bs => if b = 0 then imageCells (k + 1) bs else (k, b) :: imageCells (k + 1) bs

/-- `init(rom_bytes)` with the parameters `p` and the BIOS image `bios` (a shorter one is followed by zeros), at the host time
`clock` (R10, R730, R800): RESET_STATE, the images, and FLASH all 0xFF. A ROM of more than 32 MiB or a BIOS of more than
16 KiB is none. -/
def State.init (p : Params) (bios rom : List Byte) (clock : Nat) : Option State :=
  if rom.length ≤ 0x02000000 ∧ bios.length ≤ 0x4000 then
    some (State.start p (startMem (imageCells 0 bios) p.resetState.ram (imageCells 0x08000000 rom)) rom.length clock)
  else none

/-- `reset(Handle)` at the host time `clock` (R731, R800): RESET_STATE, with ROM, BIOS and FLASH kept; the parameters, the
host's queue and the free-value counter are not the machine's to reset. -/
def hostReset (s : State) (clock : Nat) : State :=
  { State.start s.params (startMem (s.mem.filter belowRam) s.params.resetState.ram (s.mem.filter aboveRam)) s.romSize clock with
    host := s.host, free := s.free }

/-- The host acts between two frames (R736): the next queued command; with none, it calls `step_frame` with no button
pressed. -/
def hostStep (s : State) : State :=
  match s.host with
  | [] => beginFrame s 0
  | .stepFrame buttons :: rest => beginFrame { s with host := rest } buttons
  | .writeMemory a v :: rest => ({ s with host := rest }).write8 a v
  | .reset clock :: rest => hostReset { s with host := rest } clock

/-- The top of the scanline loop (R671): reference points, VCOUNT, DMA triggers, the budget. -/
def beginLine (s : State) : State :=
  let s1 := if s.line = 0 then reloadAffineRefs s else s
  let s2 := updateVcount s1 s.line
  let s3 := if s.line = 160 then dmaTrigger s2 1 else s2
  let s4 := if s.line < 160 then dmaTrigger s3 2 else s3
  { s4 with left := 1232, phase := .run }

/-- Time and wake-up of a halted CPU (R673, R674). -/
def haltedRest (s : State) : State :=
  if s.halted then
    let s1 := if 0 < s.left then timersUpdate s s.left.toNat else s
    if s1.pending then { s1 with halted := false } else s1
  else s

/-- The next scanline, or the end of the frame after scanline 227 (R676). -/
def nextLine (s : State) : State :=
  if s.line < 227 then { s with line := s.line + 1, phase := .lineStart }
  else { s with line := 0, phase := .host, frameCount := s.frameCount + 1 }

/-- The end of a scanline (R671): the halted rest, the renderer, the reference points. -/
def endLine (s : State) : State :=
  let s1 := haltedRest s
  let s2 := if s1.line < 160 then renderScanline s1 s1.line else s1
  nextLine (advanceAffineRefs s2)

/-- The CPU loop of the scanline goes on (R671, R672). -/
def State.running (s : State) : Bool := !s.halted && decide (0 < s.left)

/-- One action of the schedule of R671. -/
def machineStep (s : State) : Result :=
  match s.phase with
  | .host => .next (hostStep s)
  | .lineStart => .next (beginLine s)
  | .run => if s.running then (if s.takesIrq then .next (takeIrq s) else runStep s) else .next (endLine s)

/-! ## Placing an instruction -/

/-- A fetch at `a` reads a plain buffer that instructions can be placed in: work RAM, video memory, or ROM outside a
visible GPIO window. -/
def holdsCode (s : State) (a : Word) : Bool :=
  isRam (regionOf a)
  || ((regionOf a == 8 || regionOf a == 9) && !(s.gpioVisible && inGpioWindow (romOffset a)))

/-- `n` bytes of `w` stored from address `a`, the low byte first. -/
def placeBytes : (n : Nat) → (w : Nat) → (a : Word) → List (Nat × Byte) → List (Nat × Byte)
  | 0, _, _, m => m
  | n + 1, w, a, m =>
    placeBytes n (w / 2^8) (a + 1)
      (match bufferKey 0x02000000 a with
       | some k => Memory.set m k (BitVec.ofNat 8 (w % 2^8))
       | none => m)

/-- The state whose next step fetches and runs the word `w` of `nbits` bits: in the CPU loop of a scanline with budget
left, not halted and with no IRQ to take first; in Thumb state for 16 bits and ARM state for 32. The instruction address
is kept where instructions can be placed there, else it is the entry point 0x08000000; ROM grows to hold the word. -/
def placeWord (s : State) (nbits w : Nat) : State :=
  let t := nbits == 16
  let ia0 := if t = s.thumb then s.ia else align4 s.ia
  let ia := if holdsCode s (if t then align2 ia0 else align4 ia0) then ia0 else 0x08000000#32
  let a := if t then align2 ia else align4 ia
  let n := if t then 2 else 4
  { s with phase := .run, left := if 0 < s.left then s.left else 1232, halted := false,
           ime := if s.takesIrq then 0 else s.ime,
           cpsr := setBit s.cpsr 5 t, r15 := ia + prefetchOffset t,
           mem := placeBytes n w a s.mem,
           romSize := if 8 ≤ regionOf a then max s.romSize (romOffset a + n) else s.romSize }

end Sys2Proof.Machine
end

