-- ==== Sys2Proof/Machine/Step.lean ====
section
/-! DEFINITION. Machine/Step.lean: the step of the machine and the placing of an instruction, under the host's names. -/

namespace Sys2Proof.Machine

/-- One action of the frame driver's schedule (spec/61_devices.md R671), the host's turn between frames included. -/
def step (s : State) : Host.Outcome State Fault Refusal := machineStep s

/-- `s` with the word `w` of `nbits` bits where the next step fetches, so that the next step runs it. -/
def State.withFetchWord (s : State) (nbits w : Nat) : State := placeWord s nbits w

end Sys2Proof.Machine
end

