-- ==== Sys2Proof/Safety.lean ====
section
/-! DEFINITION. Safety.lean: the terms claims are stated in: the invariant of the machine, runs and safe runs, what an
instruction or a bus access leaves unchanged, and the condition of an instruction. -/

namespace Sys2Proof.Machine

/-! ## The invariant -/

/-- The mode field of a status word is one of the seven modes (P2, R50). -/
def validMode (w : Word) : Bool := (Mode.ofBits (w.extractLsb' 0 5)).isSome

/-- The interrupt sources that exist (R641): VBlank, HBlank, VCount, the timers, the DMA channels. -/
def irqSources : Half := 0x0F7F#16

/-- A memory key that no write reaches: BIOS and ROM (R82, R85, R86). -/
def readOnlyKey (k : Nat) : Bool := decide (k < 0x02000000) || (decide (0x08000000 ≤ k) && decide (k < 0x0E000000))

/-- The internal addresses of a DMA channel lie on the 28-bit bus (invariant D1 of R683). -/
def DmaChannel.onBus (d : DmaChannel) : Bool := decide (d.internalSrc.toNat < 2^28) && decide (d.internalDst.toNat < 2^28)

/-- A reset record that names a state of the invariant. -/
structure ResetState.Ok (r : ResetState) : Prop where
  memory : Memory.wf r.ram = true
  picture : Framebuffer.wf r.framebuffer = true
  mode : validMode r.cpsr = true
  pc : r.r15.getLsbD 0 = false
  irqs : r.if_ &&& ~~~irqSources = 0#16
  vcount : r.vcount.toNat < 228
  lastVcount : r.lastVcount.toNat < 228
  keys : r.keyinput &&& 0xFC00#16 = 0#16
  gpioData : r.gpioData.toNat < 16
  gpioDir : r.gpioDir.toNat < 16
  gpioCtrl : r.gpioCtrl.toNat < 2
  dma : ∀ n : Fin 4, r.dma[n].onBus = true
  timers : ∀ n : Fin 4, r.timers[n].accumulator < 1024

/-- What holds at reset and after every step. -/
structure State.Inv (s : State) : Prop where
  /-- Memory is in its canonical form. -/
  memory : Memory.wf s.mem = true
  /-- So is the framebuffer. -/
  picture : Framebuffer.wf s.framebuffer = true
  /-- The mode field of CPSR is valid (P2). -/
  mode : validMode s.cpsr = true
  /-- R15 bit 0 is 0 (R43). -/
  pc : s.r15.getLsbD 0 = false
  /-- No request of a source that does not exist (R641). -/
  irqs : s.if_ &&& ~~~irqSources = 0#16
  /-- VCOUNT is a scanline (R112). -/
  vcount : s.vcount.toNat < 228
  /-- So is the scanline of the last update. -/
  lastVcount : s.lastVcount.toNat < 228
  /-- So is the driver's. -/
  line : s.line < 228
  /-- The budget of a scanline (R675). -/
  budget : s.left ≤ 1232
  /-- KEYINPUT bits 15:10 are 0 (R113). -/
  keys : s.keyinput &&& 0xFC00#16 = 0#16
  /-- The GPIO data register has four bits (R715). -/
  gpioData : s.gpioData.toNat < 16
  /-- So has the direction register. -/
  gpioDir : s.gpioDir.toNat < 16
  /-- The GPIO control register has one bit. -/
  gpioCtrl : s.gpioCtrl.toNat < 2
  /-- Invariant D1 of R683. -/
  dma : ∀ n, (s.dmaChannel n).onBus = true
  /-- A timer's accumulator is below the largest prescaler (R58). -/
  timers : ∀ n, (s.timer n).accumulator < 1024
  /-- A reset leads back into the invariant. -/
  resetState : s.params.resetState.Ok

/-! ## Runs -/

/-- `t` is reached from `s` by steps of the machine. -/
inductive Reaches (s : State) : State → Prop where
  | refl : Reaches s s
  | step {t u : State} (h : Reaches s t) (hs : step t = .next u) : Reaches s u

/-- A safe run: no step from `s` on stops the machine (R620, R622, R623). -/
def Safe (s : State) : Prop := ∀ t, Reaches s t → ∃ u, step t = .next u

/-! ## Results and flags, exactly -/

/-- Every bit of `v` is `f` of the bits of `a` and `b`. -/
def Bitwise (f : Bool → Bool → Bool) (a b v : Word) : Prop :=
  ∀ k, k < 32 → v.getLsbD k = f (a.getLsbD k) (b.getLsbD k)

/-- The exact value `x` does not fit a signed 32-bit word. -/
def overflows (x : Int) : Bool := decide (x < -2^31) || decide (2^31 ≤ x)

/-- N and Z of the result `v` (negative as a signed number; zero), with C and V given. -/
def resultFlags (v : Word) (c o : Bool) : Nzcv := { n := decide (v.toInt < 0), z := decide (v.toNat = 0), c := c, v := o }

/-- The exact sum with a carry, modulo 2^32. -/
def exactSum (a b : Word) (carry : Bool) : Word := BitVec.ofNat 32 (a.toNat + b.toNat + carry.toNat)

/-- The flags of that sum: C is its carry out of bit 31, V the signed overflow (R221, R223). -/
def flagsOfSum (a b : Word) (carry : Bool) : Nzcv :=
  resultFlags (exactSum a b carry) (decide (2^32 ≤ a.toNat + b.toNat + carry.toNat))
    (overflows (a.toInt + b.toInt + carry.toNat))

/-- The exact difference with a borrow, modulo 2^32. -/
def exactDiff (a b : Word) (borrow : Bool) : Word := BitVec.ofInt 32 ((a.toNat : Int) - b.toNat - borrow.toNat)

/-- The flags of that difference: C says that it is not negative, V is the signed overflow (R222, R223). -/
def flagsOfDiff (a b : Word) (borrow : Bool) : Nzcv :=
  resultFlags (exactDiff a b borrow) (decide (0 ≤ (a.toNat : Int) - b.toNat - borrow.toNat))
    (overflows (a.toInt - b.toInt - borrow.toNat))

/-- The flags of a 64-bit product (R310). -/
def productFlags (p : BitVec 64) (c o : Bool) : Nzcv :=
  { n := decide (p.toInt < 0), z := decide (p.toNat = 0), c := c, v := o }

/-- The shifter answers the value whose bit `k` is `bit k`, and the carry. -/
def ShiftsTo (r : Shifted) (bit : Nat → Bool) (carry : Bool) : Prop :=
  (∀ k, k < 32 → r.value.getLsbD k = bit k) ∧ r.carry = carry

/-! ## What is left unchanged -/

/-- Every register cell but those that `ns` name in the mode of `s` is the same in `t`; the banks of every other mode are
among them. -/
def SameCellsBut (ns : List Reg) (s t : State) : Prop :=
  ∀ j : Fin 30, (∀ n ∈ ns, phys s.mode n ≠ some j) → t.regs[j] = s.regs[j]

/-- CPSR bits 27:0, the control bits and the reserved ones, are the same. -/
def SameControl (s t : State) : Prop := ∀ k, k < 28 → t.cpsr.getLsbD k = s.cpsr.getLsbD k

/-- Nothing outside the general registers, R15 and CPSR differs: the SPSRs, memory, every device, the parameters. -/
def SameBeyondCpu (s t : State) : Prop := t = { s with regs := t.regs, r15 := t.r15, cpsr := t.cpsr }

/-- Every byte of the address space reads as before. -/
def SameBytes (s t : State) : Prop := ∀ a, t.read8 a = s.read8 a

/-- The frame of an instruction that writes the registers `ns` and perhaps the flags, and stores nothing. -/
structure RegisterFrame (ns : List Reg) (s t : State) : Prop where
  cells : SameCellsBut ns s t
  control : SameControl s t
  beyond : SameBeyondCpu s t
  bytes : SameBytes s t

/-- The four condition flags of a state. -/
def State.nzcv (s : State) : Nzcv := { n := s.flagN, z := s.flagZ, c := s.flagC, v := s.flagV }

/-- The instruction wrote `v` to register `rd`, advanced the pc, and changed nothing else but perhaps the flags. -/
structure Writes (s t : State) (rd : Reg) (v : Word) : Prop where
  value : t.reg rd = v
  next : t.r15 = s.r15 + instrWidth s.thumb
  frame : RegisterFrame [rd] s t

/-- `i` completes: it writes `v` to `rd`, and the flags `f` when `sBit` holds. -/
def WritesResult (i : Instr) (s : State) (rd : Reg) (v : Word) (sBit : Bool) (f : Nzcv) : Prop :=
  ∃ t, exec i s = .next t ∧ Writes s t rd v ∧ t.nzcv = if sBit then f else s.nzcv

/-- `i` completes: it writes the flags `f` and no register. -/
def WritesFlags (i : Instr) (s : State) (f : Nzcv) : Prop :=
  ∃ t, exec i s = .next t ∧ t.nzcv = f ∧ t.r15 = s.r15 + instrWidth s.thumb ∧ RegisterFrame [] s t

/-- The PC guard refuses `target` (R44): it is on, and a read there would be unmapped. -/
def Refused (s : State) (target : Word) : Prop := s.params.pcGuard = true ∧ s.mapped target = false

/-- A refused instruction: nothing but the advance of R15. -/
def OnlyAdvances (i : Instr) (s : State) : Prop := exec i s = .next { s with r15 := s.r15 + instrWidth s.thumb }

/-- `i` ends with `pc <- v` in the instruction set of `u`, which is `s` with the instruction's other effects (R43, R44). -/
def Branches (i : Instr) (s u : State) (v : Word) : Prop :=
  (Refused s v → OnlyAdvances i s)
  ∧ (¬ Refused s v →
      exec i s = .next { u with r15 := if u.thumb then (v &&& 0xFFFFFFFE#32) + 4 else (v &&& 0xFFFFFFFC#32) + 8 })

/-- `i` completes: it writes the two halves of `p` (RdHi last), and the flags when `sBit` holds (R313 to R316). -/
def WritesLong (i : Instr) (s : State) (rdHi rdLo : Reg) (p : BitVec 64) (sBit : Bool) : Prop :=
  ∃ t, exec i s = .next t ∧ t.reg rdHi = p.extractLsb' 32 32 ∧ (rdLo ≠ rdHi → t.reg rdLo = p.extractLsb' 0 32)
    ∧ t.r15 = s.r15 + instrWidth s.thumb ∧ RegisterFrame [rdHi, rdLo] s t
    ∧ t.nzcv = if sBit then productFlags p s.flagC s.flagV else s.nzcv

/-- `i` ends with a branch to `v & ~1` that takes the new T bit from bit 0 of `v`; `u` is `s` with the instruction's
other effects (R43, R241). -/
def Exchanges (i : Instr) (s u : State) (v : Word) : Prop :=
  (Refused s (v &&& 0xFFFFFFFE#32) → OnlyAdvances i s)
  ∧ (¬ Refused s (v &&& 0xFFFFFFFE#32) →
      ∃ t, exec i s = .next t ∧ t = { u with cpsr := t.cpsr, r15 := t.r15 } ∧ t.thumb = v.getLsbD 0
        ∧ (∀ k, k ≠ 5 → t.cpsr.getLsbD k = u.cpsr.getLsbD k)
        ∧ t.r15 = (v &&& 0xFFFFFFFE#32) + (if v.getLsbD 0 then 4 else 8))

/-- Two addresses name the same stored byte, mirrors included (R82 to R86). -/
def sameByte (romSize : Nat) (a b : Word) : Prop := bufferKey romSize a = bufferKey romSize b

/-- What a store to plain RAM (work RAM, palette, VRAM, OAM) of the `n` bytes `byte 0 … byte (n−1)` at the address `a`
does to the bytes of the address space: those bytes read as stored, at every mirror; every other byte reads as before. -/
def StoresBytes (s t : State) (a : Word) (n : Nat) (byte : Nat → Byte) : Prop :=
  (∀ i, i < n → ∀ b, sameByte s.romSize b (a + BitVec.ofNat 32 i) → t.read8 b = byte i)
  ∧ ∀ b, (∀ i, i < n → ¬ sameByte s.romSize b (a + BitVec.ofNat 32 i)) → t.read8 b = s.read8 b

/-- A 16- or 32-bit write at the aligned address `a` reaches nothing (R91, R94, R716): BIOS, ROM outside the GPIO
registers, an unmapped address or the flash. -/
def dropsWrite (a : Word) : Bool :=
  match regionOf a with
  | 1 | 2 | 3 | 5 | 6 | 7 => false
  | 4 => decide (0x400 ≤ offsetOf a)
  | 8 => !(inGpioWindow (romOffset a))
  | _ => true

/-- What a store of a word or halfword `v` of `n` bytes at the aligned address `a` does to the bytes of the address
space. The registers of the I/O, GPIO and flash units have statements of their own. -/
def StoredAligned (s t : State) (n : Nat) (a : Word) (byte : Nat → Byte) : Prop :=
  (isRam (regionOf a) = true → StoresBytes s t a n byte) ∧ (dropsWrite a = true → SameBytes s t)

/-- What a store of a byte `v` at `a` does (R94): palette and VRAM take the byte in both halves of the halfword, OAM
drops it. -/
def StoredByte (s t : State) (a : Word) (v : Byte) : Prop :=
  (regionOf a = 1 ∨ regionOf a = 2 ∨ regionOf a = 3 → StoresBytes s t a 1 fun _ => v)
  ∧ (regionOf a = 5 ∨ regionOf a = 6 → StoresBytes s t (align2 a) 2 fun _ => v)
  ∧ (regionOf a = 7 ∨ (dropsWrite a = true ∧ regionOf a ≠ 14) → SameBytes s t)

/-! ## Transfers -/

/-- A load at `transferAddr` of the value `value` (R330 to R332, R340): the destination, then what is written back;
a refused branch to a loaded R15 cancels both; a writeback to R15 stops (U5, R623). -/
def Loads (i : Instr) (s : State) (p u w : Bool) (rn rd : Reg) (offset : Word) (value : Word → Word) : Prop :=
  let a := transferAddr s p u rn offset
  (rn = 15 ∧ writesBack p w = true → exec i s = .fault (.unpredictableEncoding s.ia i))
  ∧ (¬ (rn = 15 ∧ writesBack p w = true) →
      (rd ≠ 15 → ∃ t, exec i s = .next t ∧ t.reg rd = value a
        ∧ (writesBack p w = true → rn ≠ rd → t.reg rn = indexed s u rn offset)
        ∧ t.r15 = s.r15 + instrWidth s.thumb ∧ t.nzcv = s.nzcv
        ∧ RegisterFrame (if writesBack p w then [rd, rn] else [rd]) s t)
      ∧ (rd = 15 → Branches i s (if writesBack p w then s.setReg rn (indexed s u rn offset) else s) (value a)))

/-- A store whose bus write at `transferAddr` is `write` (R330, R331, R333, R340): the write first, then the base written
back. `stored` says what the write does to memory. -/
def Stores (i : Instr) (s : State) (p u w : Bool) (rn : Reg) (offset : Word) (write : Word → State)
    (stored : State → Word → Prop) : Prop :=
  let a := transferAddr s p u rn offset
  (rn = 15 ∧ writesBack p w = true → exec i s = .fault (.unpredictableEncoding s.ia i))
  ∧ (¬ (rn = 15 ∧ writesBack p w = true) →
      ∃ t, exec i s = .next t ∧ t = { write a with regs := t.regs, r15 := t.r15 } ∧ stored t a
        ∧ (writesBack p w = true → t.reg rn = indexed s u rn offset)
        ∧ t.r15 = s.r15 + instrWidth s.thumb ∧ t.cpsr = s.cpsr
        ∧ SameCellsBut (if writesBack p w then [rn] else []) s t)

/-- A store that does nothing but its one bus write and the advance of R15; `stored` says what it does to memory. -/
def OneStore (i : Instr) (s m : State) (stored : State → Prop) : Prop :=
  ∃ t, exec i s = .next t ∧ t = { m with r15 := s.r15 + instrWidth s.thumb } ∧ t.regs = s.regs ∧ t.cpsr = s.cpsr
    ∧ stored t

/-- A store of the word `v` at `a`, of a halfword, of a byte. -/
def StoresWord (i : Instr) (s : State) (a v : Word) : Prop :=
  OneStore i s (s.write32 a v) fun t => StoredAligned s t 4 (align4 a) fun k => v.extractLsb' (8 * k) 8
def StoresHalf (i : Instr) (s : State) (a : Word) (v : Half) : Prop :=
  OneStore i s (s.write16 a v) fun t => StoredAligned s t 2 (align2 a) fun k => v.extractLsb' (8 * k) 8
def StoresByte (i : Instr) (s : State) (a : Word) (v : Byte) : Prop :=
  OneStore i s (s.write8 a v) fun t => StoredByte s t a v

/-- How many registers below `i` a register list names. -/
def rank (list : BitVec 16) (i : Nat) : Nat := ((List.range i).filter fun k => list.getLsbD k).length

/-- The address of the first register of a block transfer (R370). -/
def firstAddr (base : Word) (p u : Bool) (list : BitVec 16) : Word :=
  if u then base + (if p then 4 else 0) else base - BitVec.ofNat 32 (4 * rank list 16) + (if p then 0 else 4)

/-- The address of register `i` of a block transfer: the list lies in ascending order from `firstAddr`. -/
def slotAddr (base : Word) (p u : Bool) (list : BitVec 16) (i : Nat) : Word :=
  firstAddr base p u list + BitVec.ofNat 32 (4 * rank list i)

/-- The base after a block transfer (R370). -/
def baseAfter (base : Word) (u : Bool) (list : BitVec 16) : Word :=
  if u then base + BitVec.ofNat 32 (4 * rank list 16) else base - BitVec.ofNat 32 (4 * rank list 16)

/-- `l` is `s` with the registers of the list below R15 loaded into the bank of `bank`, and the base written back unless
the list loads its cell (R371, R374). -/
def Loaded (s l : State) (bank : Mode) (p u w : Bool) (rn : Reg) (list : BitVec 16) : Prop :=
  l = { s with regs := l.regs }
  ∧ (∀ n : Reg, n ≠ 15 → list.getLsbD n.val = true → l.regIn bank n = s.read32 (slotAddr (s.reg rn) p u list n.val))
  ∧ (w = true → (∀ n : Reg, list.getLsbD n.val = true → phys bank n ≠ phys s.mode rn) →
      l.reg rn = baseAfter (s.reg rn) u list)
  ∧ ∀ j : Fin 30, (∀ n : Reg, list.getLsbD n.val = true → phys bank n ≠ some j) →
      (w = true → phys s.mode rn ≠ some j) → l.regs[j] = s.regs[j]

/-- A block load (R371, R373, R374, R531, R536): an empty list or a writeback to R15 stops (U9, U10, R623); R15 in the
list is branched to after everything else, the return from exception included. -/
def BlockLoads (i : Instr) (s : State) (bank : Mode) (restore p u w : Bool) (rn : Reg) (list : BitVec 16) : Prop :=
  (list = 0#16 ∨ (rn = 15 ∧ w = true) → exec i s = .fault (.unpredictableEncoding s.ia i))
  ∧ (¬ (list = 0#16 ∨ (rn = 15 ∧ w = true)) →
      ∃ l, Loaded s l bank p u w rn list
        ∧ (list.getLsbD 15 = false → exec i s = .next { l with r15 := s.r15 + instrWidth s.thumb })
        ∧ (list.getLsbD 15 = true →
            Branches i s (if restore then l.restoreCpsr else l) (s.read32 (slotAddr (s.reg rn) p u list 15))))

/-- What a block store stores for register `n` (R372): R15 is the prefetched address; a base that is not the first of
the list and is written back stores its new value. -/
def slotValue (s : State) (bank : Mode) (u w : Bool) (rn : Reg) (list : BitVec 16) (n : Reg) : Word :=
  if n = rn ∧ w = true ∧ 0 < rank list n.val then baseAfter (s.reg rn) u list else s.regIn bank n

/-- The bus writes of a block store, in ascending order of the registers. -/
def blockWrites (s : State) (bank : Mode) (p u w : Bool) (rn : Reg) (list : BitVec 16) : State :=
  (List.finRange 16).foldl
    (fun m n => if list.getLsbD n.val then
      m.write32 (slotAddr (s.reg rn) p u list n.val) (slotValue s bank u w rn list n) else m) s

/-- A block store (R372, R374, R530, R535): the writes, then the base. In RAM the bytes of each register lie at its slot
and every other byte is as before. -/
def BlockStores (i : Instr) (s : State) (bank : Mode) (p u w : Bool) (rn : Reg) (list : BitVec 16) : Prop :=
  (list = 0#16 ∨ (rn = 15 ∧ w = true) → exec i s = .fault (.unpredictableEncoding s.ia i))
  ∧ (¬ (list = 0#16 ∨ (rn = 15 ∧ w = true)) →
      ∃ t, exec i s = .next t
        ∧ t = { blockWrites s bank p u w rn list with regs := t.regs, r15 := t.r15 }
        ∧ (w = true → t.reg rn = baseAfter (s.reg rn) u list)
        ∧ t.r15 = s.r15 + instrWidth s.thumb ∧ t.cpsr = s.cpsr ∧ SameCellsBut (if w then [rn] else []) s t
        ∧ ((∀ n : Reg, list.getLsbD n.val = true → isRam (regionOf (slotAddr (s.reg rn) p u list n.val)) = true) →
            (∀ n : Reg, list.getLsbD n.val = true → ∀ k, k < 4 → ∀ b,
              sameByte s.romSize b (align4 (slotAddr (s.reg rn) p u list n.val) + BitVec.ofNat 32 k) →
              t.read8 b = byteOf (slotValue s bank u w rn list n) k)
            ∧ ∀ b, (∀ n : Reg, list.getLsbD n.val = true → ∀ k, k < 4 →
                ¬ sameByte s.romSize b (align4 (slotAddr (s.reg rn) p u list n.val) + BitVec.ofNat 32 k)) →
              t.read8 b = s.read8 b))

/-! ## System calls and exceptions -/

/-- `i` calls BIOS function `n` (R390, R551). -/
def Calls (i : Instr) (s : State) (n : Nat) : Prop :=
  (∃ (c : Cond) (comment : BitVec 24), i = .swi c comment ∧ s.passes c = true
      ∧ n = match s.params.swiField with | .hi => comment.toNat / 2^16 | .lo => comment.toNat % 2^8)
    ∨ ∃ v : BitVec 8, i = .tSwi v ∧ n = v.toNat

/-- Everything that taking the exception of mode `m` does (R604, R610): the CPSR saved whole, the link, the mode entered in
ARM state with IRQs disabled, and nothing else. -/
structure EntersException (s t : State) (m : Mode) (vector link : Word) : Prop where
  saved : t.spsrOf m = some s.cpsr
  otherSpsrs : ∀ m', m' ≠ m → t.spsrOf m' = s.spsrOf m'
  linked : t.regIn m 14 = link
  otherCells : ∀ j : Fin 30, phys m 14 ≠ some j → t.regs[j] = s.regs[j]
  mode : t.cpsr.extractLsb' 0 5 = m.bits
  disabled : t.cpsr.getLsbD 7 = true
  arm : t.cpsr.getLsbD 5 = false
  otherBits : ∀ k, 6 ≤ k → k ≠ 7 → t.cpsr.getLsbD k = s.cpsr.getLsbD k
  pc : t.r15 = vector + 8
  rest : t = { s with regs := t.regs, r15 := t.r15, cpsr := t.cpsr, spsrFiq := t.spsrFiq, spsrIrq := t.spsrIrq,
                      spsrSvc := t.spsrSvc, spsrAbt := t.spsrAbt, spsrUnd := t.spsrUnd }
  bytes : SameBytes s t

/-! ## The compressed formats

`RlOut s size p done p' out`: from the input address `p`, with `done` already output, the decompressor stops at `p'` with the
output `out`. -/

/-- Run-length data (R412). -/
inductive RlOut (s : State) (size : Nat) : Word → List Byte → Word → List Byte → Prop where
  | stop {p : Word} {done : List Byte} (h : size ≤ done.length) : RlOut s size p done p done
  | run {p p' : Word} {done out : List Byte} (h : done.length < size) (hf : (s.read8 p).getLsbD 7 = true)
      (hr : RlOut s size (p + 2)
        (done ++ List.replicate (min ((s.read8 p).toNat % 128 + 3) (size - done.length)) (s.read8 (p + 1))) p' out) :
      RlOut s size p done p' out
  | literal {p p' : Word} {done out : List Byte} (n : Nat) (h : done.length < size) (hf : (s.read8 p).getLsbD 7 = false)
      (hn : n = min ((s.read8 p).toNat % 128 + 1) (size - done.length))
      (hr : RlOut s size (p + 1 + BitVec.ofNat 32 n)
        (done ++ (List.range n).map fun k => s.read8 (p + 1 + BitVec.ofNat 32 k)) p' out) :
      RlOut s size p done p' out

/-- `new` continues `done` with bytes copied from `disp` back; a byte from before the first output byte is free (U13). -/
def CopiedBack (disp : Nat) (done new : List Byte) : Prop :=
  ∀ k, k < new.length → disp ≤ done.length + k → (done ++ new)[done.length + k]? = (done ++ new)[done.length + k - disp]?

/-- LZ77 data (R410); `left` blocks of the flag byte `flags` are still to come. -/
inductive LzOut (s : State) (size : Nat) : Nat → Byte → Word → List Byte → Word → List Byte → Prop where
  | stop {left : Nat} {flags : Byte} {p : Word} {done : List Byte} (h : size ≤ done.length) :
      LzOut s size left flags p done p done
  | group {flags : Byte} {p p' : Word} {done out : List Byte} (h : done.length < size)
      (hr : LzOut s size 8 (s.read8 p) (p + 1) done p' out) : LzOut s size 0 flags p done p' out
  | literal {left : Nat} {flags : Byte} {p p' : Word} {done out : List Byte} (h : done.length < size)
      (hf : flags.getLsbD left = false) (hr : LzOut s size left flags (p + 1) (done ++ [s.read8 p]) p' out) :
      LzOut s size (left + 1) flags p done p' out
  | copy {left : Nat} {flags : Byte} {p p' : Word} {done out : List Byte} (new : List Byte) (h : done.length < size)
      (hf : flags.getLsbD left = true) (hn : new.length = min ((s.read8 p).toNat / 16 + 3) (size - done.length))
      (hc : CopiedBack ((s.read8 p).toNat % 16 * 256 + (s.read8 (p + 1)).toNat + 1) done new)
      (hr : LzOut s size left flags (p + 2) (done ++ new) p' out) : LzOut s size (left + 1) flags p done p' out

/-- The decompressed bytes written from `a` on, with byte writes (R410) or halfword writes (R411). -/
def WrittenOut (s t : State) (a : Word) (out : List Byte) (halves : Bool) : Prop :=
  ∀ m : Nat → State, m 0 = s →
    (halves = false → (∀ k, m (k + 1) = (m k).write8 (a + BitVec.ofNat 32 k) (out.getD k 0)) → t = m out.length)
    ∧ (halves = true → (∀ k, m (k + 1) = (m k).write16 (a + BitVec.ofNat 32 (2 * k)) (out.getD (2 * k + 1) 0 ++ out.getD (2 * k) 0)) →
        t = m ((out.length + 1) / 2))

/-! ## The schedule -/

/-- The CPU loop of a scanline goes on (R671). -/
def CpuTurn (s : State) : Prop := s.phase = .run ∧ s.halted = false ∧ 0 < s.left

/-- An IRQ is to be taken before the next step (R610, R640). -/
def IrqDue (s : State) : Prop := s.ime.getLsbD 0 = true ∧ s.ie &&& s.if_ ≠ 0#16 ∧ s.cpsr.getLsbD 7 = false

/-- The accounting after a CPU step that cost `c` and left the state `u` (R671): the cycle counter, the timers, the
budget of the scanline. -/
def Accounts (s u : State) (c : Nat) : Prop :=
  1 ≤ c ∧ step s = .next { timersUpdate { u with cycles := u.cycles + BitVec.ofNat 64 c } c with left := u.left - c }

/-! ## The timers, exactly -/

/-- A counter after `k` ticks, and how often it overflowed: it counts from `reload` after 0xFFFF (R702, R704). -/
def countUp (reload counter k : Nat) : Nat × Nat :=
  if counter + k < 2^16 then (counter + k, 0)
  else (reload + (counter + k - 2^16) % (2^16 - reload), 1 + (counter + k - 2^16) / (2^16 - reload))

/-- How often timer `n` overflows when it ticks `k` times. -/
def overflowsOf (s : State) (n : Fin 4) (k : Nat) : Nat :=
  (countUp (s.timer n).reload.toNat (s.timer n).counter.toNat k).2

/-- `ticks n` is how often timer `n` ticks when `c` cycles pass (R701, R704): by its prescaler, or with each overflow of the
timer below it when it cascades; timer 0 has none below it. -/
def TicksIn (s : State) (c : Nat) (ticks : Fin 4 → Nat) : Prop :=
  ∀ n, ticks n =
    if (s.timer n).enabled = false then 0
    else if (s.timer n).cascade = false then ((s.timer n).accumulator + c) / (s.timer n).prescaler
    else if n = 0 then 0 else overflowsOf s (n - 1) (ticks (n - 1))

/-! ## DMA -/

/-- The address of unit `k` of a transfer that starts at `a` (R684, R685); `size` is the unit in bytes. -/
def unitAddr (a : Word) (mode size k : Nat) : Word :=
  (match mode with
   | 1 => (a &&& 0x0FFFFFFF#32) - BitVec.ofNat 32 (size * k)
   | 2 => a
   | _ => (a &&& 0x0FFFFFFF#32) + BitVec.ofNat 32 (size * k)) &&& 0x0FFFFFFF#32

/-- A write at `a` reaches a register of a DMA channel (R114). -/
def ReachesDma (a : Word) : Prop := regionOf a = 4 ∧ 0xB0 ≤ offsetOf a ∧ offsetOf a < 0xE0

/-- Channel `n` is enabled with start timing `timing` (R681). -/
def Armed (s : State) (n : Fin 4) (timing : Nat) : Prop :=
  (s.dmaChannel n).ctrl.getLsbD 15 = true ∧ (s.dmaChannel n).ctrl.toNat / 2^12 % 4 = timing

/-- One run of channel `n` from its internal copies, with every destination outside the DMA registers (R684, R685, R688):
the units in order, each read after the write before it, then the addresses, the reload or the enable bit, and the
request. -/
def RunsChannel (n : Fin 4) (s t : State) : Prop :=
  ∃ (d : DmaChannel) (u smode dmode count : Nat) (m : Nat → State), d = s.dmaChannel n ∧
    u = (if d.ctrl.getLsbD 10 then 4 else 2) ∧ smode = d.ctrl.toNat / 2^7 % 4 ∧ dmode = d.ctrl.toNat / 2^5 % 4 ∧
    count = d.internalCount.toNat ∧ m 0 = s
    ∧ (∀ k, k < count → ¬ ReachesDma (unitAddr d.internalDst dmode u k)
        ∧ m (k + 1) = if d.ctrl.getLsbD 10
          then (m k).write32 (unitAddr d.internalDst dmode u k) ((m k).read32 (unitAddr d.internalSrc smode u k))
          else (m k).write16 (unitAddr d.internalDst dmode u k) ((m k).read16 (unitAddr d.internalSrc smode u k)))
    ∧ t = { m count with
        dma := s.dma.set n (if d.ctrl.getLsbD 9
          then { d with internalSrc := unitAddr d.internalSrc smode u count,
                        internalDst := if dmode = 3 then d.dst &&& 0x0FFFFFFF#32 else unitAddr d.internalDst dmode u count,
                        internalCount := BitVec.ofNat 17 (if d.count.toNat ≠ 0 then d.count.toNat else if n = 3 then 0x10000 else 0x4000) }
          else { d with internalSrc := unitAddr d.internalSrc smode u count,
                        internalDst := unitAddr d.internalDst dmode u count, ctrl := d.ctrl &&& 0x7FFF#16 }),
        if_ := if d.ctrl.getLsbD 14 then (m count).if_ ||| (1#16 <<< (8 + n.val)) else (m count).if_ }

/-! ## Reset -/

/-- `t` has the values of the reset record `r`, its RTC the base time `clock`, and the host's turn comes first (R70, R800);
the images in memory, ROM_SIZE, the parameters, the host's queue and the free-value counter are not the record's. -/
structure Started (t : State) (r : ResetState) (clock : Nat) : Prop where
  values : t = { t with
    regs := r.regs, r15 := r.r15, cpsr := r.cpsr, spsrFiq := r.spsrFiq, spsrIrq := r.spsrIrq, spsrSvc := r.spsrSvc,
    spsrAbt := r.spsrAbt, spsrUnd := r.spsrUnd, cycles := r.cycles, halted := r.halted, ie := r.ie, if_ := r.if_, ime := r.ime,
    dispstat := r.dispstat, vcount := r.vcount, lastVcount := r.lastVcount, dma := r.dma, timers := r.timers,
    gpioData := r.gpioData, gpioDir := r.gpioDir, gpioCtrl := r.gpioCtrl, rtc := { r.rtc with baseTime := clock },
    flashState := r.flashState, flashId := r.flashId, keyinput := r.keyinput, refX2 := r.refX2, refY2 := r.refY2,
    refX3 := r.refX3, refY3 := r.refY3, framebuffer := r.framebuffer, frameCount := r.frameCount,
    phase := .host, line := 0, left := 0 }
  ram : ∀ a k, isRam (regionOf a) = true → bufferKey t.romSize a = some k → t.read8 a = Memory.get r.ram k
  io : ∀ off, off < 0x400 → t.ioHalf off = Memory.get r.ram (0x04000000 + off + 1) ++ Memory.get r.ram (0x04000000 + off)

/-! ## I/O storage -/

/-- The even I/O offsets of plain storage (R120), the affine reference registers among them. -/
def isStorage (off : Nat) : Bool :=
  decide (off < 0x400) && !(decide (0xB0 ≤ off) && decide (off < 0xE0)) && !(decide (0x100 ≤ off) && decide (off < 0x110))
  && !([0x004, 0x006, 0x130, 0x200, 0x202, 0x208, 0x300].contains off)

/-! ## The cartridge window -/

/-- A GPIO register answers reads of `a` (R86, R716). -/
def GpioAnswers (s : State) (a : Word) : Prop :=
  regionOf a = 8 ∧ s.gpioCtrl.getLsbD 0 = true ∧ 0xC4 ≤ romOffset a ∧ romOffset a ≤ 0xC9

/-! ## The picture, from what the bus reads (R135, R744) -/

/-- `V8(o)` and `V16(o)`. -/
def vramByte (s : State) (o : Nat) : Nat := (s.read8 (BitVec.ofNat 32 (0x06000000 + o % 0x20000))).toNat
def vramHalf (s : State) (o : Nat) : Nat := vramByte s (o / 2 * 2) + 256 * vramByte s (o / 2 * 2 + 1)

/-- `P16(i)`, a halfword of OAM, and a register of the display. -/
def paletteHalf (s : State) (i : Nat) : Nat := (s.read16 (BitVec.ofNat 32 (0x05000000 + 2 * i))).toNat
def oamHalf (s : State) (o : Nat) : Nat := (s.read16 (BitVec.ofNat 32 (0x07000000 + o))).toNat
def displayReg (s : State) (off : Nat) : Half := s.read16 (BitVec.ofNat 32 (0x04000000 + off))

/-- The mode-legal backgrounds (R742): mode, number, kind. -/
def legalBackgrounds : List (Nat × Nat × BgKind) :=
  [(0, 0, .text), (0, 1, .text), (0, 2, .text), (0, 3, .text), (1, 0, .text), (1, 1, .text), (1, 2, .affine),
   (2, 2, .affine), (2, 3, .affine), (3, 2, .bitmap3), (4, 2, .bitmap4), (5, 2, .bitmap5)]

/-- Index 0 is transparent; any other is the colour `c`. -/
def shows (i c : Nat) : Option Nat := if i = 0 then none else some c

/-- The sizes of sprites (R781): shape, size, width, height. -/
def spriteSizes : List (Nat × Nat × Nat × Nat) :=
  [(0, 0, 8, 8), (0, 1, 16, 16), (0, 2, 32, 32), (0, 3, 64, 64), (1, 0, 16, 8), (1, 1, 32, 8), (1, 2, 32, 16),
   (1, 3, 64, 32), (2, 0, 8, 16), (2, 1, 8, 32), (2, 2, 16, 32), (2, 3, 32, 64)]

/-- The sprite with attributes `a0`, `a1`, `a2` and priority `q` draws colour `c` at column `col` of scanline `line`, with
the semitransparent flag `semi` (R780 to R784). A set affine flag only clears the flips (log entry 26). -/
structure SpriteDraws (s : State) (a0 a1 a2 line q col c : Nat) (semi : Bool) : Prop where
  shown : a0 / 2^8 % 4 ≠ 2 ∧ a0 / 2^10 % 4 < 2
  prio : a2 / 2^10 % 4 = q
  flag : semi = decide (a0 / 2^10 % 4 = 1)
  pixel : ∃ w h r j sx sy t i : Nat, (a0 / 2^14, a1 / 2^14, w, h) ∈ spriteSizes
    ∧ r < h ∧ (a0 % 256 + r) % 256 = line ∧ j < w ∧ (a1 % 512 + j) % 512 = col
    ∧ sx = (if a0 / 2^8 % 2 = 0 ∧ a1 / 2^12 % 2 = 1 then w - 1 - j else j)
    ∧ sy = (if a0 / 2^8 % 2 = 0 ∧ a1 / 2^13 % 2 = 1 then h - 1 - r else r)
    ∧ (a0 / 2^13 % 2 = 0 → t = a2 % 2^10 + sy / 8 * (if (displayReg s 0).getLsbD 6 then w / 8 else 32) + sx / 8
        ∧ i = (vramByte s (0x10000 + t % 0x400 * 32 + sy % 8 * 4 + sx % 8 / 2)) / (if sx % 2 = 1 then 16 else 1) % 16
        ∧ some c = shows i (paletteHalf s (256 + a2 / 2^12 * 16 + i)))
    ∧ (a0 / 2^13 % 2 = 1 → t = a2 % 2^10 + sy / 8 * (if (displayReg s 0).getLsbD 6 then 2 * (w / 8) else 32) + 2 * (sx / 8)
        ∧ i = vramByte s (0x10000 + t % 0x400 * 32 + sy % 8 * 8 + sx % 8)
        ∧ some c = shows i (paletteHalf s (256 + i)))

/-- A candidate of pixel (line, x) with its place in the order of R788: priority, then sprites before backgrounds, then
background number; the backdrop has the last place. -/
inductive Candidate (s : State) (line x : Nat) : Nat → Layer → Nat → Prop where
  | obj (q c : Nat) (semi : Bool) (hq : q < 4) (on : (displayReg s 0).getLsbD 12 = true)
      (h : objCell s line q x = some { colour := c, semi := semi }) : Candidate s line x (8 * q) (.obj semi) c
  | bg (n c : Nat) (kind : BgKind) (on : (displayReg s 0).getLsbD (8 + n) = true)
      (legal : ((displayReg s 0).toNat % 8, n, kind) ∈ legalBackgrounds) (h : bgPixel s kind n x line = some c) :
      Candidate s line x (8 * ((displayReg s (8 + 2 * n)).toNat % 4) + 1 + n) (.bg n) c
  | backdrop : Candidate s line x 32 .backdrop (paletteHalf s 0)

/-- A layer's bit in the target flags of BLDCNT (R790). -/
def targetOf : Layer → Nat
  | .bg n => n
  | .obj _ => 4
  | .backdrop => 5

/-- Channel `k` (red, green, blue) of a colour. -/
def channel (c k : Nat) : Nat := c / 2^(5 * k) % 32

/-- A blending coefficient in bits `lo + 4` to `lo` (R790). -/
def coefficient (v : Half) (lo : Nat) : Nat := min 16 (v.toNat / 2^lo % 32)

/-- Channel `k` of a pixel by the blend rule of R791; that a semitransparent sprite is blended in every mode is the reading of
log entry 27. -/
def blendedChannel (cnt alpha y : Half) (layer : Layer) (top : Nat) (below : Option (Layer × Nat)) (k : Nat) : Nat :=
  let mode := cnt.toNat / 2^6 % 4
  let first := cnt.getLsbD (targetOf layer)
  let plain :=
    if mode = 2 ∧ first = true then channel top k + (31 - channel top k) * coefficient y 0 / 16
    else if mode = 3 ∧ first = true then channel top k - channel top k * coefficient y 0 / 16
    else channel top k
  match below with
  | none => plain
  | some (l, c) =>
    if ((mode = 1 ∧ first = true) ∨ layer = .obj true) ∧ cnt.getLsbD (8 + targetOf l) = true then
      min 31 ((channel top k * coefficient alpha 0 + channel c k * coefficient alpha 8) / 16)
    else plain

/-! ## The real-time clock, over its three lines -/

/-- The port's lines driven: bit 0 SCK, bit 1 SIO, bit 2 CS (R715). -/
def drivePins (s : State) (lines : Half) : State := s.write16 0x080000C4#32 lines

/-- A transaction begins: CS low, then high (R717). -/
def rtcBegin (s : State) : State := drivePins (drivePins s 0) 4

/-- One bit clocked with CS high: SIO put out while SCK is low, then SCK rises (R717). -/
def rtcBit (s : State) (b : Bool) : State :=
  drivePins (drivePins s (if b then 6 else 4)) (if b then 7 else 5)

/-- A command byte clocked in, the most significant bit first. -/
def rtcSendCommand (s : State) (c : Byte) : State := [7, 6, 5, 4, 3, 2, 1, 0].foldl (fun s i => rtcBit s (c.getLsbD i)) s

/-- A data byte clocked in, the least significant bit first. -/
def rtcSendData (s : State) (v : Byte) : State := [0, 1, 2, 3, 4, 5, 6, 7].foldl (fun s i => rtcBit s (v.getLsbD i)) s

/-- `k` clocks while the program listens (SIO an input). -/
def rtcClocks : (k : Nat) → State → State
  | 0, s => s
  | k + 1, s => rtcBit (rtcClocks k s) false

/-- A byte of two decimal digits between `lo` and `hi` (R719). -/
def BcdIn (b : Byte) (lo hi : Nat) : Prop := ∃ n, lo ≤ n ∧ n ≤ hi ∧ b = BitVec.ofNat 8 (n / 10 * 16 + n % 10)

end Sys2Proof.Machine

namespace Sys2Proof

/-! ## The condition of an instruction -/

/-- The condition an instruction carries (R151); of the Thumb instructions only the branches of format 16 have one
(R440). -/
def Instr.condition : Instr → Option Cond
  | .bx c _ | .mrs c _ _ | .msrReg c _ _ _ | .msrImm c _ _ _ _ | .mul c _ _ _ _ _ | .mla c _ _ _ _ _
  | .umull c _ _ _ _ _ | .umlal c _ _ _ _ _ | .smull c _ _ _ _ _ | .smlal c _ _ _ _ _ | .swp c _ _ _ | .swpb c _ _ _
  | .ldrhReg c _ _ _ _ _ _ | .ldrhImm c _ _ _ _ _ _ | .strhReg c _ _ _ _ _ _ | .strhImm c _ _ _ _ _ _
  | .ldrsbReg c _ _ _ _ _ _ | .ldrsbImm c _ _ _ _ _ _ | .ldrshReg c _ _ _ _ _ _ | .ldrshImm c _ _ _ _ _ _
  | .undefMul c _ | .undefCompare c _ | .and c _ _ _ _ | .eor c _ _ _ _ | .sub c _ _ _ _ | .rsb c _ _ _ _
  | .add c _ _ _ _ | .adc c _ _ _ _ | .sbc c _ _ _ _ | .rsc c _ _ _ _ | .tst c _ _ _ | .teq c _ _ _ | .cmp c _ _ _
  | .cmn c _ _ _ | .orr c _ _ _ _ | .mov c _ _ _ _ | .bic c _ _ _ _ | .mvn c _ _ _ _ | .undefTransfer c _
  | .ldrt c _ _ _ _ | .strt c _ _ _ _ | .ldrbt c _ _ _ _ | .strbt c _ _ _ _ | .ldr c _ _ _ _ _ _
  | .str c _ _ _ _ _ _ | .ldrb c _ _ _ _ _ _ | .strb c _ _ _ _ _ _ | .ldmRet c _ _ _ _ _ | .ldmUser c _ _ _ _ _
  | .stmUser c _ _ _ _ _ | .ldm c _ _ _ _ _ | .stm c _ _ _ _ _ | .b c _ | .bl c _ | .swi c _
  | .ldc c _ _ _ _ _ _ _ _ | .stc c _ _ _ _ _ _ _ _ | .cdp c _ _ _ _ _ _ | .mrc c _ _ _ _ _ _
  | .mcr c _ _ _ _ _ _ => some c
  | .tBeq _ => some .eq | .tBne _ => some .ne | .tBcs _ => some .cs | .tBcc _ => some .cc | .tBmi _ => some .mi
  | .tBpl _ => some .pl | .tBvs _ => some .vs | .tBvc _ => some .vc | .tBhi _ => some .hi | .tBls _ => some .ls
  | .tBge _ => some .ge | .tBlt _ => some .lt | .tBgt _ => some .gt | .tBle _ => some .le
  | _ => none

end Sys2Proof
end

