-- ==== Sys2Proof/Certificates/Slice0/Obligations.lean ====
section
/-! DEFINITION. Certificates/Slice0/Obligations.lean: the statements for the provers. Every statement about an
instruction is about `exec`; the words it uses (WritesResult, Branches, StoresBytes and so on) are defined in
Safety.lean. -/

open Sys2Proof Sys2Proof.Machine

/-! ## ARM data processing (spec/42_arm_data_processing.md) -/

/-- R280, R281, R292 to R295 with R220: each result bit is the logical function of the operands' bits; with S, N and Z are the
result's, C is the shifter's carry and V is unchanged. -/
def Obligations.LogicalOperations : Prop :=
  ∀ (s : State) (c : Cond) (sBit : Bool) (rn rd : Reg) (sbz : BitVec 4) (op2 : Op2), s.passes c = true → rd ≠ 15 →
    ∀ (v : Word) (f : Nzcv), f = resultFlags v (operand2 s op2).carry s.flagV →
      (Bitwise (fun a b => a && b) (s.reg rn) (operand2 s op2).value v → WritesResult (.and c sBit rn rd op2) s rd v sBit f)
      ∧ (Bitwise (fun a b => a != b) (s.reg rn) (operand2 s op2).value v →
          WritesResult (.eor c sBit rn rd op2) s rd v sBit f)
      ∧ (Bitwise (fun a b => a || b) (s.reg rn) (operand2 s op2).value v →
          WritesResult (.orr c sBit rn rd op2) s rd v sBit f)
      ∧ (Bitwise (fun a b => a && !b) (s.reg rn) (operand2 s op2).value v →
          WritesResult (.bic c sBit rn rd op2) s rd v sBit f)
      ∧ (Bitwise (fun _ b => b) (s.reg rn) (operand2 s op2).value v → WritesResult (.mov c sBit sbz rd op2) s rd v sBit f)
      ∧ (Bitwise (fun _ b => !b) (s.reg rn) (operand2 s op2).value v →
          WritesResult (.mvn c sBit sbz rd op2) s rd v sBit f)

/-- R282 to R287 with R221 to R223: the exact sum or difference modulo 2^32; with S, C and V are those of the exact integers.
-/
def Obligations.ArithmeticOperations : Prop :=
  ∀ (s : State) (c : Cond) (sBit : Bool) (rn rd : Reg) (op2 : Op2), s.passes c = true → rd ≠ 15 →
    ∀ (a b : Word), a = s.reg rn → b = (operand2 s op2).value →
      WritesResult (.add c sBit rn rd op2) s rd (exactSum a b false) sBit (flagsOfSum a b false)
      ∧ WritesResult (.adc c sBit rn rd op2) s rd (exactSum a b s.flagC) sBit (flagsOfSum a b s.flagC)
      ∧ WritesResult (.sub c sBit rn rd op2) s rd (exactDiff a b false) sBit (flagsOfDiff a b false)
      ∧ WritesResult (.sbc c sBit rn rd op2) s rd (exactDiff a b (!s.flagC)) sBit (flagsOfDiff a b (!s.flagC))
      ∧ WritesResult (.rsb c sBit rn rd op2) s rd (exactDiff b a false) sBit (flagsOfDiff b a false)
      ∧ WritesResult (.rsc c sBit rn rd op2) s rd (exactDiff b a (!s.flagC)) sBit (flagsOfDiff b a (!s.flagC))

/-- R288 to R291: a comparison writes the four flags and no register, R15 as its Rd field included (the field is ignored).
With R201: after CMP the conditions decide the order of the operands, unsigned (CS, CC, HI, LS) and signed (GE, LT, GT, LE).
-/
def Obligations.Comparisons : Prop :=
  ∀ (s : State) (c : Cond) (rn : Reg) (sbz : BitVec 4) (op2 : Op2), s.passes c = true →
    ∀ (a b v : Word), a = s.reg rn → b = (operand2 s op2).value →
      (Bitwise (fun x y => x && y) a b v →
          WritesFlags (.tst c rn sbz op2) s (resultFlags v (operand2 s op2).carry s.flagV))
      ∧ (Bitwise (fun x y => x != y) a b v →
          WritesFlags (.teq c rn sbz op2) s (resultFlags v (operand2 s op2).carry s.flagV))
      ∧ WritesFlags (.cmp c rn sbz op2) s (flagsOfDiff a b false)
      ∧ WritesFlags (.cmn c rn sbz op2) s (flagsOfSum a b false)
      ∧ ∀ t, exec (.cmp c rn sbz op2) s = .next t →
          (t.passes .eq = true ↔ a = b) ∧ (t.passes .ne = true ↔ a ≠ b)
          ∧ (t.passes .cs = true ↔ b.toNat ≤ a.toNat) ∧ (t.passes .cc = true ↔ a.toNat < b.toNat)
          ∧ (t.passes .hi = true ↔ b.toNat < a.toNat) ∧ (t.passes .ls = true ↔ a.toNat ≤ b.toNat)
          ∧ (t.passes .ge = true ↔ b.toInt ≤ a.toInt) ∧ (t.passes .lt = true ↔ a.toInt < b.toInt)
          ∧ (t.passes .gt = true ↔ b.toInt < a.toInt) ∧ (t.passes .le = true ↔ a.toInt ≤ b.toInt)

/-- R272, R273, R44: with R15 as the destination the result is branched to and no flag of the result is written; with S the
CPSR is first restored from the SPSR of the mode, and in User and System mode it is left as it is. A target that the PC guard
refuses cancels all of it. -/
def Obligations.AluResultToR15 : Prop :=
  ∀ (s u : State) (c : Cond) (sBit : Bool) (rn : Reg) (sbz : BitVec 4) (op2 : Op2), s.passes c = true →
    (sBit = false → u = s) →
    (sBit = true → ∀ w, s.spsrOf s.mode = some w → u = s.setCpsr w) →
    (sBit = true → s.spsrOf s.mode = none → u = s) →
    ∀ (a b : Word), a = s.reg rn → b = (operand2 s op2).value →
      Branches (.and c sBit rn 15 op2) s u (a &&& b) ∧ Branches (.eor c sBit rn 15 op2) s u (a ^^^ b)
      ∧ Branches (.orr c sBit rn 15 op2) s u (a ||| b) ∧ Branches (.bic c sBit rn 15 op2) s u (a &&& ~~~b)
      ∧ Branches (.mov c sBit sbz 15 op2) s u b ∧ Branches (.mvn c sBit sbz 15 op2) s u (~~~b)
      ∧ Branches (.add c sBit rn 15 op2) s u (exactSum a b false)
      ∧ Branches (.adc c sBit rn 15 op2) s u (exactSum a b s.flagC)
      ∧ Branches (.sub c sBit rn 15 op2) s u (exactDiff a b false)
      ∧ Branches (.sbc c sBit rn 15 op2) s u (exactDiff a b (!s.flagC))
      ∧ Branches (.rsb c sBit rn 15 op2) s u (exactDiff b a false)
      ∧ Branches (.rsc c sBit rn 15 op2) s u (exactDiff b a (!s.flagC))

/-! ## The barrel shifter and operand 2 (spec/40_arm_common.md section 3) -/

/-- R161, R205 to R215: every form of operand 2, bit by bit. A 5-bit amount of 0 means 32 for LSR and ASR and RRX for ROR; an
amount in a register is its low byte, and 0 leaves the value and the carry. -/
def Obligations.ShifterOperand : Prop :=
  ∀ (s : State) (rm rs : Reg) (v : Word), v = s.reg rm →
    (∀ rotate imm8, ShiftsTo (operand2 s (.imm rotate imm8))
        (fun k => imm8.getLsbD ((k + 2 * rotate.toNat) % 32))
        (if rotate = 0 then s.flagC else imm8.getLsbD ((31 + 2 * rotate.toNat) % 32)))
    ∧ (∀ n : BitVec 5, n = 0 →
        ShiftsTo (operand2 s (.shiftImm rm .lsl n)) (fun k => v.getLsbD k) s.flagC
        ∧ ShiftsTo (operand2 s (.shiftImm rm .lsr n)) (fun _ => false) (v.getLsbD 31)
        ∧ ShiftsTo (operand2 s (.shiftImm rm .asr n)) (fun _ => v.getLsbD 31) (v.getLsbD 31)
        ∧ ShiftsTo (operand2 s (.shiftImm rm .ror n)) (fun k => if k = 31 then s.flagC else v.getLsbD (k + 1)) (v.getLsbD 0))
    ∧ (∀ (op2 : ShiftTy → Op2) (n : Nat), 0 < n → n < 32 →
        (∃ a : BitVec 5, a.toNat = n ∧ op2 = fun ty => .shiftImm rm ty a)
          ∨ ((s.reg rs).toNat % 256 = n ∧ op2 = fun ty => .shiftReg rm ty rs) →
        ShiftsTo (operand2 s (op2 .lsl)) (fun k => decide (n ≤ k) && v.getLsbD (k - n)) (v.getLsbD (32 - n))
        ∧ ShiftsTo (operand2 s (op2 .lsr)) (fun k => v.getLsbD (k + n)) (v.getLsbD (n - 1))
        ∧ ShiftsTo (operand2 s (op2 .asr)) (fun k => v.getLsbD (min (k + n) 31)) (v.getLsbD (n - 1))
        ∧ ShiftsTo (operand2 s (op2 .ror)) (fun k => v.getLsbD ((k + n) % 32)) (v.getLsbD (n - 1)))
    ∧ (∀ n, n = (s.reg rs).toNat % 256 →
        (n = 0 → ∀ ty, ShiftsTo (operand2 s (.shiftReg rm ty rs)) (fun k => v.getLsbD k) s.flagC)
        ∧ (32 ≤ n →
          ShiftsTo (operand2 s (.shiftReg rm .lsl rs)) (fun _ => false) (decide (n = 32) && v.getLsbD 0)
          ∧ ShiftsTo (operand2 s (.shiftReg rm .lsr rs)) (fun _ => false) (decide (n = 32) && v.getLsbD 31)
          ∧ ShiftsTo (operand2 s (.shiftReg rm .asr rs)) (fun _ => v.getLsbD 31) (v.getLsbD 31)
          ∧ ShiftsTo (operand2 s (.shiftReg rm .ror rs)) (fun k => v.getLsbD ((k + n) % 32)) (v.getLsbD ((n + 31) % 32))))

/-! ## Multiplies (spec/43_arm_multiply.md) -/

/-- R310 to R312, U4: the product modulo 2^32; with S, N and Z are the result's, C and V unchanged; R15 as destination is
branched to. -/
def Obligations.Multiplies : Prop :=
  ∀ (s : State) (c : Cond) (sBit : Bool) (rd rn rs rm : Reg) (sbz : BitVec 4), s.passes c = true →
    ∀ (v w : Word), v.toNat = (s.reg rm).toNat * (s.reg rs).toNat % 2^32 →
      w.toNat = ((s.reg rm).toNat * (s.reg rs).toNat + (s.reg rn).toNat) % 2^32 →
      (rd ≠ 15 →
        WritesResult (.mul c sBit rd sbz rs rm) s rd v sBit (resultFlags v s.flagC s.flagV)
        ∧ WritesResult (.mla c sBit rd rn rs rm) s rd w sBit (resultFlags w s.flagC s.flagV))
      ∧ (rd = 15 →
        Branches (.mul c sBit rd sbz rs rm) s (s.setFlagsIf sBit (resultFlags v s.flagC s.flagV)) v
        ∧ Branches (.mla c sBit rd rn rs rm) s (s.setFlagsIf sBit (resultFlags w s.flagC s.flagV)) w)

/-- R310, R313 to R316: the exact 64-bit product of the unsigned or signed operands, with RdHi:RdLo added modulo 2^64 in the
accumulating forms. Where RdHi and RdLo are one register it holds the high half. -/
def Obligations.LongMultiplies : Prop :=
  ∀ (s : State) (c : Cond) (sBit : Bool) (rdHi rdLo rs rm : Reg), s.passes c = true → rdHi ≠ 15 → rdLo ≠ 15 →
    ∀ (p : BitVec 64) (acc : Nat), acc = (s.reg rdHi).toNat * 2^32 + (s.reg rdLo).toNat →
      (p.toNat = (s.reg rm).toNat * (s.reg rs).toNat → WritesLong (.umull c sBit rdHi rdLo rs rm) s rdHi rdLo p sBit)
      ∧ (p.toNat = ((s.reg rm).toNat * (s.reg rs).toNat + acc) % 2^64 →
          WritesLong (.umlal c sBit rdHi rdLo rs rm) s rdHi rdLo p sBit)
      ∧ (p.toInt = (s.reg rm).toInt * (s.reg rs).toInt → WritesLong (.smull c sBit rdHi rdLo rs rm) s rdHi rdLo p sBit)
      ∧ ((p.toNat : Int) = ((s.reg rm).toInt * (s.reg rs).toInt + acc) % 2^64 →
          WritesLong (.smlal c sBit rdHi rdLo rs rm) s rdHi rdLo p sBit)

/-- U4 with R310, R313 to R316 (the order of the two branches is the model's reading, log entry 15): a half whose register is
R15 is branched to, RdLo before RdHi; a refused half cancels the instruction. -/
def Obligations.LongMultiplyToR15 : Prop :=
  ∀ (s u : State) (i : Instr) (c : Cond) (sBit : Bool) (rdHi rdLo rs rm : Reg) (p : BitVec 64) (hi lo : Word) (acc : Nat),
    s.passes c = true → acc = (s.reg rdHi).toNat * 2^32 + (s.reg rdLo).toNat →
    (i = .umull c sBit rdHi rdLo rs rm ∧ p.toNat = (s.reg rm).toNat * (s.reg rs).toNat)
      ∨ (i = .umlal c sBit rdHi rdLo rs rm ∧ p.toNat = ((s.reg rm).toNat * (s.reg rs).toNat + acc) % 2^64)
      ∨ (i = .smull c sBit rdHi rdLo rs rm ∧ p.toInt = (s.reg rm).toInt * (s.reg rs).toInt)
      ∨ (i = .smlal c sBit rdHi rdLo rs rm ∧ (p.toNat : Int) = ((s.reg rm).toInt * (s.reg rs).toInt + acc) % 2^64) →
    hi = p.extractLsb' 32 32 → lo = p.extractLsb' 0 32 → u = s.setFlagsIf sBit (productFlags p s.flagC s.flagV) →
      (rdHi = 15 → rdLo ≠ 15 → Branches i s (u.setReg rdLo lo) hi)
      ∧ (rdLo = 15 → rdHi ≠ 15 → Branches i s (u.setReg rdHi hi) lo)
      ∧ (rdHi = 15 → rdLo = 15 → (Refused s lo → OnlyAdvances i s) ∧ (¬ Refused s lo → Branches i s u hi))

/-! ## Branches and the status registers (spec/41_arm_branch_psr.md) -/

/-- R241, R243, R244, R483, R484: B and BL, relative to the prefetched R15; BL links to the next instruction unless the target
is refused; BX in both instruction sets, and BLX Rs, which links to the next instruction with the Thumb bit and reads its
target first. -/
def Obligations.BranchesAndExchanges : Prop :=
  ∀ (s : State) (c : Cond) (rm : Reg) (sbz : BitVec 3) (offset24 : BitVec 24) (v : Word),
    v = s.r15 + BitVec.ofInt 32 (4 * offset24.toInt) →
    (s.passes c = true → Branches (.b c offset24) s s v ∧ Branches (.bl c offset24) s (s.setReg 14 (s.ia + 4)) v
      ∧ Exchanges (.bx c rm) s s (s.reg rm))
    ∧ Exchanges (.tBx rm sbz) s s (s.reg rm)
    ∧ Exchanges (.tBlxReg rm sbz) s (s.setReg 14 ((s.ia + 2) ||| 1#32)) (s.reg rm)

/-- R250 to R253, R48, R50, R661, U2: MRS reads CPSR, or the SPSR of the mode, and a mode without one reads CPSR; Rd = 15 is
branched to. The field mask selects the bytes MSR writes; User mode writes the flags byte of CPSR only; an invalid mode is not
written; a changed T bit re-bases R15; a mode without an SPSR writes nothing. -/
def Obligations.StatusTransfers : Prop :=
  ∀ (s : State) (c : Cond), s.passes c = true →
    (∀ (ps : Bool) (rd : Reg) (v : Word), (ps = false → v = s.cpsr) →
      (ps = true → ∀ w, s.spsrOf s.mode = some w → v = w) → (ps = true → s.spsrOf s.mode = none → v = s.cpsr) →
        (rd ≠ 15 → WritesResult (.mrs c ps rd) s rd v false s.nzcv) ∧ (rd = 15 → Branches (.mrs c ps rd) s s v))
    ∧ ∀ (i : Instr) (pd : Bool) (fields rotate : BitVec 4) (imm8 : BitVec 8) (rm : Reg) (v : Word),
      (i = .msrReg c pd fields rm ∧ v = s.reg rm)
        ∨ (i = .msrImm c pd fields rotate imm8 ∧ ∀ k, k < 32 → v.getLsbD k = imm8.getLsbD ((k + 2 * rotate.toNat) % 32)) →
      ∃ t, exec i s = .next t
        ∧ (pd = false →
            (∀ k, 5 ≤ k → k < 32 → t.cpsr.getLsbD k
              = if fields.getLsbD (k / 8) && (decide (24 ≤ k) || decide (s.mode ≠ .usr)) then v.getLsbD k
                else s.cpsr.getLsbD k)
            ∧ t.cpsr.extractLsb' 0 5 = (if fields.getLsbD 0 = true ∧ s.mode ≠ .usr ∧ validMode v = true
                then v.extractLsb' 0 5 else s.cpsr.extractLsb' 0 5)
            ∧ (t.thumb = s.thumb → t.r15 = s.r15 + instrWidth s.thumb)
            ∧ (t.thumb ≠ s.thumb → t.r15 = s.ia + 4 + (if t.thumb then 4 else 8))
            ∧ t = { s with cpsr := t.cpsr, r15 := t.r15 })
        ∧ (pd = true → ∀ old, s.spsrOf s.mode = some old →
            ∃ w : Word, (∀ k, k < 32 → w.getLsbD k = if fields.getLsbD (k / 8) then v.getLsbD k else old.getLsbD k)
              ∧ t = { s.setSpsrOf s.mode w with r15 := s.r15 + instrWidth s.thumb })
        ∧ (pd = true → s.spsrOf s.mode = none → OnlyAdvances i s)

/-! ## Memory (spec/20_memory.md) -/

/-- R87, R88, R90, R92, R96: a wider read is the bytes of the aligned address, low byte first; LDR rotates; flash answers
only bytes; an access is unmapped as a whole, and reads 0, where its aligned address is, a visible GPIO register apart (R86,
log entry 8). That the bytes beyond ROM_SIZE of a word whose aligned address lies below it read 0 is log entry 7. -/
def Obligations.MemoryReads : Prop :=
  ∀ (s : State) (a : Word),
    (regionOf a ≠ 14 →
      (∀ k, k < 16 →
        (s.read16 a).getLsbD k = (s.read8 ((a &&& 0xFFFFFFFE#32) + BitVec.ofNat 32 (k / 8))).getLsbD (k % 8))
      ∧ (∀ k, k < 32 →
          (s.read32 a).getLsbD k = (s.read8 ((a &&& 0xFFFFFFFC#32) + BitVec.ofNat 32 (k / 8))).getLsbD (k % 8)))
    ∧ (regionOf a = 14 → s.read16 a = 0 ∧ s.read32 a = 0)
    ∧ (∀ k, k < 32 → (s.readRot a).getLsbD k = (s.read32 a).getLsbD ((k + 8 * (a.toNat % 4)) % 32))
    ∧ (s.mapped a = false → ¬ GpioAnswers s a → s.read8 a = 0)
    ∧ (s.mapped (a &&& 0xFFFFFFFE#32) = false → ¬ GpioAnswers s (a &&& 0xFFFFFFFE#32) → s.read16 a = 0)
    ∧ (s.mapped (a &&& 0xFFFFFFFC#32) = false → ¬ GpioAnswers s (a &&& 0xFFFFFFFC#32) → s.read32 a = 0)

/-- R80 to R84, R87: the mirrors. Addresses of a RAM region whose offset agrees modulo the size of the buffer read alike; VRAM
repeats its 32 KiB at 0x10000; flash repeats every 128 KiB for reads and writes; the top four address bits are ignored. -/
def Obligations.Mirrors : Prop :=
  ∀ (s : State) (a b : Word),
    (a.toNat % 2^28 = b.toNat % 2^28 → s.read8 a = s.read8 b)
    ∧ (regionOf a = 2 → regionOf b = 2 → a.toNat % 0x40000 = b.toNat % 0x40000 → s.read8 a = s.read8 b)
    ∧ ((regionOf a = 1 ∨ regionOf a = 3) → (regionOf b = 1 ∨ regionOf b = 3) → a.toNat % 0x8000 = b.toNat % 0x8000 →
        s.read8 a = s.read8 b)
    ∧ ((regionOf a = 5 ∨ regionOf a = 7) → regionOf b = regionOf a → a.toNat % 0x400 = b.toNat % 0x400 →
        s.read8 a = s.read8 b)
    ∧ (regionOf a = 6 → regionOf b = 6 → a.toNat % 0x20000 = b.toNat % 0x20000 → s.read8 a = s.read8 b)
    ∧ (regionOf a = 6 → regionOf b = 6 → 0x18000 ≤ a.toNat % 0x20000 → b.toNat % 0x20000 = a.toNat % 0x20000 - 0x8000 →
        s.read8 a = s.read8 b)
    ∧ (regionOf a = 14 → regionOf b = 14 → a.toNat % 0x20000 = b.toNat % 0x20000 →
        s.read8 a = s.read8 b ∧ ∀ x, s.write8 a x = s.write8 b x)

/-- R91, R94: a write is aligned down; in RAM its bytes lie low byte first and nothing else changes; a byte written to palette
or VRAM lands in both halves of its halfword, one written to OAM is dropped, and so is every write to BIOS, ROM and unmapped
addresses and every wide write to flash. -/
def Obligations.MemoryWrites : Prop :=
  ∀ (s : State) (a v : Word) (h : Half) (x : Byte),
    StoredAligned s (s.write32 a v) 4 (align4 a) (fun i => v.extractLsb' (8 * i) 8)
    ∧ StoredAligned s (s.write16 a h) 2 (align2 a) (fun i => h.extractLsb' (8 * i) 8)
    ∧ StoredByte s (s.write8 a x) a x
    ∧ (regionOf a ≠ 4 → regionOf a ≠ 8 → s.write32 a v = { s with mem := (s.write32 a v).mem }
        ∧ s.write16 a h = { s with mem := (s.write16 a h).mem })
    ∧ (dropsWrite (align4 a) = true → s.write32 a v = s) ∧ (dropsWrite (align2 a) = true → s.write16 a h = s)

/-! ## ARM transfers (spec/44_arm_load_store.md, spec/45_arm_block_transfer.md) -/

/-- R330 to R332, R334, R336, R338, R340, R341, R343, R344, U5 to U7: every load in every addressing form. -/
def Obligations.ArmLoads : Prop :=
  ∀ (s : State) (c : Cond) (p u w : Bool) (rn rd rm : Reg) (off : Offset) (imm8 : BitVec 8) (offset half : Word),
    s.passes c = true →
    (∀ imm12, off = .imm imm12 → offset.toNat = imm12.toNat) →
    (∀ rx ty n, off = .reg rx ty n → offset = (operand2 s (.shiftImm rx ty n)).value) →
    half.toNat = imm8.toNat →
      Loads (.ldr c p u w rn rd off) s p u w rn rd offset s.readRot
      ∧ Loads (.ldrb c p u w rn rd off) s p u w rn rd offset (fun a => (s.read8 a).zeroExtend 32)
      ∧ Loads (.ldrt c u rn rd off) s false u true rn rd offset s.readRot
      ∧ Loads (.ldrbt c u rn rd off) s false u true rn rd offset (fun a => (s.read8 a).zeroExtend 32)
      ∧ Loads (.ldrhReg c p u w rn rd rm) s p u w rn rd (s.reg rm) (fun a => (s.read16 a).zeroExtend 32)
      ∧ Loads (.ldrhImm c p u w rn rd imm8) s p u w rn rd half (fun a => (s.read16 a).zeroExtend 32)
      ∧ Loads (.ldrsbReg c p u w rn rd rm) s p u w rn rd (s.reg rm) (fun a => (s.read8 a).signExtend 32)
      ∧ Loads (.ldrsbImm c p u w rn rd imm8) s p u w rn rd half (fun a => (s.read8 a).signExtend 32)
      ∧ Loads (.ldrshReg c p u w rn rd rm) s p u w rn rd (s.reg rm) (fun a => (s.read16 a).signExtend 32)
      ∧ Loads (.ldrshImm c p u w rn rd imm8) s p u w rn rd half (fun a => (s.read16 a).signExtend 32)

/-- R330, R331, R333, R335, R337, R339, R340, R342, U5, U7: every store in every addressing form; R15 stores the
prefetched address. -/
def Obligations.ArmStores : Prop :=
  ∀ (s : State) (c : Cond) (p u w : Bool) (rn rd rm : Reg) (off : Offset) (imm8 : BitVec 8) (offset half v : Word),
    s.passes c = true → v = s.reg rd →
    (∀ imm12, off = .imm imm12 → offset.toNat = imm12.toNat) →
    (∀ rx ty n, off = .reg rx ty n → offset = (operand2 s (.shiftImm rx ty n)).value) →
    half.toNat = imm8.toNat →
      Stores (.str c p u w rn rd off) s p u w rn offset (fun a => s.write32 a v)
        (fun t a => StoredAligned s t 4 (align4 a) fun i => v.extractLsb' (8 * i) 8)
      ∧ Stores (.strb c p u w rn rd off) s p u w rn offset (fun a => s.write8 a (v.extractLsb' 0 8))
        (fun t a => StoredByte s t a (v.extractLsb' 0 8))
      ∧ Stores (.strt c u rn rd off) s false u true rn offset (fun a => s.write32 a v)
        (fun t a => StoredAligned s t 4 (align4 a) fun i => v.extractLsb' (8 * i) 8)
      ∧ Stores (.strbt c u rn rd off) s false u true rn offset (fun a => s.write8 a (v.extractLsb' 0 8))
        (fun t a => StoredByte s t a (v.extractLsb' 0 8))
      ∧ Stores (.strhReg c p u w rn rd rm) s p u w rn (s.reg rm) (fun a => s.write16 a (v.extractLsb' 0 16))
        (fun t a => StoredAligned s t 2 (align2 a) fun i => v.extractLsb' (8 * i) 8)
      ∧ Stores (.strhImm c p u w rn rd imm8) s p u w rn half (fun a => s.write16 a (v.extractLsb' 0 16))
        (fun t a => StoredAligned s t 2 (align2 a) fun i => v.extractLsb' (8 * i) 8)

/-- R360, R361, U8: SWP and SWPB read, then write, then set Rd; the sources are read first; Rd = 15 is branched to, and a
refused target stores nothing. -/
def Obligations.Swap : Prop :=
  ∀ (s : State) (c : Cond) (rn rd rm : Reg) (a v : Word), s.passes c = true → a = s.reg rn → v = s.reg rm →
    (rd ≠ 15 →
      (∃ t, exec (.swp c rn rd rm) s = .next t ∧ t = { s.write32 a v with regs := t.regs, r15 := t.r15 }
        ∧ t.reg rd = s.readRot a ∧ t.r15 = s.r15 + instrWidth s.thumb ∧ t.cpsr = s.cpsr ∧ SameCellsBut [rd] s t
        ∧ StoredAligned s t 4 (align4 a) fun i => v.extractLsb' (8 * i) 8)
      ∧ ∃ t, exec (.swpb c rn rd rm) s = .next t
        ∧ t = { s.write8 a (v.extractLsb' 0 8) with regs := t.regs, r15 := t.r15 }
        ∧ t.reg rd = (s.read8 a).zeroExtend 32 ∧ t.r15 = s.r15 + instrWidth s.thumb ∧ t.cpsr = s.cpsr
        ∧ SameCellsBut [rd] s t ∧ StoredByte s t a (v.extractLsb' 0 8))
    ∧ (rd = 15 →
      Branches (.swp c rn rd rm) s (s.write32 a v) (s.readRot a)
      ∧ Branches (.swpb c rn rd rm) s (s.write8 a (v.extractLsb' 0 8)) ((s.read8 a).zeroExtend 32))

/-- R370, R371, R373, R374, U9 to U11: LDM, the return from exception and the load of the user bank, in the four addressing
modes, with R15 in the list or not. -/
def Obligations.BlockLoadForms : Prop :=
  ∀ (s : State) (c : Cond) (p u w : Bool) (rn : Reg) (list : BitVec 16), s.passes c = true →
    BlockLoads (.ldm c p u w rn list) s s.mode false p u w rn list
    ∧ BlockLoads (.ldmRet c p u w rn list) s s.mode true p u w rn list
    ∧ BlockLoads (.ldmUser c p u w rn list) s .usr false p u w rn list

/-- R370, R372, R374, U9 to U11: STM and the store of the user bank, in the four addressing modes. That the user-bank form
stores the written-back base for a base that is in the list and not its first is the model's reading of R374 with R372, in a
form that U11 lists (log entry 16). -/
def Obligations.BlockStoreForms : Prop :=
  ∀ (s : State) (c : Cond) (p u w : Bool) (rn : Reg) (list : BitVec 16), s.passes c = true →
    BlockStores (.stm c p u w rn list) s s.mode p u w rn list
    ∧ BlockStores (.stmUser c p u w rn list) s .usr p u w rn list

/-! ## Thumb (spec/47_thumb_alu.md, spec/48_thumb_load_store.md, spec/49_thumb_branch.md) -/

/-- R441 to R443, R462 to R464, R467: the Thumb shifts are the barrel shifter's, by an immediate or by the low byte of Rs; N
and Z are the result's, C is the shifter's carry, V is unchanged. -/
def Obligations.ThumbShifts : Prop :=
  ∀ (s : State) (n : BitVec 5) (rs rd : LowReg) (ty : ShiftTy) (i : Instr) (r : Shifted),
    (ty = .lsl ∧ i = .tLslImm n rs rd ∧ r = operand2 s (.shiftImm (low rs) ty n))
      ∨ (ty = .lsr ∧ i = .tLsrImm n rs rd ∧ r = operand2 s (.shiftImm (low rs) ty n))
      ∨ (ty = .asr ∧ i = .tAsrImm n rs rd ∧ r = operand2 s (.shiftImm (low rs) ty n))
      ∨ (ty = .lsl ∧ i = .tLslReg rs rd ∧ r = operand2 s (.shiftReg (low rd) ty (low rs)))
      ∨ (ty = .lsr ∧ i = .tLsrReg rs rd ∧ r = operand2 s (.shiftReg (low rd) ty (low rs)))
      ∨ (ty = .asr ∧ i = .tAsrReg rs rd ∧ r = operand2 s (.shiftReg (low rd) ty (low rs)))
      ∨ (ty = .ror ∧ i = .tRorReg rs rd ∧ r = operand2 s (.shiftReg (low rd) ty (low rs))) →
    WritesResult i s (low rd) r.value true (resultFlags r.value r.carry s.flagV)

/-- R445 to R448, R452, R453, R465, R466, R469: the exact sum or difference modulo 2^32 with its four flags. -/
def Obligations.ThumbArithmetic : Prop :=
  ∀ (s : State) (rn rs rd : LowReg) (imm3 : BitVec 3) (imm8 : BitVec 8) (x y : Word),
    x.toNat = imm3.toNat → y.toNat = imm8.toNat →
    ∀ (a b c d : Word), a = s.reg (low rs) → b = s.reg (low rn) → c = s.reg (low rd) → d = 0 →
      WritesResult (.tAddReg rn rs rd) s (low rd) (exactSum a b false) true (flagsOfSum a b false)
      ∧ WritesResult (.tSubReg rn rs rd) s (low rd) (exactDiff a b false) true (flagsOfDiff a b false)
      ∧ WritesResult (.tAddImm3 imm3 rs rd) s (low rd) (exactSum a x false) true (flagsOfSum a x false)
      ∧ WritesResult (.tSubImm3 imm3 rs rd) s (low rd) (exactDiff a x false) true (flagsOfDiff a x false)
      ∧ WritesResult (.tAddImm8 rd imm8) s (low rd) (exactSum c y false) true (flagsOfSum c y false)
      ∧ WritesResult (.tSubImm8 rd imm8) s (low rd) (exactDiff c y false) true (flagsOfDiff c y false)
      ∧ WritesResult (.tAdc rs rd) s (low rd) (exactSum c a s.flagC) true (flagsOfSum c a s.flagC)
      ∧ WritesResult (.tSbc rs rd) s (low rd) (exactDiff c a (!s.flagC)) true (flagsOfDiff c a (!s.flagC))
      ∧ WritesResult (.tNeg rs rd) s (low rd) (exactDiff d a false) true (flagsOfDiff d a false)

/-- R450, R451, R460, R461, R468, R470 to R475, R481: the logical results and the product modulo 2^32, with N and Z the
result's, C and V unchanged; the comparisons write the flags and no register, R15 as an operand included. -/
def Obligations.ThumbLogicalAndComparisons : Prop :=
  (∀ (s : State) (rs rd : LowReg) (imm8 : BitVec 8) (v : Word) (f : Nzcv), f = resultFlags v s.flagC s.flagV →
    (Bitwise (fun a b => a && b) (s.reg (low rd)) (s.reg (low rs)) v → WritesResult (.tAnd rs rd) s (low rd) v true f)
    ∧ (Bitwise (fun a b => a != b) (s.reg (low rd)) (s.reg (low rs)) v → WritesResult (.tEor rs rd) s (low rd) v true f)
    ∧ (Bitwise (fun a b => a || b) (s.reg (low rd)) (s.reg (low rs)) v → WritesResult (.tOrr rs rd) s (low rd) v true f)
    ∧ (Bitwise (fun a b => a && !b) (s.reg (low rd)) (s.reg (low rs)) v → WritesResult (.tBic rs rd) s (low rd) v true f)
    ∧ (Bitwise (fun _ b => !b) (s.reg (low rd)) (s.reg (low rs)) v → WritesResult (.tMvn rs rd) s (low rd) v true f)
    ∧ (v.toNat = (s.reg (low rd)).toNat * (s.reg (low rs)).toNat % 2^32 →
        WritesResult (.tMul rs rd) s (low rd) v true f)
    ∧ (v.toNat = imm8.toNat → WritesResult (.tMovImm8 rd imm8) s (low rd) v true f))
  ∧ ∀ (s : State) (rs rd : LowReg) (hs hd : Reg) (imm8 : BitVec 8) (x v : Word), x.toNat = imm8.toNat →
    WritesFlags (.tCmpImm8 rd imm8) s (flagsOfDiff (s.reg (low rd)) x false)
    ∧ WritesFlags (.tCmpReg rs rd) s (flagsOfDiff (s.reg (low rd)) (s.reg (low rs)) false)
    ∧ WritesFlags (.tCmn rs rd) s (flagsOfSum (s.reg (low rd)) (s.reg (low rs)) false)
    ∧ WritesFlags (.tCmpHi hs hd) s (flagsOfDiff (s.reg hd) (s.reg hs) false)
    ∧ (Bitwise (fun a b => a && b) (s.reg (low rd)) (s.reg (low rs)) v →
        WritesFlags (.tTst rs rd) s (resultFlags v s.flagC s.flagV))

/-- R480, R482, R490, R491, R495, R496: the high-register ADD and MOV (Rd = 15 branches and stays in Thumb state) and the
address computations; no flag is written. -/
def Obligations.ThumbHighAndAddresses : Prop :=
  ∀ (s : State) (hs hd : Reg) (rd : LowReg) (word8 : BitVec 8) (sword7 : BitVec 7) (x y : Word),
    x.toNat = 4 * word8.toNat → y.toNat = 4 * sword7.toNat →
    (hd ≠ 15 → WritesResult (.tAddHi hs hd) s hd (exactSum (s.reg hd) (s.reg hs) false) false s.nzcv
      ∧ WritesResult (.tMovHi hs hd) s hd (s.reg hs) false s.nzcv)
    ∧ (hd = 15 → Branches (.tAddHi hs hd) s s (exactSum s.r15 (s.reg hs) false) ∧ Branches (.tMovHi hs hd) s s (s.reg hs))
    ∧ WritesResult (.tAddPc rd word8) s (low rd) ((s.r15 &&& 0xFFFFFFFC#32) + x) false s.nzcv
    ∧ WritesResult (.tAddSp rd word8) s (low rd) (s.reg 13 + x) false s.nzcv
    ∧ WritesResult (.tIncSp sword7) s 13 (s.reg 13 + y) false s.nzcv
    ∧ WritesResult (.tDecSp sword7) s 13 (s.reg 13 - y) false s.nzcv

/-- R501, R507, R508, R511 to R513, R516, R518, R521, R524: every Thumb load writes what it reads at its address and no flag.
-/
def Obligations.ThumbLoads : Prop :=
  ∀ (s : State) (ro rb rd : LowReg) (offset5 : BitVec 5) (word8 : BitVec 8) (a b : Word),
    a = s.reg (low rb) + s.reg (low ro) → b = s.reg (low rb) →
    ∀ o : Nat, o = offset5.toNat →
      WritesResult (.tLdrPc rd word8) s (low rd)
        (s.readRot ((s.r15 &&& 0xFFFFFFFC#32) + BitVec.ofNat 32 (4 * word8.toNat))) false s.nzcv
      ∧ WritesResult (.tLdrSp rd word8) s (low rd) (s.readRot (s.reg 13 + BitVec.ofNat 32 (4 * word8.toNat))) false s.nzcv
      ∧ WritesResult (.tLdrReg ro rb rd) s (low rd) (s.readRot a) false s.nzcv
      ∧ WritesResult (.tLdrbReg ro rb rd) s (low rd) ((s.read8 a).zeroExtend 32) false s.nzcv
      ∧ WritesResult (.tLdrhReg ro rb rd) s (low rd) ((s.read16 a).zeroExtend 32) false s.nzcv
      ∧ WritesResult (.tLdsbReg ro rb rd) s (low rd) ((s.read8 a).signExtend 32) false s.nzcv
      ∧ WritesResult (.tLdshReg ro rb rd) s (low rd) ((s.read16 a).signExtend 32) false s.nzcv
      ∧ WritesResult (.tLdrImm offset5 rb rd) s (low rd) (s.readRot (b + BitVec.ofNat 32 (4 * o))) false s.nzcv
      ∧ WritesResult (.tLdrbImm offset5 rb rd) s (low rd) ((s.read8 (b + BitVec.ofNat 32 o)).zeroExtend 32) false s.nzcv
      ∧ WritesResult (.tLdrhImm offset5 rb rd) s (low rd) ((s.read16 (b + BitVec.ofNat 32 (2 * o))).zeroExtend 32) false
          s.nzcv

/-- R505, R506, R510, R515, R517, R520, R523: every Thumb store makes its one bus write, changes no register but R15 and no
flag, and in RAM changes exactly the bytes it stores. -/
def Obligations.ThumbStores : Prop :=
  ∀ (s : State) (ro rb rd : LowReg) (offset5 : BitVec 5) (word8 : BitVec 8) (a b v : Word),
    a = s.reg (low rb) + s.reg (low ro) → b = s.reg (low rb) → v = s.reg (low rd) →
    ∀ o : Nat, o = offset5.toNat →
      StoresWord (.tStrReg ro rb rd) s a v ∧ StoresWord (.tStrImm offset5 rb rd) s (b + BitVec.ofNat 32 (4 * o)) v
      ∧ StoresWord (.tStrSp rd word8) s (s.reg 13 + BitVec.ofNat 32 (4 * word8.toNat)) v
      ∧ StoresHalf (.tStrhReg ro rb rd) s a (v.extractLsb' 0 16)
      ∧ StoresHalf (.tStrhImm offset5 rb rd) s (b + BitVec.ofNat 32 (2 * o)) (v.extractLsb' 0 16)
      ∧ StoresByte (.tStrbReg ro rb rd) s a (v.extractLsb' 0 8)
      ∧ StoresByte (.tStrbImm offset5 rb rd) s (b + BitVec.ofNat 32 o) (v.extractLsb' 0 8)

/-- R530, R531, R535, R536, U10: PUSH stores the list, with LR highest, below SP; POP loads it, with PC highest and
staying in Thumb state; STMIA and LDMIA ascend from Rb; an empty list stops. -/
def Obligations.ThumbBlockTransfers : Prop :=
  ∀ (s : State) (extra : Bool) (list : BitVec 8) (rb : LowReg) (push pop regs : BitVec 16),
    (∀ k, k < 16 → push.getLsbD k = if k < 8 then list.getLsbD k else decide (k = 14) && extra) →
    (∀ k, k < 16 → pop.getLsbD k = if k < 8 then list.getLsbD k else decide (k = 15) && extra) →
    (∀ k, k < 16 → regs.getLsbD k = list.getLsbD k) →
      BlockStores (.tPush extra list) s s.mode true false true 13 push
      ∧ BlockLoads (.tPop extra list) s s.mode false false true true 13 pop
      ∧ BlockStores (.tStmia rb list) s s.mode false true true (low rb) regs
      ∧ BlockLoads (.tLdmia rb list) s s.mode false false true true (low rb) regs

/-- R540, R541, R545: B, and each of the fourteen conditional branches: taken when its condition passes, else only the pc
advances. -/
def Obligations.ThumbBranches : Prop :=
  ∀ (s : State) (soffset8 : BitVec 8) (offset11 : BitVec 11) (i : Instr) (c : Cond) (v w : Word),
    v = s.r15 + BitVec.ofInt 32 (2 * soffset8.toInt) → w = s.r15 + BitVec.ofInt 32 (2 * offset11.toInt) →
    (i, c) ∈ [(.tBeq soffset8, .eq), (.tBne soffset8, .ne), (.tBcs soffset8, .cs), (.tBcc soffset8, .cc),
      (.tBmi soffset8, .mi), (.tBpl soffset8, .pl), (.tBvs soffset8, .vs), (.tBvc soffset8, .vc), (.tBhi soffset8, .hi),
      (.tBls soffset8, .ls), (.tBge soffset8, .ge), (.tBlt soffset8, .lt), (.tBgt soffset8, .gt), (.tBle soffset8, .le)] →
      (s.passes c = true → Branches i s s v) ∧ (s.passes c = false → OnlyAdvances i s) ∧ Branches (.tB offset11) s s w

/-- R552 to R554: the two halves of the Thumb long branch, each an instruction of its own: the first sets R14, the second
branches to R14 plus its offset and links; BLX goes to ARM state at the word-aligned target. -/
def Obligations.ThumbLongBranch : Prop :=
  ∀ (s : State) (offset11 : BitVec 11) (v link : Word),
    v = s.reg 14 + BitVec.ofNat 32 (2 * offset11.toNat) → link = (s.ia + 2) ||| 1#32 →
      WritesResult (.tBlHigh offset11) s 14 (s.r15 + BitVec.ofInt 32 (4096 * offset11.toInt)) false s.nzcv
      ∧ Branches (.tBlLow offset11) s (s.setReg 14 link) v
      ∧ Exchanges (.tBlxLow offset11) s (s.setReg 14 link) (v &&& 0xFFFFFFFC#32)

/-! ## System calls, coprocessors, undefined encodings (spec/46_arm_swi_coproc_undef.md, spec/60_exceptions.md) -/

/-- R390 to R393, R401 to R404, R409, R551: Halt and the call 0x03 halt, the two waits also set IME, the checksum goes to R0,
and an unrecognised number only advances the pc. -/
def Obligations.SwiSimpleCalls : Prop :=
  ∀ (s : State) (i : Instr) (n : Nat), Calls i s n →
    (n = 0x02 ∨ n = 0x03 → exec i s = .next { s with halted := true, r15 := s.r15 + instrWidth s.thumb })
    ∧ (n = 0x04 ∨ n = 0x05 → exec i s = .next { s with ime := 1, halted := true, r15 := s.r15 + instrWidth s.thumb })
    ∧ (n = 0x0D → WritesResult i s 0 0xBAAE187F#32 false s.nzcv)
    ∧ (n ∉ [0x00, 0x02, 0x03, 0x04, 0x05, 0x06, 0x08, 0x0B, 0x0C, 0x0D, 0x11, 0x12, 0x14, 0x15] → OnlyAdvances i s)

/-- R405, R622, U12: Div truncates toward zero, the remainder has the sign of the numerator, R3 is the absolute quotient; only
a zero divisor stops. -/
def Obligations.SwiDivide : Prop :=
  ∀ (s : State) (i : Instr), Calls i s 0x06 →
    ((s.reg 1).toInt = 0 → exec i s = .fault .biosDivideByZero)
    ∧ ∀ q r : Int, (s.reg 1).toInt ≠ 0 → q * (s.reg 1).toInt + r = (s.reg 0).toInt → r.natAbs < (s.reg 1).toInt.natAbs →
        (0 < r → 0 < (s.reg 0).toInt) → (r < 0 → (s.reg 0).toInt < 0) →
        ∃ t, exec i s = .next t ∧ t.reg 0 = BitVec.ofInt 32 q ∧ t.reg 1 = BitVec.ofInt 32 r
          ∧ t.reg 3 = BitVec.ofNat 32 q.natAbs ∧ t.r15 = s.r15 + instrWidth s.thumb ∧ t.nzcv = s.nzcv
          ∧ RegisterFrame [0, 1, 3] s t

/-- R406: Sqrt is the floor of the square root of the unsigned operand. -/
def Obligations.SwiSquareRoot : Prop :=
  ∀ (s : State) (i : Instr) (v : Word), Calls i s 0x08 →
    v.toNat * v.toNat ≤ (s.reg 0).toNat → (s.reg 0).toNat < (v.toNat + 1) * (v.toNat + 1) →
    WritesResult i s 0 v false s.nzcv

/-- R407, R408: CpuSet and CpuFastSet copy unit by unit, each read after the write before it; a fixed source stays; CpuFastSet
rounds its count up to a multiple of 8; the registers are unchanged. -/
def Obligations.SwiCopies : Prop :=
  ∀ (s : State) (i : Instr) (count : Nat) (fixed word : Bool) (m : Nat → State),
    count = (s.reg 2).toNat % 2^21 → fixed = (s.reg 2).getLsbD 24 → word = (s.reg 2).getLsbD 26 → m 0 = s →
    (Calls i s 0x0B →
      (∀ k, m (k + 1) = if word
        then (m k).write32 (s.reg 1 + BitVec.ofNat 32 (4 * k))
          ((m k).read32 (if fixed then s.reg 0 else s.reg 0 + BitVec.ofNat 32 (4 * k)))
        else (m k).write16 (s.reg 1 + BitVec.ofNat 32 (2 * k))
          ((m k).read16 (if fixed then s.reg 0 else s.reg 0 + BitVec.ofNat 32 (2 * k)))) →
      exec i s = .next { m count with r15 := s.r15 + instrWidth s.thumb } ∧ (m count).regs = s.regs
        ∧ (m count).cpsr = s.cpsr)
    ∧ (Calls i s 0x0C →
      (∀ k, m (k + 1) = (m k).write32 (s.reg 1 + BitVec.ofNat 32 (4 * k))
          ((m k).read32 (if fixed then s.reg 0 else s.reg 0 + BitVec.ofNat 32 (4 * k)))) →
      exec i s = .next { m ((count + 7) / 8 * 8) with r15 := s.r15 + instrWidth s.thumb }
        ∧ (m ((count + 7) / 8 * 8)).regs = s.regs ∧ (m ((count + 7) / 8 * 8)).cpsr = s.cpsr)

/-- R410 to R413, U13: a decompression writes what the compressed data at R0 says to R1, by bytes or by halfwords; R0 ends
after the last input byte consumed, R1 after the output; no other register changes. The byte copied from before the first
output byte (U13) is left open (log entry 17). -/
def Obligations.SwiDecompression : Prop :=
  ∀ (s : State) (i : Instr) (n size : Nat) (src dst : Word), Calls i s n → n ∈ [0x11, 0x12, 0x14, 0x15] →
    src = s.reg 0 → dst = s.reg 1 →
    size = (s.read8 (src + 1)).toNat + 2^8 * (s.read8 (src + 2)).toNat + 2^16 * (s.read8 (src + 3)).toNat →
    ∃ (t u : State) (f : Nat) (out : List Byte), exec i s = .next t ∧ out.length = size
      ∧ (n = 0x11 ∨ n = 0x12 → LzOut s size 0 0 (src + 4) [] (t.reg 0) out)
      ∧ (n = 0x14 ∨ n = 0x15 → RlOut s size (src + 4) [] (t.reg 0) out)
      ∧ WrittenOut { s with free := f } u dst out (decide (n = 0x12 ∨ n = 0x15))
      ∧ t = { u with regs := t.regs, r15 := t.r15 } ∧ t.reg 1 = dst + BitVec.ofNat 32 size
      ∧ t.r15 = s.r15 + instrWidth s.thumb ∧ t.cpsr = s.cpsr ∧ SameCellsBut [0, 1] s t

/-- R400: SoftReset clears the top 0x200 bytes of IWRAM, presets the banks it names, and goes on at the cartridge or, if the
byte at 0x03007FFA was not 0, in work RAM, in System mode and ARM state. -/
def Obligations.SwiSoftReset : Prop :=
  ∀ (s : State) (i : Instr), Calls i s 0x00 →
    ∃ t, exec i s = .next t
      ∧ t = { s with mem := t.mem, regs := t.regs, r15 := t.r15, cpsr := 0x0000001F#32, spsrSvc := 0, spsrIrq := 0 }
      ∧ t.r15 = (if s.read8 0x03007FFA#32 = 0 then 0x08000008#32 else 0x02000008#32)
      ∧ (∀ n : Reg, n.val < 13 → t.regIn .sys n = 0) ∧ t.regIn .sys 13 = 0x03007F00#32 ∧ t.regIn .sys 14 = 0
      ∧ t.regIn .svc 13 = 0x03007FE0#32 ∧ t.regIn .svc 14 = 0 ∧ t.regIn .irq 13 = 0x03007FA0#32 ∧ t.regIn .irq 14 = 0
      ∧ (∀ n : Reg, 8 ≤ n.val → t.regIn .fiq n = s.regIn .fiq n ∨ n = 15)
      ∧ (∀ n : Reg, n = 13 ∨ n = 14 → t.regIn .abt n = s.regIn .abt n ∧ t.regIn .und n = s.regIn .und n)
      ∧ (∀ k, k < 0x200 → ∀ b, sameByte s.romSize b (0x03007E00#32 + BitVec.ofNat 32 k) → t.read8 b = 0)
      ∧ ∀ b, (∀ k, k < 0x200 → ¬ sameByte s.romSize b (0x03007E00#32 + BitVec.ofNat 32 k)) → t.read8 b = s.read8 b

/-- R391: an SWI takes no exception: whatever its number, unless it is SoftReset, CPSR, every SPSR and every register but R0,
R1 and R3 keep their values and the next instruction follows; it completes unless it is Div by zero. -/
def Obligations.SwiTakesNoException : Prop :=
  ∀ (s : State) (i : Instr) (n : Nat), Calls i s n → n ≠ 0x00 → (n = 0x06 → s.reg 1 ≠ 0) →
    ∃ t, exec i s = .next t ∧ t.cpsr = s.cpsr ∧ (∀ m, t.spsrOf m = s.spsrOf m) ∧ SameCellsBut [0, 1, 3] s t
      ∧ t.r15 = s.r15 + instrWidth s.thumb

/-- R430 to R434: the coprocessor instructions are accepted and ignored: only the pc advances, whatever the condition. -/
def Obligations.CoprocessorIgnored : Prop :=
  ∀ (s : State) (c : Cond) (p u n w : Bool) (rn rd : Reg) (crd cp opc crn crm : BitVec 4) (offset8 : BitVec 8) (o1 o2 : BitVec 3),
    OnlyAdvances (.ldc c p u n w rn crd cp offset8) s ∧ OnlyAdvances (.stc c p u n w rn crd cp offset8) s
    ∧ OnlyAdvances (.cdp c opc crn crd cp o2 crm) s ∧ OnlyAdvances (.mrc c o1 crn rd cp o2 crm) s
    ∧ OnlyAdvances (.mcr c o1 crn rd cp o2 crm) s

/-- R420, R604, R620: what UNDEF_POLICY says an undefined encoding does: the model stops, or only the pc advances, or the
Undefined Instruction exception is taken with the link to the next instruction. -/
def Obligations.UndefinedEncodings : Prop :=
  ∀ (s : State) (i : Instr) (c : Cond) (b28 : BitVec 28) (b8 : BitVec 8) (b9 : BitVec 9) (b10 : BitVec 10),
    (s.passes c = true ∧ i ∈ [.undefMul c b28, .undefCompare c b28, .undefTransfer c b28])
      ∨ i ∈ [.tUndefCond b8, .tUndefB1 b8, .tUndefB2 b9, .tUndefB6 b9, .tUndefB8 b10, .tUndefBE b9] →
    (s.params.undefPolicy = .fault → exec i s = .fault (.undefinedEncoding s.ia i))
    ∧ (s.params.undefPolicy = .nop → OnlyAdvances i s)
    ∧ (s.params.undefPolicy = .undException →
        ∃ t, exec i s = .next t ∧ EntersException s t .und 0x04#32 (s.ia + instrWidth s.thumb))

/-- R151, R169, R440, R541: an instruction whose condition fails only advances the pc, whatever it is, and so does a word with
condition 0xF. -/
def Obligations.FailedCondition : Prop :=
  ∀ (s : State) (i : Instr) (bits : BitVec 28),
    (∀ c, i.condition = some c → s.passes c = false → OnlyAdvances i s) ∧ OnlyAdvances (.armNever bits) s

/-! ## The machine: steps, decoding, reset, invariants -/

/-- R93, R150, R151, R230, R231, R671: when it is the CPU's turn, no IRQ is due and the pc is outside the BIOS, a step runs
exactly the instruction that the bytes of the word or halfword read at the instruction address decode to, and then counts its
cost: cycle counter, timers, budget. A stop of the instruction is a stop of the step. The ARM fetch of the first word of a ROM
shorter than 4 bytes gives the word 0 (R803). That one action of the schedule is one step is the model's choice (log entry 3);
what the bytes beyond ROM_SIZE read as, and which fetches R803 speaks of, is log entry 7. -/
def Obligations.StepRunsDecodedInstruction : Prop :=
  ∀ (s : State) (word : Word) (bytes : List Byte) (i : Instr),
    CpuTurn s → ¬ IrqDue s → 0x4000 ≤ s.ia.toNat % 2^28 →
    word = (if s.romSize < 4 ∧ s.ia &&& 0x0FFFFFFC#32 = 0x08000000#32 then 0 else s.read32 s.ia) →
    bytes = (if s.thumb then [loByte (s.read16 s.ia), hiByte (s.read16 s.ia)] else [0, 1, 2, 3].map (byteOf word)) →
    decode s.thumb bytes = .ok (i, []) →
    (∀ f, exec i s = .fault f → step s = .fault f)
    ∧ ∀ u, exec i s = .next u →
        Accounts s u (cycleCost s.params (costKey s.thumb (bytes.foldr (fun b n => b.toNat + 256 * n) 0)))

/-- Words written out from the encodings of spec/30_encoding.md, and the instructions they stand for. -/
def Obligations.DecodeSampleWords : Prop :=
  decodeArm 0xE0834105 = .add .al false 3 4 (.shiftImm 5 .lsl 2)
  ∧ decodeArm 0xE12FFF1E = .bx .al 14 ∧ decodeArm 0xE14F0000 = .mrs .al true 0 ∧ decodeArm 0xE0010392 = .mul .al false 1 0 3 2
  ∧ decodeArm 0xE5B21004 = .ldr .al true true true 2 1 (.imm 4) ∧ decodeArm 0xE1D210B2 = .ldrhImm .al true true false 2 1 2
  ∧ decodeArm 0xE8BD8001 = .ldm .al false true true 13 0x8001 ∧ decodeArm 0xEF060000 = .swi .al 0x060000
  ∧ decodeArm 0x0AFFFFFE = .b .eq 0xFFFFFE ∧ decodeThumb 0x2105 = .tMovImm8 1 5 ∧ decodeThumb 0x4770 = .tBx 14 0
  ∧ decodeThumb 0x684A = .tLdrImm 1 1 2 ∧ decodeThumb 0xB510 = .tPush true 0x10 ∧ decodeThumb 0xDF06 = .tSwi 6

/-- R89, R150, R152, R199: decoding the bytes of a well-formed instruction gives it back with the bytes after it, and every
word decodes to a well-formed instruction of its instruction set whose encoding it is: the opcode table leaves no word out and
drops no bit. -/
def Obligations.DecodeEncodeRoundTrip : Prop :=
  (∀ (i : Instr) (rest : List Byte), i.wf = true → decode i.isThumb (encode i ++ rest) = .ok (i, rest))
  ∧ (∀ w, w < 2^32 → (decodeArm w).wf = true ∧ (decodeArm w).isThumb = false ∧ encodeWord (decodeArm w) = w)
  ∧ ∀ w, w < 2^16 → (decodeThumb w).wf = true ∧ (decodeThumb w).isThumb = true ∧ encodeWord (decodeThumb w) = w

/-- R70, R730, R802, R10: `init` gives every piece of state that the spec names the value of RESET_STATE, places ROM and
BIOS_IMAGE and fills flash with 0xFF, for any images of legal size and any record; with the defaults and no cartridge that is
State.reset, whose values are those of R70. The model's own choices, no rules of the spec: phase host, line 0 and left 0 (in
Started; log entries 1 and 3), the empty queue of the host (log entries 1 and 4), that init answers none for a ROM above 32 MiB
(log entry 5), and that State.reset has no cartridge and the clock 0 (log entry 1). -/
def Obligations.ResetState : Prop :=
  (∀ (p : Params) (bios rom : List Byte) (clock : Nat), (0x02000000 < rom.length → State.init p bios rom clock = none)
    ∧ (rom.length ≤ 0x02000000 → bios.length ≤ 0x4000 → ∃ t, State.init p bios rom clock = some t
      ∧ Started t p.resetState clock ∧ t.params = p ∧ t.romSize = rom.length ∧ t.host = []
      ∧ (∀ a, regionOf a = 0 → t.read8 a = bios.getD (offsetOf a) 0)
      ∧ (∀ a, regionOf a = 8 ∨ regionOf a = 9 → ¬ GpioAnswers t a → t.read8 a = rom.getD (romOffset a) 0)
      ∧ (∀ a, regionOf a = 14 → p.resetState.flashId = false → t.read8 a = 0xFF#8)))
  ∧ State.init Params.default [] [] 0 = some State.reset
  ∧ ∀ s, s = State.reset →
    (∀ n : Reg, n.val < 13 → s.regIn .sys n = 0 ∧ s.regIn .fiq n = 0) ∧ s.regIn .sys 13 = 0x03007F00#32
    ∧ s.regIn .irq 13 = 0x03007FA0#32 ∧ s.regIn .svc 13 = 0x03007FE0#32
    ∧ s.regIn .fiq 13 = 0 ∧ s.regIn .abt 13 = 0 ∧ s.regIn .und 13 = 0 ∧ (∀ m, s.regIn m 14 = 0)
    ∧ s.r15 = 0x08000008#32 ∧ s.ia = 0x08000000#32 ∧ s.cpsr = 0x0000001F#32
    ∧ (∀ m, s.spsrOf m = none ∨ s.spsrOf m = some 0) ∧ s.cycles = 0 ∧ s.halted = false
    ∧ (∀ a, isRam (regionOf a) = true → s.read8 a = 0) ∧ (∀ off, off < 0x400 → s.ioHalf off = 0)
    ∧ s.ie = 0 ∧ s.if_ = 0 ∧ s.ime = 0 ∧ s.dispstat = 0 ∧ s.vcount = 0 ∧ s.lastVcount = 0 ∧ s.keyinput = 0x03FF#16
    ∧ (∀ n, (s.dmaChannel n).src = 0 ∧ (s.dmaChannel n).dst = 0 ∧ (s.dmaChannel n).count = 0 ∧ (s.dmaChannel n).ctrl = 0
        ∧ (s.dmaChannel n).internalSrc = 0 ∧ (s.dmaChannel n).internalDst = 0 ∧ (s.dmaChannel n).internalCount = 0)
    ∧ (∀ n, (s.timer n).reload = 0 ∧ (s.timer n).counter = 0 ∧ (s.timer n).ctrl = 0 ∧ (s.timer n).accumulator = 0
        ∧ (s.timer n).prescaler = 1)
    ∧ s.gpioData = 0 ∧ s.gpioDir = 0 ∧ s.gpioCtrl = 0 ∧ s.flashState = .ready ∧ s.flashId = false
    ∧ s.rtc.sec = 0 ∧ s.rtc.min = 0 ∧ s.rtc.hr = 0 ∧ s.rtc.daysLo = 0 ∧ s.rtc.daysHi = 0 ∧ s.rtc.ctrl = 0 ∧ s.rtc.status = 0
    ∧ s.rtc.command = 0 ∧ s.rtc.bitIndex = 0 ∧ (∀ k : Fin 8, s.rtc.buffer[k] = 0) ∧ s.rtc.bufferPos = 0
    ∧ s.rtc.reading = false ∧ s.rtc.writing = false ∧ s.rtc.lastSck = false ∧ s.rtc.lastCs = false ∧ s.rtc.sioOut = false
    ∧ s.rtc.haveCommand = false
    ∧ s.refX2 = 0 ∧ s.refY2 = 0 ∧ s.refX3 = 0 ∧ s.refY3 = 0 ∧ (∀ y x, Framebuffer.get s.framebuffer y x = 0) ∧ s.frameCount = 0

/-- The invariant holds after reset, with the values R70 gives and those of log entry 1. -/
def Obligations.ResetInv : Prop := State.reset.Inv

/-- R43, R50, R112, R113, R641, R675, R683, R715: every step of the machine keeps the invariant: canonical memory, a valid
mode, an even pc, no request of a source that does not exist, a scanline number below 228, the budget, the unused bits of
KEYINPUT and GPIO, DMA addresses on the bus, timer accumulators in range, a reset record that starts in it. -/
def Obligations.StepKeepsInv : Prop := ∀ s t : State, s.Inv → step s = .next t → t.Inv

/-- R82, R85, R86, R731: no step changes what BIOS or ROM reads, ROM's size or a parameter, whatever the instruction, the DMA
or the host does. -/
def Obligations.ReadOnlyMemory : Prop :=
  ∀ s t : State, step s = .next t →
    t.romSize = s.romSize ∧ t.params = s.params
    ∧ ∀ a, regionOf a = 0 ∨ regionOf a = 9 ∨ (regionOf a = 8 ∧ inGpioWindow (romOffset a) = false) → t.read8 a = s.read8 a

/-- R253, R400, R604, R610, R662, R661: in User mode a step leaves the machine in User mode, but for IRQ entry, the Undefined
exception where UNDEF_POLICY takes it, SoftReset and the host's reset. That the IRQ entry and the host's reset are steps of
their own is the model's choice (log entries 3 and 4). -/
def Obligations.UserModeLeft : Prop :=
  ∀ s t : State, s.cpsr.extractLsb' 0 5 = 0x10#5 → step s = .next t →
    t.cpsr.extractLsb' 0 5 = 0x10#5
    ∨ (IrqDue s ∧ EntersException s t .irq 0x18#32 (s.ia + 4))
    ∨ (s.params.undefPolicy = .undException ∧ t.cpsr.extractLsb' 0 5 = 0x1B#5)
    ∨ (t.cpsr = 0x0000001F#32 ∧ s.phase = .run ∧ Calls (decodeWord s.thumb s.fetchWord) s 0x00)
    ∨ (t.cpsr = s.params.resetState.cpsr ∧ s.phase = .host ∧ ∃ clock rest, s.host = .reset clock :: rest)

/-! ## Interrupts (spec/60_exceptions.md) -/

/-- R610, R612, R640, R643, R671, R272: an IRQ that is due is taken before the next CPU step: IRQ mode, ARM state, I set, the
link to the next instruction plus 4 in both states, SPSR_irq the whole old CPSR; no memory, request or mask changes and no
time passes. SUBS PC, R14, #4 after it resumes at the interrupted instruction in its mode and instruction set: everything is
as before but R14_irq and SPSR_irq. R610 makes the entry part of the next step; that it is a step of its own is the model's
choice (log entry 3). -/
def Obligations.IrqEntry : Prop :=
  ∀ s : State, CpuTurn s → IrqDue s → ∃ t, step s = .next t ∧ EntersException s t .irq 0x18#32 (s.ia + 4)
    ∧ (validMode s.cpsr = true → s.ia.toNat % (if s.thumb then 2 else 4) = 0 → ¬ Refused s s.ia →
        exec (.sub .al true 14 15 (.imm 0 4)) t = .next { s with regs := t.regs, spsrIrq := s.cpsr }
        ∧ ∀ j : Fin 30, j ≠ 23 → t.regs[j] = s.regs[j])

/-- R630, R631, R671: a step at 0x18 of BIOS space jumps to the handler the word at 0x03007FFC names; at any other BIOS
address it returns to R14 as BX does; neither is guarded and neither writes another register. What such a step costs, and that
its accounting is part of the same step, is the model's choice (log entries 2 and 3). -/
def Obligations.BiosSpaceSteps : Prop :=
  ∀ (s : State) (h : Word), CpuTurn s → ¬ IrqDue s →
    (s.ia.toNat % 2^28 = 0x18 → h = s.read32 0x03007FFC#32 →
      Accounts s { s with r15 := if s.thumb then (h &&& 0xFFFFFFFE#32) + 4 else (h &&& 0xFFFFFFFC#32) + 8 } s.stepCost)
    ∧ (s.ia.toNat % 2^28 < 0x4000 → s.ia.toNat % 2^28 ≠ 0x18 →
      ∃ u, Accounts s u s.stepCost ∧ u = { s with cpsr := u.cpsr, r15 := u.r15 } ∧ u.thumb = (s.reg 14).getLsbD 0
        ∧ (∀ k, k ≠ 5 → u.cpsr.getLsbD k = s.cpsr.getLsbD k)
        ∧ u.r15 = (s.reg 14 &&& 0xFFFFFFFE#32) + (if (s.reg 14).getLsbD 0 then 4 else 8))

/-! ## The I/O registers (spec/20_memory.md section 5, spec/61_devices.md) -/

/-- R106, R107, R110 to R115, R118 to R120, R690, R683, R706, R772: the registers behind the I/O addresses, read and written
by halfwords: the interrupt registers, DISPSTAT, VCOUNT, KEYINPUT, the timers, the DMA channels (but a rising enable with
immediate timing, which runs the channel: DmaTransfer), the affine reference registers, and plain storage, KEYCNT among it. -/
def Obligations.IoRegisters : Prop :=
  ∀ (s : State) (a : Word) (off : Nat) (v : Half), regionOf a = 4 → off = offsetOf (align2 a) →
    (off = 0x200 → s.read16 a = s.ie ∧ s.write16 a v = { s with ie := v })
    ∧ (off = 0x202 → s.read16 a = s.if_ ∧ ∃ f, s.write16 a v = { s with if_ := f }
        ∧ ∀ k, f.getLsbD k = (s.if_.getLsbD k && !v.getLsbD k))
    ∧ (off = 0x208 → s.read16 a = s.ime ∧ s.write16 a v = { s with ime := v })
    ∧ (off = 0x004 → s.read16 a = s.dispstat ∧ ∃ d, s.write16 a v = { s with dispstat := d }
        ∧ ∀ k, k < 16 → d.getLsbD k = if k < 3 then s.dispstat.getLsbD k else v.getLsbD k)
    ∧ (off = 0x006 → s.read16 a = s.vcount.zeroExtend 16 ∧ s.write16 a v = s)
    ∧ (off = 0x130 → s.read16 a = s.keyinput ∧ s.write16 a v = s)
    ∧ (off = 0x300 → ∃ t, s.write16 a v = t ∧ t = { s with mem := t.mem, halted := true } ∧ t.read16 a = v &&& 0x00FF#16
        ∧ ∀ b, regionOf b ≠ 4 ∨ offsetOf b ≠ 0x300 → t.read8 b = s.read8 b)
    ∧ (∀ n : Fin 4,
        (off = 0x100 + 4 * n.val → s.read16 a = (s.timer n).counter
          ∧ s.write16 a v = { s with timers := s.timers.set n { s.timer n with reload := v } })
        ∧ (off = 0x102 + 4 * n.val → s.read16 a = (s.timer n).ctrl
          ∧ ∀ t : Timer, t = (if (s.timer n).ctrl.getLsbD 7 = false ∧ v.getLsbD 7 = true
                then { s.timer n with ctrl := v, counter := (s.timer n).reload, accumulator := 0 }
                else { s.timer n with ctrl := v }) →
              s.write16 a v = { s with timers := s.timers.set n t }))
    ∧ (∀ (n : Fin 4) (d : DmaChannel), d = s.dmaChannel n →
        (off = 0xB0 + 12 * n.val → s.read16 a = d.src.extractLsb' 0 16
          ∧ s.write16 a v = { s with dma := s.dma.set n { d with src := d.src.extractLsb' 16 16 ++ v } })
        ∧ (off = 0xB2 + 12 * n.val → s.read16 a = d.src.extractLsb' 16 16
          ∧ s.write16 a v = { s with dma := s.dma.set n { d with src := v ++ d.src.extractLsb' 0 16 } })
        ∧ (off = 0xB4 + 12 * n.val → s.read16 a = d.dst.extractLsb' 0 16
          ∧ s.write16 a v = { s with dma := s.dma.set n { d with dst := d.dst.extractLsb' 16 16 ++ v } })
        ∧ (off = 0xB6 + 12 * n.val → s.read16 a = d.dst.extractLsb' 16 16
          ∧ s.write16 a v = { s with dma := s.dma.set n { d with dst := v ++ d.dst.extractLsb' 0 16 } })
        ∧ (off = 0xB8 + 12 * n.val → s.read16 a = d.count ∧ s.write16 a v = { s with dma := s.dma.set n { d with count := v } })
        ∧ (off = 0xBA + 12 * n.val → s.read16 a = d.ctrl
          ∧ (¬ (d.ctrl.getLsbD 15 = false ∧ v.getLsbD 15 = true) →
              s.write16 a v = { s with dma := s.dma.set n { d with ctrl := v } })
          ∧ (d.ctrl.getLsbD 15 = false → v.getLsbD 15 = true → v.toNat / 2^12 % 4 ≠ 0 →
              s.write16 a v = { s with dma := s.dma.set n { d with
                ctrl := v, internalSrc := d.src &&& 0x0FFFFFFF#32, internalDst := d.dst &&& 0x0FFFFFFF#32,
                internalCount := BitVec.ofNat 17 (if d.count.toNat ≠ 0 then d.count.toNat else if n = 3 then 0x10000 else 0x4000) } })))
    ∧ (isStorage off = true → ∃ t, s.write16 a v = t
        ∧ t = { s with mem := t.mem, refX2 := t.refX2, refY2 := t.refY2, refX3 := t.refX3, refY3 := t.refY3 }
        ∧ t.read16 a = v ∧ (∀ b, regionOf b ≠ 4 ∨ offsetOf (align2 b) ≠ off → t.read8 b = s.read8 b)
        ∧ t.refX2 = (if off / 4 = 0x28 / 4 then ((t.read32 0x04000028#32).extractLsb' 0 28).signExtend 32 else s.refX2)
        ∧ t.refY2 = (if off / 4 = 0x2C / 4 then ((t.read32 0x0400002C#32).extractLsb' 0 28).signExtend 32 else s.refY2)
        ∧ t.refX3 = (if off / 4 = 0x38 / 4 then ((t.read32 0x04000038#32).extractLsb' 0 28).signExtend 32 else s.refX3)
        ∧ t.refY3 = (if off / 4 = 0x3C / 4 then ((t.read32 0x0400003C#32).extractLsb' 0 28).signExtend 32 else s.refY3))

/-- R106, R107, R117, R118: I/O accesses of the other widths. A word is its two halfwords, the low one first. A byte written
is put into its lane of the register's stored value, which for a timer's counter is its reload and for IF is 0 in the other
lane, and written as a halfword; POSTFLG is a byte of its own, and a byte written to HALTCNT halts and leaves POSTFLG (that
R117 and R118 go before R107 there is the model's reading, log entry 12). -/
def Obligations.IoAccessWidths : Prop :=
  ∀ (s : State) (a v : Word) (x : Byte) (off : Nat) (old : Half), regionOf a = 4 → off = offsetOf a → off < 0x400 →
    s.read32 a = s.read16 (align4 a + 2) ++ s.read16 (align4 a)
    ∧ s.write32 a v = (s.write16 (align4 a) (v.extractLsb' 0 16)).write16 (align4 a + 2) (v.extractLsb' 16 16)
    ∧ (off ≠ 0x300 → off ≠ 0x301 →
        (off / 2 = 0x202 / 2 → old = 0)
        → (∀ n : Fin 4, off / 2 = (0x100 + 4 * n.val) / 2 → old = (s.timer n).reload)
        → (off / 2 ≠ 0x202 / 2 → (∀ n : Fin 4, off / 2 ≠ (0x100 + 4 * n.val) / 2) → old = s.read16 a)
        → s.write8 a x = s.write16 a (if off % 2 = 0 then old.extractLsb' 8 8 ++ x else x ++ old.extractLsb' 0 8))
    ∧ (off = 0x300 → ∃ t, s.write8 a x = t ∧ t = { s with mem := t.mem } ∧ t.read8 a = x
        ∧ ∀ b, regionOf b ≠ 4 ∨ offsetOf b ≠ 0x300 → t.read8 b = s.read8 b)
    ∧ (off = 0x301 → ∃ t, s.write8 a x = t ∧ t = { s with mem := t.mem, halted := true } ∧ SameBytes s t ∧ t.read8 a = 0)

/-- R701 to R704, R707: what `c` cycles do to the four timers, in closed form: each counts its ticks modulo its period, a
cascading timer one tick for each overflow of the timer below; an overflow requests its interrupt; nothing else changes. -/
def Obligations.TimersCount : Prop :=
  ∀ (s : State) (c : Nat) (ticks : Fin 4 → Nat), TicksIn s c ticks →
    ∃ ts f, timersUpdate s c = { s with timers := ts, if_ := f }
      ∧ (∀ n : Fin 4, ts[n] = { s.timer n with
          counter := BitVec.ofNat 16 (countUp (s.timer n).reload.toNat (s.timer n).counter.toNat (ticks n)).1,
          accumulator := if (s.timer n).enabled = true ∧ (s.timer n).cascade = false
            then ((s.timer n).accumulator + c) % (s.timer n).prescaler else (s.timer n).accumulator })
      ∧ ∀ k, f.getLsbD k = (s.if_.getLsbD k
          || decide (∃ n : Fin 4, k = 3 + n.val ∧ (s.timer n).irqEnable = true ∧ 0 < overflowsOf s n (ticks n)))

/-- R114, R682 to R685, R688, R689: a rising enable of a channel with immediate timing runs the whole transfer inside the
store, unit by unit, each read after the write before it; then the addresses, the enable bit, the reload and the request are
as the rules say. The writes may reach any register but those of the DMA channels themselves. -/
def Obligations.DmaTransfer : Prop :=
  ∀ (s : State) (n : Fin 4) (a : Word) (v : Half) (d e : DmaChannel) (u count smode dmode : Nat) (m : Nat → State),
    regionOf a = 4 → offsetOf (align2 a) = 0xBA + 12 * n.val → d = s.dmaChannel n →
    d.ctrl.getLsbD 15 = false → v.getLsbD 15 = true → v.toNat / 2^12 % 4 = 0 →
    u = (if v.getLsbD 10 then 4 else 2) → smode = v.toNat / 2^7 % 4 → dmode = v.toNat / 2^5 % 4 →
    count = (if d.count.toNat ≠ 0 then d.count.toNat else if n = 3 then 0x10000 else 0x4000) →
    e = { d with ctrl := v, internalSrc := d.src &&& 0x0FFFFFFF#32, internalDst := d.dst &&& 0x0FFFFFFF#32,
                 internalCount := BitVec.ofNat 17 count } →
    m 0 = { s with dma := s.dma.set n e } →
    (∀ k, m (k + 1) = if v.getLsbD 10
      then (m k).write32 (unitAddr d.dst dmode u k) ((m k).read32 (unitAddr d.src smode u k))
      else (m k).write16 (unitAddr d.dst dmode u k) ((m k).read16 (unitAddr d.src smode u k))) →
    (∀ k, k < count → ¬ ReachesDma (unitAddr d.dst dmode u k)) →
    s.write16 a v = { m count with
      dma := s.dma.set n { e with
        ctrl := if v.getLsbD 9 then v else v &&& 0x7FFF#16, internalSrc := unitAddr d.src smode u count,
        internalDst := if v.getLsbD 9 = true ∧ dmode = 3 then d.dst &&& 0x0FFFFFFF#32 else unitAddr d.dst dmode u count },
      if_ := if v.getLsbD 14 then (m count).if_ ||| (1#16 <<< (8 + n.val)) else (m count).if_ }

/-- R687 with R684, R685, R688: at a scanline start the channels take their turns, channel 0 first: one that is enabled with
the start timing triggered runs once from its internal copies, and every other is left alone; a repeating channel's next run
starts where this one left its internal copies. The destinations may be any but the registers of the DMA channels themselves.
-/
def Obligations.DmaTriggers : Prop :=
  ∀ (s : State) (timing : Nat) (u : Fin 5 → State), s.Inv → timing = 1 ∨ timing = 2 → u 0 = s →
    (∀ n : Fin 4, Armed (u n.castSucc) n timing → RunsChannel n (u n.castSucc) (u n.succ)) →
    (∀ n : Fin 4, ¬ Armed (u n.castSucc) n timing → u n.succ = u n.castSucc) →
    dmaTrigger s timing = u 4

/-! ## The frame driver (spec/61_devices.md section 1, spec/60_exceptions.md section 5) -/

/-- R644 to R647, R671, R675, R687, R772: the start of a scanline: the reference points at scanline 0, VCOUNT, the status
flags of DISPSTAT, the requests it enables, the DMA trigger (DmaTriggers says what it does), the budget. That this is one step
is the model's choice (log entry 3). -/
def Obligations.ScanlineStart : Prop :=
  ∀ s : State, s.phase = .lineStart →
    ∃ (u : State), step s = .next { (if s.line < 160 then dmaTrigger u 2 else if s.line = 160 then dmaTrigger u 1 else u) with
        left := 1232, phase := .run }
      ∧ u = { s with vcount := BitVec.ofNat 8 s.line, lastVcount := BitVec.ofNat 8 s.line, dispstat := u.dispstat, if_ := u.if_,
                     refX2 := u.refX2, refY2 := u.refY2, refX3 := u.refX3, refY3 := u.refY3 }
      ∧ (∀ k, k < 16 → u.dispstat.getLsbD k =
          if k = 0 then decide (160 ≤ s.line) else if k = 1 then false
          else if k = 2 then decide (s.line = s.dispstat.toNat / 2^8) else s.dispstat.getLsbD k)
      ∧ (∀ k, u.if_.getLsbD k = (s.if_.getLsbD k
          || decide (k = 0 ∧ s.line = 160 ∧ s.lastVcount.toNat ≠ 160 ∧ s.dispstat.getLsbD 3 = true)
          || decide (k = 1 ∧ s.line < 160 ∧ s.dispstat.getLsbD 4 = true)
          || decide (k = 2 ∧ s.line = s.dispstat.toNat / 2^8 ∧ s.dispstat.getLsbD 5 = true)))
      ∧ (s.line ≠ 0 → u.refX2 = s.refX2 ∧ u.refY2 = s.refY2 ∧ u.refX3 = s.refX3 ∧ u.refY3 = s.refY3)
      ∧ (s.line = 0 → u.refX2 = ((s.ioWord 0x28).extractLsb' 0 28).signExtend 32
          ∧ u.refY2 = ((s.ioWord 0x2C).extractLsb' 0 28).signExtend 32
          ∧ u.refX3 = ((s.ioWord 0x38).extractLsb' 0 28).signExtend 32
          ∧ u.refY3 = ((s.ioWord 0x3C).extractLsb' 0 28).signExtend 32)

/-- R651, R671 to R676, R773: the end of a scanline: a halted CPU gives what is left of the budget to the timers and wakes
exactly when an enabled request is pending; the reference points advance; after scanline 227 the frame is counted. That this
is one step is the model's choice (log entry 3). -/
def Obligations.ScanlineEnd : Prop :=
  ∀ (s m : State), s.phase = .run → s.halted = true ∨ s.left ≤ 0 →
    m = (if s.halted = true ∧ 0 < s.left then timersUpdate s s.left.toNat else s) →
    ∃ t, step s = .next t
      ∧ t = { m with halted := t.halted, framebuffer := t.framebuffer, refX2 := t.refX2, refY2 := t.refY2, refX3 := t.refX3,
                     refY3 := t.refY3, frameCount := t.frameCount, phase := t.phase, line := t.line }
      ∧ (t.halted = true ↔ s.halted = true ∧ ¬ (m.ime.getLsbD 0 = true ∧ m.ie &&& m.if_ ≠ 0#16))
      ∧ (160 ≤ s.line → t.framebuffer = s.framebuffer)
      ∧ t.refX2 = s.refX2 + (s.ioHalf 0x24).signExtend 32 ∧ t.refY2 = s.refY2 + (s.ioHalf 0x26).signExtend 32
      ∧ t.refX3 = s.refX3 + (s.ioHalf 0x34).signExtend 32 ∧ t.refY3 = s.refY3 + (s.ioHalf 0x36).signExtend 32
      ∧ (s.line < 227 → t.line = s.line + 1 ∧ t.phase = .lineStart ∧ t.frameCount = s.frameCount)
      ∧ (227 ≤ s.line → t.line = 0 ∧ t.phase = .host ∧ t.frameCount = s.frameCount + 1)

/-- R740, R742, R743, R750 to R752, R761, R770, R774, R776 to R778: what BgPixel answers for each kind of background, from
what the bus reads: a text layer through its map and tiles, an affine layer at its transformed coordinates, the three bitmaps.
-/
def Obligations.BackgroundPixels : Prop :=
  ∀ (s : State) (n x line cnt size cbase sbase : Nat), n < 4 → x < 240 → line < 160 → cnt = (displayReg s (8 + 2 * n)).toNat →
    size = cnt / 2^14 → cbase = cnt / 2^2 % 4 * 0x4000 → sbase = cnt / 2^8 % 32 * 0x800 →
    (∀ mx my e px py b i : Nat,
      mx = (x + (displayReg s (0x10 + 4 * n)).toNat % 512) % (if size = 1 ∨ size = 3 then 512 else 256) →
      my = (line + (displayReg s (0x12 + 4 * n)).toNat % 512) % (if size = 2 ∨ size = 3 then 512 else 256) →
      e = vramHalf s (sbase + (if size = 3 then mx / 256 + 2 * (my / 256) else if size = 2 then my / 256 else mx / 256) * 0x800
        + my % 256 / 8 * 64 + mx % 256 / 8 * 2) →
      px = (if e / 2^10 % 2 = 1 then 7 - mx % 8 else mx % 8) → py = (if e / 2^11 % 2 = 1 then 7 - my % 8 else my % 8) →
      (cnt / 2^7 % 2 = 0 → b = vramByte s (cbase + e % 2^10 * 32 + py * 4 + px / 2) → i = (if px % 2 = 1 then b / 16 else b % 16) →
        bgPixel s .text n x line = shows i (paletteHalf s (e / 2^12 * 16 + i)))
      ∧ (cnt / 2^7 % 2 = 1 → i = vramByte s (cbase + e % 2^10 * 64 + py * 8 + px) →
        bgPixel s .text n x line = shows i (paletteHalf s i)))
    ∧ (∀ (rx ry fx fy : Word) (tx ty : Int) (side mx my i : Nat), n = 2 ∨ n = 3 →
      rx = (if n = 2 then s.refX2 else s.refX3) → ry = (if n = 2 then s.refY2 else s.refY3) →
      fx.toNat = (rx.toNat + x * ((displayReg s (0x10 * n)).signExtend 32).toNat) % 2^32 →
      fy.toNat = (ry.toNat + x * ((displayReg s (0x10 * n + 2)).signExtend 32).toNat) % 2^32 →
      tx = fx.toInt / 256 → ty = fy.toInt / 256 → side = 128 * 2^size → (mx : Int) = tx % side → (my : Int) = ty % side →
      i = vramByte s (cbase + vramByte s (sbase + my / 8 * (side / 8) + mx / 8) * 64 + my % 8 * 8 + mx % 8) →
      bgPixel s .affine n x line =
        if cnt / 2^13 % 2 = 0 ∧ ¬ (0 ≤ tx ∧ tx < side ∧ 0 ≤ ty ∧ ty < side) then none else shows i (paletteHalf s i))
    ∧ bgPixel s .bitmap3 n x line = some (vramHalf s ((line * 240 + x) * 2))
    ∧ (∀ page i, page = (displayReg s 0).toNat / 2^4 % 2 * 0xA000 →
      (i = vramByte s (page + line * 240 + x) → bgPixel s .bitmap4 n x line = shows i (paletteHalf s i))
      ∧ bgPixel s .bitmap5 n x line = if x < 160 ∧ line < 128 then some (vramHalf s (page + (line * 160 + x) * 2)) else none)

/-- R780 to R784: the cell of a priority's line buffer: what the lowest-numbered sprite draws that draws there, from what the
bus reads. That sprites with the affine flag are drawn, unflipped, is the model's choice between the spec's files (log entry
26). -/
def Obligations.SpritePixels : Prop :=
  ∀ (s : State) (line q col : Nat) (draws : Nat → Nat → Bool → Prop), line < 160 → col < 240 →
    (∀ k c semi, draws k c semi ↔
      SpriteDraws s (oamHalf s (8 * k)) (oamHalf s (8 * k + 2)) (oamHalf s (8 * k + 4)) line q col c semi) →
    ∀ c semi, objCell s line q col = some { colour := c, semi := semi } ↔
      ∃ k, k < 128 ∧ draws k c semi ∧ ∀ k', k' < k → ∀ c' semi', ¬ draws k' c' semi'

/-- R760, R776 to R778, R788, R790, R791, R796: the end of a visible scanline, the CPU halted or not, draws its row and no
other pixel: each is the first candidate in the order of R788 blended with the second by R791, channel by channel, in the
host's form RGB565. BgPixel and the sprite cells are those of BackgroundPixels and SpritePixels. With every layer off and no
effect a pixel is the backdrop; with BG2 alone it is the bitmap's colour in modes 3, 4 and 5, the backdrop showing where that
is transparent. That the end of a scanline is one step is the model's choice (log entry 3), the blending of semitransparent
sprites in every mode its choice between the spec's files (log entry 27). -/
def Obligations.ScanlinePicture : Prop :=
  ∀ (s t : State) (host : Nat → Half), s.phase = .run → s.halted = true ∨ s.left ≤ 0 → s.line < 160 → step s = .next t →
    (∀ c, host c = BitVec.ofNat 16 (c % 32 * 2^11 + c / 2^5 % 32 * 2^6 + c / 2^9 % 2 * 2^5 + c / 2^10 % 32)) →
    (∀ k, k < 240 * s.line ∨ 240 * s.line + 240 ≤ k → Store.get Framebuffer.unlisted t.framebuffer k = Store.get Framebuffer.unlisted s.framebuffer k)
    ∧ (∀ (x place top : Nat) (layer : Layer) (below : Option (Layer × Nat)) (out : Nat), x < 240 →
      Candidate s s.line x place layer top → (∀ p l c, Candidate s s.line x p l c → place ≤ p) →
      (below = none → place = 32) →
      (∀ l c, below = some (l, c) → ∃ p, place < p ∧ Candidate s s.line x p l c
        ∧ ∀ p' l' c', Candidate s s.line x p' l' c' → place < p' → p ≤ p') →
      (∀ k, k < 3 → channel out k = blendedChannel (displayReg s 0x50) (displayReg s 0x52) (displayReg s 0x54) layer top below k) →
      Framebuffer.get t.framebuffer s.line x = host out)
    ∧ ∀ x enabled mode, x < 240 → (displayReg s 0x50).toNat / 2^6 % 4 = 0 →
      enabled = (displayReg s 0).toNat / 2^8 % 32 → mode = (displayReg s 0).toNat % 8 →
      (enabled = 0 → Framebuffer.get t.framebuffer s.line x = host (paletteHalf s 0))
      ∧ (enabled = 4 → mode = 3 → Framebuffer.get t.framebuffer s.line x = host (vramHalf s ((s.line * 240 + x) * 2)))
      ∧ ∀ page, page = (displayReg s 0).toNat / 2^4 % 2 * 0xA000 →
        (enabled = 4 → mode = 4 →
          Framebuffer.get t.framebuffer s.line x = host (paletteHalf s (vramByte s (page + s.line * 240 + x))))
        ∧ (enabled = 4 → mode = 5 → Framebuffer.get t.framebuffer s.line x = host
            (if x < 160 ∧ s.line < 128 then vramHalf s (page + (s.line * 160 + x) * 2) else paletteHalf s 0))

/-! ## Cartridge and host (spec/61_devices.md sections 5 to 7) -/

/-- R716, R721, R722: the flash commands, each from the ready state: programming a byte, entering and leaving identification,
erasing a sector and the chip; a wrong write ends a command. The GPIO registers keep the bits that exist, only output bits of
the data register are driven, and reads see ROM while the port is hidden and the registers while it is visible. That this
holds whatever ROM_SIZE is, is the model's reading (log entry 8). -/
def Obligations.CartridgeCommands : Prop :=
  ∀ (s : State) (a : Word) (v : Byte) (h : Half) (cmd : Byte → State) (erase : Word → Byte → State), s.flashState = .ready →
    regionOf a = 14 →
    (∀ c, cmd c = ((s.write8 0x0E005555#32 0xAA#8).write8 0x0E002AAA#32 0x55#8).write8 0x0E005555#32 c) →
    (∀ b c, erase b c = (((cmd 0x80#8).write8 0x0E005555#32 0xAA#8).write8 0x0E002AAA#32 0x55#8).write8 b c) →
    (∃ m, (cmd 0xA0#8).write8 a v = { s with mem := m }
      ∧ ∀ b, regionOf b = 14 → s.flashId = false → ((cmd 0xA0#8).write8 a v).read8 b =
          if offsetOf b % 0x20000 = offsetOf a % 0x20000 then v else s.read8 b)
    ∧ cmd 0x90#8 = { s with flashId := true } ∧ cmd 0xF0#8 = { s with flashId := false }
    ∧ (cmd 0x90#8).read8 0x0E000000#32 = 0xC2#8 ∧ (cmd 0x90#8).read8 0x0E000001#32 = 0x09#8
    ∧ (∃ m, erase a 0x30#8 = { s with mem := m }
      ∧ ∀ b, regionOf b = 14 → s.flashId = false → (erase a 0x30#8).read8 b =
          if offsetOf b % 0x20000 / 0x1000 = offsetOf a % 0x20000 / 0x1000 then 0xFF#8 else s.read8 b)
    ∧ (∃ m, erase 0x0E005555#32 0x10#8 = { s with mem := m }
      ∧ ∀ b, regionOf b = 14 → s.flashId = false → (erase 0x0E005555#32 0x10#8).read8 b = 0xFF#8)
    ∧ (v ∉ [0x90#8, 0xF0#8, 0xA0#8, 0x80#8] → cmd v = s)
    ∧ s.write16 0x080000C8#32 h = { s with gpioCtrl := h &&& 1#16 }
    ∧ s.write16 0x080000C6#32 h = { s with gpioDir := h &&& 0xF#16 }
    ∧ (s.gpioCtrl.getLsbD 0 = false → ∃ d, s.write16 0x080000C4#32 h = { s with gpioData := d }
        ∧ ∀ k, k < 16 → d.getLsbD k = if s.gpioDir.getLsbD k then h.getLsbD k else s.gpioData.getLsbD k)
    ∧ (s.gpioCtrl.getLsbD 0 = false → ∀ b, regionOf b = 8 →
        s.read8 b = if romOffset b < s.romSize then Memory.get s.mem (0x08000000 + romOffset b) else 0)
    ∧ (s.gpioCtrl.getLsbD 0 = true → s.read16 0x080000C6#32 = s.gpioDir ∧ s.read16 0x080000C8#32 = s.gpioCtrl
        ∧ ∀ k, k < 16 → (s.read16 0x080000C4#32).getLsbD k =
            if s.gpioDir.getLsbD k then s.gpioData.getLsbD k else decide (k = 1) && s.rtc.sioOut)

/-- R716 to R719: a transaction with the real-time clock, its three lines driven by stores to the GPIO: the command arrives
bit by bit, most significant first, and does what its number says; a status byte written is stored, the bytes of the other
write commands are discarded; the bytes read come out on SIO, least significant bit first, the date and time as two-digit
numbers in their ranges and nothing more is known of them. That the port answers whatever ROM_SIZE is, is the model's reading
(log entry 8). -/
def Obligations.RealTimeClock : Prop :=
  ∀ (s t u : State) (c v : Byte), s.gpioCtrl.getLsbD 0 = true → s.gpioDir = 7 → t = rtcSendCommand (rtcBegin s) c →
    u = t.write16 0x080000C6#32 5 →
    t = { s with gpioData := t.gpioData, rtc := t.rtc, free := t.free }
    ∧ t.rtc.command = c ∧ t.rtc.haveCommand = true ∧ t.rtc.bitIndex = 0 ∧ t.rtc.bufferPos = 0
    ∧ (t.rtc.reading = true ↔ c = 0x63#8 ∨ c = 0x65#8 ∨ c = 0x67#8)
    ∧ (t.rtc.writing = true ↔ c = 0x62#8 ∨ c = 0x64#8 ∨ c = 0x66#8)
    ∧ t.rtc.status = (if c = 0x60#8 ∨ c = 0x61#8 then 0 else s.rtc.status)
    ∧ (c = 0x63#8 → t.rtc.buffer[0] = s.rtc.status)
    ∧ (c = 0x65#8 → BcdIn t.rtc.buffer[0] 0 99 ∧ BcdIn t.rtc.buffer[1] 1 12 ∧ BcdIn t.rtc.buffer[2] 1 31
        ∧ BcdIn t.rtc.buffer[3] 0 6 ∧ BcdIn t.rtc.buffer[4] 0 23 ∧ BcdIn t.rtc.buffer[5] 0 59 ∧ BcdIn t.rtc.buffer[6] 0 59)
    ∧ (c = 0x67#8 → BcdIn t.rtc.buffer[0] 0 23 ∧ BcdIn t.rtc.buffer[1] 0 59 ∧ BcdIn t.rtc.buffer[2] 0 59)
    ∧ (c = 0x62#8 → (rtcSendData t v).rtc.status = v)
    ∧ (c = 0x64#8 ∨ c = 0x66#8 → (rtcSendData t v).rtc.status = s.rtc.status)
    ∧ (t.rtc.reading = true → ∀ k : Fin 64,
        ((rtcClocks (k.val + 1) u).read16 0x080000C4#32).getLsbD 1 = t.rtc.buffer[k.val / 8].getLsbD (k.val % 8))

/-- R731 to R736, R800 (that the host's calls are steps read from a queue in the state is the model's choice, log entries 3
and 4): what the host does between two frames: a frame started with a button mask, a bus write of a byte, a reset, which gives
everything the value of RESET_STATE and keeps ROM, BIOS and flash. -/
def Obligations.HostOperations : Prop :=
  ∀ (s : State) (rest : List HostCmd), s.phase = .host →
    (∀ b : Half, s.host = .stepFrame b :: rest → ∃ t, step s = .next t
      ∧ t = { s with host := rest, phase := .lineStart, line := 0, keyinput := t.keyinput, mem := t.mem }
      ∧ (∀ k, k < 16 → t.keyinput.getLsbD k = (decide (k < 10) && !b.getLsbD k))
      ∧ (∀ a, sameByte s.romSize a 0x0203CF64#32 → t.read8 a = b.extractLsb' 0 8)
      ∧ ∀ a, regionOf a ≠ 4 → ¬ sameByte s.romSize a 0x0203CF64#32 → t.read8 a = s.read8 a)
    ∧ (∀ a v, s.host = .writeMemory a v :: rest → step s = .next (State.write8 { s with host := rest } a v))
    ∧ ∀ clock, s.host = .reset clock :: rest → ∃ t, step s = .next t
        ∧ Started t s.params.resetState clock ∧ t.params = s.params ∧ t.romSize = s.romSize ∧ t.host = rest ∧ t.free = s.free
        ∧ ∀ a, regionOf a = 0 ∨ regionOf a = 9 ∨ (regionOf a = 8 ∧ inGpioWindow (romOffset a) = false)
            ∨ (regionOf a = 14 ∧ s.flashId = false ∧ s.params.resetState.flashId = false) → t.read8 a = s.read8 a
end

