-- ==== Sys2Proof/Laws/State.lean ====
section
/-! SUPPORT. Laws/State.lean: for each update of the CPU's state, the fields it leaves as they are. -/

namespace Sys2Proof.Machine

/-! ### `advance` -/

@[simp] theorem State.advance_regs (s : State) : s.advance.regs = s.regs := rfl
@[simp] theorem State.advance_cpsr (s : State) : s.advance.cpsr = s.cpsr := rfl
@[simp] theorem State.advance_spsrFiq (s : State) : s.advance.spsrFiq = s.spsrFiq := rfl
@[simp] theorem State.advance_spsrIrq (s : State) : s.advance.spsrIrq = s.spsrIrq := rfl
@[simp] theorem State.advance_spsrSvc (s : State) : s.advance.spsrSvc = s.spsrSvc := rfl
@[simp] theorem State.advance_spsrAbt (s : State) : s.advance.spsrAbt = s.spsrAbt := rfl
@[simp] theorem State.advance_spsrUnd (s : State) : s.advance.spsrUnd = s.spsrUnd := rfl
@[simp] theorem State.advance_cycles (s : State) : s.advance.cycles = s.cycles := rfl
@[simp] theorem State.advance_halted (s : State) : s.advance.halted = s.halted := rfl
@[simp] theorem State.advance_mem (s : State) : s.advance.mem = s.mem := rfl
@[simp] theorem State.advance_romSize (s : State) : s.advance.romSize = s.romSize := rfl
@[simp] theorem State.advance_ie (s : State) : s.advance.ie = s.ie := rfl
@[simp] theorem State.advance_if_ (s : State) : s.advance.if_ = s.if_ := rfl
@[simp] theorem State.advance_ime (s : State) : s.advance.ime = s.ime := rfl
@[simp] theorem State.advance_dma (s : State) : s.advance.dma = s.dma := rfl
@[simp] theorem State.advance_timers (s : State) : s.advance.timers = s.timers := rfl
@[simp] theorem State.advance_rtc (s : State) : s.advance.rtc = s.rtc := rfl
@[simp] theorem State.advance_params (s : State) : s.advance.params = s.params := rfl
@[simp] theorem State.advance_free (s : State) : s.advance.free = s.free := rfl

/-! ### `branchTo` -/

@[simp] theorem State.branchTo_regs (s : State) (v : Word) : (s.branchTo v).regs = s.regs := rfl
@[simp] theorem State.branchTo_cpsr (s : State) (v : Word) : (s.branchTo v).cpsr = s.cpsr := rfl
@[simp] theorem State.branchTo_spsrFiq (s : State) (v : Word) : (s.branchTo v).spsrFiq = s.spsrFiq := rfl
@[simp] theorem State.branchTo_spsrIrq (s : State) (v : Word) : (s.branchTo v).spsrIrq = s.spsrIrq := rfl
@[simp] theorem State.branchTo_spsrSvc (s : State) (v : Word) : (s.branchTo v).spsrSvc = s.spsrSvc := rfl
@[simp] theorem State.branchTo_spsrAbt (s : State) (v : Word) : (s.branchTo v).spsrAbt = s.spsrAbt := rfl
@[simp] theorem State.branchTo_spsrUnd (s : State) (v : Word) : (s.branchTo v).spsrUnd = s.spsrUnd := rfl
@[simp] theorem State.branchTo_cycles (s : State) (v : Word) : (s.branchTo v).cycles = s.cycles := rfl
@[simp] theorem State.branchTo_halted (s : State) (v : Word) : (s.branchTo v).halted = s.halted := rfl
@[simp] theorem State.branchTo_mem (s : State) (v : Word) : (s.branchTo v).mem = s.mem := rfl
@[simp] theorem State.branchTo_romSize (s : State) (v : Word) : (s.branchTo v).romSize = s.romSize := rfl
@[simp] theorem State.branchTo_ie (s : State) (v : Word) : (s.branchTo v).ie = s.ie := rfl
@[simp] theorem State.branchTo_if_ (s : State) (v : Word) : (s.branchTo v).if_ = s.if_ := rfl
@[simp] theorem State.branchTo_ime (s : State) (v : Word) : (s.branchTo v).ime = s.ime := rfl
@[simp] theorem State.branchTo_dma (s : State) (v : Word) : (s.branchTo v).dma = s.dma := rfl
@[simp] theorem State.branchTo_timers (s : State) (v : Word) : (s.branchTo v).timers = s.timers := rfl
@[simp] theorem State.branchTo_rtc (s : State) (v : Word) : (s.branchTo v).rtc = s.rtc := rfl
@[simp] theorem State.branchTo_params (s : State) (v : Word) : (s.branchTo v).params = s.params := rfl
@[simp] theorem State.branchTo_free (s : State) (v : Word) : (s.branchTo v).free = s.free := rfl

/-! ### `branchExchange` -/

@[simp] theorem State.branchExchange_regs (s : State) (v : Word) : (s.branchExchange v).regs = s.regs := rfl
@[simp] theorem State.branchExchange_spsrFiq (s : State) (v : Word) : (s.branchExchange v).spsrFiq = s.spsrFiq := rfl
@[simp] theorem State.branchExchange_spsrIrq (s : State) (v : Word) : (s.branchExchange v).spsrIrq = s.spsrIrq := rfl
@[simp] theorem State.branchExchange_spsrSvc (s : State) (v : Word) : (s.branchExchange v).spsrSvc = s.spsrSvc := rfl
@[simp] theorem State.branchExchange_spsrAbt (s : State) (v : Word) : (s.branchExchange v).spsrAbt = s.spsrAbt := rfl
@[simp] theorem State.branchExchange_spsrUnd (s : State) (v : Word) : (s.branchExchange v).spsrUnd = s.spsrUnd := rfl
@[simp] theorem State.branchExchange_cycles (s : State) (v : Word) : (s.branchExchange v).cycles = s.cycles := rfl
@[simp] theorem State.branchExchange_halted (s : State) (v : Word) : (s.branchExchange v).halted = s.halted := rfl
@[simp] theorem State.branchExchange_mem (s : State) (v : Word) : (s.branchExchange v).mem = s.mem := rfl
@[simp] theorem State.branchExchange_romSize (s : State) (v : Word) : (s.branchExchange v).romSize = s.romSize := rfl
@[simp] theorem State.branchExchange_ie (s : State) (v : Word) : (s.branchExchange v).ie = s.ie := rfl
@[simp] theorem State.branchExchange_if_ (s : State) (v : Word) : (s.branchExchange v).if_ = s.if_ := rfl
@[simp] theorem State.branchExchange_ime (s : State) (v : Word) : (s.branchExchange v).ime = s.ime := rfl
@[simp] theorem State.branchExchange_dma (s : State) (v : Word) : (s.branchExchange v).dma = s.dma := rfl
@[simp] theorem State.branchExchange_timers (s : State) (v : Word) : (s.branchExchange v).timers = s.timers := rfl
@[simp] theorem State.branchExchange_rtc (s : State) (v : Word) : (s.branchExchange v).rtc = s.rtc := rfl
@[simp] theorem State.branchExchange_params (s : State) (v : Word) : (s.branchExchange v).params = s.params := rfl
@[simp] theorem State.branchExchange_free (s : State) (v : Word) : (s.branchExchange v).free = s.free := rfl

/-! ### `setFlags` -/

@[simp] theorem State.setFlags_regs (s : State) (f : Nzcv) : (s.setFlags f).regs = s.regs := rfl
@[simp] theorem State.setFlags_r15 (s : State) (f : Nzcv) : (s.setFlags f).r15 = s.r15 := rfl
@[simp] theorem State.setFlags_spsrFiq (s : State) (f : Nzcv) : (s.setFlags f).spsrFiq = s.spsrFiq := rfl
@[simp] theorem State.setFlags_spsrIrq (s : State) (f : Nzcv) : (s.setFlags f).spsrIrq = s.spsrIrq := rfl
@[simp] theorem State.setFlags_spsrSvc (s : State) (f : Nzcv) : (s.setFlags f).spsrSvc = s.spsrSvc := rfl
@[simp] theorem State.setFlags_spsrAbt (s : State) (f : Nzcv) : (s.setFlags f).spsrAbt = s.spsrAbt := rfl
@[simp] theorem State.setFlags_spsrUnd (s : State) (f : Nzcv) : (s.setFlags f).spsrUnd = s.spsrUnd := rfl
@[simp] theorem State.setFlags_cycles (s : State) (f : Nzcv) : (s.setFlags f).cycles = s.cycles := rfl
@[simp] theorem State.setFlags_halted (s : State) (f : Nzcv) : (s.setFlags f).halted = s.halted := rfl
@[simp] theorem State.setFlags_mem (s : State) (f : Nzcv) : (s.setFlags f).mem = s.mem := rfl
@[simp] theorem State.setFlags_romSize (s : State) (f : Nzcv) : (s.setFlags f).romSize = s.romSize := rfl
@[simp] theorem State.setFlags_ie (s : State) (f : Nzcv) : (s.setFlags f).ie = s.ie := rfl
@[simp] theorem State.setFlags_if_ (s : State) (f : Nzcv) : (s.setFlags f).if_ = s.if_ := rfl
@[simp] theorem State.setFlags_ime (s : State) (f : Nzcv) : (s.setFlags f).ime = s.ime := rfl
@[simp] theorem State.setFlags_dma (s : State) (f : Nzcv) : (s.setFlags f).dma = s.dma := rfl
@[simp] theorem State.setFlags_timers (s : State) (f : Nzcv) : (s.setFlags f).timers = s.timers := rfl
@[simp] theorem State.setFlags_rtc (s : State) (f : Nzcv) : (s.setFlags f).rtc = s.rtc := rfl
@[simp] theorem State.setFlags_params (s : State) (f : Nzcv) : (s.setFlags f).params = s.params := rfl
@[simp] theorem State.setFlags_free (s : State) (f : Nzcv) : (s.setFlags f).free = s.free := rfl

/-! ### `setFlagsIf` -/

@[simp] theorem State.setFlagsIf_regs (s : State) (b : Bool) (f : Nzcv) : (s.setFlagsIf b f).regs = s.regs := by cases b <;> rfl
@[simp] theorem State.setFlagsIf_r15 (s : State) (b : Bool) (f : Nzcv) : (s.setFlagsIf b f).r15 = s.r15 := by cases b <;> rfl
@[simp] theorem State.setFlagsIf_spsrFiq (s : State) (b : Bool) (f : Nzcv) : (s.setFlagsIf b f).spsrFiq = s.spsrFiq := by cases b <;> rfl
@[simp] theorem State.setFlagsIf_spsrIrq (s : State) (b : Bool) (f : Nzcv) : (s.setFlagsIf b f).spsrIrq = s.spsrIrq := by cases b <;> rfl
@[simp] theorem State.setFlagsIf_spsrSvc (s : State) (b : Bool) (f : Nzcv) : (s.setFlagsIf b f).spsrSvc = s.spsrSvc := by cases b <;> rfl
@[simp] theorem State.setFlagsIf_spsrAbt (s : State) (b : Bool) (f : Nzcv) : (s.setFlagsIf b f).spsrAbt = s.spsrAbt := by cases b <;> rfl
@[simp] theorem State.setFlagsIf_spsrUnd (s : State) (b : Bool) (f : Nzcv) : (s.setFlagsIf b f).spsrUnd = s.spsrUnd := by cases b <;> rfl
@[simp] theorem State.setFlagsIf_cycles (s : State) (b : Bool) (f : Nzcv) : (s.setFlagsIf b f).cycles = s.cycles := by cases b <;> rfl
@[simp] theorem State.setFlagsIf_halted (s : State) (b : Bool) (f : Nzcv) : (s.setFlagsIf b f).halted = s.halted := by cases b <;> rfl
@[simp] theorem State.setFlagsIf_mem (s : State) (b : Bool) (f : Nzcv) : (s.setFlagsIf b f).mem = s.mem := by cases b <;> rfl
@[simp] theorem State.setFlagsIf_romSize (s : State) (b : Bool) (f : Nzcv) : (s.setFlagsIf b f).romSize = s.romSize := by cases b <;> rfl
@[simp] theorem State.setFlagsIf_ie (s : State) (b : Bool) (f : Nzcv) : (s.setFlagsIf b f).ie = s.ie := by cases b <;> rfl
@[simp] theorem State.setFlagsIf_if_ (s : State) (b : Bool) (f : Nzcv) : (s.setFlagsIf b f).if_ = s.if_ := by cases b <;> rfl
@[simp] theorem State.setFlagsIf_ime (s : State) (b : Bool) (f : Nzcv) : (s.setFlagsIf b f).ime = s.ime := by cases b <;> rfl
@[simp] theorem State.setFlagsIf_dma (s : State) (b : Bool) (f : Nzcv) : (s.setFlagsIf b f).dma = s.dma := by cases b <;> rfl
@[simp] theorem State.setFlagsIf_timers (s : State) (b : Bool) (f : Nzcv) : (s.setFlagsIf b f).timers = s.timers := by cases b <;> rfl
@[simp] theorem State.setFlagsIf_rtc (s : State) (b : Bool) (f : Nzcv) : (s.setFlagsIf b f).rtc = s.rtc := by cases b <;> rfl
@[simp] theorem State.setFlagsIf_params (s : State) (b : Bool) (f : Nzcv) : (s.setFlagsIf b f).params = s.params := by cases b <;> rfl
@[simp] theorem State.setFlagsIf_free (s : State) (b : Bool) (f : Nzcv) : (s.setFlagsIf b f).free = s.free := by cases b <;> rfl

/-! ### `setRegIn` -/

@[simp] theorem State.setRegIn_r15 (s : State) (m : Mode) (n : Reg) (v : Word) : (s.setRegIn m n v).r15 = s.r15 := by unfold State.setRegIn; split <;> rfl
@[simp] theorem State.setRegIn_cpsr (s : State) (m : Mode) (n : Reg) (v : Word) : (s.setRegIn m n v).cpsr = s.cpsr := by unfold State.setRegIn; split <;> rfl
@[simp] theorem State.setRegIn_spsrFiq (s : State) (m : Mode) (n : Reg) (v : Word) : (s.setRegIn m n v).spsrFiq = s.spsrFiq := by unfold State.setRegIn; split <;> rfl
@[simp] theorem State.setRegIn_spsrIrq (s : State) (m : Mode) (n : Reg) (v : Word) : (s.setRegIn m n v).spsrIrq = s.spsrIrq := by unfold State.setRegIn; split <;> rfl
@[simp] theorem State.setRegIn_spsrSvc (s : State) (m : Mode) (n : Reg) (v : Word) : (s.setRegIn m n v).spsrSvc = s.spsrSvc := by unfold State.setRegIn; split <;> rfl
@[simp] theorem State.setRegIn_spsrAbt (s : State) (m : Mode) (n : Reg) (v : Word) : (s.setRegIn m n v).spsrAbt = s.spsrAbt := by unfold State.setRegIn; split <;> rfl
@[simp] theorem State.setRegIn_spsrUnd (s : State) (m : Mode) (n : Reg) (v : Word) : (s.setRegIn m n v).spsrUnd = s.spsrUnd := by unfold State.setRegIn; split <;> rfl
@[simp] theorem State.setRegIn_cycles (s : State) (m : Mode) (n : Reg) (v : Word) : (s.setRegIn m n v).cycles = s.cycles := by unfold State.setRegIn; split <;> rfl
@[simp] theorem State.setRegIn_halted (s : State) (m : Mode) (n : Reg) (v : Word) : (s.setRegIn m n v).halted = s.halted := by unfold State.setRegIn; split <;> rfl
@[simp] theorem State.setRegIn_mem (s : State) (m : Mode) (n : Reg) (v : Word) : (s.setRegIn m n v).mem = s.mem := by unfold State.setRegIn; split <;> rfl
@[simp] theorem State.setRegIn_romSize (s : State) (m : Mode) (n : Reg) (v : Word) : (s.setRegIn m n v).romSize = s.romSize := by unfold State.setRegIn; split <;> rfl
@[simp] theorem State.setRegIn_ie (s : State) (m : Mode) (n : Reg) (v : Word) : (s.setRegIn m n v).ie = s.ie := by unfold State.setRegIn; split <;> rfl
@[simp] theorem State.setRegIn_if_ (s : State) (m : Mode) (n : Reg) (v : Word) : (s.setRegIn m n v).if_ = s.if_ := by unfold State.setRegIn; split <;> rfl
@[simp] theorem State.setRegIn_ime (s : State) (m : Mode) (n : Reg) (v : Word) : (s.setRegIn m n v).ime = s.ime := by unfold State.setRegIn; split <;> rfl
@[simp] theorem State.setRegIn_dma (s : State) (m : Mode) (n : Reg) (v : Word) : (s.setRegIn m n v).dma = s.dma := by unfold State.setRegIn; split <;> rfl
@[simp] theorem State.setRegIn_timers (s : State) (m : Mode) (n : Reg) (v : Word) : (s.setRegIn m n v).timers = s.timers := by unfold State.setRegIn; split <;> rfl
@[simp] theorem State.setRegIn_rtc (s : State) (m : Mode) (n : Reg) (v : Word) : (s.setRegIn m n v).rtc = s.rtc := by unfold State.setRegIn; split <;> rfl
@[simp] theorem State.setRegIn_params (s : State) (m : Mode) (n : Reg) (v : Word) : (s.setRegIn m n v).params = s.params := by unfold State.setRegIn; split <;> rfl
@[simp] theorem State.setRegIn_free (s : State) (m : Mode) (n : Reg) (v : Word) : (s.setRegIn m n v).free = s.free := by unfold State.setRegIn; split <;> rfl

/-! ### `setReg` -/

@[simp] theorem State.setReg_r15 (s : State) (n : Reg) (v : Word) : (s.setReg n v).r15 = s.r15 := State.setRegIn_r15 s s.mode n v
@[simp] theorem State.setReg_cpsr (s : State) (n : Reg) (v : Word) : (s.setReg n v).cpsr = s.cpsr := State.setRegIn_cpsr s s.mode n v
@[simp] theorem State.setReg_spsrFiq (s : State) (n : Reg) (v : Word) : (s.setReg n v).spsrFiq = s.spsrFiq := State.setRegIn_spsrFiq s s.mode n v
@[simp] theorem State.setReg_spsrIrq (s : State) (n : Reg) (v : Word) : (s.setReg n v).spsrIrq = s.spsrIrq := State.setRegIn_spsrIrq s s.mode n v
@[simp] theorem State.setReg_spsrSvc (s : State) (n : Reg) (v : Word) : (s.setReg n v).spsrSvc = s.spsrSvc := State.setRegIn_spsrSvc s s.mode n v
@[simp] theorem State.setReg_spsrAbt (s : State) (n : Reg) (v : Word) : (s.setReg n v).spsrAbt = s.spsrAbt := State.setRegIn_spsrAbt s s.mode n v
@[simp] theorem State.setReg_spsrUnd (s : State) (n : Reg) (v : Word) : (s.setReg n v).spsrUnd = s.spsrUnd := State.setRegIn_spsrUnd s s.mode n v
@[simp] theorem State.setReg_cycles (s : State) (n : Reg) (v : Word) : (s.setReg n v).cycles = s.cycles := State.setRegIn_cycles s s.mode n v
@[simp] theorem State.setReg_halted (s : State) (n : Reg) (v : Word) : (s.setReg n v).halted = s.halted := State.setRegIn_halted s s.mode n v
@[simp] theorem State.setReg_mem (s : State) (n : Reg) (v : Word) : (s.setReg n v).mem = s.mem := State.setRegIn_mem s s.mode n v
@[simp] theorem State.setReg_romSize (s : State) (n : Reg) (v : Word) : (s.setReg n v).romSize = s.romSize := State.setRegIn_romSize s s.mode n v
@[simp] theorem State.setReg_ie (s : State) (n : Reg) (v : Word) : (s.setReg n v).ie = s.ie := State.setRegIn_ie s s.mode n v
@[simp] theorem State.setReg_if_ (s : State) (n : Reg) (v : Word) : (s.setReg n v).if_ = s.if_ := State.setRegIn_if_ s s.mode n v
@[simp] theorem State.setReg_ime (s : State) (n : Reg) (v : Word) : (s.setReg n v).ime = s.ime := State.setRegIn_ime s s.mode n v
@[simp] theorem State.setReg_dma (s : State) (n : Reg) (v : Word) : (s.setReg n v).dma = s.dma := State.setRegIn_dma s s.mode n v
@[simp] theorem State.setReg_timers (s : State) (n : Reg) (v : Word) : (s.setReg n v).timers = s.timers := State.setRegIn_timers s s.mode n v
@[simp] theorem State.setReg_rtc (s : State) (n : Reg) (v : Word) : (s.setReg n v).rtc = s.rtc := State.setRegIn_rtc s s.mode n v
@[simp] theorem State.setReg_params (s : State) (n : Reg) (v : Word) : (s.setReg n v).params = s.params := State.setRegIn_params s s.mode n v
@[simp] theorem State.setReg_free (s : State) (n : Reg) (v : Word) : (s.setReg n v).free = s.free := State.setRegIn_free s s.mode n v

/-! ### `setCpsr` -/

@[simp] theorem State.setCpsr_regs (s : State) (v : Word) : (s.setCpsr v).regs = s.regs := by unfold State.setCpsr; split <;> rfl
@[simp] theorem State.setCpsr_r15 (s : State) (v : Word) : (s.setCpsr v).r15 = s.r15 := by unfold State.setCpsr; split <;> rfl
@[simp] theorem State.setCpsr_spsrFiq (s : State) (v : Word) : (s.setCpsr v).spsrFiq = s.spsrFiq := by unfold State.setCpsr; split <;> rfl
@[simp] theorem State.setCpsr_spsrIrq (s : State) (v : Word) : (s.setCpsr v).spsrIrq = s.spsrIrq := by unfold State.setCpsr; split <;> rfl
@[simp] theorem State.setCpsr_spsrSvc (s : State) (v : Word) : (s.setCpsr v).spsrSvc = s.spsrSvc := by unfold State.setCpsr; split <;> rfl
@[simp] theorem State.setCpsr_spsrAbt (s : State) (v : Word) : (s.setCpsr v).spsrAbt = s.spsrAbt := by unfold State.setCpsr; split <;> rfl
@[simp] theorem State.setCpsr_spsrUnd (s : State) (v : Word) : (s.setCpsr v).spsrUnd = s.spsrUnd := by unfold State.setCpsr; split <;> rfl
@[simp] theorem State.setCpsr_cycles (s : State) (v : Word) : (s.setCpsr v).cycles = s.cycles := by unfold State.setCpsr; split <;> rfl
@[simp] theorem State.setCpsr_halted (s : State) (v : Word) : (s.setCpsr v).halted = s.halted := by unfold State.setCpsr; split <;> rfl
@[simp] theorem State.setCpsr_mem (s : State) (v : Word) : (s.setCpsr v).mem = s.mem := by unfold State.setCpsr; split <;> rfl
@[simp] theorem State.setCpsr_romSize (s : State) (v : Word) : (s.setCpsr v).romSize = s.romSize := by unfold State.setCpsr; split <;> rfl
@[simp] theorem State.setCpsr_ie (s : State) (v : Word) : (s.setCpsr v).ie = s.ie := by unfold State.setCpsr; split <;> rfl
@[simp] theorem State.setCpsr_if_ (s : State) (v : Word) : (s.setCpsr v).if_ = s.if_ := by unfold State.setCpsr; split <;> rfl
@[simp] theorem State.setCpsr_ime (s : State) (v : Word) : (s.setCpsr v).ime = s.ime := by unfold State.setCpsr; split <;> rfl
@[simp] theorem State.setCpsr_dma (s : State) (v : Word) : (s.setCpsr v).dma = s.dma := by unfold State.setCpsr; split <;> rfl
@[simp] theorem State.setCpsr_timers (s : State) (v : Word) : (s.setCpsr v).timers = s.timers := by unfold State.setCpsr; split <;> rfl
@[simp] theorem State.setCpsr_rtc (s : State) (v : Word) : (s.setCpsr v).rtc = s.rtc := by unfold State.setCpsr; split <;> rfl
@[simp] theorem State.setCpsr_params (s : State) (v : Word) : (s.setCpsr v).params = s.params := by unfold State.setCpsr; split <;> rfl
@[simp] theorem State.setCpsr_free (s : State) (v : Word) : (s.setCpsr v).free = s.free := by unfold State.setCpsr; split <;> rfl

/-! ### `setSpsrOf` -/

@[simp] theorem State.setSpsrOf_regs (s : State) (m : Mode) (v : Word) : (s.setSpsrOf m v).regs = s.regs := by cases m <;> rfl
@[simp] theorem State.setSpsrOf_r15 (s : State) (m : Mode) (v : Word) : (s.setSpsrOf m v).r15 = s.r15 := by cases m <;> rfl
@[simp] theorem State.setSpsrOf_cpsr (s : State) (m : Mode) (v : Word) : (s.setSpsrOf m v).cpsr = s.cpsr := by cases m <;> rfl
@[simp] theorem State.setSpsrOf_cycles (s : State) (m : Mode) (v : Word) : (s.setSpsrOf m v).cycles = s.cycles := by cases m <;> rfl
@[simp] theorem State.setSpsrOf_halted (s : State) (m : Mode) (v : Word) : (s.setSpsrOf m v).halted = s.halted := by cases m <;> rfl
@[simp] theorem State.setSpsrOf_mem (s : State) (m : Mode) (v : Word) : (s.setSpsrOf m v).mem = s.mem := by cases m <;> rfl
@[simp] theorem State.setSpsrOf_romSize (s : State) (m : Mode) (v : Word) : (s.setSpsrOf m v).romSize = s.romSize := by cases m <;> rfl
@[simp] theorem State.setSpsrOf_ie (s : State) (m : Mode) (v : Word) : (s.setSpsrOf m v).ie = s.ie := by cases m <;> rfl
@[simp] theorem State.setSpsrOf_if_ (s : State) (m : Mode) (v : Word) : (s.setSpsrOf m v).if_ = s.if_ := by cases m <;> rfl
@[simp] theorem State.setSpsrOf_ime (s : State) (m : Mode) (v : Word) : (s.setSpsrOf m v).ime = s.ime := by cases m <;> rfl
@[simp] theorem State.setSpsrOf_dma (s : State) (m : Mode) (v : Word) : (s.setSpsrOf m v).dma = s.dma := by cases m <;> rfl
@[simp] theorem State.setSpsrOf_timers (s : State) (m : Mode) (v : Word) : (s.setSpsrOf m v).timers = s.timers := by cases m <;> rfl
@[simp] theorem State.setSpsrOf_rtc (s : State) (m : Mode) (v : Word) : (s.setSpsrOf m v).rtc = s.rtc := by cases m <;> rfl
@[simp] theorem State.setSpsrOf_params (s : State) (m : Mode) (v : Word) : (s.setSpsrOf m v).params = s.params := by cases m <;> rfl
@[simp] theorem State.setSpsrOf_free (s : State) (m : Mode) (v : Word) : (s.setSpsrOf m v).free = s.free := by cases m <;> rfl

/-! ### `restoreCpsr` -/

@[simp] theorem State.restoreCpsr_regs (s : State) : s.restoreCpsr.regs = s.regs := by unfold State.restoreCpsr; split <;> simp
@[simp] theorem State.restoreCpsr_r15 (s : State) : s.restoreCpsr.r15 = s.r15 := by unfold State.restoreCpsr; split <;> simp
@[simp] theorem State.restoreCpsr_spsrFiq (s : State) : s.restoreCpsr.spsrFiq = s.spsrFiq := by unfold State.restoreCpsr; split <;> simp
@[simp] theorem State.restoreCpsr_spsrIrq (s : State) : s.restoreCpsr.spsrIrq = s.spsrIrq := by unfold State.restoreCpsr; split <;> simp
@[simp] theorem State.restoreCpsr_spsrSvc (s : State) : s.restoreCpsr.spsrSvc = s.spsrSvc := by unfold State.restoreCpsr; split <;> simp
@[simp] theorem State.restoreCpsr_spsrAbt (s : State) : s.restoreCpsr.spsrAbt = s.spsrAbt := by unfold State.restoreCpsr; split <;> simp
@[simp] theorem State.restoreCpsr_spsrUnd (s : State) : s.restoreCpsr.spsrUnd = s.spsrUnd := by unfold State.restoreCpsr; split <;> simp
@[simp] theorem State.restoreCpsr_cycles (s : State) : s.restoreCpsr.cycles = s.cycles := by unfold State.restoreCpsr; split <;> simp
@[simp] theorem State.restoreCpsr_halted (s : State) : s.restoreCpsr.halted = s.halted := by unfold State.restoreCpsr; split <;> simp
@[simp] theorem State.restoreCpsr_mem (s : State) : s.restoreCpsr.mem = s.mem := by unfold State.restoreCpsr; split <;> simp
@[simp] theorem State.restoreCpsr_romSize (s : State) : s.restoreCpsr.romSize = s.romSize := by unfold State.restoreCpsr; split <;> simp
@[simp] theorem State.restoreCpsr_ie (s : State) : s.restoreCpsr.ie = s.ie := by unfold State.restoreCpsr; split <;> simp
@[simp] theorem State.restoreCpsr_if_ (s : State) : s.restoreCpsr.if_ = s.if_ := by unfold State.restoreCpsr; split <;> simp
@[simp] theorem State.restoreCpsr_ime (s : State) : s.restoreCpsr.ime = s.ime := by unfold State.restoreCpsr; split <;> simp
@[simp] theorem State.restoreCpsr_dma (s : State) : s.restoreCpsr.dma = s.dma := by unfold State.restoreCpsr; split <;> simp
@[simp] theorem State.restoreCpsr_timers (s : State) : s.restoreCpsr.timers = s.timers := by unfold State.restoreCpsr; split <;> simp
@[simp] theorem State.restoreCpsr_rtc (s : State) : s.restoreCpsr.rtc = s.rtc := by unfold State.restoreCpsr; split <;> simp
@[simp] theorem State.restoreCpsr_params (s : State) : s.restoreCpsr.params = s.params := by unfold State.restoreCpsr; split <;> simp
@[simp] theorem State.restoreCpsr_free (s : State) : s.restoreCpsr.free = s.free := by unfold State.restoreCpsr; split <;> simp

/-! ### What the updates write -/

@[simp] theorem State.advance_r15 (s : State) : s.advance.r15 = s.r15 + instrWidth s.thumb := rfl
@[simp] theorem State.setFlags_cpsr (s : State) (f : Nzcv) : (s.setFlags f).cpsr = withFlags s.cpsr f := rfl

theorem State.setFlagsIf_cpsr (s : State) (b : Bool) (f : Nzcv) :
    (s.setFlagsIf b f).cpsr = if b then withFlags s.cpsr f else s.cpsr := by cases b <;> rfl

theorem State.setRegIn_regs (s : State) (m : Mode) (n : Reg) (v : Word) :
    (s.setRegIn m n v).regs = match phys m n with | some j => s.regs.set j v | none => s.regs := by
  unfold State.setRegIn; split <;> simp [*]

/-- A register write is a change of the cells alone. -/
theorem State.setRegIn_eq (s : State) (m : Mode) (n : Reg) (v : Word) :
    s.setRegIn m n v = { s with regs := (s.setRegIn m n v).regs } := by
  unfold State.setRegIn; split <;> rfl

/-- Writing CPSR changes CPSR alone. -/
theorem State.setCpsr_eq (s : State) (v : Word) : s.setCpsr v = { s with cpsr := (s.setCpsr v).cpsr } := by
  unfold State.setCpsr; split <;> rfl

end Sys2Proof.Machine
end

