-- ==== Sys2Proof/Laws/Registers.lean ====
section
/-! SUPPORT. Laws/Registers.lean: the register banks (R30 to R33) and the bits of the status registers (R45 to R50). -/

namespace Sys2Proof.Machine

/-! ## Bits of a word -/

theorem setBit_getLsbD (w : Word) (i : Nat) (b : Bool) (k : Nat) (hi : i < 32) :
    (setBit w i b).getLsbD k = if k = i then b else w.getLsbD k := by
  unfold setBit
  by_cases hk : k < 32
  · cases b <;> by_cases h : k = i
    · subst h; simp [hk]
    · have : ¬ (i ≤ k ∧ k - i = 0) := by omega
      simp [h, hk]
      omega
    · subst h; simp [hk]
    · simp [h, hk]
      intro h2 h3
      omega
  · have hne : k ≠ i := by omega
    cases b <;> simp [hne, hk, BitVec.getLsbD_of_ge w k (by omega)]

theorem withFlags_getLsbD (w : Word) (f : Nzcv) (k : Nat) :
    (withFlags w f).getLsbD k =
      if k = 28 then f.v else if k = 29 then f.c else if k = 30 then f.z else if k = 31 then f.n else w.getLsbD k := by
  unfold withFlags
  simp only [setBit_getLsbD, show (28 : Nat) < 32 by omega, show (29 : Nat) < 32 by omega,
    show (30 : Nat) < 32 by omega, show (31 : Nat) < 32 by omega]

/-- Two words with the same low bits have the same mode field. -/
theorem extractLsb'_congr {v w : Word} {lo len : Nat} (h : ∀ k, lo ≤ k → k < lo + len → v.getLsbD k = w.getLsbD k) :
    v.extractLsb' lo len = w.extractLsb' lo len := by
  apply BitVec.eq_of_getLsbD_eq
  intro k hk
  simp only [BitVec.getLsbD_extractLsb', hk, decide_true, Bool.true_and]
  exact h (lo + k) (by omega) (by omega)

@[simp] theorem withFlags_low5 (w : Word) (f : Nzcv) : (withFlags w f).extractLsb' 0 5 = w.extractLsb' 0 5 :=
  extractLsb'_congr fun k _ h => by
    rw [withFlags_getLsbD]; simp [show k ≠ 28 by omega, show k ≠ 29 by omega, show k ≠ 30 by omega, show k ≠ 31 by omega]

theorem setBit_low5 (w : Word) (i : Nat) (b : Bool) (h5 : 5 ≤ i) (hi : i < 32) :
    (setBit w i b).extractLsb' 0 5 = w.extractLsb' 0 5 :=
  extractLsb'_congr fun k _ h => by rw [setBit_getLsbD _ _ _ _ hi]; simp [show k ≠ i by omega]

@[simp] theorem setLow5_low5 (w : Word) (m : BitVec 5) : (setLow5 w m).extractLsb' 0 5 = m := by
  apply BitVec.eq_of_getLsbD_eq
  intro k hk
  have h : k = 0 ∨ k = 1 ∨ k = 2 ∨ k = 3 ∨ k = 4 := by omega
  rcases h with rfl | rfl | rfl | rfl | rfl <;> simp [setLow5]

/-- Bits 5 and up of a word whose low five bits are replaced. -/
theorem setLow5_getLsbD (w : Word) (m : BitVec 5) (k : Nat) (h : 5 ≤ k) : (setLow5 w m).getLsbD k = w.getLsbD k := by
  by_cases hk : k < 32
  · have hm : m.getLsbD k = false := BitVec.getLsbD_of_ge _ _ h
    have h1F : (0x1F#32).getLsbD k = false := by
      rw [show (0x1F#32) = BitVec.zeroExtend 32 (0x1F#5) from rfl, BitVec.getLsbD_setWidth,
        BitVec.getLsbD_of_ge (0x1F#5) k h, Bool.and_false]
    rw [setLow5, BitVec.getLsbD_or, BitVec.getLsbD_and, BitVec.getLsbD_not, h1F, BitVec.getLsbD_setWidth, hm]
    simp [hk]
  · rw [BitVec.getLsbD_of_ge _ _ (by omega), BitVec.getLsbD_of_ge _ _ (by omega)]

/-! ## Modes -/

@[simp] theorem Mode.ofBits_bits (m : Mode) : Mode.ofBits m.bits = some m := by cases m <;> decide

/-- The mode depends on the mode field only. -/
theorem State.mode_congr {s t : State} (h : t.cpsr.extractLsb' 0 5 = s.cpsr.extractLsb' 0 5) : t.mode = s.mode := by
  simp [State.mode, h]

theorem State.mode_of_cpsr {s t : State} (h : t.cpsr = s.cpsr) : t.mode = s.mode := State.mode_congr (by rw [h])

@[simp] theorem State.setRegIn_mode (s : State) (m : Mode) (n : Reg) (v : Word) : (s.setRegIn m n v).mode = s.mode :=
  State.mode_of_cpsr (by simp)
@[simp] theorem State.setReg_mode (s : State) (n : Reg) (v : Word) : (s.setReg n v).mode = s.mode :=
  State.mode_of_cpsr (by simp)
@[simp] theorem State.setFlags_mode (s : State) (f : Nzcv) : (s.setFlags f).mode = s.mode := State.mode_congr (by simp)
@[simp] theorem State.setFlagsIf_mode (s : State) (b : Bool) (f : Nzcv) : (s.setFlagsIf b f).mode = s.mode := by
  cases b <;> simp [State.setFlagsIf]
@[simp] theorem State.advance_mode (s : State) : s.advance.mode = s.mode := rfl
@[simp] theorem State.branchTo_mode (s : State) (v : Word) : (s.branchTo v).mode = s.mode := rfl
@[simp] theorem State.branchExchange_mode (s : State) (v : Word) : (s.branchExchange v).mode = s.mode :=
  State.mode_congr (setBit_low5 _ _ _ (by omega) (by omega))

@[simp] theorem State.setRegIn_thumb (s : State) (m : Mode) (n : Reg) (v : Word) : (s.setRegIn m n v).thumb = s.thumb := by
  simp [State.thumb]
@[simp] theorem State.setReg_thumb (s : State) (n : Reg) (v : Word) : (s.setReg n v).thumb = s.thumb := by
  simp [State.thumb]
@[simp] theorem State.setFlags_thumb (s : State) (f : Nzcv) : (s.setFlags f).thumb = s.thumb := by
  unfold State.thumb; rw [State.setFlags_cpsr, withFlags_getLsbD]; rfl
@[simp] theorem State.setFlagsIf_thumb (s : State) (b : Bool) (f : Nzcv) : (s.setFlagsIf b f).thumb = s.thumb := by
  cases b <;> simp [State.setFlagsIf]
@[simp] theorem State.advance_thumb (s : State) : s.advance.thumb = s.thumb := rfl

/-- `SetCPSR` leaves a valid mode (R50). -/
theorem State.setCpsr_validMode (s : State) (v : Word) (h : validMode s.cpsr = true) :
    validMode (s.setCpsr v).cpsr = true := by
  unfold State.setCpsr
  split
  · rename_i h2; simp [validMode, h2]
  · simpa [validMode] using h

theorem State.restoreCpsr_validMode (s : State) (h : validMode s.cpsr = true) : validMode s.restoreCpsr.cpsr = true := by
  unfold State.restoreCpsr
  split
  · exact State.setCpsr_validMode s _ h
  · exact h

/-! ## The banks -/

/-- R15 is the one register with no cell. -/
theorem phys_none_iff (m : Mode) (n : Reg) : phys m n = none ↔ n = 15 := by
  revert n; cases m <;> decide

/-- Two registers of one mode name one cell only when they are the same or both R15. -/
theorem phys_eq (m : Mode) (n n' : Reg) (h : phys m n = phys m n') : n = n' ∨ phys m n = none := by
  revert n n'; cases m <;> decide

/-- Two registers of one mode share no cell. -/
theorem phys_inj (m : Mode) (n n' : Reg) (j : Fin 30) (h : phys m n = some j) (h' : phys m n' = some j) : n = n' := by
  rcases phys_eq m n n' (h.trans h'.symm) with e | e
  · exact e
  · rw [h] at e; cases e

theorem phys_some {m : Mode} {n : Reg} (h : n ≠ 15) : ∃ j, phys m n = some j := by
  cases hp : phys m n with
  | none => exact absurd ((phys_none_iff m n).mp hp) h
  | some j => exact ⟨j, rfl⟩

/-- Writing R15 through the register file does nothing: it has no cell. -/
@[simp] theorem State.setRegIn_fifteen (s : State) (m : Mode) (v : Word) : s.setRegIn m 15 v = s := by
  unfold State.setRegIn; cases m <;> rfl

/-- A read of the register written gives the value. -/
theorem State.regIn_setRegIn_same (s : State) (m : Mode) (n : Reg) (v : Word) (h : n ≠ 15) :
    (s.setRegIn m n v).regIn m n = v := by
  obtain ⟨j, hj⟩ := phys_some (m := m) h
  simp [State.regIn, State.setRegIn, hj]

/-- A read of another register of the same mode is unchanged. -/
theorem State.regIn_setRegIn_other (s : State) (m : Mode) (n n' : Reg) (v : Word) (h : n' ≠ n) :
    (s.setRegIn m n v).regIn m n' = s.regIn m n' := by
  unfold State.setRegIn
  cases hj : phys m n with
  | none => rfl
  | some j =>
    simp only [State.regIn]
    cases hj' : phys m n' with
    | none => rfl
    | some j' =>
      have : (j : Nat) ≠ j' := fun e => h (phys_inj m n' n j (by rw [hj', Fin.ext e]) hj)
      simp [this]

@[simp] theorem State.reg_setReg_same (s : State) (n : Reg) (v : Word) (h : n ≠ 15) : (s.setReg n v).reg n = v := by
  unfold State.reg; rw [State.setReg_mode]; exact State.regIn_setRegIn_same s s.mode n v h

theorem State.reg_setReg_other (s : State) (n n' : Reg) (v : Word) (h : n' ≠ n) : (s.setReg n v).reg n' = s.reg n' := by
  unfold State.reg; rw [State.setReg_mode]; exact State.regIn_setRegIn_other s s.mode n n' v h

/-- A cell that the register written does not name keeps its value. -/
theorem State.setRegIn_cell (s : State) (m : Mode) (n : Reg) (v : Word) (j : Fin 30) (h : phys m n ≠ some j) :
    (s.setRegIn m n v).regs[j] = s.regs[j] := by
  rw [State.setRegIn_regs]
  cases hp : phys m n with
  | none => rfl
  | some j' =>
    have : (j' : Nat) ≠ j := fun e => h (by rw [hp, Fin.ext e])
    simp [this]

/-- The registers R0 to R14 a mode sees depend on the cells and the mode only. -/
theorem State.reg_congr {s t : State} (hr : t.regs = s.regs) (hm : t.mode = s.mode) (n : Reg) (h : n ≠ 15) :
    t.reg n = s.reg n := by
  obtain ⟨j, hj⟩ := phys_some (m := s.mode) h
  simp [State.reg, State.regIn, hm, hj, hr]

/-- R15 reads as the register itself. -/
@[simp] theorem State.reg_r15 (s : State) : s.reg 15 = s.r15 := by
  unfold State.reg State.regIn; cases s.mode <;> rfl

/-- A low register is never R15. -/
theorem low_ne_r15 (n : LowReg) : low n ≠ 15 := by revert n; decide

end Sys2Proof.Machine
end

