-- ==== Sys2Proof/Laws/Store.lean ====
section
/-! SUPPORT. Laws/Store.lean: what the sparse stores of Machine/Store.lean do: a read after a write, and the canonical form
kept by every operation. -/

namespace Sys2Proof.Machine

section
variable {V : Type} {dflt : Nat → V}

/-- Every key of `m` is above `k`. -/
def Store.above (k : Nat) (m : List (Nat × V)) : Prop := ∀ c ∈ m, k < c.1

theorem Store.get_filter_self {p : Nat × V → Bool} (hp : ∀ c, c.1 = k → p c = false) (m : List (Nat × V)) :
    Store.get dflt (m.filter p) k = dflt k := by
  induction m with
  | nil => rfl
  | cons c m ih =>
    obtain ⟨k', v⟩ := c
    by_cases h : p (k', v) = true
    · have hk : k ≠ k' := fun e => by simp [hp (k', v) e.symm] at h
      simp [List.filter, h, Store.get, hk, ih]
    · simp [List.filter, h, ih]

theorem Store.get_filter_kept {p : Nat × V → Bool} (hp : ∀ c, c.1 = k → p c = true) (m : List (Nat × V)) :
    Store.get dflt (m.filter p) k = Store.get dflt m k := by
  induction m with
  | nil => rfl
  | cons c m ih =>
    obtain ⟨k', v⟩ := c
    by_cases h : p (k', v) = true
    · simp [List.filter, h, Store.get, ih]
    · have hk : k ≠ k' := fun e => h (hp (k', v) e.symm)
      simp [List.filter, h, Store.get, hk, ih]

/-- Of two stores one after the other, the one that does not list a key does not matter to it. -/
theorem Store.get_append_left {a b : List (Nat × V)} {k : Nat} (h : ∀ c, c ∈ b → c.1 ≠ k) :
    Store.get dflt (a ++ b) k = Store.get dflt a k := by
  induction a with
  | nil =>
    induction b with
    | nil => rfl
    | cons c b ih =>
      obtain ⟨k', v⟩ := c
      have hk : k ≠ k' := fun e => h (k', v) (by simp) e.symm
      simp only [List.nil_append, Store.get, if_neg hk]
      exact ih fun c hc => h c (by simp [hc])
  | cons c a ih => simp only [List.cons_append, Store.get, ih]

theorem Store.get_append_right {a b : List (Nat × V)} {k : Nat} (h : ∀ c, c ∈ a → c.1 ≠ k) :
    Store.get dflt (a ++ b) k = Store.get dflt b k := by
  induction a with
  | nil => rfl
  | cons c a ih =>
    obtain ⟨k', v⟩ := c
    have hk : k ≠ k' := fun e => h (k', v) (by simp) e.symm
    simp only [List.cons_append, Store.get, if_neg hk]
    exact ih fun c hc => h c (by simp [hc])

theorem Store.get_erase_self (m : List (Nat × V)) (k : Nat) : Store.get dflt (Store.erase m k) k = dflt k :=
  Store.get_filter_self (by simp) m

theorem Store.get_erase_other (m : List (Nat × V)) {k k' : Nat} (h : k' ≠ k) :
    Store.get dflt (Store.erase m k) k' = Store.get dflt m k' :=
  Store.get_filter_kept (by intro c hc; simp [hc, h]) m

theorem Store.get_insert_other (m : List (Nat × V)) {k k' : Nat} (v : V) (h : k' ≠ k) :
    Store.get dflt (Store.insert m k v) k' = Store.get dflt m k' := by
  induction m with
  | nil => simp [Store.insert, Store.get, h]
  | cons c m ih =>
    obtain ⟨k2, v2⟩ := c
    simp only [Store.insert]
    split <;> simp [Store.get, h, ih]

theorem Store.get_insert_self (m : List (Nat × V)) (k : Nat) (v : V) (h : ∀ c ∈ m, c.1 ≠ k) :
    Store.get dflt (Store.insert m k v) k = v := by
  induction m with
  | nil => simp [Store.insert, Store.get]
  | cons c m ih =>
    obtain ⟨k2, v2⟩ := c
    have h2 : k ≠ k2 := fun e => h (k2, v2) (by simp) e.symm
    simp only [Store.insert]
    split
    · simp [Store.get]
    · simp [Store.get, h2, ih (fun c hc => h c (by simp [hc]))]

theorem Store.erase_ne (m : List (Nat × V)) (k : Nat) : ∀ c ∈ Store.erase m k, c.1 ≠ k := by
  intro c hc
  simp [Store.erase] at hc
  exact hc.2

variable [DecidableEq V]

/-- A read after a write to the same key gives the value written. -/
theorem Store.get_set_same (m : List (Nat × V)) (k : Nat) (v : V) : Store.get dflt (Store.set dflt m k v) k = v := by
  unfold Store.set
  split
  · rename_i h; rw [Store.get_erase_self, h]
  · exact Store.get_insert_self _ _ _ (Store.erase_ne m k)

/-- A write leaves every other key alone. -/
theorem Store.get_set_other (m : List (Nat × V)) {k k' : Nat} (v : V) (h : k' ≠ k) :
    Store.get dflt (Store.set dflt m k v) k' = Store.get dflt m k' := by
  unfold Store.set
  split
  · exact Store.get_erase_other m h
  · rw [Store.get_insert_other _ _ h, Store.get_erase_other m h]

/-! ## The canonical form -/

theorem Store.wf_cons {k : Nat} {v : V} {m : List (Nat × V)} :
    Store.wf dflt ((k, v) :: m) = true ↔ v ≠ dflt k ∧ Store.above k m ∧ Store.wf dflt m = true := by
  simp [Store.wf, Store.above, and_assoc]

/-- Leaving entries out keeps the form. -/
theorem Store.wf_filter (p : Nat × V → Bool) (m : List (Nat × V)) (h : Store.wf dflt m = true) :
    Store.wf dflt (m.filter p) = true := by
  induction m with
  | nil => rfl
  | cons c m ih =>
    obtain ⟨k, v⟩ := c
    obtain ⟨h1, h2, h3⟩ := Store.wf_cons.mp h
    by_cases hp : p (k, v) = true
    · simp only [List.filter, hp]
      exact Store.wf_cons.mpr ⟨h1, fun c hc => h2 c ((List.mem_filter.mp hc).1), ih h3⟩
    · simp only [List.filter, hp]
      exact ih h3

/-- Two stores in canonical form one after the other, the keys of the first below those of the second. -/
theorem Store.wf_append {a b : List (Nat × V)} (ha : Store.wf dflt a = true) (hb : Store.wf dflt b = true)
    (h : ∀ c d, c ∈ a → d ∈ b → c.1 < d.1) : Store.wf dflt (a ++ b) = true := by
  induction a with
  | nil => exact hb
  | cons c a ih =>
    obtain ⟨k, v⟩ := c
    obtain ⟨h1, h2, h3⟩ := Store.wf_cons.mp ha
    refine Store.wf_cons.mpr ⟨h1, ?_, ih h3 fun c d hc hd => h c d (by simp [hc]) hd⟩
    intro d hd
    rcases List.mem_append.mp hd with hd | hd
    · exact h2 d hd
    · exact h (k, v) d (by simp) hd

omit [DecidableEq V] in
theorem Store.mem_insert {m : List (Nat × V)} {k : Nat} {v : V} {c : Nat × V} (h : c ∈ Store.insert m k v) :
    c = (k, v) ∨ c ∈ m := by
  induction m with
  | nil => simpa [Store.insert] using h
  | cons d m ih =>
    obtain ⟨k2, v2⟩ := d
    simp only [Store.insert] at h
    split at h
    · simpa using h
    · rcases List.mem_cons.mp h with h | h
      · simp [h]
      · rcases ih h with h | h <;> simp [h]

theorem Store.wf_insert (m : List (Nat × V)) (k : Nat) (v : V) (hv : v ≠ dflt k) (hk : ∀ c ∈ m, c.1 ≠ k)
    (h : Store.wf dflt m = true) : Store.wf dflt (Store.insert m k v) = true := by
  induction m with
  | nil => simp [Store.insert, Store.wf, hv]
  | cons d m ih =>
    obtain ⟨k2, v2⟩ := d
    obtain ⟨h1, h2, h3⟩ := Store.wf_cons.mp h
    simp only [Store.insert]
    split
    · rename_i hlt
      refine Store.wf_cons.mpr ⟨hv, ?_, h⟩
      intro c hc
      rcases List.mem_cons.mp hc with hc | hc
      · simpa [hc] using hlt
      · exact Nat.lt_trans hlt (h2 c hc)
    · rename_i hge
      have hne : k2 ≠ k := hk (k2, v2) (by simp)
      refine Store.wf_cons.mpr ⟨h1, ?_, ih (fun c hc => hk c (by simp [hc])) h3⟩
      intro c hc
      rcases Store.mem_insert hc with hc | hc
      · subst hc; show k2 < k; omega
      · exact h2 c hc

/-- A write keeps the canonical form. -/
theorem Store.wf_set (m : List (Nat × V)) (k : Nat) (v : V) (h : Store.wf dflt m = true) :
    Store.wf dflt (Store.set dflt m k v) = true := by
  unfold Store.set
  split
  · exact Store.wf_filter _ m h
  · rename_i hv
    exact Store.wf_insert _ k v hv (Store.erase_ne m k) (Store.wf_filter _ m h)

end

/-! ## Memory and the framebuffer -/

@[simp] theorem Memory.get_set_same (m : List (Nat × Byte)) (k : Nat) (v : Byte) : Memory.get (Memory.set m k v) k = v :=
  Store.get_set_same m k v

theorem Memory.get_set_other (m : List (Nat × Byte)) {k k' : Nat} (v : Byte) (h : k' ≠ k) :
    Memory.get (Memory.set m k v) k' = Memory.get m k' :=
  Store.get_set_other m v h

/-- One byte of memory after a write of one byte. -/
theorem Memory.get_set (m : List (Nat × Byte)) (k k' : Nat) (v : Byte) :
    Memory.get (Memory.set m k v) k' = if k' = k then v else Memory.get m k' := by
  split
  · rename_i h; rw [h, Memory.get_set_same]
  · rename_i h; exact Memory.get_set_other m v h

theorem Memory.wf_set (m : List (Nat × Byte)) (k : Nat) (v : Byte) (h : Memory.wf m = true) :
    Memory.wf (Memory.set m k v) = true :=
  Store.wf_set m k v h

theorem Memory.wf_filter (p : Nat × Byte → Bool) (m : List (Nat × Byte)) (h : Memory.wf m = true) :
    Memory.wf (m.filter p) = true :=
  Store.wf_filter p m h

/-- Two columns below 240 of two rows name one pixel only when they are equal. -/
theorem Framebuffer.key_inj {s x s' x' : Nat} (hx : x < 240) (hx' : x' < 240) (h : 240 * s + x = 240 * s' + x') :
    s = s' ∧ x = x' := by omega

/-- One pixel after a pixel is drawn. -/
theorem Framebuffer.get_set (m : List (Nat × Half)) {s x s' x' : Nat} (v : Half) (hx : x < 240) (hx' : x' < 240) :
    Framebuffer.get (Framebuffer.set m s x v) s' x' = if s' = s ∧ x' = x then v else Framebuffer.get m s' x' := by
  split
  · rename_i h; obtain ⟨rfl, rfl⟩ := h; exact Store.get_set_same _ _ _
  · rename_i h
    exact Store.get_set_other _ _ (fun e => h (Framebuffer.key_inj hx' hx e))

theorem Framebuffer.wf_set (m : List (Nat × Half)) (s x : Nat) (v : Half) (h : Framebuffer.wf m = true) :
    Framebuffer.wf (Framebuffer.set m s x v) = true :=
  Store.wf_set _ _ _ h

end Sys2Proof.Machine
end

