-- ==== Sys2Proof/Laws/BusEffect.lean ====
section
/-! SUPPORT. Laws/BusEffect.lean: everything a bus write can do, said once (R8, R91, R107, R684): the CPU's registers, the
clock, the display's picture and the driver's place stay as they are; read-only memory keeps its bytes; each part of the
invariant that concerns memory and devices is kept. Every write, every DMA transfer and every BIOS copy has this effect. -/

namespace Sys2Proof.Machine

/-- The effect of bus writes, as a relation between the state before and the state after. -/
structure BusEffect (s t : State) : Prop where
  regs : t.regs = s.regs
  r15 : t.r15 = s.r15
  cpsr : t.cpsr = s.cpsr
  spsrFiq : t.spsrFiq = s.spsrFiq
  spsrIrq : t.spsrIrq = s.spsrIrq
  spsrSvc : t.spsrSvc = s.spsrSvc
  spsrAbt : t.spsrAbt = s.spsrAbt
  spsrUnd : t.spsrUnd = s.spsrUnd
  cycles : t.cycles = s.cycles
  romSize : t.romSize = s.romSize
  vcount : t.vcount = s.vcount
  lastVcount : t.lastVcount = s.lastVcount
  keyinput : t.keyinput = s.keyinput
  framebuffer : t.framebuffer = s.framebuffer
  frameCount : t.frameCount = s.frameCount
  phase : t.phase = s.phase
  line : t.line = s.line
  left : t.left = s.left
  host : t.host = s.host
  params : t.params = s.params
  readOnly : ∀ k, readOnlyKey k = true → Memory.get t.mem k = Memory.get s.mem k
  memory : Memory.wf s.mem = true → Memory.wf t.mem = true
  irqs : s.if_ &&& ~~~irqSources = 0#16 → t.if_ &&& ~~~irqSources = 0#16
  gpioData : s.gpioData.toNat < 16 → s.gpioDir.toNat < 16 → t.gpioData.toNat < 16
  gpioDir : s.gpioDir.toNat < 16 → t.gpioDir.toNat < 16
  gpioCtrl : s.gpioCtrl.toNat < 2 → t.gpioCtrl.toNat < 2
  dma : (∀ n, (s.dmaChannel n).onBus = true) → ∀ n, (t.dmaChannel n).onBus = true
  timers : (∀ n, (s.timer n).accumulator < 1024) → ∀ n, (t.timer n).accumulator < 1024

theorem BusEffect.refl (s : State) : BusEffect s s := by
  constructor <;> first | rfl | (intros; first | rfl | assumption) | exact fun h => h | exact fun h n => h n

theorem BusEffect.trans {s t u : State} (h : BusEffect s t) (g : BusEffect t u) : BusEffect s u where
  regs := g.regs.trans h.regs
  r15 := g.r15.trans h.r15
  cpsr := g.cpsr.trans h.cpsr
  spsrFiq := g.spsrFiq.trans h.spsrFiq
  spsrIrq := g.spsrIrq.trans h.spsrIrq
  spsrSvc := g.spsrSvc.trans h.spsrSvc
  spsrAbt := g.spsrAbt.trans h.spsrAbt
  spsrUnd := g.spsrUnd.trans h.spsrUnd
  cycles := g.cycles.trans h.cycles
  romSize := g.romSize.trans h.romSize
  vcount := g.vcount.trans h.vcount
  lastVcount := g.lastVcount.trans h.lastVcount
  keyinput := g.keyinput.trans h.keyinput
  framebuffer := g.framebuffer.trans h.framebuffer
  frameCount := g.frameCount.trans h.frameCount
  phase := g.phase.trans h.phase
  line := g.line.trans h.line
  left := g.left.trans h.left
  host := g.host.trans h.host
  params := g.params.trans h.params
  readOnly k hk := (g.readOnly k hk).trans (h.readOnly k hk)
  memory w := g.memory (h.memory w)
  irqs w := g.irqs (h.irqs w)
  gpioData w v := g.gpioData (h.gpioData w v) (h.gpioDir v)
  gpioDir w := g.gpioDir (h.gpioDir w)
  gpioCtrl w := g.gpioCtrl (h.gpioCtrl w)
  dma w := g.dma (h.dma w)
  timers w := g.timers (h.timers w)

/-- The effect of a choice is the effect of both its branches. -/
theorem BusEffect.ite {p : Prop} [Decidable p] {s a b : State} (ha : p → BusEffect s a) (hb : ¬p → BusEffect s b) :
    BusEffect s (if p then a else b) := by
  by_cases h : p
  · rw [if_pos h]; exact ha h
  · rw [if_neg h]; exact hb h

/-! ## The single updates -/

/-- A byte of memory outside BIOS and ROM. -/
theorem BusEffect.setMem (s : State) (k : Nat) (v : Byte) (hk : readOnlyKey k = false) :
    BusEffect s { s with mem := Memory.set s.mem k v } :=
  { BusEffect.refl s with
    readOnly := fun k' h' => Memory.get_set_other _ _ (fun e => by rw [e, hk] at h'; cases h')
    memory := fun w => Memory.wf_set _ _ _ w }

/-- A range of flash erased. -/
theorem BusEffect.erase (s : State) (o n : Nat) : BusEffect s { s with mem := flashErase o n s.mem } :=
  { BusEffect.refl s with
    readOnly := fun k' h' => Store.get_filter_kept (by
      intro c hc
      simp only [readOnlyKey, Bool.or_eq_true, Bool.and_eq_true, decide_eq_true_eq] at h'
      simp only [flashKey, hc, Bool.not_eq_true', Bool.and_eq_false_imp, decide_eq_true_eq, decide_eq_false_iff_not]
      omega) _
    memory := fun w => Memory.wf_filter _ _ w }

theorem BusEffect.raiseIrq (s : State) (i : Nat) (hi : (1#16 <<< i) &&& ~~~irqSources = 0#16) :
    BusEffect s (s.raiseIrq i) :=
  { BusEffect.refl s with
    irqs := fun w => by
      simp only [State.raiseIrq]
      rw [BitVec.and_or_distrib_right, w, hi, BitVec.or_zero] }

/-- A DMA channel replaced by one whose internal addresses are on the bus when the old ones were. -/
theorem BusEffect.setDma (s : State) (n : Fin 4) (d : DmaChannel) (hd : (s.dmaChannel n).onBus = true → d.onBus = true) :
    BusEffect s (s.setDma n d) :=
  { BusEffect.refl s with
    dma := fun w m => by
      simp only [State.dmaChannel, State.setDma]
      by_cases e : (n : Nat) = m
      · simp [e]; exact hd (w n)
      · simp [e]; exact w m }

/-- After other effects, a DMA channel replaced by one that is on the bus when all were at the start. -/
theorem BusEffect.thenDma {s u : State} (h : BusEffect s u) (n : Fin 4) (d : DmaChannel)
    (hd : (∀ m, (s.dmaChannel m).onBus = true) → d.onBus = true) : BusEffect s (u.setDma n d) :=
  { h with
    dma := fun w m => by
      simp only [State.dmaChannel, State.setDma]
      by_cases e : (n : Nat) = m
      · simp [e]; exact hd w
      · simp [e]; exact h.dma w m }

theorem BusEffect.setTimer (s : State) (n : Fin 4) (t : Timer)
    (ht : (s.timer n).accumulator < 1024 → t.accumulator < 1024) : BusEffect s (s.setTimer n t) :=
  { BusEffect.refl s with
    timers := fun w m => by
      simp only [State.timer, State.setTimer]
      by_cases e : (n : Nat) = m
      · simp [e]; exact ht (w n)
      · simp [e]; exact w m }

theorem BusEffect.ackIrq (s : State) (v : Half) : BusEffect s { s with if_ := s.if_ &&& ~~~v } :=
  { BusEffect.refl s with
    irqs := fun w => by
      show (s.if_ &&& ~~~v) &&& ~~~irqSources = 0#16
      rw [BitVec.and_assoc, BitVec.and_comm (~~~v), ← BitVec.and_assoc, w, BitVec.zero_and] }

theorem BusEffect.ie (s : State) (v : Half) : BusEffect s { s with ie := v } := { BusEffect.refl s with }
theorem BusEffect.ime (s : State) (v : Half) : BusEffect s { s with ime := v } := { BusEffect.refl s with }
theorem BusEffect.dispstat (s : State) (v : Half) : BusEffect s { s with dispstat := v } := { BusEffect.refl s with }
theorem BusEffect.halted (s : State) (b : Bool) : BusEffect s { s with halted := b } := { BusEffect.refl s with }
theorem BusEffect.free (s : State) (n : Nat) : BusEffect s { s with free := n } := { BusEffect.refl s with }
theorem BusEffect.rtcFree (s : State) (r : Rtc) (n : Nat) : BusEffect s { s with rtc := r, free := n } :=
  { BusEffect.refl s with }
theorem BusEffect.rtc (s : State) (r : Rtc) : BusEffect s { s with rtc := r } := { BusEffect.refl s with }
theorem BusEffect.refX2 (s : State) (v : Word) : BusEffect s { s with refX2 := v } := { BusEffect.refl s with }
theorem BusEffect.refY2 (s : State) (v : Word) : BusEffect s { s with refY2 := v } := { BusEffect.refl s with }
theorem BusEffect.refX3 (s : State) (v : Word) : BusEffect s { s with refX3 := v } := { BusEffect.refl s with }
theorem BusEffect.refY3 (s : State) (v : Word) : BusEffect s { s with refY3 := v } := { BusEffect.refl s with }
theorem BusEffect.flash (s : State) (f : FlashState) (b : Bool) : BusEffect s { s with flashState := f, flashId := b } :=
  { BusEffect.refl s with }

end Sys2Proof.Machine
end

