-- ==== Sys2Proof/Laws/Bus.lean ====
section
/-! SUPPORT. Laws/Bus.lean: every write to the bus has the effect of Laws/BusEffect.lean, from the single registers up to the
DMA engine. -/

namespace Sys2Proof.Machine

/-! ## Keys -/

theorem ioKey_writable (off : Nat) (h : off < 0x1000000) : readOnlyKey (ioKey off) = false := by
  unfold ioKey
  simp [readOnlyKey]
  omega

theorem flashKey_writable (o : Nat) : readOnlyKey (flashKey o) = false := by
  unfold flashKey
  simp [readOnlyKey]
  omega

theorem vramOffset_lt (off : Nat) : vramOffset off < 0x18000 := by
  unfold vramOffset
  simp only
  split <;> omega

theorem regionOf_lt (a : Word) : regionOf a < 16 := by
  unfold regionOf busAddr
  omega

/-- The key a bus address has in each region (R82 to R86). -/
theorem bufferKey_cases {romSize : Nat} {a : Word} {k : Nat} (h : bufferKey romSize a = some k) :
    (regionOf a = 0 ∧ k < 0x4000)
    ∨ ((regionOf a = 1 ∨ regionOf a = 3) ∧ 0x03000000 ≤ k ∧ k < 0x03008000)
    ∨ (regionOf a = 2 ∧ 0x02000000 ≤ k ∧ k < 0x02040000)
    ∨ (regionOf a = 5 ∧ 0x05000000 ≤ k ∧ k < 0x05000400)
    ∨ (regionOf a = 6 ∧ 0x06000000 ≤ k ∧ k < 0x06018000)
    ∨ (regionOf a = 7 ∧ 0x07000000 ≤ k ∧ k < 0x07000400)
    ∨ ((regionOf a = 8 ∨ regionOf a = 9) ∧ 0x08000000 ≤ k ∧ k < 0x08000000 + romSize) := by
  have hv := vramOffset_lt (offsetOf a)
  unfold bufferKey at h
  simp only at h
  split at h <;> rename_i hr <;> (try split at h) <;>
    first | (injection h with h; omega) | cases h

/-- A byte outside BIOS and ROM has a writable key. -/
theorem bufferKey_writable {romSize : Nat} {a : Word} {k : Nat} (h : bufferKey romSize a = some k)
    (hr : isRam (regionOf a) = true) : readOnlyKey k = false := by
  simp only [readOnlyKey, Bool.or_eq_false_iff, Bool.and_eq_false_iff, decide_eq_false_iff_not]
  rcases bufferKey_cases h with ⟨e, _⟩ | ⟨e, _⟩ | ⟨e, _⟩ | ⟨e, _⟩ | ⟨e, _⟩ | ⟨e, _⟩ | ⟨e | e, _⟩ <;>
    first | omega | (rw [e] at hr; cases hr)

/-! ## Alignment -/

theorem align2_toNat (a : Word) : (align2 a).toNat = a.toNat / 2 * 2 := by
  have h : align2 a = (a >>> 1) <<< 1 := by
    apply BitVec.eq_of_getLsbD_eq
    intro k hk
    rcases Nat.eq_zero_or_pos k with rfl | hp
    · simp [align2]
    · have h1 : (1#32).getLsbD k = false := by simp [BitVec.getLsbD_one]; omega
      have e : 1 + (k - 1) = k := by omega
      rw [align2, BitVec.getLsbD_and, BitVec.getLsbD_not, h1, BitVec.getLsbD_shiftLeft, BitVec.getLsbD_ushiftRight, e]
      simp [hk, show ¬ k < 1 by omega]
  rw [h, BitVec.toNat_shiftLeft, BitVec.toNat_ushiftRight, Nat.shiftRight_eq_div_pow, Nat.shiftLeft_eq]
  omega

theorem align4_toNat (a : Word) : (align4 a).toNat = a.toNat / 4 * 4 := by
  have h : align4 a = (a >>> 2) <<< 2 := by
    apply BitVec.eq_of_getLsbD_eq
    intro k hk
    by_cases hp : k < 2
    · have : k = 0 ∨ k = 1 := by omega
      rcases this with rfl | rfl <;> simp [align4]
    · have h1 : (3#32).getLsbD k = false := by
        rw [show (3#32) = BitVec.zeroExtend 32 (3#2) from rfl, BitVec.getLsbD_setWidth,
          BitVec.getLsbD_of_ge (3#2) k (by omega), Bool.and_false]
      have e : 2 + (k - 2) = k := by omega
      rw [align4, BitVec.getLsbD_and, BitVec.getLsbD_not, h1, BitVec.getLsbD_shiftLeft, BitVec.getLsbD_ushiftRight, e]
      simp [hk, hp]
  rw [h, BitVec.toNat_shiftLeft, BitVec.toNat_ushiftRight, Nat.shiftRight_eq_div_pow, Nat.shiftLeft_eq]
  omega

theorem regionOf_eq (a : Word) : regionOf a = a.toNat / 2^24 % 16 := by unfold regionOf busAddr; omega
theorem offsetOf_eq (a : Word) : offsetOf a = a.toNat % 2^24 := by unfold offsetOf busAddr; omega

@[simp] theorem regionOf_align2 (a : Word) : regionOf (align2 a) = regionOf a := by
  rw [regionOf_eq, regionOf_eq, align2_toNat]; omega
@[simp] theorem regionOf_align4 (a : Word) : regionOf (align4 a) = regionOf a := by
  rw [regionOf_eq, regionOf_eq, align4_toNat]; omega

/-- No aligned access straddles two regions (R88). -/
theorem regionOf_align2_add (a : Word) : regionOf (align2 a + 1) = regionOf a := by
  have h : (align2 a + 1#32).toNat = a.toNat / 2 * 2 + 1 := by
    rw [BitVec.toNat_add, align2_toNat]; simp; omega
  rw [regionOf_eq, regionOf_eq, show align2 a + 1 = align2 a + 1#32 from rfl, h]; omega

theorem align4_add_toNat (a : Word) (i : Nat) (h : i < 4) : (align4 a + BitVec.ofNat 32 i).toNat = a.toNat / 4 * 4 + i := by
  rw [BitVec.toNat_add, align4_toNat, BitVec.toNat_ofNat]; omega

theorem regionOf_align4_add (a : Word) (i : Nat) (h : i < 4) : regionOf (align4 a + BitVec.ofNat 32 i) = regionOf a := by
  rw [regionOf_eq, regionOf_eq, align4_add_toNat a i h]; omega

/-! ## Storage -/

theorem setIoHalf_effect (s : State) (off : Nat) (v : Half) (h : off < 0x400) : BusEffect s (s.setIoHalf off v) :=
  (BusEffect.setMem s (ioKey off) (loByte v) (ioKey_writable _ (by omega))).trans
    (BusEffect.setMem _ (ioKey (off + 1)) (hiByte v) (ioKey_writable _ (by omega)))

theorem storeByte_effect (s : State) (a : Word) (v : Byte) (h : isRam (regionOf a) = true) :
    BusEffect s (storeByte s a v) := by
  unfold storeByte
  split
  · rename_i k hk; exact BusEffect.setMem s k v (bufferKey_writable hk h)
  · exact BusEffect.refl s

theorem storeHalf_effect (s : State) (a : Word) (v : Half) (h : isRam (regionOf a) = true)
    (h1 : isRam (regionOf (a + 1)) = true) : BusEffect s (storeHalf s a v) :=
  (storeByte_effect s a _ h).trans (storeByte_effect _ _ _ h1)

theorem storeWord_effect (s : State) (a : Word) (v : Word) (h : isRam (regionOf a) = true) :
    BusEffect s (storeWord s (align4 a) v) := by
  have hr : ∀ i, i < 4 → isRam (regionOf (align4 a + BitVec.ofNat 32 i)) = true := fun i hi => by
    rw [regionOf_align4_add a i hi, h]
  exact (((storeByte_effect s (align4 a) _ (by simpa using h)).trans (storeByte_effect _ _ _ (hr 1 (by omega)))).trans
    (storeByte_effect _ _ _ (hr 2 (by omega)))).trans (storeByte_effect _ _ _ (hr 3 (by omega)))

/-! ## Timers, flash, GPIO -/

theorem writeTimerReload_effect (s : State) (n : Fin 4) (v : Half) : BusEffect s (writeTimerReload s n v) :=
  BusEffect.setTimer s n _ fun h => h

theorem writeTimerControl_effect (s : State) (n : Fin 4) (v : Half) : BusEffect s (writeTimerControl s n v) := by
  unfold writeTimerControl
  simp only
  split
  · exact BusEffect.setTimer s n _ fun _ => by show 0 < 1024; omega
  · exact BusEffect.setTimer s n _ fun h => h

theorem flashWrite_effect (s : State) (o : Nat) (v : Byte) : BusEffect s (flashWrite s o v) := by
  unfold flashWrite
  split <;> (repeat' split) <;>
    first
    | exact BusEffect.refl s
    | exact BusEffect.flash s _ _
    | exact (BusEffect.setMem s _ v (flashKey_writable o)).trans (BusEffect.flash _ _ _)
    | exact (BusEffect.erase s _ _).trans (BusEffect.flash _ _ _)

theorem rtcCommand_effect (s : State) (b : Byte) : BusEffect s (rtcCommand s b) := by
  unfold rtcCommand
  simp only
  split <;> (try split) <;>
    first
    | exact BusEffect.refl s
    | exact BusEffect.rtc s _
    | exact BusEffect.rtcFree s _ _

theorem rtcClock_effect (s : State) (sio : Bool) : BusEffect s (rtcClock s sio) := by
  unfold rtcClock
  refine BusEffect.ite (fun _ => ?_) fun _ => ?_
  · exact BusEffect.ite (fun _ => ((BusEffect.rtc s _).trans (rtcCommand_effect _ _)).trans (BusEffect.rtc _ _))
      fun _ => BusEffect.rtc s _
  · refine BusEffect.ite (fun _ => BusEffect.rtc s _) fun _ => ?_
    refine BusEffect.ite (fun _ => ?_) fun _ => BusEffect.refl s
    exact BusEffect.ite (fun _ => BusEffect.rtc s _) fun _ => BusEffect.rtc s _

theorem rtcPins_effect (s : State) (sck sio cs : Bool) : BusEffect s (rtcPins s sck sio cs) := by
  have h1 : BusEffect s (if cs = true ∧ s.rtc.lastCs = false then { s with rtc := rtcStart s.rtc } else s) :=
    BusEffect.ite (fun _ => BusEffect.rtc s _) fun _ => BusEffect.refl s
  have h2 : ∀ u : State, BusEffect u (if cs = true ∧ sck = true ∧ s.rtc.lastSck = false then rtcClock u sio else u) :=
    fun u => BusEffect.ite (fun _ => rtcClock_effect u sio) fun _ => BusEffect.refl u
  exact (h1.trans (h2 _)).trans (BusEffect.rtc _ _)

theorem writeGpioData_effect (s : State) (v : Half) : BusEffect s (writeGpioData s v) := by
  have hd : BusEffect s { s with gpioData := (s.gpioData &&& ~~~s.gpioDir) ||| (v &&& s.gpioDir) } :=
    { BusEffect.refl s with
      gpioData := fun w1 w2 => by
        show ((s.gpioData &&& ~~~s.gpioDir) ||| (v &&& s.gpioDir)).toNat < 16
        rw [BitVec.toNat_or, BitVec.toNat_and, BitVec.toNat_and]
        exact Nat.or_lt_two_pow (n := 4) (Nat.lt_of_le_of_lt Nat.and_le_left w1) (Nat.lt_of_le_of_lt Nat.and_le_right w2) }
  unfold writeGpioData
  simp only
  split
  · exact hd.trans (rtcPins_effect _ _ _ _)
  · exact hd

theorem writeGpio_effect (s : State) (r : Nat) (v : Half) : BusEffect s (writeGpio s r v) := by
  unfold writeGpio
  split
  · exact writeGpioData_effect s v
  · split
    · exact { BusEffect.refl s with
        gpioData := fun w _ => w
        gpioDir := fun _ => by
          show (v &&& 0xF#16).toNat < 16
          rw [BitVec.toNat_and]
          exact Nat.lt_of_le_of_lt Nat.and_le_right (by decide) }
    · split
      · exact { BusEffect.refl s with
          gpioCtrl := fun _ => by
            show (v &&& 1#16).toNat < 2
            rw [BitVec.toNat_and]
            exact Nat.lt_of_le_of_lt Nat.and_le_right (by decide) }
      · exact BusEffect.refl s

/-! ## I/O registers; `rise` has the effect too -/

theorem writeRefHalf_effect (s : State) (off : Nat) (v : Half) (h : off < 0x400) : BusEffect s (writeRefHalf s off v) := by
  unfold writeRefHalf
  simp only
  split
  · exact (setIoHalf_effect s off v h).trans (BusEffect.refX2 _ _)
  · exact (setIoHalf_effect s off v h).trans (BusEffect.refY2 _ _)
  · exact (setIoHalf_effect s off v h).trans (BusEffect.refX3 _ _)
  · exact (setIoHalf_effect s off v h).trans (BusEffect.refY3 _ _)

section
variable {rise : Fin 4 → State → State} (hrise : ∀ n s, BusEffect s (rise n s))
include hrise

theorem writeDmaReg_effect (s : State) (n : Fin 4) (reg : Nat) (v : Half) : BusEffect s (writeDmaReg rise s n reg v) := by
  unfold writeDmaReg
  simp only
  split <;> try exact BusEffect.setDma s n _ fun h => h
  have h1 := BusEffect.setDma s n { s.dmaChannel n with ctrl := v } fun h => h
  split
  · exact h1.trans (hrise n _)
  · exact h1

theorem ioWrite16_effect (s : State) (off : Nat) (v : Half) (h : off < 0x400) : BusEffect s (ioWrite16 rise s off v) := by
  unfold ioWrite16
  refine BusEffect.ite (fun _ => BusEffect.dispstat s _) fun _ => ?_
  refine BusEffect.ite (fun _ => BusEffect.refl s) fun _ => ?_
  refine BusEffect.ite (fun _ => writeRefHalf_effect s off v h) fun _ => ?_
  refine BusEffect.ite (fun _ => writeDmaReg_effect hrise s _ _ v) fun _ => ?_
  refine BusEffect.ite (fun _ => ?_) fun _ => ?_
  · exact BusEffect.ite (fun _ => writeTimerReload_effect s _ v) fun _ => writeTimerControl_effect s _ v
  refine BusEffect.ite (fun _ => BusEffect.refl s) fun _ => ?_
  refine BusEffect.ite (fun _ => BusEffect.ie s v) fun _ => ?_
  refine BusEffect.ite (fun _ => BusEffect.ackIrq s v) fun _ => ?_
  refine BusEffect.ite (fun _ => BusEffect.ime s v) fun _ => ?_
  refine BusEffect.ite (fun _ => ?_) fun _ => setIoHalf_effect s off v h
  exact (BusEffect.setMem s _ _ (ioKey_writable _ (by omega))).trans (BusEffect.halted _ _)

theorem ioWrite8_effect (s : State) (off : Nat) (v : Byte) (h : off < 0x400) : BusEffect s (ioWrite8 rise s off v) := by
  unfold ioWrite8
  simp only
  split
  · exact BusEffect.setMem s _ _ (ioKey_writable _ (by omega))
  · exact ioWrite16_effect hrise s _ _ (by omega)

theorem ioWrite32_effect (s : State) (off : Nat) (v : Word) (h : off + 2 < 0x400) : BusEffect s (ioWrite32 rise s off v) :=
  (ioWrite16_effect hrise s off _ (by omega)).trans (ioWrite16_effect hrise _ _ _ h)

theorem write8With_effect (s : State) (a : Word) (v : Byte) : BusEffect s (write8With rise s a v) := by
  unfold write8With
  split <;> rename_i hr
  · exact storeByte_effect s a v (by rw [hr]; rfl)
  · exact storeByte_effect s a v (by rw [hr]; rfl)
  · exact storeByte_effect s a v (by rw [hr]; rfl)
  · split
    · rename_i h; exact ioWrite8_effect hrise s _ v h
    · exact BusEffect.refl s
  · exact storeHalf_effect s _ _ (by rw [regionOf_align2, hr]; rfl) (by rw [regionOf_align2_add, hr]; rfl)
  · exact storeHalf_effect s _ _ (by rw [regionOf_align2, hr]; rfl) (by rw [regionOf_align2_add, hr]; rfl)
  · exact writeGpio_effect s _ _
  · exact flashWrite_effect s _ v
  · exact BusEffect.refl s

theorem write16With_effect (s : State) (a : Word) (v : Half) : BusEffect s (write16With rise s a v) := by
  unfold write16With
  simp only
  repeat' split
  · rename_i h
    exact storeHalf_effect s _ _ h (by rw [regionOf_align2_add]; simpa using h)
  · rename_i h; exact ioWrite16_effect hrise s _ v h.2
  · exact writeGpio_effect s _ _
  · exact BusEffect.refl s

theorem write32With_effect (s : State) (a : Word) (v : Word) : BusEffect s (write32With rise s a v) := by
  unfold write32With
  simp only
  repeat' split
  · rename_i h
    exact storeWord_effect s a v (by simpa using h)
  · rename_i h
    refine ioWrite32_effect hrise s _ v ?_
    have h2 := h.2
    rw [offsetOf_eq, align4_toNat] at h2 ⊢
    omega
  · exact (writeGpio_effect s _ _).trans (writeGpio_effect _ _ _)
  · exact BusEffect.refl s

/-! ## The DMA engine -/

theorem dmaUnit_effect (word : Bool) (s : State) (src dst : Word) : BusEffect s (dmaUnit rise word s src dst) := by
  unfold dmaUnit
  split
  · exact write32With_effect hrise s _ _
  · exact write16With_effect hrise s _ _

theorem dmaUnits_effect (word : Bool) (sm dm k : Nat) (s : State) (src dst : Word) :
    BusEffect s (dmaUnits rise word sm dm k s src dst).1 := by
  induction k generalizing s src dst with
  | zero => exact BusEffect.refl s
  | succ k ih => exact (dmaUnit_effect hrise word s src dst).trans (ih _ _ _)

omit hrise

/-- An address on the 28-bit bus. -/
theorem mask28_lt (a : Word) : (mask28 a).toNat < 2^28 := by
  unfold mask28
  rw [BitVec.toNat_and]
  exact Nat.lt_of_le_of_lt Nat.and_le_right (by decide)

theorem dmaAdv_lt (a : Word) (mode : Nat) (u : Word) : (dmaAdv a mode u).toNat < 2^28 := by
  unfold dmaAdv
  split <;> exact mask28_lt _

/-- A transfer ends at addresses on the bus (D1). -/
theorem dmaUnits_onBus (word : Bool) (sm dm k : Nat) (s : State) (src dst : Word) (h1 : src.toNat < 2^28)
    (h2 : dst.toNat < 2^28) :
    (dmaUnits rise word sm dm k s src dst).2.1.toNat < 2^28 ∧ (dmaUnits rise word sm dm k s src dst).2.2.toNat < 2^28 := by
  induction k generalizing s src dst with
  | zero => exact ⟨h1, h2⟩
  | succ k ih => exact ih _ _ _ (dmaAdv_lt _ _ _) (dmaAdv_lt _ _ _)

end

/-- Interrupt bits 8 to 11 are sources that exist. -/
theorem dmaIrq_source (n : Fin 4) : (1#16 <<< (8 + n.val)) &&& ~~~irqSources = 0#16 := by
  revert n; decide

/-- The completion of a run that began in `s` and has made its transfers (R684). -/
theorem dmaComplete_effect {s u : State} (h : BusEffect s u) (n : Fin 4) (d0 : DmaChannel) (src dst : Word)
    (hb : (∀ m, (s.dmaChannel m).onBus = true) → src.toNat < 2^28 ∧ dst.toNat < 2^28) :
    BusEffect s (dmaComplete n d0 u src dst) := by
  have h1 : BusEffect s (if (u.dmaChannel n).irqEnable = true then u.raiseIrq (8 + n.val) else u) :=
    h.trans (BusEffect.ite (fun _ => BusEffect.raiseIrq u _ (dmaIrq_source n)) fun _ => BusEffect.refl u)
  unfold dmaComplete
  refine BusEffect.ite (fun _ => h1.thenDma n _ fun w => ?_) fun _ => h1.thenDma n _ fun w => ?_
  · have hm := mask28_lt (u.dmaChannel n).dst
    simp only [DmaChannel.onBus, Bool.and_eq_true, decide_eq_true_eq]
    refine ⟨(hb w).1, ?_⟩
    split
    · exact hm
    · exact (hb w).2
  · simpa [DmaChannel.onBus] using hb w

/-- A DMA run (R684). -/
theorem dmaRunWith_effect {rise : Fin 4 → State → State} (hrise : ∀ n s, BusEffect s (rise n s)) (n : Fin 4) (s : State) :
    BusEffect s (dmaRunWith rise n s) :=
  dmaComplete_effect (dmaUnits_effect hrise _ _ _ _ _ _ _) n _ _ _ fun w => by
    have h := w n
    simp only [DmaChannel.onBus, Bool.and_eq_true, decide_eq_true_eq] at h
    exact dmaUnits_onBus _ _ _ _ _ _ _ h.1 h.2

theorem latch_onBus (d : DmaChannel) (n : Fin 4) : (d.latch n).onBus = true := by
  simp only [DmaChannel.onBus, DmaChannel.latch, mask28_lt, decide_true, Bool.and_self]

/-- A rising enable, with the runs nested in it (R114, R686). -/
theorem dmaRise_effect (fuel : Nat) (running : List (Fin 4)) (n : Fin 4) (s : State) :
    BusEffect s (dmaRise fuel running n s) := by
  induction fuel generalizing running n s with
  | zero => exact BusEffect.refl s
  | succ fuel ih =>
    have h1 : BusEffect s (s.setDma n ((s.dmaChannel n).latch n)) := BusEffect.setDma s n _ fun _ => latch_onBus _ n
    unfold dmaRise
    refine BusEffect.ite (fun _ => BusEffect.refl s) fun _ => ?_
    exact BusEffect.ite (fun _ => h1.trans (dmaRunWith_effect (fun m u => ih (n :: running) m u) n _)) fun _ => h1

theorem rising_effect (n : Fin 4) (s : State) : BusEffect s (rising n s) := dmaRise_effect 4 [] n s

/-- Every write of the CPU, a BIOS call or the host. -/
theorem write8_effect (s : State) (a : Word) (v : Byte) : BusEffect s (s.write8 a v) := write8With_effect rising_effect s a v
theorem write16_effect (s : State) (a : Word) (v : Half) : BusEffect s (s.write16 a v) :=
  write16With_effect rising_effect s a v
theorem write32_effect (s : State) (a : Word) (v : Word) : BusEffect s (s.write32 a v) :=
  write32With_effect rising_effect s a v

theorem dmaTriggerOne_effect (t : Nat) (s : State) (n : Fin 4) : BusEffect s (dmaTriggerOne t s n) :=
  BusEffect.ite (fun _ => dmaRunWith_effect (dmaRise_effect 3 [n]) n s) fun _ => BusEffect.refl s

/-- `DmaTrigger(t)` (R687). -/
theorem dmaTrigger_effect (s : State) (t : Nat) : BusEffect s (dmaTrigger s t) :=
  (((dmaTriggerOne_effect t s 0).trans (dmaTriggerOne_effect t _ 1)).trans (dmaTriggerOne_effect t _ 2)).trans
    (dmaTriggerOne_effect t _ 3)

/-! ## Timers and the BIOS copies -/

theorem timerIrq_source (n : Fin 4) : (1#16 <<< (3 + n.val)) &&& ~~~irqSources = 0#16 := by
  revert n; decide

theorem tick_effect (fuel : Nat) (n : Fin 4) (s : State) : BusEffect s (tick fuel n s) := by
  induction fuel generalizing n s with
  | zero => exact BusEffect.refl s
  | succ fuel ih =>
    unfold tick
    refine BusEffect.ite (fun _ => ?_) fun _ => BusEffect.setTimer s n _ fun h => h
    have h1 : BusEffect s (s.setTimer n { s.timer n with counter := (s.timer n).reload }) :=
      BusEffect.setTimer s n _ fun h => h
    have h2 : BusEffect s (if (s.timer n).irqEnable then
        (s.setTimer n { s.timer n with counter := (s.timer n).reload }).raiseIrq (3 + n.val)
        else s.setTimer n { s.timer n with counter := (s.timer n).reload }) :=
      BusEffect.ite (fun _ => h1.trans (BusEffect.raiseIrq _ _ (timerIrq_source n))) fun _ => h1
    exact BusEffect.ite (fun _ => h2.trans (ih _ _)) fun _ => h2

theorem ticks_effect (k : Nat) (n : Fin 4) (s : State) : BusEffect s (ticks k n s) := by
  induction k generalizing s with
  | zero => exact BusEffect.refl s
  | succ k ih => exact (tick_effect 4 n s).trans (ih _)

theorem prescaler_le (t : Timer) : 1 ≤ t.prescaler ∧ t.prescaler ≤ 1024 := by
  unfold Timer.prescaler
  split <;> omega

theorem timerTurn_effect (c : Nat) (s : State) (n : Fin 4) : BusEffect s (timerTurn c s n) := by
  refine BusEffect.ite (fun _ => ?_) fun _ => BusEffect.refl s
  refine (BusEffect.setTimer s n _ fun _ => ?_).trans (ticks_effect _ n _)
  have h := prescaler_le (s.timer n)
  exact Nat.lt_of_lt_of_le (Nat.mod_lt _ h.1) h.2

/-- `TimersUpdate(c)` (R701). -/
theorem timersUpdate_effect (s : State) (c : Nat) : BusEffect s (timersUpdate s c) :=
  (((timerTurn_effect c s 0).trans (timerTurn_effect c _ 1)).trans (timerTurn_effect c _ 2)).trans (timerTurn_effect c _ 3)

theorem copyUnits_effect (word fixed : Bool) (k : Nat) (s : State) (src dst : Word) :
    BusEffect s (copyUnits word fixed k s src dst) := by
  induction k generalizing s src dst with
  | zero => exact BusEffect.refl s
  | succ k ih =>
    have h1 : BusEffect s (if word then s.write32 dst (s.read32 src) else s.write16 dst (s.read16 src)) :=
      BusEffect.ite (fun _ => write32_effect s _ _) fun _ => write16_effect s _ _
    exact h1.trans (ih _ _ _)

theorem clearWords_effect (n : Nat) (s : State) (a : Word) : BusEffect s (clearWords n s a) := by
  induction n generalizing s a with
  | zero => exact BusEffect.refl s
  | succ n ih => exact (write32_effect s a 0).trans (ih _ _)

theorem writeBytes_effect (l : List Byte) (s : State) (a : Word) : BusEffect s (writeBytes l s a) := by
  induction l generalizing s a with
  | nil => exact BusEffect.refl s
  | cons b l ih => exact (write8_effect s a b).trans (ih _ _)

theorem writeHalves_effect (l : List Byte) (s : State) (a : Word) : BusEffect s (writeHalves l s a) := by
  fun_induction writeHalves l s a with
  | case1 s a => exact BusEffect.refl s
  | case2 b s a => exact write16_effect s a _
  | case3 b0 b1 rest s a ih => exact (write16_effect s a _).trans ih

theorem storeRegs_effect (value : Reg → Word) (ts : List (Reg × Word)) (s : State) :
    BusEffect s (storeRegs value ts s) := by
  unfold storeRegs
  induction ts generalizing s with
  | nil => exact BusEffect.refl s
  | cons t ts ih => exact (write32_effect s _ _).trans (ih _)

end Sys2Proof.Machine
end

