-- ==== Sys2Proof/Laws/Flags.lean ====
section
/-! SUPPORT. Laws/Flags.lean: the flag computations of Machine/Flags.lean are the exact ones of Safety.lean. -/

namespace Sys2Proof.Machine

theorem getLsbD_31 (v : Word) : v.getLsbD 31 = decide (v.toInt < 0) := by
  rw [← BitVec.msb_eq_toInt, BitVec.msb_eq_getLsbD_last]
theorem beq_zero (v : Word) : (v == 0#32) = decide (v.toNat = 0) := by
  rw [Bool.eq_iff_iff]; simp [BitVec.toNat_eq]
/-- The N and Z of a result, read as a number. -/
theorem nzFlags_eq (v : Word) (c o : Bool) : nzFlags v c o = resultFlags v c o := by
  simp only [nzFlags, resultFlags, getLsbD_31, beq_zero]
theorem toInt_cases (v : Word) : v.toInt = if v.toNat < 2^31 then (v.toNat : Int) else v.toNat - 2^32 := by
  have := v.isLt
  rw [BitVec.toInt_eq_toNat_cond]; split <;> split <;> omega
theorem neg_iff (v : Word) : v.toInt < 0 ↔ 2^31 ≤ v.toNat := by
  have := v.isLt
  rw [toInt_cases]; split <;> omega
theorem adcResult_eq (a b : Word) (c : Bool) : adcResult a b c = exactSum a b c := by
  apply BitVec.eq_of_toNat_eq
  cases c <;> simp [adcResult, exactSum, carryWord, BitVec.toNat_add]
theorem add_eq (a b : Word) : a + b = exactSum a b false := by
  apply BitVec.eq_of_toNat_eq; simp [exactSum, BitVec.toNat_add]
theorem sbcResult_eq (a b : Word) (c : Bool) : sbcResult a b c = exactDiff a b (!c) := by
  apply BitVec.eq_of_toNat_eq
  have := a.isLt; have := b.isLt
  cases c <;> simp [sbcResult, exactDiff, carryWord, BitVec.toNat_sub, BitVec.toNat_ofInt] <;> omega
theorem sub_eq (a b : Word) : a - b = exactDiff a b false := by
  apply BitVec.eq_of_toNat_eq
  have := a.isLt; have := b.isLt
  simp [exactDiff, BitVec.toNat_sub, BitVec.toNat_ofInt]; omega
theorem exactSum_toNat (a b : Word) (c : Bool) : (exactSum a b c).toNat = (a.toNat + b.toNat + c.toNat) % 2^32 := by
  simp [exactSum]
theorem exactDiff_toNat (a b : Word) (c : Bool) :
    ((exactDiff a b c).toNat : Int) = ((a.toNat : Int) - b.toNat - c.toNat) % 2^32 := by
  simp only [exactDiff, BitVec.toNat_ofInt]; omega
theorem addOverflow_eq (a b : Word) (c : Bool) :
    addOverflow a b (exactSum a b c) = overflows (a.toInt + b.toInt + c.toNat) := by
  have ha := a.isLt; have hb := b.isLt; have hc : c.toNat ≤ 1 := by cases c <;> decide
  have hr := exactSum_toNat a b c
  simp only [addOverflow, getLsbD_31, overflows, neg_iff]
  rw [toInt_cases, toInt_cases, Bool.eq_iff_iff]
  by_cases h1 : 2^31 ≤ a.toNat <;> by_cases h2 : 2^31 ≤ b.toNat <;> by_cases h3 : 2^31 ≤ (exactSum a b c).toNat <;>
    simp only [h1, h2, h3, Nat.not_lt.mpr, if_false, decide_true, decide_false] <;>
    simp <;> (try split) <;> (try split) <;> omega
theorem subOverflow_eq (a b : Word) (c : Bool) :
    subOverflow a b (exactDiff a b c) = overflows (a.toInt - b.toInt - c.toNat) := by
  have ha := a.isLt; have hb := b.isLt; have hc : c.toNat ≤ 1 := by cases c <;> decide
  have hr := exactDiff_toNat a b c
  simp only [subOverflow, getLsbD_31, overflows, neg_iff]
  rw [toInt_cases, toInt_cases, Bool.eq_iff_iff]
  by_cases h1 : 2^31 ≤ a.toNat <;> by_cases h2 : 2^31 ≤ b.toNat <;> by_cases h3 : 2^31 ≤ (exactDiff a b c).toNat <;>
    simp only [h1, h2, h3, decide_true, decide_false] <;>
    simp <;> (try split) <;> (try split) <;> omega
theorem addFlags_eq (a b : Word) : addFlags a b = flagsOfSum a b false := by
  simp only [addFlags, flagsOfSum, nzFlags_eq, add_eq, addOverflow_eq]; simp
theorem adcFlags_eq (a b : Word) (c : Bool) : adcFlags a b c = flagsOfSum a b c := by
  simp only [adcFlags, flagsOfSum, nzFlags_eq, adcResult_eq, addOverflow_eq]
theorem subFlags_eq (a b : Word) : subFlags a b = flagsOfDiff a b false := by
  simp only [subFlags, flagsOfDiff, nzFlags_eq, sub_eq, subOverflow_eq]
  congr 1; rw [decide_eq_decide]; simp
theorem sbcFlags_eq (a b : Word) (c : Bool) : sbcFlags a b c = flagsOfDiff a b (!c) := by
  simp only [sbcFlags, flagsOfDiff, nzFlags_eq, sbcResult_eq, subOverflow_eq]
theorem diff_decides (a b : Word) (f : Nzcv) (hf : f = flagsOfDiff a b false) :
    (f.z = true ↔ a = b) ∧ (f.c = true ↔ b.toNat ≤ a.toNat) ∧ (f.n = f.v ↔ b.toInt ≤ a.toInt) := by
  have ha := a.isLt; have hb := b.isLt
  have hr := exactDiff_toNat a b false
  have hg := neg_iff (exactDiff a b false)
  have hva := toInt_cases a; have hvb := toInt_cases b
  subst hf
  simp only [flagsOfDiff, resultFlags, overflows, Bool.toNat_false] at *
  refine ⟨?_, ?_, ?_⟩
  · rw [decide_eq_true_eq, ← BitVec.toNat_inj]; omega
  · rw [decide_eq_true_eq]; omega
  · rw [← Bool.decide_or, decide_eq_decide]
    split at hva <;> split at hvb <;> omega

theorem longFlags_eq (s : State) (p : BitVec 64) : longFlags s p = productFlags p s.flagC s.flagV := by
  simp only [longFlags, productFlags]
  congr 1
  · rw [← BitVec.msb_eq_toInt, BitVec.msb_eq_getLsbD_last]
  · rw [Bool.eq_iff_iff]; simp [BitVec.toNat_eq]

end Sys2Proof.Machine
end

