-- ==== Sys2Proof/Laws/Operands.lean ====
section
/-! SUPPORT. Laws/Operands.lean: the shifter bit by bit, the PSR masks, the branch offsets and the 64-bit products. -/

namespace Sys2Proof.Machine

/-- A rotated immediate (R161), bit by bit. -/
theorem rotatedImm_bit (imm8 : BitVec 8) (n k : Nat) (hk : k < 32) : (ror (imm8.zeroExtend 32) n).getLsbD k = imm8.getLsbD ((k + n) % 32) := by
  unfold ror
  rw [BitVec.getLsbD_rotateRight, BitVec.getLsbD_setWidth, BitVec.getLsbD_setWidth]
  by_cases h : k < 32 - n % 32
  · rw [show (k + n) % 32 = n % 32 + k by omega]; simp [h]; omega
  · rw [show (k + n) % 32 = k - (32 - n % 32) by omega]; simp [hk, h]; omega

theorem ror_bit (v : Word) (n k : Nat) (hk : k < 32) : (ror v n).getLsbD k = v.getLsbD ((k + n) % 32) := by
  unfold ror
  rw [BitVec.getLsbD_rotateRight]
  by_cases h : k < 32 - n % 32
  · rw [show (k + n) % 32 = n % 32 + k by omega]; simp [h]
  · rw [show (k + n) % 32 = k - (32 - n % 32) by omega]; simp [hk, h]

/-- Every bit of the sign word is bit 31. -/
theorem signWord_bit (v : Word) (k : Nat) (hk : k < 32) : (signWord v).getLsbD k = v.getLsbD 31 := by
  unfold signWord
  split
  · rename_i h; rw [h]; have : (0xFFFFFFFF#32) = BitVec.allOnes 32 := rfl
    rw [this, BitVec.getLsbD_allOnes]; simp [hk]
  · rename_i h; simp at h; simp [h]

/-- LSL, bit by bit. -/
theorem lsl_bit (v : Word) (n k : Nat) (hk : k < 32) : (v <<< n).getLsbD k = (decide (n ≤ k) && v.getLsbD (k - n)) := by
  rw [BitVec.getLsbD_shiftLeft]; simp [hk]; 
  by_cases h : n ≤ k <;> simp [h]

/-- LSR, bit by bit. -/
theorem lsr_bit (v : Word) (n k : Nat) : (v >>> n).getLsbD k = v.getLsbD (k + n) := by
  rw [BitVec.getLsbD_ushiftRight, Nat.add_comm]

/-- ASR, bit by bit. -/
theorem asr_bit (v : Word) (n k : Nat) (hk : k < 32) : (v.sshiftRight n).getLsbD k = v.getLsbD (min (k + n) 31) := by
  rw [BitVec.getLsbD_sshiftRight]
  by_cases h : n + k < 32
  · rw [show min (k + n) 31 = n + k by omega]; simp [h, hk]
  · rw [show min (k + n) 31 = 31 by omega, BitVec.msb_eq_getLsbD_last]; simp [h, hk]

/-- The product of UMULL is the exact one. -/
theorem umull_eq (a b : Word) (p : BitVec 64) (h : p.toNat = a.toNat * b.toNat) : p = unsignedProduct a b := by
  apply BitVec.eq_of_toNat_eq
  have h1 : a.toNat * b.toNat < 2^64 := h ▸ p.isLt
  have ha := a.isLt; have hb := b.isLt
  rw [h, unsignedProduct, BitVec.toNat_mul, BitVec.toNat_setWidth, BitVec.toNat_setWidth,
    Nat.mod_eq_of_lt (show a.toNat < 2^64 by omega), Nat.mod_eq_of_lt (show b.toNat < 2^64 by omega), Nat.mod_eq_of_lt h1]

/-- RdHi:RdLo as a number. -/
theorem accumulator_toNat (s : State) (hi lo : Reg) : (accumulator s hi lo).toNat = (s.reg hi).toNat * 2^32 + (s.reg lo).toNat := by
  rw [accumulator, BitVec.toNat_append, Nat.shiftLeft_eq, Nat.mul_comm, ← Nat.two_pow_add_eq_or_of_lt (s.reg lo).isLt]

/-- That of UMLAL, modulo 2^64. -/
theorem umlal_eq (a b : Word) (acc p : BitVec 64) (h : p.toNat = (a.toNat * b.toNat + acc.toNat) % 2^64) : p = unsignedProduct a b + acc := by
  apply BitVec.eq_of_toNat_eq
  have ha := a.isLt; have hb := b.isLt
  rw [h, BitVec.toNat_add, unsignedProduct, BitVec.toNat_mul, BitVec.toNat_setWidth, BitVec.toNat_setWidth,
    Nat.mod_eq_of_lt (show a.toNat < 2^64 by omega), Nat.mod_eq_of_lt (show b.toNat < 2^64 by omega)]
  omega

/-- The signed product modulo 2^64. -/
theorem signedProduct_mod (a b : Word) : ((signedProduct a b).toNat : Int) = (a.toInt * b.toInt) % 2^64 := by
  have h : signedProduct a b = BitVec.ofInt 64 (a.toInt * b.toInt) := by
    rw [BitVec.ofInt_mul]; rfl
  rw [h, BitVec.toNat_ofInt]; omega

/-- The sum of SMLAL, modulo 2^64. -/
theorem smlal_eq (a b : Word) (acc p : BitVec 64) (h : (p.toNat : Int) = (a.toInt * b.toInt + acc.toNat) % 2^64) : p = signedProduct a b + acc := by
  apply BitVec.eq_of_toNat_eq
  have := signedProduct_mod a b
  rw [BitVec.toNat_add]; omega

/-- The product of SMULL is the exact one. -/
theorem smull_eq (a b : Word) (p : BitVec 64) (h : p.toInt = a.toInt * b.toInt) : p = signedProduct a b := by
  apply BitVec.eq_of_toNat_eq
  have := signedProduct_mod a b
  rw [← h, BitVec.toInt_eq_toNat_cond] at this
  have hp := p.isLt
  split at this <;> omega

/-- The offset of B is the signed field times 4. -/
theorem armOffset_eq (o : BitVec 24) : armBranchOffset o = BitVec.ofInt 32 (4 * o.toInt) := by
  rw [armBranchOffset, BitVec.shiftLeft_eq_mul_twoPow, Int.mul_comm, BitVec.ofInt_mul]; rfl

/-- The PSR mask selects bit k by field k / 8. -/
theorem psrMask_bit (f : BitVec 4) (k : Nat) (hk : k < 32) : (psrMask f).getLsbD k = f.getLsbD (k / 8) := by
  have h : k / 8 = 0 ∨ k / 8 = 1 ∨ k / 8 = 2 ∨ k / 8 = 3 := by omega
  have e : ∀ f : BitVec 4, ∀ k : Fin 32, (psrMask f).getLsbD k = f.getLsbD (k / 8) := by decide +kernel
  exact e f ⟨k, hk⟩

/-- A merge, bit by bit. -/
theorem mergeBits_bit (old v m : Word) (k : Nat) (hk : k < 32) : (mergeBits old v m).getLsbD k = if m.getLsbD k then v.getLsbD k else old.getLsbD k := by
  rw [mergeBits, BitVec.getLsbD_or, BitVec.getLsbD_and, BitVec.getLsbD_and, BitVec.getLsbD_not]
  cases m.getLsbD k <;> simp [hk]

end Sys2Proof.Machine
end

