-- ==== Sys2Proof/Laws/Frame.lean ====
section
/-! SUPPORT. Laws/Frame.lean: the shared endings of the instructions, in the terms of Safety.lean. -/

namespace Sys2Proof.Machine

/-- No device is part of the CPU: what differs in the registers only reads the same everywhere. -/
theorem SameBeyondCpu.bytes {s t : State} (h : SameBeyondCpu s t) : SameBytes s t := by
  intro a
  have hio : ∀ off, ioRead16 t off = ioRead16 s off := by
    intro off; rw [h]; simp only [ioRead16, State.dmaChannel, State.timer, State.ioHalf]
  have hfl : ∀ off, flashRead t off = flashRead s off := by intro off; rw [h]; rfl
  have hgp : ∀ off, readGpio t off = readGpio s off := by intro off; rw [h]; rfl
  have hv : t.gpioVisible = s.gpioVisible := by rw [h]; rfl
  have hm : t.mem = s.mem := by rw [h]
  have hr : t.romSize = s.romSize := by rw [h]
  unfold State.read8
  simp only [hio, hfl, hgp, hv, hm, hr]

theorem SameBeyondCpu.refl (s : State) : SameBeyondCpu s s := rfl

/-- A changed register file, R15 or CPSR differs in nothing beyond the CPU. -/
theorem SameBeyondCpu.setRegIn {s t : State} (h : SameBeyondCpu s t) (m : Mode) (n : Reg) (v : Word) :
    SameBeyondCpu s (t.setRegIn m n v) := by
  unfold SameBeyondCpu at *; rw [State.setRegIn_eq]; rw [h]

theorem SameBeyondCpu.setReg {s t : State} (h : SameBeyondCpu s t) (n : Reg) (v : Word) :
    SameBeyondCpu s (t.setReg n v) := h.setRegIn _ n v

theorem SameBeyondCpu.setFlagsIf {s t : State} (h : SameBeyondCpu s t) (b : Bool) (f : Nzcv) :
    SameBeyondCpu s (t.setFlagsIf b f) := by
  cases b
  · exact h
  · unfold SameBeyondCpu at *; rw [h]; rfl

theorem SameBeyondCpu.setFlags {s t : State} (h : SameBeyondCpu s t) (f : Nzcv) : SameBeyondCpu s (t.setFlags f) :=
  h.setFlagsIf true f

theorem SameBeyondCpu.advance {s t : State} (h : SameBeyondCpu s t) : SameBeyondCpu s t.advance := by
  unfold SameBeyondCpu at *; rw [h]; rfl

/-! ## Flags -/

theorem withFlags_nzcv (s : State) (f : Nzcv) : (s.setFlags f).nzcv = f := by
  simp only [State.nzcv, State.flagN, State.flagZ, State.flagC, State.flagV, State.setFlags_cpsr, withFlags_getLsbD]
  rfl

theorem setFlagsIf_nzcv (s : State) (b : Bool) (f : Nzcv) : (s.setFlagsIf b f).nzcv = if b then f else s.nzcv := by
  cases b
  · rfl
  · exact withFlags_nzcv s f

theorem nzcv_congr {s t : State} (h : t.cpsr = s.cpsr) : t.nzcv = s.nzcv := by
  simp [State.nzcv, State.flagN, State.flagZ, State.flagC, State.flagV, h]

theorem SameControl.of_cpsr {s t : State} (h : t.cpsr = s.cpsr) : SameControl s t := fun _ _ => by rw [h]

theorem SameControl.setFlagsIf (s : State) (b : Bool) (f : Nzcv) : SameControl s (s.setFlagsIf b f) := by
  intro k hk
  cases b
  · rfl
  · show (withFlags s.cpsr f).getLsbD k = _
    rw [withFlags_getLsbD, if_neg (by omega), if_neg (by omega), if_neg (by omega), if_neg (by omega)]

/-! ## Writing one register -/

/-- A register and the flags written, and the pc advanced. -/
theorem writes_setReg (s : State) (rd : Reg) (v : Word) (b : Bool) (f : Nzcv) (h : rd ≠ 15) :
    Writes s ((s.setReg rd v).setFlagsIf b f).advance rd v := by
  have hb : SameBeyondCpu s ((s.setReg rd v).setFlagsIf b f).advance :=
    (((SameBeyondCpu.refl s).setReg rd v).setFlagsIf b f).advance
  refine ⟨?_, ?_, ?_, ?_, hb, hb.bytes⟩
  · rw [State.reg_congr (s := s.setReg rd v) (by simp) (by simp) rd h, State.reg_setReg_same _ _ _ h]
  · show ((s.setReg rd v).setFlagsIf b f).r15 + instrWidth ((s.setReg rd v).setFlagsIf b f).thumb = _
    simp
  · intro j hj
    rw [State.advance_regs, State.setFlagsIf_regs]
    exact State.setRegIn_cell s s.mode rd v j (hj rd (by simp))
  · intro k hk
    have := SameControl.setFlagsIf (s.setReg rd v) b f k hk
    rw [State.advance_cpsr, this, State.setReg_cpsr]

/-- Only the flags written, and the pc advanced. -/
theorem frame_setFlags (s : State) (f : Nzcv) : RegisterFrame [] s (s.setFlags f).advance := by
  have hb : SameBeyondCpu s (s.setFlags f).advance := ((SameBeyondCpu.refl s).setFlags f).advance
  exact ⟨fun j _ => rfl, SameControl.setFlagsIf s true f, hb, hb.bytes⟩

theorem setFlagsIf_false (s : State) (f : Nzcv) : s.setFlagsIf false f = s := rfl

theorem writesResult_of {i : Instr} {s : State} {rd : Reg} {v : Word} {b : Bool} {f : Nzcv} (h : rd ≠ 15)
    (he : exec i s = .next ((s.setReg rd v).setFlagsIf b f).advance) : WritesResult i s rd v b f := by
  refine ⟨_, he, writes_setReg s rd v b f h, ?_⟩
  rw [nzcv_congr (State.advance_cpsr _), setFlagsIf_nzcv, nzcv_congr (State.setReg_cpsr ..)]

theorem writesFlags_of {i : Instr} {s : State} {f : Nzcv} (he : exec i s = .next (s.setFlags f).advance) :
    WritesFlags i s f := by
  refine ⟨_, he, ?_, ?_, frame_setFlags s f⟩
  · rw [nzcv_congr (State.advance_cpsr _), withFlags_nzcv]
  · show (s.setFlags f).r15 + instrWidth (s.setFlags f).thumb = _
    simp

/-- A data-processing ending that writes a register other than R15. -/
theorem writesResult_alu {i : Instr} {s : State} {rd : Reg} {v : Word} {b : Bool} {f : Nzcv} (h : rd ≠ 15)
    (he : exec i s = finishAlu s b rd v f) : WritesResult i s rd v b f :=
  writesResult_of h (by rw [he, finishAlu, if_neg h])

/-! ## Branches -/

theorem pcRefused_iff (s : State) (v : Word) : s.pcRefused v = true ↔ Refused s v := by
  unfold State.pcRefused Refused; cases s.params.pcGuard <;> cases s.mapped v <;> decide

/-- What `jump` answers. -/
theorem branches_of_jump {i : Instr} {s u : State} {v : Word} (he : exec i s = jump s u v) : Branches i s u v := by
  constructor
  · intro h
    rw [OnlyAdvances, he, jump, if_pos ((pcRefused_iff s v).mpr h)]; rfl
  · intro h
    rw [he, jump, if_neg (fun h' => h ((pcRefused_iff s v).mp h'))]; rfl

/-- A conditional instruction whose condition passes. -/
theorem conditionally_pos {c : Cond} {s : State} {f : State → Result} (h : s.passes c = true) :
    conditionally c s f = f s := if_pos h

/-- An instruction whose meaning is conditional, when its condition passes. -/
theorem passing {c : Cond} {s : State} {f : State → Result} {r r' : Result} (h : s.passes c = true)
    (he : r = conditionally c s f) (hf : f s = r') : r = r' := (he.trans (conditionally_pos h)).trans hf

theorem eq_of_bitwise {f : Bool → Bool → Bool} {a b v w : Word} (hv : Bitwise f a b v) (hw : Bitwise f a b w) : v = w :=
  BitVec.eq_of_getLsbD_eq fun k hk => by rw [hv k hk, hw k hk]

theorem writesResult_write {i : Instr} {s : State} {rd : Reg} {v : Word} {b : Bool} {f : Nzcv} (h : rd ≠ 15)
    (he : exec i s = finishWrite s (s.setFlagsIf b f) rd v) : WritesResult i s rd v b f := by
  rw [finishWrite, if_neg h] at he
  have : (s.setFlagsIf b f).setReg rd v = (s.setReg rd v).setFlagsIf b f := by
    cases b
    · rfl
    · show (s.setFlags f).setReg rd v = (s.setReg rd v).setFlags f
      unfold State.setReg
      rw [State.setFlags_mode, State.setRegIn_eq]
      rw [State.setRegIn_eq s]
      simp [State.setFlags, State.setRegIn_regs]
  rw [this] at he
  exact writesResult_of h he

theorem nzcv_setReg (s : State) (n : Reg) (v : Word) : (s.setReg n v).nzcv = s.nzcv := nzcv_congr (State.setReg_cpsr ..)

theorem reg_advance (s : State) (n : Reg) (h : n ≠ 15) : s.advance.reg n = s.reg n :=
  State.reg_congr (State.advance_regs s) (State.advance_mode s) n h

theorem branchTo_setReg (s : State) (n : Reg) (v w : Word) : (s.branchTo w).setReg n v = (s.setReg n v).branchTo w := by
  unfold State.setReg
  rw [State.branchTo_mode, State.setRegIn_eq, State.setRegIn_eq s]
  simp [State.branchTo, State.setRegIn_regs, State.thumb]

theorem writesLong_of {i : Instr} {s : State} {rdHi rdLo : Reg} {p : BitVec 64} {b : Bool} (h1 : rdHi ≠ 15) (h2 : rdLo ≠ 15)
    (he : exec i s = finishLong s b rdHi rdLo p) : WritesLong i s rdHi rdLo p b := by
  rw [finishLong] at he
  simp only [longFlags_eq] at he
  rw [if_neg h2, finishWrite, if_neg h1] at he
  have hb : SameBeyondCpu s ((((s.setFlagsIf b (productFlags p s.flagC s.flagV)).setReg rdLo (p.extractLsb' 0 32)).setReg rdHi
    (p.extractLsb' 32 32)).advance) := ((((SameBeyondCpu.refl s).setFlagsIf b _).setReg _ _).setReg _ _).advance
  refine ⟨_, he, ?_, fun h => ?_, ?_, ⟨?_, ?_, hb, hb.bytes⟩, ?_⟩
  · rw [reg_advance _ _ h1, State.reg_setReg_same _ _ _ h1]
  · rw [reg_advance _ _ h2, State.reg_setReg_other _ _ _ _ h, State.reg_setReg_same _ _ _ h2]
  · show State.r15 (State.setReg _ _ _) + instrWidth (State.thumb (State.setReg _ _ _)) = _
    simp
  · intro j hj
    rw [State.advance_regs]
    unfold State.setReg
    rw [State.setRegIn_cell, State.setRegIn_cell, State.setFlagsIf_regs]
    · simpa using hj rdLo (by simp)
    · simpa using hj rdHi (by simp)
  · intro k hk
    rw [State.advance_cpsr, State.setReg_cpsr, State.setReg_cpsr]
    exact SameControl.setFlagsIf s b _ k hk
  · rw [nzcv_congr (State.advance_cpsr _), nzcv_setReg, nzcv_setReg, setFlagsIf_nzcv]

theorem exchanges_of {i : Instr} {s u : State} {v : Word} (he : exec i s = jumpExchange s u v) : Exchanges i s u v := by
  rw [jumpExchange, show (~~~1#32) = 0xFFFFFFFE#32 by decide] at he
  refine ⟨fun h => ?_, fun h => ?_⟩
  · rw [OnlyAdvances, he, if_pos ((pcRefused_iff s _).mpr h)]; rfl
  · refine ⟨u.branchExchange v, ?_, rfl, ?_, fun k hk => ?_, ?_⟩
    · rw [he, if_neg (fun h' => h ((pcRefused_iff s _).mp h'))]
    · show (setBit _ _ _).getLsbD 5 = _
      rw [setBit_getLsbD _ _ _ _ (by omega), if_pos rfl]
    · show (setBit _ _ _).getLsbD k = _
      rw [setBit_getLsbD _ _ _ _ (by omega), if_neg hk]
    · rfl

theorem setSpsr_advance (s : State) (m : Mode) (v : Word) : (s.setSpsrOf m v).advance = { s.setSpsrOf m v with r15 := s.r15 + instrWidth s.thumb } := by
  cases m <;> rfl

end Sys2Proof.Machine
end

