-- ==== Sys2Proof/Laws/Memory.lean ====
section
/-! SUPPORT. Laws/Memory.lean: what a store to plain RAM does to the bytes of the address space (R82 to R84, R90, R91). -/

namespace Sys2Proof.Machine

/-- The keys of the RAM buffers: work RAM, palette, VRAM, OAM. -/
def isRamKey (k : Nat) : Prop := (0x02000000 ≤ k ∧ k < 0x04000000) ∨ (0x05000000 ≤ k ∧ k < 0x08000000)

/-- The key of a RAM address as a function of its bus address. -/
def ramKey (n : Nat) : Nat :=
  match n / 2^24 with
  | 2 => 0x02000000 + n % 0x40000
  | 5 => 0x05000000 + n % 0x400
  | 6 => 0x06000000 + vramOffset n
  | 7 => 0x07000000 + n % 0x400
  | _ => 0x03000000 + n % 0x8000

theorem isRam_cases {r : Nat} (h : isRam r = true) : r = 1 ∨ r = 2 ∨ r = 3 ∨ r = 5 ∨ r = 6 ∨ r = 7 := by
  unfold isRam at h; split at h <;> simp_all

/-- A RAM address has a key, whatever the size of the ROM. -/
theorem bufferKey_ram (romSize : Nat) (a : Word) (h : isRam (regionOf a) = true) :
    bufferKey romSize a = some (ramKey (busAddr a)) := by
  have hr : regionOf a = busAddr a / 2^24 := rfl
  have ho : offsetOf a = busAddr a % 2^24 := rfl
  have h1 : offsetOf a % 0x8000 = busAddr a % 0x8000 := by omega
  have h2 : offsetOf a % 0x40000 = busAddr a % 0x40000 := by omega
  have h3 : offsetOf a % 0x400 = busAddr a % 0x400 := by omega
  have h4 : offsetOf a % 0x20000 = busAddr a % 0x20000 := by omega
  unfold bufferKey ramKey
  rcases isRam_cases h with e | e | e | e | e | e <;> rw [← hr, e] <;> simp only [h1, h2, h3, h4, vramOffset]

theorem ramKey_isRamKey (a : Word) (h : isRam (regionOf a) = true) : isRamKey (ramKey (busAddr a)) := by
  have hb := bufferKey_ram 0 a h
  unfold isRamKey
  rcases bufferKey_cases hb with ⟨e, _⟩ | ⟨e, _⟩ | ⟨e, _⟩ | ⟨e, _⟩ | ⟨e, _⟩ | ⟨e, _⟩ | ⟨e | e, _⟩ <;>
    first | omega | (rw [e] at h; cases h)

/-- The bus address of a byte of an aligned word. -/
theorem busAddr_add (a : Word) (i : Nat) (ha : a.toNat % 4 = 0) (hi : i < 4) :
    busAddr (a + BitVec.ofNat 32 i) = busAddr a + i := by
  have := a.isLt
  simp only [busAddr, BitVec.toNat_add, BitVec.toNat_ofNat]; omega

theorem busAddr_lt (a : Word) : busAddr a < 2^28 := Nat.mod_lt _ (by decide)

theorem busAddr_mod4 (a : Word) (ha : a.toNat % 4 = 0) : busAddr a % 4 = 0 := by unfold busAddr; omega

/-- The key by region, as arithmetic. -/
theorem ramKey_cases (n : Nat) :
    (n / 2^24 = 2 ∧ ramKey n = 0x02000000 + n % 0x40000)
    ∨ (n / 2^24 = 5 ∧ ramKey n = 0x05000000 + n % 0x400)
    ∨ (n / 2^24 = 6 ∧ n % 0x20000 < 0x18000 ∧ ramKey n = 0x06000000 + n % 0x20000)
    ∨ (n / 2^24 = 6 ∧ 0x18000 ≤ n % 0x20000 ∧ ramKey n + 0x8000 = 0x06000000 + n % 0x20000)
    ∨ (n / 2^24 = 7 ∧ ramKey n = 0x07000000 + n % 0x400)
    ∨ (n / 2^24 ≠ 2 ∧ n / 2^24 ≠ 5 ∧ n / 2^24 ≠ 6 ∧ n / 2^24 ≠ 7 ∧ ramKey n = 0x03000000 + n % 0x8000) := by
  generalize hr : ramKey n = r
  unfold ramKey at hr
  split at hr <;> rename_i e
  · exact .inl ⟨e, hr.symm⟩
  · exact .inr (.inl ⟨e, hr.symm⟩)
  · unfold vramOffset at hr
    simp only at hr
    by_cases h : n % 0x20000 < 0x18000
    · rw [if_pos h] at hr; exact .inr (.inr (.inl ⟨e, h, hr.symm⟩))
    · rw [if_neg h] at hr; have hr' : 0x06000000 + (n % 0x20000 - 0x8000) = r := hr
      exact .inr (.inr (.inr (.inl ⟨e, by omega, by omega⟩)))
  · exact .inr (.inr (.inr (.inr (.inl ⟨e, hr.symm⟩))))
  · rename_i e2 e5 e6
    exact .inr (.inr (.inr (.inr (.inr ⟨e2, e5, e6, e, hr.symm⟩))))

/-- The four bytes of an aligned word have consecutive keys. -/
theorem ramKey_add (n i : Nat) (hn : n % 4 = 0) (hi : i < 4) : ramKey (n + i) = ramKey n + i := by
  have h := ramKey_cases n
  have h' := ramKey_cases (n + i)
  have h1 : (n + i) / 2^24 = n / 2^24 := by omega
  rw [h1] at h'
  omega

/-- The key of an aligned word is aligned. -/
theorem ramKey_mod4 (n : Nat) (hn : n % 4 = 0) : ramKey n % 4 = 0 := by
  have h := ramKey_cases n
  omega

theorem regionOf_add (a : Word) (i : Nat) (ha : a.toNat % 4 = 0) (hi : i < 4) :
    regionOf (a + BitVec.ofNat 32 i) = regionOf a := by
  unfold regionOf; rw [busAddr_add a i ha hi]; have := busAddr_mod4 a ha; omega

/-- Different words of one block have different keys (a block spans 64 bytes, less than any mirror). -/
theorem ramKey_ne (n m : Nat) (hn : n % 4 = 0) (hm : m % 4 = 0) (hne : n ≠ m) (hd : m < n + 64) (hd' : n < m + 64)
    (h1 : isRam (n / 2^24) = true) (h2 : isRam (m / 2^24) = true) : ramKey n ≠ ramKey m := by
  have h := ramKey_cases n
  have h' := ramKey_cases m
  rcases isRam_cases h1 with e | e | e | e | e | e <;> rcases isRam_cases h2 with e' | e' | e' | e' | e' | e' <;> omega

/-! ## Reads after a write to a buffer -/

theorem ioRead16_set (s : State) (k : Nat) (v : Byte) (off : Nat) (hk : isRamKey k) (ho : off < 0x400) (he : off % 2 = 0) :
    ioRead16 { s with mem := Memory.set s.mem k v } off = ioRead16 s off := by
  have h1 : Memory.get (Memory.set s.mem k v) (ioKey off) = Memory.get s.mem (ioKey off) :=
    Memory.get_set_other _ _ (by unfold ioKey; unfold isRamKey at hk; omega)
  have h2 : Memory.get (Memory.set s.mem k v) (ioKey (off + 1)) = Memory.get s.mem (ioKey (off + 1)) :=
    Memory.get_set_other _ _ (by unfold ioKey; unfold isRamKey at hk; omega)
  simp only [ioRead16, State.dmaChannel, State.timer, State.ioHalf, h1, h2]

/-- A byte stored in RAM is read at its address and its mirrors; every other byte reads as before. -/
theorem read8_set (s : State) (k : Nat) (v : Byte) (b : Word) (hk : isRamKey k) :
    ({ s with mem := Memory.set s.mem k v } : State).read8 b
      = if bufferKey s.romSize b = some k then v else s.read8 b := by
  unfold State.read8
  simp only
  split
  · rename_i hr
    have hn : bufferKey s.romSize b = none := by unfold bufferKey; simp only [hr]
    rw [hn, if_neg (show ¬ (none : Option Nat) = some k by simp)]
    by_cases ho : offsetOf b < 0x400
    · rw [if_pos ho, if_pos ho, ioRead16_set s k v _ hk (by omega) (by omega)]
    · rw [if_neg ho, if_neg ho]
  · rename_i hr
    have hn : bufferKey s.romSize b = none := by unfold bufferKey; simp only [hr]
    rw [hn, if_neg (show ¬ (none : Option Nat) = some k by simp)]
    unfold flashRead
    simp only
    rw [Memory.get_set_other _ _ (by unfold flashKey; unfold isRamKey at hk; omega)]
  · by_cases hg : regionOf b = 8 ∧ s.gpioVisible = true ∧ inGpioWindow (romOffset b) = true
    · have hne : bufferKey s.romSize b ≠ some k := fun hb => by
        rcases bufferKey_cases hb with ⟨e, _⟩ | ⟨e, _⟩ | ⟨e, _⟩ | ⟨e, _⟩ | ⟨e, _⟩ | ⟨e, _⟩ | ⟨e | e, _⟩ <;>
          unfold isRamKey at hk <;> omega
      rw [if_neg hne, if_pos hg]
      exact if_pos hg
    · rw [if_neg hg]
      refine (if_neg (c := _ ∧ _ ∧ _) hg).trans ?_
      cases hb : bufferKey s.romSize b with
      | none => rfl
      | some k' =>
        simp only
        rw [Memory.get_set]
        by_cases e : k' = k
        · simp [e]
        · simp [e]

/-! ## Stores of a byte, a halfword and a word -/

/-- One byte of the store replaced. -/
def State.setByte (s : State) (k : Nat) (v : Byte) : State := { s with mem := Memory.set s.mem k v }

theorem setByte_eq (s : State) (k : Nat) (v : Byte) : s.setByte k v = { s with mem := (s.setByte k v).mem } := rfl

@[simp] theorem setByte_romSize (s : State) (k : Nat) (v : Byte) : (s.setByte k v).romSize = s.romSize := rfl

theorem read8_setByte (s : State) (k : Nat) (v : Byte) (b : Word) (hk : isRamKey k) :
    (s.setByte k v).read8 b = if bufferKey s.romSize b = some k then v else s.read8 b := read8_set s k v b hk

theorem storeByte_ram (s : State) (a : Word) (v : Byte) (h : isRam (regionOf a) = true) :
    storeByte s a v = s.setByte (ramKey (busAddr a)) v := by
  unfold storeByte State.setByte; rw [bufferKey_ram _ _ h]

theorem sameByte_ram (romSize : Nat) (a b : Word) (h : isRam (regionOf a) = true) :
    sameByte romSize b a ↔ bufferKey romSize b = some (ramKey (busAddr a)) := by
  unfold sameByte; rw [bufferKey_ram romSize a h]

theorem align4_mod4 (a : Word) : (align4 a).toNat % 4 = 0 := by rw [align4_toNat]; omega

/-- A word stored in RAM, as four bytes of the store. -/
theorem storeWord_ram (s : State) (a v : Word) (h : isRam (regionOf a) = true) (ha : a.toNat % 4 = 0) :
    storeWord s a v = (((s.setByte (ramKey (busAddr a)) (byteOf v 0)).setByte (ramKey (busAddr a) + 1) (byteOf v 1)).setByte
      (ramKey (busAddr a) + 2) (byteOf v 2)).setByte (ramKey (busAddr a) + 3) (byteOf v 3) := by
  have hr : ∀ i, i < 4 → isRam (regionOf (a + BitVec.ofNat 32 i)) = true := fun i hi => by rw [regionOf_add a i ha hi]; exact h
  have hk : ∀ i, i < 4 → ramKey (busAddr (a + BitVec.ofNat 32 i)) = ramKey (busAddr a) + i := fun i hi => by
    rw [busAddr_add a i ha hi, ramKey_add _ _ (busAddr_mod4 a ha) hi]
  unfold storeWord
  rw [storeByte_ram _ a _ h, storeByte_ram _ (a + 1) _ (hr 1 (by omega)), storeByte_ram _ (a + 2) _ (hr 2 (by omega)),
    storeByte_ram _ (a + 3) _ (hr 3 (by omega))]
  rw [show ramKey (busAddr (a + 1)) = _ from hk 1 (by omega), show ramKey (busAddr (a + 2)) = _ from hk 2 (by omega),
    show ramKey (busAddr (a + 3)) = _ from hk 3 (by omega)]

/-- A halfword stored in RAM at an even address. -/
theorem storeHalf_ram (s : State) (a : Word) (v : Half) (h : isRam (regionOf a) = true) (ha : a.toNat % 2 = 0) :
    storeHalf s a v = (s.setByte (ramKey (busAddr a)) (loByte v)).setByte (ramKey (busAddr a) + 1) (hiByte v) := by
  have hlt := a.isLt
  have hb : busAddr (a + 1) = busAddr a + 1 := by
    have h1 : (1 : Word).toNat = 1 := rfl
    simp only [busAddr, BitVec.toNat_add, h1]; omega
  have hb0 : busAddr a % 2 = 0 := by unfold busAddr; omega
  have hr : isRam (regionOf (a + 1)) = true := by
    have : regionOf (a + 1) = regionOf a := by unfold regionOf; rw [hb]; omega
    rw [this]; exact h
  have hk : ramKey (busAddr a + 1) = ramKey (busAddr a) + 1 := by
    have h1 := ramKey_cases (busAddr a)
    have h2 := ramKey_cases (busAddr a + 1)
    have h3 : (busAddr a + 1) / 2^24 = busAddr a / 2^24 := by omega
    rw [h3] at h2
    omega
  unfold storeHalf
  rw [storeByte_ram _ a _ h, storeByte_ram _ (a + 1) _ hr, hb, hk]

theorem isRamKey_add (a : Word) (i : Nat) (h : isRam (regionOf a) = true) (ha : a.toNat % 4 = 0) (hi : i < 4) :
    isRamKey (ramKey (busAddr a) + i) := by
  have h1 := ramKey_isRamKey (a + BitVec.ofNat 32 i) (by rw [regionOf_add a i ha hi]; exact h)
  rwa [busAddr_add a i ha hi, ramKey_add _ _ (busAddr_mod4 a ha) hi] at h1

/-- Which byte of a stored word an address reads. -/
theorem read8_storeWord (s : State) (a v b : Word) (h : isRam (regionOf a) = true) (ha : a.toNat % 4 = 0) :
    (∀ i, i < 4 → bufferKey s.romSize b = some (ramKey (busAddr a) + i) → (storeWord s a v).read8 b = byteOf v i)
    ∧ ((∀ i, i < 4 → bufferKey s.romSize b ≠ some (ramKey (busAddr a) + i)) → (storeWord s a v).read8 b = s.read8 b) := by
  have hk : ∀ i, i < 4 → isRamKey (ramKey (busAddr a) + i) := fun i hi => isRamKey_add a i h ha hi
  have e : (storeWord s a v).read8 b =
      if bufferKey s.romSize b = some (ramKey (busAddr a) + 3) then byteOf v 3
      else if bufferKey s.romSize b = some (ramKey (busAddr a) + 2) then byteOf v 2
      else if bufferKey s.romSize b = some (ramKey (busAddr a) + 1) then byteOf v 1
      else if bufferKey s.romSize b = some (ramKey (busAddr a) + 0) then byteOf v 0 else s.read8 b := by
    rw [storeWord_ram s a v h ha, read8_setByte _ _ _ _ (hk 3 (by omega)), read8_setByte _ _ _ _ (hk 2 (by omega)),
      read8_setByte _ _ _ _ (hk 1 (by omega)), read8_setByte _ (ramKey (busAddr a)) _ _ (hk 0 (by omega))]
    rfl
  rw [e]
  constructor
  · intro i hi hb
    rw [hb]
    have : i = 0 ∨ i = 1 ∨ i = 2 ∨ i = 3 := by omega
    rcases this with rfl | rfl | rfl | rfl <;> simp
  · intro hb
    rw [if_neg (hb 3 (by omega)), if_neg (hb 2 (by omega)), if_neg (hb 1 (by omega)), if_neg (hb 0 (by omega))]

/-- A word stored in RAM (R82 to R84, R91). -/
theorem storesBytes_word (s : State) (a v : Word) (h : isRam (regionOf a) = true) (ha : a.toNat % 4 = 0) :
    StoresBytes s (storeWord s a v) a 4 (byteOf v) := by
  have hs : ∀ i, i < 4 → ∀ b, sameByte s.romSize b (a + BitVec.ofNat 32 i) ↔
      bufferKey s.romSize b = some (ramKey (busAddr a) + i) := by
    intro i hi b
    rw [sameByte_ram _ _ _ (by rw [regionOf_add a i ha hi]; exact h), busAddr_add a i ha hi,
      ramKey_add _ _ (busAddr_mod4 a ha) hi]
  refine ⟨fun i hi b hb => (read8_storeWord s a v b h ha).1 i hi ((hs i hi b).mp hb), fun b hb => ?_⟩
  exact (read8_storeWord s a v b h ha).2 fun i hi he => hb i hi ((hs i hi b).mpr he)

/-- A halfword stored in RAM. -/
theorem storesBytes_half (s : State) (a : Word) (v : Half) (h : isRam (regionOf a) = true) (ha : a.toNat % 2 = 0) :
    StoresBytes s (storeHalf s a v) a 2 (fun i => v.extractLsb' (8 * i) 8) := by
  have hlt := a.isLt
  have hb1 : busAddr (a + 1) = busAddr a + 1 := by
    have h1 : (1 : Word).toNat = 1 := rfl
    simp only [busAddr, BitVec.toNat_add, h1]; omega
  have hr1 : isRam (regionOf (a + 1)) = true := by
    have hb0 : busAddr a % 2 = 0 := by unfold busAddr; omega
    have : regionOf (a + 1) = regionOf a := by unfold regionOf; rw [hb1]; omega
    rw [this]; exact h
  have hk1 : ramKey (busAddr (a + 1)) = ramKey (busAddr a) + 1 := by
    have hb0 : busAddr a % 2 = 0 := by unfold busAddr; omega
    have h1 := ramKey_cases (busAddr a)
    have h2 := ramKey_cases (busAddr a + 1)
    have h3 : (busAddr a + 1) / 2^24 = busAddr a / 2^24 := by omega
    rw [hb1]
    rw [h3] at h2
    omega
  have hs0 : ∀ b, sameByte s.romSize b (a + BitVec.ofNat 32 0) ↔ bufferKey s.romSize b = some (ramKey (busAddr a)) := by
    intro b
    rw [show a + BitVec.ofNat 32 0 = a by simp]; exact sameByte_ram _ _ _ h
  have hs1 : ∀ b, sameByte s.romSize b (a + BitVec.ofNat 32 1) ↔ bufferKey s.romSize b = some (ramKey (busAddr a) + 1) := by
    intro b
    rw [← hk1]; exact sameByte_ram _ _ _ hr1
  have e : ∀ b, (storeHalf s a v).read8 b =
      if bufferKey s.romSize b = some (ramKey (busAddr a) + 1) then hiByte v
      else if bufferKey s.romSize b = some (ramKey (busAddr a)) then loByte v else s.read8 b := by
    intro b
    rw [storeHalf_ram s a v h ha, read8_setByte _ _ _ _ (by rw [← hk1]; exact ramKey_isRamKey _ hr1),
      read8_setByte _ _ _ _ (ramKey_isRamKey _ h)]
    rfl
  refine ⟨fun i hi b hb => ?_, fun b hb => ?_⟩
  · have : i = 0 ∨ i = 1 := by omega
    rcases this with rfl | rfl
    · rw [e, (hs0 b).mp hb, if_neg (by simp), if_pos rfl]; rfl
    · rw [e, (hs1 b).mp hb, if_pos rfl]; rfl
  · rw [e, if_neg (fun h => hb 1 (by omega) ((hs1 b).mpr h)), if_neg (fun h => hb 0 (by omega) ((hs0 b).mpr h))]

/-- A byte stored in RAM. -/
theorem storesBytes_byte (s : State) (a : Word) (v : Byte) (h : isRam (regionOf a) = true) :
    StoresBytes s (storeByte s a v) a 1 (fun _ => v) := by
  have hs : ∀ b, sameByte s.romSize b (a + BitVec.ofNat 32 0) ↔ bufferKey s.romSize b = some (ramKey (busAddr a)) := by
    intro b
    rw [show a + BitVec.ofNat 32 0 = a by simp]; exact sameByte_ram _ _ _ h
  refine ⟨fun i hi b hb => ?_, fun b hb => ?_⟩
  · obtain rfl : i = 0 := by omega
    rw [storeByte_ram s a v h, read8_setByte _ _ _ _ (ramKey_isRamKey a h), if_pos ((hs b).mp hb)]
  · rw [storeByte_ram s a v h, read8_setByte _ _ _ _ (ramKey_isRamKey a h), if_neg (fun h => hb 0 (by omega) ((hs b).mpr h))]

/-! ## The bus writes -/

theorem write32_ram (s : State) (a v : Word) (h : isRam (regionOf a) = true) : s.write32 a v = storeWord s (align4 a) v := by
  unfold State.write32 write32With; simp [h]

theorem write16_ram (s : State) (a : Word) (v : Half) (h : isRam (regionOf a) = true) :
    s.write16 a v = storeHalf s (align2 a) v := by
  unfold State.write16 write16With; simp [h]

theorem append_bit (h l : Byte) (k : Nat) : (h ++ l).getLsbD k = if k < 8 then l.getLsbD k else h.getLsbD (k - 8) := by
  rw [BitVec.getLsbD_append];

/-- A wider read is the bytes of its address (R90), but in flash. -/
theorem read16_bit (s : State) (a : Word) (h : regionOf a ≠ 14) (k : Nat) (hk : k < 16) :
    (s.read16 a).getLsbD k = (s.read8 (align2 a + BitVec.ofNat 32 (k / 8))).getLsbD (k % 8) := by
  rw [State.read16, if_neg h, append_bit _ _ _]
  by_cases h8 : k < 8
  · rw [if_pos h8, show k / 8 = 0 by omega, show k % 8 = k by omega]; simp
  · rw [if_neg h8, show k / 8 = 1 by omega, show k % 8 = k - 8 by omega]; rfl

theorem read32_bit (s : State) (a : Word) (h : regionOf a ≠ 14) (k : Nat) (hk : k < 32) :
    (s.read32 a).getLsbD k = (s.read8 (align4 a + BitVec.ofNat 32 (k / 8))).getLsbD (k % 8) := by
  rw [State.read32, if_neg h]
  simp only [BitVec.getLsbD_append]
  by_cases h8 : k < 8
  · rw [if_pos h8, show k / 8 = 0 by omega, show k % 8 = k by omega]; simp
  · rw [if_neg h8]
    by_cases h16 : k < 16
    · rw [if_pos (by omega), show k / 8 = 1 by omega, show k % 8 = k - 8 by omega]; rfl
    · rw [if_neg (by omega)]
      by_cases h24 : k < 24
      · rw [if_pos (by omega), show k / 8 = 2 by omega, show k % 8 = k - 8 - 8 by omega]; rfl
      · rw [if_neg (by omega), show k / 8 = 3 by omega, show k % 8 = k - 8 - 8 - 8 by omega]; rfl

/-- An unmapped byte reads 0, but for a visible GPIO register (R86, R88). -/
theorem read8_unmapped (s : State) (a : Word) (h : s.mapped a = false)
    (hg : ¬ (regionOf a = 8 ∧ s.gpioVisible = true ∧ inGpioWindow (romOffset a) = true)) : s.read8 a = 0 := by
  have hd : busAddr a / 2^24 = regionOf a := rfl
  have ho : busAddr a % 2^24 = offsetOf a := rfl
  have hb := busAddr_lt a
  unfold State.mapped mappedIn at h
  simp only [hd, ho] at h
  unfold State.read8
  simp only
  split
  · rename_i hr
    rw [hr] at h
    simp only [decide_eq_false_iff_not] at h
    rw [if_neg h]
  · rename_i hr
    rw [hr] at h; simp at h
  · have hn : bufferKey s.romSize a = none := by
      unfold bufferKey
      simp only
      split at h <;> rename_i hr <;> simp at h
      · simp only [hr]; rw [if_neg (by omega)]
      · exact absurd hr (by assumption)
      · simp only [hr]; rw [if_neg (show ¬ romOffset a < s.romSize by unfold romOffset; omega)]
      · simp only [hr]; rw [if_neg (show ¬ romOffset a < s.romSize by unfold romOffset; omega)]
      · split <;> first | rfl | (exfalso; simp_all)
    rw [hn]
    exact if_neg hg

/-- The bytes after an unmapped aligned address are unmapped too (R88). -/
theorem read8_unmapped_next (s : State) (a : Word) (i : Nat) (ha : a.toNat % 4 = 0 ∧ i < 4 ∨ a.toNat % 2 = 0 ∧ i < 2)
    (h : s.mapped a = false) (hg : ¬ (regionOf a = 8 ∧ s.gpioVisible = true ∧ inGpioWindow (romOffset a) = true)) : s.read8 (a + BitVec.ofNat 32 i) = 0 := by
  have hb : busAddr (a + BitVec.ofNat 32 i) = busAddr a + i := by
    have := a.isLt
    unfold busAddr; rw [BitVec.toNat_add, BitVec.toNat_ofNat]; omega
  have hm : busAddr a % 4 = a.toNat % 4 := by unfold busAddr; omega
  refine read8_unmapped s _ ?_ ?_
  · unfold State.mapped mappedIn at h ⊢
    rw [hb, show (busAddr a + i) / 2^24 = busAddr a / 2^24 by omega]
    simp only at h ⊢
    split at h <;> first | rfl | cases h | (simp only [decide_eq_false_iff_not] at h ⊢; omega)
  · rintro ⟨h8, hv, hw⟩
    obtain ⟨r, hr⟩ : ∃ r, busAddr a = 0x08000000 + r := ⟨busAddr a - 0x08000000, by unfold regionOf at h8; omega⟩
    have hr4 : r % 4 = a.toNat % 4 := by omega
    unfold inGpioWindow romOffset at hw hg
    rw [hb, hr, Nat.add_assoc, Nat.add_sub_cancel_left, Bool.and_eq_true, decide_eq_true_eq, decide_eq_true_eq] at hw
    rw [hr, Nat.add_sub_cancel_left, Bool.and_eq_true, decide_eq_true_eq, decide_eq_true_eq] at hg
    exact hg ⟨by unfold regionOf; omega, hv, by omega, by omega⟩

/-- A wider access is unmapped as a whole where its aligned address is (R88). -/
theorem read16_unmapped (s : State) (a : Word) (h : s.mapped (align2 a) = false)
    (hg : ¬ (regionOf (align2 a) = 8 ∧ s.gpioVisible = true ∧ inGpioWindow (romOffset (align2 a)) = true)) : s.read16 a = 0 := by
  have hm := align2_toNat a
  have z : ∀ i, i < 2 → s.read8 (align2 a + BitVec.ofNat 32 i) = 0 := fun i hi =>
    read8_unmapped_next s _ i (.inr ⟨by omega, hi⟩) h hg
  unfold State.read16
  split
  · rfl
  · rw [show align2 a + 1 = align2 a + BitVec.ofNat 32 1 from rfl, z 1 (by decide), read8_unmapped s _ h hg]; rfl

theorem read32_unmapped (s : State) (a : Word) (h : s.mapped (align4 a) = false)
    (hg : ¬ (regionOf (align4 a) = 8 ∧ s.gpioVisible = true ∧ inGpioWindow (romOffset (align4 a)) = true)) : s.read32 a = 0 := by
  have hm := align4_mod4 a
  have z : ∀ i, i < 4 → s.read8 (align4 a + BitVec.ofNat 32 i) = 0 := fun i hi =>
    read8_unmapped_next s _ i (.inl ⟨hm, hi⟩) h hg
  unfold State.read32
  split
  · rfl
  · rw [show align4 a + 1 = align4 a + BitVec.ofNat 32 1 from rfl, show align4 a + 2 = align4 a + BitVec.ofNat 32 2 from rfl,
      show align4 a + 3 = align4 a + BitVec.ofNat 32 3 from rfl, z 1 (by decide), z 2 (by decide), z 3 (by decide),
      read8_unmapped s _ h hg]; rfl

theorem read8_mirror (s : State) (a b : Word) (ha : isRam (regionOf a) = true) (hb : isRam (regionOf b) = true)
    (h : ramKey (busAddr a) = ramKey (busAddr b)) : s.read8 a = s.read8 b := by
  have e : ∀ c, isRam (regionOf c) = true → s.read8 c = Memory.get s.mem (ramKey (busAddr c)) := by
    intro c hc
    unfold State.read8
    simp only
    split
    · rename_i hr; rw [hr] at hc; cases hc
    · rename_i hr; rw [hr] at hc; cases hc
    · rw [bufferKey_ram _ _ hc, if_neg]
      rintro ⟨hr, _⟩; rw [hr] at hc; cases hc
  rw [e a ha, e b hb, h]

theorem ramKey_ewram (n : Nat) (h : n / 2^24 = 2) : ramKey n = 0x02000000 + n % 0x40000 := by
  rcases ramKey_cases n with ⟨e, r⟩ | ⟨e, r⟩ | ⟨e, _, r⟩ | ⟨e, _, r⟩ | ⟨e, r⟩ | ⟨e, _, _, _, r⟩ <;> first | exact r | omega

theorem ramKey_iwram (n : Nat) (h : n / 2^24 = 1 ∨ n / 2^24 = 3) : ramKey n = 0x03000000 + n % 0x8000 := by
  rcases ramKey_cases n with ⟨e, r⟩ | ⟨e, r⟩ | ⟨e, _, r⟩ | ⟨e, _, r⟩ | ⟨e, r⟩ | ⟨e, _, _, _, r⟩ <;> first | exact r | omega

theorem ramKey_small (n : Nat) (h : n / 2^24 = 5 ∨ n / 2^24 = 7) : ramKey n = n / 2^24 * 2^24 + n % 0x400 := by
  rcases ramKey_cases n with ⟨e, r⟩ | ⟨e, r⟩ | ⟨e, _, r⟩ | ⟨e, _, r⟩ | ⟨e, r⟩ | ⟨e, _, _, _, r⟩ <;> omega

theorem ramKey_vram (n : Nat) (h : n / 2^24 = 6) :
    (n % 0x20000 < 0x18000 ∧ ramKey n = 0x06000000 + n % 0x20000)
    ∨ (0x18000 ≤ n % 0x20000 ∧ ramKey n + 0x8000 = 0x06000000 + n % 0x20000) := by
  rcases ramKey_cases n with ⟨e, r⟩ | ⟨e, r⟩ | ⟨e, h, r⟩ | ⟨e, h, r⟩ | ⟨e, r⟩ | ⟨e, _, _, _, r⟩ <;> first | exact .inl ⟨h, r⟩ | exact .inr ⟨h, r⟩ | omega

theorem StoredAligned.congr {s t t' : State} {n : Nat} {a : Word} {f : Nat → Byte} (h : StoredAligned s t n a f)
    (e : ∀ b, t'.read8 b = t.read8 b) : StoredAligned s t' n a f :=
  ⟨fun hr => ⟨fun i hi b hb => (e b).trans ((h.1 hr).1 i hi b hb), fun b hb => (e b).trans ((h.1 hr).2 b hb)⟩,
   fun hd b => (e b).trans (h.2 hd b)⟩

theorem StoresBytes.congr {s t t' : State} {n : Nat} {a : Word} {f : Nat → Byte} (h : StoresBytes s t a n f)
    (e : ∀ b, t'.read8 b = t.read8 b) : StoresBytes s t' a n f :=
  ⟨fun i hi b hb => (e b).trans (h.1 i hi b hb), fun b hb => (e b).trans (h.2 b hb)⟩

theorem StoredByte.congr {s t t' : State} {a : Word} {v : Byte} (h : StoredByte s t a v)
    (e : ∀ b, t'.read8 b = t.read8 b) : StoredByte s t' a v :=
  ⟨fun hr => StoresBytes.congr (h.1 hr) e, fun hr => StoresBytes.congr (h.2.1 hr) e, fun hr b => (e b).trans (h.2.2 hr b)⟩

theorem writeGpio_outside (s : State) (r : Nat) (v : Half) (h : inGpioWindow r = false) : writeGpio s r v = s := by
  unfold inGpioWindow at h
  simp at h
  unfold writeGpio
  rw [if_neg (by omega), if_neg (by omega), if_neg (by omega)]

theorem dropsWrite_cases {a : Word} (h : dropsWrite a = true) :
    isRam (regionOf a) = false ∧ (regionOf a = 4 → ¬ offsetOf a < 0x400) ∧ (regionOf a = 8 → inGpioWindow (romOffset a) = false) := by
  unfold dropsWrite at h
  split at h <;> simp_all [isRam]

theorem write32_drops (s : State) (a v : Word) (h : dropsWrite (align4 a) = true) : s.write32 a v = s := by
  obtain ⟨h1, h2, h3⟩ := dropsWrite_cases h
  unfold State.write32 write32With
  simp only
  rw [if_neg (by rw [h1]; simp), if_neg (fun hh => h2 hh.1 hh.2)]
  split
  · rename_i h8
    have hw := h3 h8
    have hm := align4_toNat a
    have : romOffset (align4 a) % 4 = 0 := by unfold romOffset busAddr; rw [hm]; omega
    have hw' : inGpioWindow (romOffset (align4 a) + 2) = false := by
      unfold inGpioWindow at *; simp at *; omega
    rw [writeGpio_outside _ _ _ hw, writeGpio_outside _ _ _ hw']
  · rfl

theorem write16_drops (s : State) (a : Word) (v : Half) (h : dropsWrite (align2 a) = true) : s.write16 a v = s := by
  obtain ⟨h1, h2, h3⟩ := dropsWrite_cases h
  unfold State.write16 write16With
  simp only
  rw [if_neg (by rw [h1]; simp), if_neg (fun hh => h2 hh.1 hh.2)]
  split
  · rename_i h8
    exact writeGpio_outside _ _ _ (h3 h8)
  · rfl

theorem write8_drops (s : State) (a : Word) (v : Byte) (h : regionOf a = 7 ∨ (dropsWrite a = true ∧ regionOf a ≠ 14)) :
    s.write8 a v = s := by
  unfold State.write8 write8With
  rcases h with h | ⟨h, h14⟩
  · simp only [h]
  · obtain ⟨h1, h2, h3⟩ := dropsWrite_cases h
    split <;> rename_i hr <;> first | (rw [hr] at h1; cases h1; done) | exact absurd hr h14 | skip
    · rw [if_neg (h2 hr)]
    · exact writeGpio_outside _ _ _ (h3 hr)
    · rfl

theorem write32_stored (s : State) (a v : Word) : StoredAligned s (s.write32 a v) 4 (align4 a) (byteOf v) := by
  refine ⟨fun h => ?_, fun h => ?_⟩
  · rw [write32_ram s a v (by simpa using h)]
    exact storesBytes_word s (align4 a) v h (align4_mod4 a)
  · rw [write32_drops s a v h]; exact fun _ => rfl

theorem write16_stored (s : State) (a : Word) (v : Half) :
    StoredAligned s (s.write16 a v) 2 (align2 a) (fun i => v.extractLsb' (8 * i) 8) := by
  refine ⟨fun h => ?_, fun h => ?_⟩
  · rw [write16_ram s a v (by simpa using h)]
    exact storesBytes_half s (align2 a) v h (by rw [align2_toNat]; omega)
  · rw [write16_drops s a v h]; exact fun _ => rfl

theorem write8_stored (s : State) (a : Word) (v : Byte) : StoredByte s (s.write8 a v) a v := by
  refine ⟨fun h => ?_, fun h => ?_, fun h => ?_⟩
  · have hw : s.write8 a v = storeByte s a v := by
      unfold State.write8 write8With
      rcases h with h | h | h <;> simp only [h]
    rw [hw]
    exact storesBytes_byte s a v (by rcases h with h | h | h <;> rw [h] <;> rfl)
  · have hw : s.write8 a v = storeHalf s (align2 a) (v ++ v) := by
      unfold State.write8 write8With
      rcases h with h | h <;> simp only [h]
    have hr : isRam (regionOf (align2 a)) = true := by
      rw [regionOf_align2]; rcases h with h | h <;> rw [h] <;> rfl
    rw [hw]
    have := storesBytes_half s (align2 a) (v ++ v) hr (by rw [align2_toNat]; omega)
    refine ⟨fun i hi b hb => (this.1 i hi b hb).trans ?_, this.2⟩
    apply BitVec.eq_of_getLsbD_eq
    intro k hk
    have : i = 0 ∨ i = 1 := by omega
    rw [BitVec.getLsbD_extractLsb', append_bit]
    rcases this with rfl | rfl <;> simp [hk]
  · rw [write8_drops s a v h]; exact fun _ => rfl

theorem write32_mem (s : State) (a v : Word) (h4 : regionOf a ≠ 4) (h8 : regionOf a ≠ 8) :
    s.write32 a v = { s with mem := (s.write32 a v).mem } := by
  by_cases h : isRam (regionOf a) = true
  · rw [write32_ram s a v h, storeWord_ram _ _ _ (by simpa using h) (align4_mod4 a)]; simp only [State.setByte]
  · have : s.write32 a v = s := by
      unfold State.write32 write32With
      simp only [regionOf_align4]
      rw [if_neg h, if_neg (fun hh => h4 hh.1), if_neg h8]
    rw [this]

theorem write16_mem (s : State) (a : Word) (v : Half) (h4 : regionOf a ≠ 4) (h8 : regionOf a ≠ 8) :
    s.write16 a v = { s with mem := (s.write16 a v).mem } := by
  by_cases h : isRam (regionOf a) = true
  · rw [write16_ram s a v h, storeHalf_ram _ _ _ (by simpa using h) (by rw [align2_toNat]; omega)]; simp only [State.setByte]
  · have : s.write16 a v = s := by
      unfold State.write16 write16With
      simp only [regionOf_align2]
      rw [if_neg h, if_neg (fun hh => h4 hh.1), if_neg h8]
    rw [this]

end Sys2Proof.Machine
end

