-- ==== Sys2Proof/Laws/Block.lean ====
section
/-! SUPPORT. Laws/Block.lean: the register lists of the block transfers as slots of memory (R370 to R374). -/

namespace Sys2Proof.Machine

/-! ## Ranks -/

theorem rank_succ (list : BitVec 16) (i : Nat) : rank list (i + 1) = rank list i + (list.getLsbD i).toNat := by
  unfold rank
  rw [List.range_succ, List.filter_append, List.length_append]
  cases h : list.getLsbD i <;> simp [h]

theorem rank_mono (list : BitVec 16) (i d : Nat) : rank list i ≤ rank list (i + d) := by
  induction d with
  | zero => exact Nat.le_refl _
  | succ d ih => rw [← Nat.add_assoc, rank_succ]; omega

theorem rank_le (list : BitVec 16) (i : Nat) : rank list i ≤ i := by
  induction i with
  | zero => exact Nat.le_refl _
  | succ i ih => rw [rank_succ]; cases list.getLsbD i <;> simp <;> omega

/-- A named register counts for every register above it. -/
theorem rank_lt (list : BitVec 16) (i n : Nat) (h : i < n) (hi : list.getLsbD i = true) : rank list i < rank list n := by
  have h1 := rank_succ list i
  have h2 := rank_mono list (i + 1) (n - (i + 1))
  rw [hi] at h1
  rw [show i + 1 + (n - (i + 1)) = n by omega] at h2
  simp at h1; omega

theorem allRegs_eq : allRegs = List.finRange 16 := by decide

theorem mem_listRegs (list : BitVec 16) (n : Reg) : n ∈ listRegs list ↔ list.getLsbD n.val = true := by
  unfold listRegs; rw [allRegs_eq, List.mem_filter]; simp [List.mem_finRange]

theorem listRegs_nodup (list : BitVec 16) : (listRegs list).Nodup := by
  have h : allRegs.Nodup := by decide
  exact h.filter _

/-- The suffix of the registers from `k` on, one step. -/
theorem drop_allRegs (k : Nat) (hk : k < 16) : allRegs.drop k = ⟨k, hk⟩ :: allRegs.drop (k + 1) := by
  have h : ∀ k : Fin 16, allRegs.drop k.val = k :: allRegs.drop (k.val + 1) := by decide
  exact h ⟨k, hk⟩

/-- The registers of a list with their addresses, from register `k` on. -/
theorem withAddrs_suffix (list : BitVec 16) (first : Word) (d k : Nat) (hd : k + d = 16) :
    withAddrs (first + BitVec.ofNat 32 (4 * rank list k)) ((allRegs.drop k).filter fun i => list.getLsbD i.val)
      = ((allRegs.drop k).filter fun i => list.getLsbD i.val).map
          fun n => (n, first + BitVec.ofNat 32 (4 * rank list n.val)) := by
  induction d generalizing k with
  | zero =>
    rw [show k = 16 by omega]; rfl
  | succ d ih =>
    have hk : k < 16 := by omega
    have ih' := ih (k + 1) (by omega)
    rw [drop_allRegs k hk]
    cases hb : list.getLsbD k with
    | false =>
      rw [List.filter_cons_of_neg (by simp [hb]), ← ih', rank_succ, hb]; rfl
    | true =>
      rw [List.filter_cons_of_pos (by simp [hb]), List.map_cons, ← ih', rank_succ, hb, withAddrs]
      congr 2
      rw [BitVec.add_assoc]
      congr 1
      apply BitVec.eq_of_toNat_eq
      have := rank_le list k
      simp [BitVec.toNat_add]; omega

theorem listRegs_length (list : BitVec 16) : (listRegs list).length = rank list 16 := by
  unfold listRegs rank
  rw [show allRegs = List.finRange 16 from allRegs_eq, show List.range 16 = (List.finRange 16).map Fin.val by decide,
    List.filter_map, List.length_map]
  rfl

theorem listRegs_isEmpty (list : BitVec 16) : (listRegs list).isEmpty = decide (list = 0#16) := by
  rw [Bool.eq_iff_iff, List.isEmpty_iff, decide_eq_true_eq]
  constructor
  · intro h
    apply BitVec.eq_of_getLsbD_eq
    intro k hk
    have hm := mem_listRegs list ⟨k, hk⟩
    rw [h] at hm
    cases hb : list.getLsbD k with
    | false => simp
    | true => simp [hb] at hm
  · rintro rfl; decide

theorem blockStops_iff (w : Bool) (rn : Reg) (list : BitVec 16) :
    blockStops w rn (listRegs list) = true ↔ list = 0#16 ∨ (rn = 15 ∧ w = true) := by
  unfold blockStops
  rw [listRegs_isEmpty]; simp

theorem blockStart_eq (base : Word) (p u : Bool) (list : BitVec 16) :
    blockStart base p u (listRegs list) = firstAddr base p u list := by
  unfold blockStart firstAddr blockSize
  rw [listRegs_length]
  cases u <;> cases p <;> simp

theorem blockFinal_eq (base : Word) (u : Bool) (list : BitVec 16) :
    blockFinal base u (listRegs list) = baseAfter base u list := by
  unfold blockFinal baseAfter blockSize; rw [listRegs_length]

/-- The slots of a list. -/
theorem slots_eq (base : Word) (p u : Bool) (list : BitVec 16) :
    withAddrs (blockStart base p u (listRegs list)) (listRegs list)
      = (listRegs list).map fun n => (n, slotAddr base p u list n.val) := by
  have h := withAddrs_suffix list (firstAddr base p u list) 16 0 rfl
  rw [blockStart_eq]
  rw [show firstAddr base p u list + BitVec.ofNat 32 (4 * rank list 0) = firstAddr base p u list by simp [rank]] at h
  exact h

/-- The first register of a list is the one of rank 0. -/
theorem isFirst_iff (list : BitVec 16) (n : Reg) (hn : list.getLsbD n.val = true) :
    isFirst (listRegs list) n = false ↔ 0 < rank list n.val := by
  have hm := (mem_listRegs list n).mpr hn
  have hs := slots_eq 0 false true list
  cases hl : listRegs list with
  | nil => rw [hl] at hm; cases hm
  | cons x rest =>
    have hx : list.getLsbD x.val = true := (mem_listRegs list x).mp (by rw [hl]; simp)
    rw [blockStart_eq, hl, withAddrs, List.map_cons] at hs
    injection hs with hs _
    injection hs with _ hs
    have h0 : rank list x.val = 0 := by
      have hle := rank_le list x.val
      have hx' := x.isLt
      have := congrArg BitVec.toNat hs
      simp [firstAddr, slotAddr] at this
      omega
    unfold isFirst
    simp only [List.head?_cons]
    by_cases e : x = n
    · subst e; simp [h0]
    · have hne : x.val ≠ n.val := fun h => e (Fin.ext h)
      have hlt : x.val < n.val := by
        rcases Nat.lt_or_gt_of_ne hne with h | h
        · exact h
        · have := rank_lt list n.val x.val h hn; omega
      have := rank_lt list x.val n.val hlt hx
      have hb : (some x == some n) = false := by simp [e]
      rw [hb]; simp; omega

/-! ## Loading -/

theorem loadRegs_spec (m : State) (bank : Mode) (addr : Reg → Word) (ns : List Reg) (hnd : ns.Nodup) (s : State) :
    loadRegs m bank (ns.map fun n => (n, addr n)) s
        = { s with regs := (loadRegs m bank (ns.map fun n => (n, addr n)) s).regs }
    ∧ (∀ n ∈ ns, n ≠ 15 → (loadRegs m bank (ns.map fun n => (n, addr n)) s).regIn bank n = m.read32 (addr n))
    ∧ ∀ j : Fin 30, (∀ n ∈ ns, phys bank n ≠ some j) →
        (loadRegs m bank (ns.map fun n => (n, addr n)) s).regs[j] = s.regs[j] := by
  induction ns generalizing s with
  | nil => exact ⟨rfl, by simp, fun _ _ => rfl⟩
  | cons x rest ih =>
    rw [List.nodup_cons] at hnd
    obtain ⟨h1, h2, h3⟩ := ih hnd.2 (s.setRegIn bank x (m.read32 (addr x)))
    have he : loadRegs m bank ((x :: rest).map fun n => (n, addr n)) s
        = loadRegs m bank (rest.map fun n => (n, addr n)) (s.setRegIn bank x (m.read32 (addr x))) := rfl
    rw [he]
    refine ⟨?_, fun n hn h15 => ?_, fun j hj => ?_⟩
    · refine h1.trans ?_
      rw [State.setRegIn_eq s]
    · rcases List.mem_cons.mp hn with rfl | hn
      · obtain ⟨j, hj⟩ := phys_some (m := bank) h15
        have hc := h3 j fun n' hn' hp => hnd.1 (by rw [phys_inj bank n n' j hj hp]; exact hn')
        have hv := State.regIn_setRegIn_same s bank n (m.read32 (addr n)) h15
        simp only [State.regIn, hj] at hv ⊢
        exact hc.trans hv
      · exact h2 n hn h15
    · rw [h3 j fun n hn => hj n (List.mem_cons_of_mem _ hn)]
      exact State.setRegIn_cell s bank x _ j (hj x (by simp))

theorem loadedPc_eq (m : State) (addr : Reg → Word) (ns : List Reg) :
    loadedPc m (ns.map fun n => (n, addr n)) = if 15 ∈ ns then some (m.read32 (addr 15)) else none := by
  unfold loadedPc
  induction ns with
  | nil => rfl
  | cons x rest ih =>
    rw [List.map_cons, List.find?_cons]
    by_cases h : x = 15
    · subst h; simp
    · have hb : (x == 15) = false := by simp [h]
      simp only [hb]
      rw [ih]
      have : (15 ∈ x :: rest) ↔ 15 ∈ rest := by simp [Ne.symm h]
      by_cases hr : (15 : Reg) ∈ rest
      · rw [if_pos hr, if_pos (this.mpr hr)]
      · rw [if_neg hr, if_neg (fun h => hr (this.mp h))]

/-- The registers loaded over a written-back base. -/
theorem loaded_of (s : State) (bank : Mode) (p u w : Bool) (rn : Reg) (list : BitVec 16) (hrn : w = true → rn ≠ 15) :
    Loaded s (loadRegs s bank (withAddrs (blockStart (s.reg rn) p u (listRegs list)) (listRegs list))
      (writeBack s w rn (blockFinal (s.reg rn) u (listRegs list)))) bank p u w rn list := by
  rw [slots_eq, blockFinal_eq]
  obtain ⟨h1, h2, h3⟩ := loadRegs_spec s bank (fun n => slotAddr (s.reg rn) p u list n.val) (listRegs list)
    (listRegs_nodup list) (writeBack s w rn (baseAfter (s.reg rn) u list))
  unfold Loaded
  generalize loadRegs s bank _ _ = l at *
  generalize baseAfter (s.reg rn) u list = v at *
  have hwb : writeBack s w rn v = { s with regs := (writeBack s w rn v).regs } := by
    cases w
    · rfl
    · exact State.setRegIn_eq ..
  refine ⟨?_, fun n h15 hn => h2 n ((mem_listRegs list n).mpr hn) h15, fun hw hd => ?_, fun j hj hj' => ?_⟩
  · refine h1.trans ?_
    rw [hwb]
  · subst hw
    obtain ⟨j, hj⟩ := phys_some (m := s.mode) (hrn rfl)
    have hm : l.mode = s.mode := State.mode_of_cpsr (by rw [h1, hwb])
    have hc := h3 j fun n hn hp => hd n ((mem_listRegs list n).mp hn) (hp.trans hj.symm)
    have hv := State.reg_setReg_same s rn v (hrn rfl)
    unfold State.reg State.regIn at hv ⊢
    rw [State.setReg_mode] at hv
    rw [hm]
    simp only [hj] at hv ⊢
    exact hc.trans hv
  · rw [h3 j fun n hn => hj n ((mem_listRegs list n).mp hn)]
    cases w
    · rfl
    · exact State.setRegIn_cell s s.mode rn _ j (hj' rfl)

/-! ## Storing -/

/-- The words of a list stored one after another, as the writes of `blockWrites`. -/
theorem storeRegs_eq (s : State) (bank : Mode) (p u w : Bool) (rn : Reg) (list : BitVec 16) (value : Reg → Word)
    (hv : ∀ n : Reg, list.getLsbD n.val = true → value n = slotValue s bank u w rn list n) :
    storeRegs value (withAddrs (blockStart (s.reg rn) p u (listRegs list)) (listRegs list)) s
      = blockWrites s bank p u w rn list := by
  rw [slots_eq]
  unfold storeRegs blockWrites
  rw [List.foldl_map]
  have hl : listRegs list = (List.finRange 16).filter fun i => list.getLsbD i.val := by
    unfold listRegs; rw [allRegs_eq]
  rw [hl, List.foldl_filter]
  have hf : (fun (m : State) (n : Reg) => if list.getLsbD n.val = true then
        m.write32 (slotAddr (s.reg rn) p u list n.val) (value n) else m)
      = fun m n => if list.getLsbD n.val = true then
        m.write32 (slotAddr (s.reg rn) p u list n.val) (slotValue s bank u w rn list n) else m := by
    funext m n
    by_cases h : list.getLsbD n.val = true
    · rw [hv n h]
    · rw [if_neg h, if_neg h]
  rw [← hf]

/-- Words stored at RAM addresses with different keys: each is read at its address, everything else is as before. -/
theorem foldl_write32 (addr value : Reg → Word) (ns : List Reg) (hnd : ns.Nodup) (s : State)
    (hram : ∀ n ∈ ns, isRam (regionOf (addr n)) = true)
    (hne : ∀ n ∈ ns, ∀ n' ∈ ns, n ≠ n' → ∀ i j, i < 4 → j < 4 →
      ramKey (busAddr (align4 (addr n))) + i ≠ ramKey (busAddr (align4 (addr n'))) + j) (b : Word) :
    (∀ n ∈ ns, ∀ i, i < 4 → bufferKey s.romSize b = some (ramKey (busAddr (align4 (addr n))) + i) →
      (ns.foldl (fun m n => m.write32 (addr n) (value n)) s).read8 b = byteOf (value n) i)
    ∧ ((∀ n ∈ ns, ∀ i, i < 4 → bufferKey s.romSize b ≠ some (ramKey (busAddr (align4 (addr n))) + i)) →
      (ns.foldl (fun m n => m.write32 (addr n) (value n)) s).read8 b = s.read8 b) := by
  induction ns generalizing s with
  | nil => exact ⟨by simp, fun _ => rfl⟩
  | cons x rest ih =>
    rw [List.nodup_cons] at hnd
    have hr := (write32_effect s (addr x) (value x)).romSize
    have hx := hram x (by simp)
    have hw := write32_ram s (addr x) (value x) hx
    have h8 := read8_storeWord s (align4 (addr x)) (value x) b (by simpa using hx) (align4_mod4 _)
    rw [← hw] at h8
    obtain ⟨ih1, ih2⟩ := ih hnd.2 (s.write32 (addr x) (value x)) (fun n hn => hram n (List.mem_cons_of_mem _ hn))
      (fun n hn n' hn' => hne n (List.mem_cons_of_mem _ hn) n' (List.mem_cons_of_mem _ hn'))
    rw [hr] at ih1 ih2
    rw [List.foldl_cons]
    refine ⟨fun n hn i hi hb => ?_, fun hb => ?_⟩
    · rcases List.mem_cons.mp hn with rfl | hn
      · rw [ih2 fun n' hn' j hj hb' => ?_]
        · exact h8.1 i hi hb
        · have hnn : n ≠ n' := fun e => hnd.1 (e ▸ hn')
          exact hne n (by simp) n' (List.mem_cons_of_mem _ hn') hnn i j hi hj (Option.some.inj (hb.symm.trans hb'))
      · exact ih1 n hn i hi hb
    · rw [ih2 fun n hn => hb n (List.mem_cons_of_mem _ hn)]
      exact h8.2 (hb x (by simp))

theorem blockWrites_eq (s : State) (bank : Mode) (p u w : Bool) (rn : Reg) (list : BitVec 16) :
    blockWrites s bank p u w rn list = (listRegs list).foldl
      (fun m n => m.write32 (slotAddr (s.reg rn) p u list n.val) (slotValue s bank u w rn list n)) s := by
  unfold blockWrites listRegs
  rw [allRegs_eq, List.foldl_filter]

theorem blockWrites_effect (s : State) (bank : Mode) (p u w : Bool) (rn : Reg) (list : BitVec 16) :
    BusEffect s (blockWrites s bank p u w rn list) := by
  rw [blockWrites_eq]
  generalize listRegs list = ns
  generalize hs : s = m at *
  have : ∀ (f g : Reg → Word) (ns : List Reg) (m : State), BusEffect m (ns.foldl (fun m n => m.write32 (f n) (g n)) m) := by
    intro f g ns
    induction ns with
    | nil => exact BusEffect.refl
    | cons x rest ih => exact fun m => (write32_effect m _ _).trans (ih _)
  exact this _ _ ns m

/-- Two slots of one block that lie in RAM have different keys. -/
theorem slot_keys (base : Word) (p u : Bool) (list : BitVec 16) (n n' : Reg) (hn : list.getLsbD n.val = true)
    (hn' : list.getLsbD n'.val = true) (hne : n ≠ n')
    (hr : isRam (regionOf (slotAddr base p u list n.val)) = true)
    (hr' : isRam (regionOf (slotAddr base p u list n'.val)) = true) (i j : Nat) (hi : i < 4) (hj : j < 4) :
    ramKey (busAddr (align4 (slotAddr base p u list n.val))) + i
      ≠ ramKey (busAddr (align4 (slotAddr base p u list n'.val))) + j := by
  have hrk : rank list n.val ≠ rank list n'.val := by
    have hv : n.val ≠ n'.val := fun e => hne (Fin.ext e)
    rcases Nat.lt_or_gt_of_ne hv with h | h
    · have := rank_lt list _ _ h hn; omega
    · have := rank_lt list _ _ h hn'; omega
  have l1 := rank_le list n.val
  have l2 := rank_le list n'.val
  have b1 := n.isLt
  have b2 := n'.isLt
  have a1 : (slotAddr base p u list n.val).toNat = ((firstAddr base p u list).toNat + 4 * rank list n.val) % 2^32 := by
    simp [slotAddr, BitVec.toNat_add]
  have a2 : (slotAddr base p u list n'.val).toNat = ((firstAddr base p u list).toNat + 4 * rank list n'.val) % 2^32 := by
    simp [slotAddr, BitVec.toNat_add]
  generalize slotAddr base p u list n.val = x at *
  generalize slotAddr base p u list n'.val = y at *
  have e1 := align4_toNat x
  have e2 := align4_toNat y
  have m1 := busAddr_mod4 _ (align4_mod4 x)
  have m2 := busAddr_mod4 _ (align4_mod4 y)
  have r1 : busAddr (align4 x) / 2^24 = regionOf x := regionOf_align4 x
  have r2 : busAddr (align4 y) / 2^24 = regionOf y := regionOf_align4 y
  have k1 := ramKey_mod4 _ m1
  have k2 := ramKey_mod4 _ m2
  have hf := (firstAddr base p u list).isLt
  have c1 := isRam_cases hr
  have c2 := isRam_cases hr'
  have d1 : busAddr (align4 x) = (align4 x).toNat % 2^28 := rfl
  have d2 : busAddr (align4 y) = (align4 y).toNat % 2^28 := rfl
  have hkey := ramKey_ne (busAddr (align4 x)) (busAddr (align4 y)) m1 m2 (by omega) (by omega) (by omega)
    (by rw [r1]; exact hr) (by rw [r2]; exact hr')
  omega

/-- What a block store in RAM does to the bytes of the address space. -/
theorem blockWrites_bytes (s : State) (bank : Mode) (p u w : Bool) (rn : Reg) (list : BitVec 16)
    (hram : ∀ n : Reg, list.getLsbD n.val = true → isRam (regionOf (slotAddr (s.reg rn) p u list n.val)) = true) :
    (∀ n : Reg, list.getLsbD n.val = true → ∀ k, k < 4 → ∀ b,
        sameByte s.romSize b (align4 (slotAddr (s.reg rn) p u list n.val) + BitVec.ofNat 32 k) →
        (blockWrites s bank p u w rn list).read8 b = byteOf (slotValue s bank u w rn list n) k)
    ∧ ∀ b, (∀ n : Reg, list.getLsbD n.val = true → ∀ k, k < 4 →
          ¬ sameByte s.romSize b (align4 (slotAddr (s.reg rn) p u list n.val) + BitVec.ofNat 32 k)) →
        (blockWrites s bank p u w rn list).read8 b = s.read8 b := by
  rw [blockWrites_eq]
  have hs : ∀ n : Reg, list.getLsbD n.val = true → ∀ k, k < 4 → ∀ b,
      sameByte s.romSize b (align4 (slotAddr (s.reg rn) p u list n.val) + BitVec.ofNat 32 k)
        ↔ bufferKey s.romSize b = some (ramKey (busAddr (align4 (slotAddr (s.reg rn) p u list n.val))) + k) := by
    intro n hn k hk b
    have hr := hram n hn
    rw [sameByte_ram _ _ _ (by rw [regionOf_add _ k (align4_mod4 _) hk, regionOf_align4]; exact hr),
      busAddr_add _ k (align4_mod4 _) hk, ramKey_add _ _ (busAddr_mod4 _ (align4_mod4 _)) hk]
  have key := fun b => foldl_write32 (fun n => slotAddr (s.reg rn) p u list n.val)
    (fun n => slotValue s bank u w rn list n) (listRegs list) (listRegs_nodup list) s
    (fun n hn => hram n ((mem_listRegs list n).mp hn))
    (fun n hn n' hn' hne i j hi hj => slot_keys (s.reg rn) p u list n n' ((mem_listRegs list n).mp hn)
      ((mem_listRegs list n').mp hn') hne (hram n ((mem_listRegs list n).mp hn)) (hram n' ((mem_listRegs list n').mp hn'))
      i j hi hj) b
  refine ⟨fun n hn k hk b hb => ?_, fun b hb => ?_⟩
  · exact (key b).1 n ((mem_listRegs list n).mpr hn) k hk ((hs n hn k hk b).mp hb)
  · exact (key b).2 fun n hn k hk he => hb n ((mem_listRegs list n).mp hn) k hk
      ((hs n ((mem_listRegs list n).mp hn) k hk b).mpr he)

end Sys2Proof.Machine
end

