-- ==== Sys2Proof/Laws/CpuEffect.lean ====
section
/-! SUPPORT. Laws/CpuEffect.lean: everything one instruction can do to the state, said once; the operations that end an
instruction have this effect, and Laws/Exec.lean proves it of every instruction. -/

namespace Sys2Proof.Machine

/-- The effect of an instruction, as a relation between the state before and the state after. -/
structure CpuEffect (s t : State) : Prop where
  cycles : t.cycles = s.cycles
  romSize : t.romSize = s.romSize
  vcount : t.vcount = s.vcount
  lastVcount : t.lastVcount = s.lastVcount
  keyinput : t.keyinput = s.keyinput
  framebuffer : t.framebuffer = s.framebuffer
  frameCount : t.frameCount = s.frameCount
  phase : t.phase = s.phase
  line : t.line = s.line
  left : t.left = s.left
  host : t.host = s.host
  params : t.params = s.params
  readOnly : ∀ k, readOnlyKey k = true → Memory.get t.mem k = Memory.get s.mem k
  memory : Memory.wf s.mem = true → Memory.wf t.mem = true
  irqs : s.if_ &&& ~~~irqSources = 0#16 → t.if_ &&& ~~~irqSources = 0#16
  gpioData : s.gpioData.toNat < 16 → s.gpioDir.toNat < 16 → t.gpioData.toNat < 16
  gpioDir : s.gpioDir.toNat < 16 → t.gpioDir.toNat < 16
  gpioCtrl : s.gpioCtrl.toNat < 2 → t.gpioCtrl.toNat < 2
  dma : (∀ n, (s.dmaChannel n).onBus = true) → ∀ n, (t.dmaChannel n).onBus = true
  timers : (∀ n, (s.timer n).accumulator < 1024) → ∀ n, (t.timer n).accumulator < 1024
  mode : validMode s.cpsr = true → validMode t.cpsr = true
  pc : s.r15.getLsbD 0 = false → t.r15.getLsbD 0 = false

theorem BusEffect.cpu {s t : State} (h : BusEffect s t) : CpuEffect s t :=
  { cycles := h.cycles, romSize := h.romSize, vcount := h.vcount, lastVcount := h.lastVcount, keyinput := h.keyinput,
    framebuffer := h.framebuffer, frameCount := h.frameCount, phase := h.phase, line := h.line, left := h.left,
    host := h.host, params := h.params, readOnly := h.readOnly, memory := h.memory, irqs := h.irqs,
    gpioData := h.gpioData, gpioDir := h.gpioDir, gpioCtrl := h.gpioCtrl, dma := h.dma, timers := h.timers,
    mode := fun w => by rw [h.cpsr]; exact w
    pc := fun w => by rw [h.r15]; exact w }

theorem CpuEffect.refl (s : State) : CpuEffect s s := (BusEffect.refl s).cpu

theorem CpuEffect.trans {s t u : State} (h : CpuEffect s t) (g : CpuEffect t u) : CpuEffect s u where
  cycles := g.cycles.trans h.cycles
  romSize := g.romSize.trans h.romSize
  vcount := g.vcount.trans h.vcount
  lastVcount := g.lastVcount.trans h.lastVcount
  keyinput := g.keyinput.trans h.keyinput
  framebuffer := g.framebuffer.trans h.framebuffer
  frameCount := g.frameCount.trans h.frameCount
  phase := g.phase.trans h.phase
  line := g.line.trans h.line
  left := g.left.trans h.left
  host := g.host.trans h.host
  params := g.params.trans h.params
  readOnly k hk := (g.readOnly k hk).trans (h.readOnly k hk)
  memory w := g.memory (h.memory w)
  irqs w := g.irqs (h.irqs w)
  gpioData w v := g.gpioData (h.gpioData w v) (h.gpioDir v)
  gpioDir w := g.gpioDir (h.gpioDir w)
  gpioCtrl w := g.gpioCtrl (h.gpioCtrl w)
  dma w := g.dma (h.dma w)
  timers w := g.timers (h.timers w)
  mode w := g.mode (h.mode w)
  pc w := g.pc (h.pc w)

theorem CpuEffect.ite {p : Prop} [Decidable p] {s a b : State} (ha : p → CpuEffect s a) (hb : ¬p → CpuEffect s b) :
    CpuEffect s (if p then a else b) := by
  by_cases h : p
  · rw [if_pos h]; exact ha h
  · rw [if_neg h]; exact hb h

/-! ## Even addresses -/

/-- Bit 0 of a sum of even words. -/
theorem even_add {a b : Word} (ha : a.getLsbD 0 = false) (hb : b.getLsbD 0 = false) : (a + b).getLsbD 0 = false := by
  rw [BitVec.getLsbD_add (by omega), ha, hb]; simp [BitVec.carry, Nat.mod_one]

theorem even_mask1 (v : Word) : (v &&& ~~~1#32).getLsbD 0 = false := by simp

theorem even_mask3 (v : Word) : (v &&& ~~~3#32).getLsbD 0 = false := by simp

theorem even_offset (b : Bool) : (prefetchOffset b).getLsbD 0 = false := by cases b <;> decide

theorem even_width (b : Bool) : (instrWidth b).getLsbD 0 = false := by cases b <;> decide

theorem even_sub {a b : Word} (ha : a.getLsbD 0 = false) (hb : b.getLsbD 0 = false) : (a - b).getLsbD 0 = false := by
  have h1 : a.toNat % 2 = 0 := by simpa [BitVec.getLsbD, Nat.testBit_zero] using ha
  have h2 : b.toNat % 2 = 0 := by simpa [BitVec.getLsbD, Nat.testBit_zero] using hb
  have h3 : (a - b).toNat % 2 = 0 := by rw [BitVec.toNat_sub]; omega
  rw [BitVec.getLsbD, Nat.testBit_zero, h3]; rfl

/-! ## Registers, CPSR, the pc -/

theorem CpuEffect.setRegs (s : State) (v : Vector Word 30) : CpuEffect s { s with regs := v } :=
  { CpuEffect.refl s with }

theorem CpuEffect.setR15 (s : State) (v : Word) (h : s.r15.getLsbD 0 = false → v.getLsbD 0 = false) :
    CpuEffect s { s with r15 := v } := { CpuEffect.refl s with pc := h }

theorem CpuEffect.setCpsrTo (s : State) (v : Word) (h : validMode s.cpsr = true → validMode v = true) :
    CpuEffect s { s with cpsr := v } := { CpuEffect.refl s with mode := h }

theorem CpuEffect.halt (s : State) (b : Bool) : CpuEffect s { s with halted := b } := (BusEffect.halted s b).cpu

theorem CpuEffect.setSpsrOf (s : State) (m : Mode) (v : Word) : CpuEffect s (s.setSpsrOf m v) := by
  cases m <;> exact { CpuEffect.refl s with }

theorem CpuEffect.setRegIn (s : State) (m : Mode) (n : Reg) (v : Word) : CpuEffect s (s.setRegIn m n v) := by
  rw [State.setRegIn_eq]; exact CpuEffect.setRegs s _

theorem CpuEffect.setReg (s : State) (n : Reg) (v : Word) : CpuEffect s (s.setReg n v) := CpuEffect.setRegIn s s.mode n v

theorem CpuEffect.writeBack (s : State) (wb : Bool) (n : Reg) (v : Word) : CpuEffect s (writeBack s wb n v) :=
  CpuEffect.ite (fun _ => CpuEffect.setReg s n v) fun _ => CpuEffect.refl s

theorem CpuEffect.setFlags (s : State) (f : Nzcv) : CpuEffect s (s.setFlags f) :=
  CpuEffect.setCpsrTo s _ fun w => by simpa [validMode] using w

theorem CpuEffect.setFlagsIf (s : State) (b : Bool) (f : Nzcv) : CpuEffect s (s.setFlagsIf b f) :=
  CpuEffect.ite (fun _ => CpuEffect.setFlags s f) fun _ => CpuEffect.refl s

theorem CpuEffect.setCpsr (s : State) (v : Word) : CpuEffect s (s.setCpsr v) := by
  rw [State.setCpsr_eq]; exact CpuEffect.setCpsrTo s _ (State.setCpsr_validMode s v)

theorem CpuEffect.restoreCpsr (s : State) : CpuEffect s s.restoreCpsr := by
  unfold State.restoreCpsr
  split
  · exact CpuEffect.setCpsr s _
  · exact CpuEffect.refl s

theorem CpuEffect.advance (s : State) : CpuEffect s s.advance :=
  CpuEffect.setR15 s _ fun w => even_add w (even_width _)

theorem CpuEffect.branchTo (s : State) (v : Word) : CpuEffect s (s.branchTo v) :=
  CpuEffect.setR15 s _ fun _ => by
    split
    · exact even_add (even_mask1 v) (by decide)
    · exact even_add (even_mask3 v) (by decide)

theorem CpuEffect.branchExchange (s : State) (v : Word) : CpuEffect s (s.branchExchange v) :=
  (CpuEffect.setCpsrTo s (setBit s.cpsr 5 (v.getLsbD 0)) fun w => by
      unfold validMode; rw [setBit_low5 s.cpsr 5 (v.getLsbD 0) (by omega) (by omega)]; exact w).trans
    (CpuEffect.setR15 _ _ fun _ => even_add (even_mask1 v) (even_offset _))

/-- The mode field an exception leaves. -/
theorem takeException_low5 (w : Word) (m : Mode) :
    (setBit (setBit (setLow5 w m.bits) 7 true) 5 false).extractLsb' 0 5 = m.bits := by
  rw [setBit_low5 _ _ _ (by omega) (by omega), setBit_low5 _ _ _ (by omega) (by omega), setLow5_low5]

theorem CpuEffect.takeException (s : State) (m : Mode) (vector link : Word) (hv : vector.getLsbD 0 = false) :
    CpuEffect s (takeException s m vector link) := by
  refine ((CpuEffect.setSpsrOf s m s.cpsr).trans (CpuEffect.setRegIn _ m 14 link)).trans ?_
  refine (CpuEffect.setCpsrTo _ (setBit (setBit (setLow5 s.cpsr m.bits) 7 true) 5 false) fun _ => ?_).trans
    (CpuEffect.setR15 _ (vector + 8) fun _ => even_add hv (by decide))
  simp [validMode, takeException_low5]

/-! ## Loads and stores of several registers -/

theorem CpuEffect.loadRegs (m : State) (bank : Mode) (ts : List (Reg × Word)) (s : State) :
    CpuEffect s (loadRegs m bank ts s) := by
  unfold Machine.loadRegs
  induction ts generalizing s with
  | nil => exact CpuEffect.refl s
  | cons t ts ih => exact (CpuEffect.setRegIn s bank t.1 _).trans (ih _)

/-! ## The ends of instructions -/

theorem CpuEffect.of_jump {s s' t : State} {v : Word} (h : CpuEffect s s') (hj : jump s s' v = .next t) :
    CpuEffect s t := by
  unfold jump at hj
  split at hj
  · injection hj with e; subst e; exact CpuEffect.advance s
  · injection hj with e; subst e; exact h.trans (CpuEffect.branchTo s' v)

theorem CpuEffect.of_jumpExchange {s s' t : State} {v : Word} (h : CpuEffect s s') (hj : jumpExchange s s' v = .next t) :
    CpuEffect s t := by
  unfold jumpExchange at hj
  split at hj
  · injection hj with e; subst e; exact CpuEffect.advance s
  · injection hj with e; subst e; exact h.trans (CpuEffect.branchExchange s' v)

theorem CpuEffect.of_finishWrite {s s' t : State} {rd : Reg} {v : Word} (h : CpuEffect s s')
    (hj : finishWrite s s' rd v = .next t) : CpuEffect s t := by
  unfold finishWrite at hj
  split at hj
  · exact CpuEffect.of_jump h hj
  · injection hj with e; subst e; exact (h.trans (CpuEffect.setReg s' rd v)).trans (CpuEffect.advance _)

theorem CpuEffect.of_advance {s s' t : State} (h : CpuEffect s s') (hj : (.next s'.advance : Result) = .next t) :
    CpuEffect s t := by
  injection hj with e; subst e; exact h.trans (CpuEffect.advance s')

/-- A conditional instruction: the advance alone, or the effect. -/
theorem conditionally_cases {c : Cond} {s : State} {f : State → Result} {t : State} (h : conditionally c s f = .next t) :
    (s.passes c = false ∧ t = s.advance) ∨ (s.passes c = true ∧ f s = .next t) := by
  unfold conditionally at h
  split at h <;> rename_i hc
  · exact .inr ⟨hc, h⟩
  · injection h with e; exact .inl ⟨by simpa using hc, e.symm⟩

theorem CpuEffect.of_conditionally {c : Cond} {s t : State} {f : State → Result}
    (hf : f s = .next t → CpuEffect s t) (h : conditionally c s f = .next t) : CpuEffect s t := by
  rcases conditionally_cases h with ⟨_, rfl⟩ | ⟨_, h⟩
  · exact CpuEffect.advance s
  · exact hf h

theorem CpuEffect.of_undefinedInstr {i : Instr} {s t : State} (h : undefinedInstr i s = .next t) : CpuEffect s t := by
  unfold undefinedInstr at h
  split at h
  · cases h
  · exact CpuEffect.of_advance (CpuEffect.refl s) h
  · injection h with e; subst e; exact CpuEffect.takeException s _ _ _ (by decide)

end Sys2Proof.Machine
end

