-- ==== Sys2Proof/Laws/Exec.lean ====
section
/-! SUPPORT. Laws/Exec.lean: every instruction that answers a next state has the effect of Laws/CpuEffect.lean. -/

namespace Sys2Proof.Machine

/-! ## The shared operations of the families -/

theorem finishAlu_effect {s t : State} {b : Bool} {rd : Reg} {r : Word} {f : Nzcv}
    (h : finishAlu s b rd r f = .next t) : CpuEffect s t := by
  unfold finishAlu at h
  split at h
  · exact CpuEffect.of_jump (CpuEffect.ite (fun _ => CpuEffect.restoreCpsr s) fun _ => CpuEffect.refl s) h
  · exact CpuEffect.of_advance ((CpuEffect.setReg s rd r).trans (CpuEffect.setFlagsIf _ b f)) h

theorem finishCompare_effect {s t : State} {f : Nzcv} (h : finishCompare s f = .next t) : CpuEffect s t :=
  CpuEffect.of_advance (CpuEffect.setFlags s f) h

theorem finishMul_effect {s t : State} {b : Bool} {rd : Reg} {r : Word} (h : finishMul s b rd r = .next t) :
    CpuEffect s t :=
  CpuEffect.of_finishWrite (CpuEffect.setFlagsIf s b _) h

theorem finishLong_effect {s t : State} {b : Bool} {hi lo : Reg} {p : BitVec 64}
    (h : finishLong s b hi lo p = .next t) : CpuEffect s t := by
  have hf := CpuEffect.setFlagsIf s b (longFlags s p)
  unfold finishLong at h
  simp only at h
  split at h
  · split at h
    · exact CpuEffect.of_advance (CpuEffect.refl s) h
    · split at h
      · exact CpuEffect.of_jump hf h
      · injection h with e; subst e
        exact (hf.trans (CpuEffect.branchTo _ _)).trans (CpuEffect.setReg _ _ _)
  · exact CpuEffect.of_finishWrite (hf.trans (CpuEffect.setReg _ _ _)) h

theorem writePsr_effect (s : State) (pd : Bool) (fields : BitVec 4) (v : Word) : CpuEffect s (writePsr s pd fields v) := by
  unfold writePsr
  refine CpuEffect.ite (fun _ => ?_) fun _ => ?_
  · split
    · exact (CpuEffect.setSpsrOf s _ _).trans (CpuEffect.advance _)
    · exact CpuEffect.advance s
  · have h := CpuEffect.setCpsr s (mergeBits s.cpsr v (cpsrMask s fields))
    unfold advanceRebased
    by_cases ht : (s.setCpsr (mergeBits s.cpsr v (cpsrMask s fields))).thumb = s.thumb
    · rw [if_pos ht]; exact h.trans (CpuEffect.advance _)
    · rw [if_neg ht]
      refine h.trans (CpuEffect.setR15 _ _ fun w => ?_)
      rw [State.setCpsr_r15] at w
      exact even_add (even_add (even_sub w (even_offset _)) (by decide)) (even_offset _)

theorem execLoad_effect {i : Instr} {s t : State} {p u w : Bool} {rn rd : Reg} {off : Word} {read : Word → Word}
    (h : execLoad i s p u w rn rd off read = .next t) : CpuEffect s t := by
  unfold execLoad at h
  split at h
  · cases h
  · exact CpuEffect.of_finishWrite (CpuEffect.writeBack s _ rn _) h

theorem execStore_effect {i : Instr} {s t : State} {p u w : Bool} {rn : Reg} {off : Word} {write : Word → State}
    (hw : ∀ a, BusEffect s (write a)) (h : execStore i s p u w rn off write = .next t) : CpuEffect s t := by
  unfold execStore at h
  split at h
  · cases h
  · exact CpuEffect.of_advance ((hw _).cpu.trans (CpuEffect.writeBack _ _ rn _)) h

theorem execLdmWith_effect {i : Instr} {s t : State} {bank : Mode} {r p u w : Bool} {rn : Reg} {list : BitVec 16}
    (h : execLdmWith i s bank r p u w rn list = .next t) : CpuEffect s t := by
  unfold execLdmWith at h
  simp only at h
  split at h
  · cases h
  · have h1 : ∀ ts, CpuEffect s (loadRegs s bank ts (writeBack s w rn (blockFinal (s.reg rn) u (listRegs list)))) :=
      fun ts => (CpuEffect.writeBack s w rn _).trans (CpuEffect.loadRegs s bank ts _)
    split at h
    · exact CpuEffect.of_jump
        (CpuEffect.ite (fun _ => (h1 _).trans (CpuEffect.restoreCpsr _)) fun _ => h1 _) h
    · exact CpuEffect.of_advance (h1 _) h

theorem execStmWith_effect {i : Instr} {s t : State} {bank : Mode} {p u w : Bool} {rn : Reg} {list : BitVec 16}
    (h : execStmWith i s bank p u w rn list = .next t) : CpuEffect s t := by
  unfold execStmWith at h
  simp only at h
  split at h
  · cases h
  · exact CpuEffect.of_advance ((storeRegs_effect _ _ s).cpu.trans (CpuEffect.writeBack _ w rn _)) h

theorem finishThumb_effect {s t : State} {rd : LowReg} {r : Word} {f : Nzcv} (h : finishThumb s rd r f = .next t) :
    CpuEffect s t :=
  CpuEffect.of_advance ((CpuEffect.setReg s _ r).trans (CpuEffect.setFlags _ f)) h

theorem finishThumbFlags_effect {s t : State} {f : Nzcv} (h : finishThumbFlags s f = .next t) : CpuEffect s t :=
  CpuEffect.of_advance (CpuEffect.setFlags s f) h

theorem finishThumbPlain_effect {s t : State} {rd : Reg} {r : Word} (h : finishThumbPlain s rd r = .next t) :
    CpuEffect s t :=
  CpuEffect.of_advance (CpuEffect.setReg s rd r) h

theorem finishThumbLoad_effect {s t : State} {rd : LowReg} {v : Word} (h : finishThumbLoad s rd v = .next t) :
    CpuEffect s t :=
  CpuEffect.of_advance (CpuEffect.setReg s _ v) h

theorem store_advance_effect {s u t : State} (hb : BusEffect s u) (h : (.next u.advance : Result) = .next t) :
    CpuEffect s t :=
  CpuEffect.of_advance hb.cpu h

theorem thumbCondBranch_effect {c : Cond} {o : BitVec 8} {s t : State} (h : thumbCondBranch c o s = .next t) :
    CpuEffect s t :=
  CpuEffect.of_conditionally (CpuEffect.of_jump (CpuEffect.refl s)) h

/-! ## The BIOS calls -/

theorem clearLowRegs_effect (s : State) : CpuEffect s (clearLowRegs s) := by
  unfold clearLowRegs
  generalize List.finRange 13 = l
  induction l generalizing s with
  | nil => exact CpuEffect.refl s
  | cons i l ih => exact (CpuEffect.setRegIn s .usr _ 0).trans (ih _)

theorem softResetRegs_effect (s : State) : CpuEffect s (softResetRegs s) :=
  ((((((CpuEffect.setRegIn s .svc 13 _).trans (CpuEffect.setRegIn _ .svc 14 _)).trans
    (CpuEffect.setRegIn _ .irq 13 _)).trans (CpuEffect.setRegIn _ .irq 14 _)).trans (clearLowRegs_effect _)).trans
    (CpuEffect.setRegIn _ .usr 13 _)).trans (CpuEffect.setRegIn _ .usr 14 _)

theorem softResetEntry_even (flag : Byte) : (softResetEntry flag + 8).getLsbD 0 = false := by
  unfold softResetEntry; split <;> decide

theorem biosSoftReset_effect (s : State) : CpuEffect s (biosSoftReset s) := by
  have h : CpuEffect s (softResetRegs (clearWords 0x80 s 0x03007E00#32)) :=
    (clearWords_effect _ s _).cpu.trans (softResetRegs_effect _)
  unfold biosSoftReset
  generalize softResetRegs (clearWords 0x80 s 0x03007E00#32) = u at h
  exact h.trans
    { CpuEffect.refl u with
      mode := fun _ => show validMode 0x1F#32 = true by decide
      pc := fun _ => softResetEntry_even _ }

theorem biosHalt_effect (s : State) : CpuEffect s (biosHalt s) := CpuEffect.halt s true

theorem biosIntrWait_effect (s : State) : CpuEffect s (biosIntrWait s) :=
  ((BusEffect.ime s 1).trans (BusEffect.halted _ true)).cpu

theorem biosDiv_effect {s t : State} (h : biosDiv s = .next t) : CpuEffect s t := by
  unfold biosDiv at h
  simp only at h
  split at h
  · cases h
  · injection h with e; subst e
    exact ((CpuEffect.setReg _ _ _).trans (CpuEffect.setReg _ _ _)).trans (CpuEffect.setReg _ _ _)

theorem finishUnpack_effect (s : State) (d : Unpack) (size : Nat) (halves : Bool) :
    CpuEffect s (finishUnpack s d size halves) := by
  have h1 : ∀ u : State, BusEffect u
      (if halves then writeHalves d.out.reverse u (s.reg 1) else writeBytes d.out.reverse u (s.reg 1)) :=
    fun u => BusEffect.ite (fun _ => writeHalves_effect _ u _) fun _ => writeBytes_effect _ u _
  exact (((BusEffect.free s d.free).trans (h1 _)).cpu.trans (CpuEffect.setReg _ _ _)).trans (CpuEffect.setReg _ _ _)

theorem biosCall_effect {n : Nat} {s t : State} (h : biosCall n s = .next t) : CpuEffect s t := by
  unfold biosCall at h
  split at h
  · injection h with e; subst e; exact biosSoftReset_effect s
  · exact CpuEffect.of_advance (biosHalt_effect s) h
  · exact CpuEffect.of_advance (biosHalt_effect s) h
  · exact CpuEffect.of_advance (biosIntrWait_effect s) h
  · exact CpuEffect.of_advance (biosIntrWait_effect s) h
  · split at h
    · exact CpuEffect.of_advance (biosDiv_effect ‹_›) h
    · cases h
    · cases h
  · exact CpuEffect.of_advance (CpuEffect.setReg s 0 _) h
  · exact CpuEffect.of_advance (copyUnits_effect _ _ _ s _ _).cpu h
  · exact CpuEffect.of_advance (copyUnits_effect _ _ _ s _ _).cpu h
  · exact CpuEffect.of_advance (CpuEffect.setReg s 0 _) h
  all_goals first
    | exact CpuEffect.of_advance (finishUnpack_effect s _ _ _) h
    | exact CpuEffect.of_advance (CpuEffect.refl s) h

/-! ## Thumb block transfers -/

theorem execTPush_effect {lr : Bool} {list : BitVec 8} {s t : State} (h : execTPush lr list s = .next t) :
    CpuEffect s t := by
  unfold execTPush at h
  simp only at h
  split at h
  · cases h
  · exact CpuEffect.of_advance ((storeRegs_effect _ _ s).cpu.trans (CpuEffect.setReg _ 13 _)) h

theorem execTPop_effect {pc : Bool} {list : BitVec 8} {s t : State} (h : execTPop pc list s = .next t) :
    CpuEffect s t := by
  unfold execTPop at h
  simp only at h
  split at h
  · cases h
  · have h1 : ∀ ts v, CpuEffect s ((loadRegs s s.mode ts s).setReg 13 v) := fun ts v =>
      (CpuEffect.loadRegs s s.mode ts s).trans (CpuEffect.setReg _ 13 v)
    split at h
    · exact CpuEffect.of_jump (h1 _ _) h
    · exact CpuEffect.of_advance (h1 _ _) h

theorem execTStmia_effect {rb : LowReg} {list : BitVec 8} {s t : State} (h : execTStmia rb list s = .next t) :
    CpuEffect s t := by
  unfold execTStmia at h
  simp only at h
  split at h
  · cases h
  · exact CpuEffect.of_advance ((storeRegs_effect _ _ s).cpu.trans (CpuEffect.setReg _ _ _)) h

theorem execTLdmia_effect {rb : LowReg} {list : BitVec 8} {s t : State} (h : execTLdmia rb list s = .next t) :
    CpuEffect s t := by
  unfold execTLdmia at h
  simp only at h
  split at h
  · cases h
  · exact CpuEffect.of_advance ((CpuEffect.setReg s _ _).trans (CpuEffect.loadRegs s s.mode _ _)) h

/-! ## Every instruction -/

/-- An instruction that answers a next state has the effect of an instruction. -/
theorem exec_effect {i : Instr} {s t : State} (h : exec i s = .next t) : CpuEffect s t := by
  cases i with
  | and c sb rn rd op2 => exact CpuEffect.of_conditionally finishAlu_effect (show execAnd c sb rn rd op2 s = .next t from h)
  | eor c sb rn rd op2 => exact CpuEffect.of_conditionally finishAlu_effect (show execEor c sb rn rd op2 s = .next t from h)
  | sub c sb rn rd op2 => exact CpuEffect.of_conditionally finishAlu_effect (show execSub c sb rn rd op2 s = .next t from h)
  | rsb c sb rn rd op2 => exact CpuEffect.of_conditionally finishAlu_effect (show execRsb c sb rn rd op2 s = .next t from h)
  | add c sb rn rd op2 => exact CpuEffect.of_conditionally finishAlu_effect (show execAdd c sb rn rd op2 s = .next t from h)
  | adc c sb rn rd op2 => exact CpuEffect.of_conditionally finishAlu_effect (show execAdc c sb rn rd op2 s = .next t from h)
  | sbc c sb rn rd op2 => exact CpuEffect.of_conditionally finishAlu_effect (show execSbc c sb rn rd op2 s = .next t from h)
  | rsc c sb rn rd op2 => exact CpuEffect.of_conditionally finishAlu_effect (show execRsc c sb rn rd op2 s = .next t from h)
  | orr c sb rn rd op2 => exact CpuEffect.of_conditionally finishAlu_effect (show execOrr c sb rn rd op2 s = .next t from h)
  | mov c sb sbz rd op2 => exact CpuEffect.of_conditionally finishAlu_effect (show execMov c sb sbz rd op2 s = .next t from h)
  | bic c sb rn rd op2 => exact CpuEffect.of_conditionally finishAlu_effect (show execBic c sb rn rd op2 s = .next t from h)
  | mvn c sb sbz rd op2 => exact CpuEffect.of_conditionally finishAlu_effect (show execMvn c sb sbz rd op2 s = .next t from h)
  | tst c rn sbz op2 => exact CpuEffect.of_conditionally finishCompare_effect (show execTst c rn sbz op2 s = .next t from h)
  | teq c rn sbz op2 => exact CpuEffect.of_conditionally finishCompare_effect (show execTeq c rn sbz op2 s = .next t from h)
  | cmp c rn sbz op2 => exact CpuEffect.of_conditionally finishCompare_effect (show execCmp c rn sbz op2 s = .next t from h)
  | cmn c rn sbz op2 => exact CpuEffect.of_conditionally finishCompare_effect (show execCmn c rn sbz op2 s = .next t from h)
  | mul c sb rd sbz rs rm => exact CpuEffect.of_conditionally finishMul_effect (show execMul c sb rd sbz rs rm s = .next t from h)
  | mla c sb rd rn rs rm => exact CpuEffect.of_conditionally finishMul_effect (show execMla c sb rd rn rs rm s = .next t from h)
  | umull c sb rdHi rdLo rs rm => exact CpuEffect.of_conditionally finishLong_effect (show execUmull c sb rdHi rdLo rs rm s = .next t from h)
  | umlal c sb rdHi rdLo rs rm => exact CpuEffect.of_conditionally finishLong_effect (show execUmlal c sb rdHi rdLo rs rm s = .next t from h)
  | smull c sb rdHi rdLo rs rm => exact CpuEffect.of_conditionally finishLong_effect (show execSmull c sb rdHi rdLo rs rm s = .next t from h)
  | smlal c sb rdHi rdLo rs rm => exact CpuEffect.of_conditionally finishLong_effect (show execSmlal c sb rdHi rdLo rs rm s = .next t from h)
  | armNever bits => exact CpuEffect.of_advance (CpuEffect.refl s) (show execArmNever bits s = .next t from h)
  | bx c rm => exact CpuEffect.of_conditionally (CpuEffect.of_jumpExchange (CpuEffect.refl s)) (show execBx c rm s = .next t from h)
  | b c offset24 => exact CpuEffect.of_conditionally (CpuEffect.of_jump (CpuEffect.refl s)) (show execB c offset24 s = .next t from h)
  | bl c offset24 => exact CpuEffect.of_conditionally (CpuEffect.of_jump (CpuEffect.setReg s 14 _)) (show execBl c offset24 s = .next t from h)
  | mrs c ps rd => exact CpuEffect.of_conditionally (CpuEffect.of_finishWrite (CpuEffect.refl s)) (show execMrs c ps rd s = .next t from h)
  | msrReg c pd fields rm => exact CpuEffect.of_conditionally (fun h => by injection h with e; subst e; exact writePsr_effect s _ _ _) (show execMsrReg c pd fields rm s = .next t from h)
  | msrImm c pd fields rotate imm8 => exact CpuEffect.of_conditionally (fun h => by injection h with e; subst e; exact writePsr_effect s _ _ _) (show execMsrImm c pd fields rotate imm8 s = .next t from h)
  | swp c rn rd rm => exact CpuEffect.of_conditionally (CpuEffect.of_finishWrite (write32_effect s _ _).cpu) (show execSwp c rn rd rm s = .next t from h)
  | swpb c rn rd rm => exact CpuEffect.of_conditionally (CpuEffect.of_finishWrite (write8_effect s _ _).cpu) (show execSwpb c rn rd rm s = .next t from h)
  | ldrhReg c p u w rn rd rm => exact CpuEffect.of_conditionally execLoad_effect (show execLdrhReg c p u w rn rd rm s = .next t from h)
  | ldrhImm c p u w rn rd imm8 => exact CpuEffect.of_conditionally execLoad_effect (show execLdrhImm c p u w rn rd imm8 s = .next t from h)
  | ldrsbReg c p u w rn rd rm => exact CpuEffect.of_conditionally execLoad_effect (show execLdrsbReg c p u w rn rd rm s = .next t from h)
  | ldrsbImm c p u w rn rd imm8 => exact CpuEffect.of_conditionally execLoad_effect (show execLdrsbImm c p u w rn rd imm8 s = .next t from h)
  | ldrshReg c p u w rn rd rm => exact CpuEffect.of_conditionally execLoad_effect (show execLdrshReg c p u w rn rd rm s = .next t from h)
  | ldrshImm c p u w rn rd imm8 => exact CpuEffect.of_conditionally execLoad_effect (show execLdrshImm c p u w rn rd imm8 s = .next t from h)
  | ldrt c u rn rd off => exact CpuEffect.of_conditionally execLoad_effect (show execLdrt c u rn rd off s = .next t from h)
  | ldrbt c u rn rd off => exact CpuEffect.of_conditionally execLoad_effect (show execLdrbt c u rn rd off s = .next t from h)
  | ldr c p u w rn rd off => exact CpuEffect.of_conditionally execLoad_effect (show execLdr c p u w rn rd off s = .next t from h)
  | ldrb c p u w rn rd off => exact CpuEffect.of_conditionally execLoad_effect (show execLdrb c p u w rn rd off s = .next t from h)
  | strhReg c p u w rn rd rm => exact CpuEffect.of_conditionally (execStore_effect fun a => write16_effect s a _) (show execStrhReg c p u w rn rd rm s = .next t from h)
  | strhImm c p u w rn rd imm8 => exact CpuEffect.of_conditionally (execStore_effect fun a => write16_effect s a _) (show execStrhImm c p u w rn rd imm8 s = .next t from h)
  | strt c u rn rd off => exact CpuEffect.of_conditionally (execStore_effect fun a => write32_effect s a _) (show execStrt c u rn rd off s = .next t from h)
  | str c p u w rn rd off => exact CpuEffect.of_conditionally (execStore_effect fun a => write32_effect s a _) (show execStr c p u w rn rd off s = .next t from h)
  | strbt c u rn rd off => exact CpuEffect.of_conditionally (execStore_effect fun a => write8_effect s a _) (show execStrbt c u rn rd off s = .next t from h)
  | strb c p u w rn rd off => exact CpuEffect.of_conditionally (execStore_effect fun a => write8_effect s a _) (show execStrb c p u w rn rd off s = .next t from h)
  | ldmRet c p u w rn list => exact CpuEffect.of_conditionally execLdmWith_effect (show execLdmRet c p u w rn list s = .next t from h)
  | ldmUser c p u w rn list => exact CpuEffect.of_conditionally execLdmWith_effect (show execLdmUser c p u w rn list s = .next t from h)
  | ldm c p u w rn list => exact CpuEffect.of_conditionally execLdmWith_effect (show execLdm c p u w rn list s = .next t from h)
  | stmUser c p u w rn list => exact CpuEffect.of_conditionally execStmWith_effect (show execStmUser c p u w rn list s = .next t from h)
  | stm c p u w rn list => exact CpuEffect.of_conditionally execStmWith_effect (show execStm c p u w rn list s = .next t from h)
  | swi c comment => exact CpuEffect.of_conditionally biosCall_effect (show execSwi c comment s = .next t from h)
  | ldc c p u n w rn crd cp offset8 => exact CpuEffect.of_conditionally (CpuEffect.of_advance (CpuEffect.refl s)) (show execLdc c p u n w rn crd cp offset8 s = .next t from h)
  | stc c p u n w rn crd cp offset8 => exact CpuEffect.of_conditionally (CpuEffect.of_advance (CpuEffect.refl s)) (show execStc c p u n w rn crd cp offset8 s = .next t from h)
  | cdp c opc1 crn crd cp opc2 crm => exact CpuEffect.of_conditionally (CpuEffect.of_advance (CpuEffect.refl s)) (show execCdp c opc1 crn crd cp opc2 crm s = .next t from h)
  | mrc c opc1 crn rd cp opc2 crm => exact CpuEffect.of_conditionally (CpuEffect.of_advance (CpuEffect.refl s)) (show execMrc c opc1 crn rd cp opc2 crm s = .next t from h)
  | mcr c opc1 crn rd cp opc2 crm => exact CpuEffect.of_conditionally (CpuEffect.of_advance (CpuEffect.refl s)) (show execMcr c opc1 crn rd cp opc2 crm s = .next t from h)
  | undefMul c bits => exact CpuEffect.of_conditionally CpuEffect.of_undefinedInstr (show execUndefMul c bits s = .next t from h)
  | undefCompare c bits => exact CpuEffect.of_conditionally CpuEffect.of_undefinedInstr (show execUndefCompare c bits s = .next t from h)
  | undefTransfer c bits => exact CpuEffect.of_conditionally CpuEffect.of_undefinedInstr (show execUndefTransfer c bits s = .next t from h)
  | tLslImm amount rs rd => exact finishThumb_effect (show execTLslImm amount rs rd s = .next t from h)
  | tLsrImm amount rs rd => exact finishThumb_effect (show execTLsrImm amount rs rd s = .next t from h)
  | tAsrImm amount rs rd => exact finishThumb_effect (show execTAsrImm amount rs rd s = .next t from h)
  | tAddReg rn rs rd => exact finishThumb_effect (show execTAddReg rn rs rd s = .next t from h)
  | tSubReg rn rs rd => exact finishThumb_effect (show execTSubReg rn rs rd s = .next t from h)
  | tAddImm3 imm3 rs rd => exact finishThumb_effect (show execTAddImm3 imm3 rs rd s = .next t from h)
  | tSubImm3 imm3 rs rd => exact finishThumb_effect (show execTSubImm3 imm3 rs rd s = .next t from h)
  | tMovImm8 rd imm8 => exact finishThumb_effect (show execTMovImm8 rd imm8 s = .next t from h)
  | tAddImm8 rd imm8 => exact finishThumb_effect (show execTAddImm8 rd imm8 s = .next t from h)
  | tSubImm8 rd imm8 => exact finishThumb_effect (show execTSubImm8 rd imm8 s = .next t from h)
  | tAnd rs rd => exact finishThumb_effect (show execTAnd rs rd s = .next t from h)
  | tEor rs rd => exact finishThumb_effect (show execTEor rs rd s = .next t from h)
  | tLslReg rs rd => exact finishThumb_effect (show execTLslReg rs rd s = .next t from h)
  | tLsrReg rs rd => exact finishThumb_effect (show execTLsrReg rs rd s = .next t from h)
  | tAsrReg rs rd => exact finishThumb_effect (show execTAsrReg rs rd s = .next t from h)
  | tAdc rs rd => exact finishThumb_effect (show execTAdc rs rd s = .next t from h)
  | tSbc rs rd => exact finishThumb_effect (show execTSbc rs rd s = .next t from h)
  | tRorReg rs rd => exact finishThumb_effect (show execTRorReg rs rd s = .next t from h)
  | tNeg rs rd => exact finishThumb_effect (show execTNeg rs rd s = .next t from h)
  | tOrr rs rd => exact finishThumb_effect (show execTOrr rs rd s = .next t from h)
  | tMul rs rd => exact finishThumb_effect (show execTMul rs rd s = .next t from h)
  | tBic rs rd => exact finishThumb_effect (show execTBic rs rd s = .next t from h)
  | tMvn rs rd => exact finishThumb_effect (show execTMvn rs rd s = .next t from h)
  | tCmpImm8 rd imm8 => exact finishThumbFlags_effect (show execTCmpImm8 rd imm8 s = .next t from h)
  | tTst rs rd => exact finishThumbFlags_effect (show execTTst rs rd s = .next t from h)
  | tCmpReg rs rd => exact finishThumbFlags_effect (show execTCmpReg rs rd s = .next t from h)
  | tCmn rs rd => exact finishThumbFlags_effect (show execTCmn rs rd s = .next t from h)
  | tCmpHi rs rd => exact finishThumbFlags_effect (show execTCmpHi rs rd s = .next t from h)
  | tAddHi rs rd => exact CpuEffect.of_finishWrite (CpuEffect.refl s) (show execTAddHi rs rd s = .next t from h)
  | tMovHi rs rd => exact CpuEffect.of_finishWrite (CpuEffect.refl s) (show execTMovHi rs rd s = .next t from h)
  | tBx rs sbz => exact CpuEffect.of_jumpExchange (CpuEffect.refl s) (show execTBx rs sbz s = .next t from h)
  | tBlxReg rs sbz => exact CpuEffect.of_jumpExchange (CpuEffect.setReg s 14 _) (show execTBlxReg rs sbz s = .next t from h)
  | tLdrPc rd word8 => exact finishThumbLoad_effect (show execTLdrPc rd word8 s = .next t from h)
  | tLdrReg ro rb rd => exact finishThumbLoad_effect (show execTLdrReg ro rb rd s = .next t from h)
  | tLdrbReg ro rb rd => exact finishThumbLoad_effect (show execTLdrbReg ro rb rd s = .next t from h)
  | tLdrhReg ro rb rd => exact finishThumbLoad_effect (show execTLdrhReg ro rb rd s = .next t from h)
  | tLdsbReg ro rb rd => exact finishThumbLoad_effect (show execTLdsbReg ro rb rd s = .next t from h)
  | tLdshReg ro rb rd => exact finishThumbLoad_effect (show execTLdshReg ro rb rd s = .next t from h)
  | tLdrImm offset5 rb rd => exact finishThumbLoad_effect (show execTLdrImm offset5 rb rd s = .next t from h)
  | tLdrbImm offset5 rb rd => exact finishThumbLoad_effect (show execTLdrbImm offset5 rb rd s = .next t from h)
  | tLdrhImm offset5 rb rd => exact finishThumbLoad_effect (show execTLdrhImm offset5 rb rd s = .next t from h)
  | tLdrSp rd word8 => exact finishThumbLoad_effect (show execTLdrSp rd word8 s = .next t from h)
  | tStrReg ro rb rd => exact store_advance_effect (write32_effect s _ _) (show execTStrReg ro rb rd s = .next t from h)
  | tStrImm offset5 rb rd => exact store_advance_effect (write32_effect s _ _) (show execTStrImm offset5 rb rd s = .next t from h)
  | tStrSp rd word8 => exact store_advance_effect (write32_effect s _ _) (show execTStrSp rd word8 s = .next t from h)
  | tStrbReg ro rb rd => exact store_advance_effect (write8_effect s _ _) (show execTStrbReg ro rb rd s = .next t from h)
  | tStrbImm offset5 rb rd => exact store_advance_effect (write8_effect s _ _) (show execTStrbImm offset5 rb rd s = .next t from h)
  | tStrhReg ro rb rd => exact store_advance_effect (write16_effect s _ _) (show execTStrhReg ro rb rd s = .next t from h)
  | tStrhImm offset5 rb rd => exact store_advance_effect (write16_effect s _ _) (show execTStrhImm offset5 rb rd s = .next t from h)
  | tAddPc rd word8 => exact finishThumbPlain_effect (show execTAddPc rd word8 s = .next t from h)
  | tAddSp rd word8 => exact finishThumbPlain_effect (show execTAddSp rd word8 s = .next t from h)
  | tIncSp sword7 => exact finishThumbPlain_effect (show execTIncSp sword7 s = .next t from h)
  | tDecSp sword7 => exact finishThumbPlain_effect (show execTDecSp sword7 s = .next t from h)
  | tPush lr list => exact execTPush_effect (show execTPush lr list s = .next t from h)
  | tPop pc list => exact execTPop_effect (show execTPop pc list s = .next t from h)
  | tStmia rb list => exact execTStmia_effect (show execTStmia rb list s = .next t from h)
  | tLdmia rb list => exact execTLdmia_effect (show execTLdmia rb list s = .next t from h)
  | tBeq soffset8 => exact thumbCondBranch_effect (show execTBeq soffset8 s = .next t from h)
  | tBne soffset8 => exact thumbCondBranch_effect (show execTBne soffset8 s = .next t from h)
  | tBcs soffset8 => exact thumbCondBranch_effect (show execTBcs soffset8 s = .next t from h)
  | tBcc soffset8 => exact thumbCondBranch_effect (show execTBcc soffset8 s = .next t from h)
  | tBmi soffset8 => exact thumbCondBranch_effect (show execTBmi soffset8 s = .next t from h)
  | tBpl soffset8 => exact thumbCondBranch_effect (show execTBpl soffset8 s = .next t from h)
  | tBvs soffset8 => exact thumbCondBranch_effect (show execTBvs soffset8 s = .next t from h)
  | tBvc soffset8 => exact thumbCondBranch_effect (show execTBvc soffset8 s = .next t from h)
  | tBhi soffset8 => exact thumbCondBranch_effect (show execTBhi soffset8 s = .next t from h)
  | tBls soffset8 => exact thumbCondBranch_effect (show execTBls soffset8 s = .next t from h)
  | tBge soffset8 => exact thumbCondBranch_effect (show execTBge soffset8 s = .next t from h)
  | tBlt soffset8 => exact thumbCondBranch_effect (show execTBlt soffset8 s = .next t from h)
  | tBgt soffset8 => exact thumbCondBranch_effect (show execTBgt soffset8 s = .next t from h)
  | tBle soffset8 => exact thumbCondBranch_effect (show execTBle soffset8 s = .next t from h)
  | tSwi value8 => exact biosCall_effect (show execTSwi value8 s = .next t from h)
  | tB offset11 => exact CpuEffect.of_jump (CpuEffect.refl s) (show execTB offset11 s = .next t from h)
  | tBlHigh offset11 => exact CpuEffect.of_advance (CpuEffect.setReg s 14 _) (show execTBlHigh offset11 s = .next t from h)
  | tBlLow offset11 => exact CpuEffect.of_jump (CpuEffect.setReg s 14 _) (show execTBlLow offset11 s = .next t from h)
  | tBlxLow offset11 => exact CpuEffect.of_jumpExchange (CpuEffect.setReg s 14 _) (show execTBlxLow offset11 s = .next t from h)
  | tUndefCond bits => exact CpuEffect.of_undefinedInstr (show execTUndefCond bits s = .next t from h)
  | tUndefB1 bits => exact CpuEffect.of_undefinedInstr (show execTUndefB1 bits s = .next t from h)
  | tUndefB2 bits => exact CpuEffect.of_undefinedInstr (show execTUndefB2 bits s = .next t from h)
  | tUndefB6 bits => exact CpuEffect.of_undefinedInstr (show execTUndefB6 bits s = .next t from h)
  | tUndefB8 bits => exact CpuEffect.of_undefinedInstr (show execTUndefB8 bits s = .next t from h)
  | tUndefBE bits => exact CpuEffect.of_undefinedInstr (show execTUndefBE bits s = .next t from h)

end Sys2Proof.Machine
end

