-- ==== Sys2Proof/Laws/Step.lean ====
section
/-! SUPPORT. Laws/Step.lean: what one action of the frame driver's schedule can do, and the parts of the invariant each
action keeps. -/

namespace Sys2Proof.Machine

/-! ## The CPU step -/

/-- A BIOS-space step has the effect of an instruction (R630, R631). -/
theorem biosSpaceStep_effect (s : State) : CpuEffect s (biosSpaceStep s) :=
  CpuEffect.ite (fun _ => CpuEffect.branchTo s _) fun _ => CpuEffect.branchExchange s _

theorem cpuStep_effect {s t : State} (h : cpuStep s = .next t) : CpuEffect s t := by
  unfold cpuStep at h
  split at h
  · injection h with e; subst e; exact biosSpaceStep_effect s
  · exact exec_effect h

/-- One turn of the CPU loop is a CPU step and the accounting of its cost. -/
theorem runStep_cases {s t : State} (h : runStep s = .next t) :
    ∃ u, cpuStep s = .next u ∧ t = afterStep s.stepCost u := by
  unfold runStep at h
  split at h
  · injection h with e; exact ⟨_, ‹_›, e.symm⟩
  · cases h
  · cases h

/-- One action of the schedule (R671): the host's turn, the top of a scanline, an IRQ entry, a CPU step, or the end of a
scanline. -/
theorem step_cases {s t : State} (h : step s = .next t) :
    (s.phase = .host ∧ t = hostStep s)
    ∨ (s.phase = .lineStart ∧ t = beginLine s)
    ∨ (s.phase = .run ∧ s.running = true ∧ s.takesIrq = true ∧ t = takeIrq s)
    ∨ (s.phase = .run ∧ s.running = true ∧ s.takesIrq = false ∧ ∃ u, cpuStep s = .next u ∧ t = afterStep s.stepCost u)
    ∨ (s.phase = .run ∧ s.running = false ∧ t = endLine s) := by
  unfold step machineStep at h
  split at h <;> rename_i hp
  · injection h with e; exact .inl ⟨hp, e.symm⟩
  · injection h with e; exact .inr (.inl ⟨hp, e.symm⟩)
  · split at h <;> rename_i hr
    · split at h <;> rename_i hi
      · injection h with e; exact .inr (.inr (.inl ⟨hp, hr, hi, e.symm⟩))
      · exact .inr (.inr (.inr (.inl ⟨hp, hr, by simpa using hi, runStep_cases h⟩)))
    · injection h with e; exact .inr (.inr (.inr (.inr ⟨hp, by simpa using hr, e.symm⟩)))

/-- A step stops the machine only in the CPU's turn, and then as the CPU step does. -/
theorem step_fault {s : State} {f : Fault} (h : step s = .fault f) :
    s.phase = .run ∧ s.running = true ∧ s.takesIrq = false ∧ cpuStep s = .fault f := by
  unfold step machineStep at h
  split at h <;> rename_i hp
  · cases h
  · cases h
  · split at h <;> rename_i hr
    · split at h <;> rename_i hi
      · cases h
      · refine ⟨hp, hr, by simpa using hi, ?_⟩
        unfold runStep at h
        split at h
        · cases h
        · rename_i e he; injection h with e'; rw [he, e']
        · cases h
    · cases h

/-! ## Memory after `init` and `reset` -/

theorem imageCells_range {k : Nat} {bs : List Byte} {c : Host.Cell} (h : c ∈ imageCells k bs) : k ≤ c.1 ∧ c.1 < k + bs.length := by
  induction bs generalizing k with
  | nil => cases h
  | cons b bs ih =>
    unfold imageCells at h
    split at h
    · have := ih h; simp only [List.length_cons]; omega
    · rcases List.mem_cons.mp h with e | e
      · rw [e]; simp only [List.length_cons]; omega
      · have := ih e; simp only [List.length_cons]; omega

/-- An image below the flash array is in canonical form. -/
theorem imageCells_wf (k : Nat) (bs : List Byte) (h : k + bs.length ≤ 0x0E000000) : Memory.wf (imageCells k bs) = true := by
  induction bs generalizing k with
  | nil => rfl
  | cons b bs ih =>
    simp only [List.length_cons] at h
    unfold imageCells
    split
    · exact ih _ (by omega)
    · rename_i hb
      unfold Memory.wf Store.wf
      have h1 : Memory.unlisted k = 0 := by unfold Memory.unlisted; rw [if_neg (by omega)]; rfl
      rw [h1, Bool.and_eq_true, Bool.and_eq_true]
      refine ⟨⟨by simpa using hb, ?_⟩, ih _ (by omega)⟩
      rw [List.all_eq_true]
      intro c hc
      have := imageCells_range hc
      simp; omega

/-- A byte of an image (R10, R730); past its end it reads as a byte that is not listed. -/
theorem imageCells_get (k : Nat) (bs : List Byte) (n : Nat) (h : k + bs.length ≤ 0x0E000000) :
    Memory.get (imageCells k bs) n = if k ≤ n ∧ n < k + bs.length then bs.getD (n - k) 0 else Memory.unlisted n := by
  induction bs generalizing k with
  | nil => rw [if_neg (by simp only [List.length_nil]; omega)]; rfl
  | cons b bs ih =>
    simp only [List.length_cons] at h ⊢
    have e : Memory.get (imageCells k (b :: bs)) n = if n = k then b else Memory.get (imageCells (k + 1) bs) n := by
      rw [imageCells]
      by_cases hb : b = 0
      · rw [if_pos hb]
        split
        · rename_i hn
          rw [ih _ (by omega), if_neg (by omega), hn, hb]
          unfold Memory.unlisted; rw [if_neg (by omega)]; rfl
        · rfl
      · rw [if_neg hb]; rfl
    rw [e]
    by_cases hn : n = k
    · rw [if_pos hn, if_pos (by omega), hn, Nat.sub_self]; rfl
    · rw [if_neg hn, ih _ (by omega)]
      by_cases h2 : k ≤ n ∧ n < k + (bs.length + 1)
      · rw [if_pos h2, if_pos (by omega), show n - k = (n - (k + 1)) + 1 by omega]; rfl
      · rw [if_neg h2, if_neg (by omega)]

theorem startMem_wf {bios ram cartridge : List Host.Cell} (h1 : Memory.wf bios = true) (h2 : Memory.wf ram = true)
    (h3 : Memory.wf cartridge = true) (hb : ∀ c, c ∈ bios → belowRam c = true) (hc : ∀ c, c ∈ cartridge → aboveRam c = true) :
    Memory.wf (startMem bios ram cartridge) = true := by
  have hm : ∀ c, c ∈ ram.filter (fun c => !belowRam c && !aboveRam c) → 0x4000 ≤ c.1 ∧ c.1 < 0x08000000 := fun c h => by
    have := (List.mem_filter.mp h).2
    unfold belowRam aboveRam at this
    simp at this
    exact this
  have hb' : ∀ c, c ∈ bios → c.1 < 0x4000 := fun c h => by simpa [belowRam] using hb c h
  have hc' : ∀ c, c ∈ cartridge → 0x08000000 ≤ c.1 := fun c h => by simpa [aboveRam] using hc c h
  unfold startMem
  refine Store.wf_append (Store.wf_append h1 (Memory.wf_filter _ _ h2) ?_) h3 ?_
  · intro c d hc hd; have := hb' c hc; have := hm d hd; omega
  · intro c d hcm hd
    have := hc' d hd
    rcases List.mem_append.mp hcm with h | h
    · have := hb' c h; omega
    · have := hm c h; omega

/-- What reading answers after a start: BIOS and cartridge from the images, RAM from RESET_STATE (R70, R800). -/
theorem startMem_get (bios ram cartridge : List Host.Cell) (k : Nat) (hb : ∀ c, c ∈ bios → belowRam c = true)
    (hc : ∀ c, c ∈ cartridge → aboveRam c = true) :
    Memory.get (startMem bios ram cartridge) k =
      if k < 0x4000 then Memory.get bios k else if 0x08000000 ≤ k then Memory.get cartridge k else Memory.get ram k := by
  have hb' : 0x4000 ≤ k → ∀ c, c ∈ bios → c.1 ≠ k := fun h c hm e => by
    have : c.1 < 0x4000 := by simpa [belowRam] using hb c hm
    omega
  have hc' : k < 0x08000000 → ∀ c, c ∈ cartridge → c.1 ≠ k := fun h c hm e => by
    have : 0x08000000 ≤ c.1 := by simpa [aboveRam] using hc c hm
    omega
  have hr : k < 0x4000 ∨ 0x08000000 ≤ k → ∀ c, c ∈ ram.filter (fun c => !belowRam c && !aboveRam c) → c.1 ≠ k := fun h c hm e => by
    have := (List.mem_filter.mp hm).2
    unfold belowRam aboveRam at this
    simp at this
    omega
  unfold Memory.get startMem
  by_cases h1 : k < 0x4000
  · rw [if_pos h1, Store.get_append_left (hc' (by omega)), Store.get_append_left (hr (.inl h1))]
  · rw [if_neg h1]
    by_cases h2 : 0x08000000 ≤ k
    · rw [if_pos h2, Store.get_append_right]
      intro c hm
      rcases List.mem_append.mp hm with h | h
      · exact hb' (by omega) c h
      · exact hr (.inr h2) c h
    · rw [if_neg h2, Store.get_append_left (hc' (by omega)), Store.get_append_right (hb' (by omega)), Store.get_filter_kept]
      intro c e
      unfold belowRam aboveRam
      simp; omega

/-! ## The invariant -/

/-- What has the effect of an instruction keeps the invariant. -/
theorem CpuEffect.inv {s t : State} (h : CpuEffect s t) (i : s.Inv) : t.Inv :=
  { memory := h.memory i.memory
    picture := by rw [h.framebuffer]; exact i.picture
    mode := h.mode i.mode
    pc := h.pc i.pc
    irqs := h.irqs i.irqs
    vcount := by rw [h.vcount]; exact i.vcount
    lastVcount := by rw [h.lastVcount]; exact i.lastVcount
    line := by rw [h.line]; exact i.line
    budget := by rw [h.left]; exact i.budget
    keys := by rw [h.keyinput]; exact i.keys
    gpioData := h.gpioData i.gpioData i.gpioDir
    gpioDir := h.gpioDir i.gpioDir
    gpioCtrl := h.gpioCtrl i.gpioCtrl
    dma := h.dma i.dma
    timers := h.timers i.timers
    resetState := by rw [h.params]; exact i.resetState }

theorem BusEffect.inv {s t : State} (h : BusEffect s t) (i : s.Inv) : t.Inv := h.cpu.inv i

theorem afterStep_inv (c : Nat) (s : State) (i : s.Inv) : (afterStep c s).Inv := by
  have h : ({ s with cycles := s.cycles + BitVec.ofNat 64 c } : State).Inv := { i with }
  have g := timersUpdate_effect { s with cycles := s.cycles + BitVec.ofNat 64 c } c
  have k := g.inv h
  exact { k with
    budget := by
      show (timersUpdate { s with cycles := s.cycles + BitVec.ofNat 64 c } c).left - c ≤ 1232
      have := k.budget
      omega }

theorem takeIrq_effect (s : State) : CpuEffect s (takeIrq s) := CpuEffect.takeException s _ _ _ (by decide)

theorem hostInput_inv (s : State) (b : Half) (i : s.Inv) : (hostInput s b).Inv :=
  { i with
    memory := Memory.wf_set _ _ _ i.memory
    keys := by
      show (~~~b &&& 0x03FF#16) &&& 0xFC00#16 = 0#16
      rw [BitVec.and_assoc, show (0x03FF#16 &&& 0xFC00#16) = 0#16 by decide, BitVec.and_zero] }

theorem beginFrame_inv (s : State) (b : Half) (i : s.Inv) : (beginFrame s b).Inv :=
  { hostInput_inv s b i with line := by show 0 < 228; omega }

/-- A record that is well formed starts a machine in the invariant (R70). -/
theorem start_inv {p : Params} {mem : List Host.Cell} (romSize clock : Nat) (h : p.resetState.Ok) (hm : Memory.wf mem = true) :
    (State.start p mem romSize clock).Inv :=
  { memory := hm, picture := h.picture, mode := h.mode, pc := h.pc, irqs := h.irqs, vcount := h.vcount,
    lastVcount := h.lastVcount, line := show 0 < 228 by omega, budget := show (0 : Int) ≤ 1232 by omega, keys := h.keys,
    gpioData := h.gpioData, gpioDir := h.gpioDir, gpioCtrl := h.gpioCtrl, dma := h.dma, timers := h.timers, resetState := h }

theorem hostReset_inv (s : State) (clock : Nat) (i : s.Inv) : (hostReset s clock).Inv :=
  { start_inv s.romSize clock i.resetState
      (startMem_wf (Memory.wf_filter _ _ i.memory) i.resetState.memory (Memory.wf_filter _ _ i.memory)
        (fun _ hc => (List.mem_filter.mp hc).2) fun _ hc => (List.mem_filter.mp hc).2) with }

theorem init_inv {p : Params} {bios rom : List Byte} {clock : Nat} {s : State} (hp : p.resetState.Ok)
    (h : State.init p bios rom clock = some s) : s.Inv := by
  unfold State.init at h
  split at h
  · rename_i hl
    injection h with h
    subst h
    refine start_inv _ _ hp (startMem_wf (imageCells_wf 0 bios (by omega)) hp.memory (imageCells_wf _ rom (by omega)) ?_ ?_)
    · intro c hc; have := imageCells_range hc; unfold belowRam; simp; omega
    · intro c hc; have := imageCells_range hc; unfold aboveRam; simp; omega
  · cases h

theorem hostStep_inv (s : State) (i : s.Inv) : (hostStep s).Inv := by
  unfold hostStep
  split
  · exact beginFrame_inv s 0 i
  · exact beginFrame_inv _ _ { i with }
  · exact (write8_effect _ _ _).inv { i with }
  · exact hostReset_inv _ _ { i with }

/-- A request of a source that exists. -/
theorem request_source (b : Bool) (i : Nat) (h : (1#16 <<< i) &&& ~~~irqSources = 0#16) :
    request b i &&& ~~~irqSources = 0#16 := by
  cases b
  · exact BitVec.zero_and
  · exact h

/-- The requests of a scanline start are of sources that exist. -/
theorem vcountRequests_source (s : State) (line : Nat) : vcountRequests s line &&& ~~~irqSources = 0#16 := by
  unfold vcountRequests
  rw [BitVec.and_or_distrib_right, BitVec.and_or_distrib_right, request_source _ 0 (by decide),
    request_source _ 1 (by decide), request_source _ 2 (by decide)]
  rfl

theorem toNat_ofNat8_lt {n : Nat} (h : n < 228) : (BitVec.ofNat 8 n).toNat < 228 := by
  rw [BitVec.toNat_ofNat]; omega

theorem updateVcount_inv (s : State) (line : Nat) (h : line < 228) (i : s.Inv) : (updateVcount s line).Inv :=
  { i with
    irqs := by
      show (s.if_ ||| vcountRequests s line) &&& ~~~irqSources = 0#16
      rw [BitVec.and_or_distrib_right, i.irqs, vcountRequests_source]; rfl
    vcount := toNat_ofNat8_lt h
    lastVcount := toNat_ofNat8_lt h }

theorem reloadAffineRefs_inv (s : State) (i : s.Inv) : (reloadAffineRefs s).Inv := { i with }

theorem advanceAffineRefs_inv (s : State) (i : s.Inv) : (advanceAffineRefs s).Inv := { i with }

/-- The top of the scanline loop keeps the invariant. -/
theorem beginLine_inv (s : State) (i : s.Inv) : (beginLine s).Inv := by
  have h1 : (if s.line = 0 then reloadAffineRefs s else s).Inv := by
    split
    · exact reloadAffineRefs_inv s i
    · exact i
  have h2 := updateVcount_inv _ s.line i.line h1
  have h3 : ∀ u : State, u.Inv → (if s.line = 160 then dmaTrigger u 1 else u).Inv := fun u hu =>
    (BusEffect.ite (fun _ => dmaTrigger_effect u 1) fun _ => BusEffect.refl u).inv hu
  have h4 : ∀ u : State, u.Inv → (if s.line < 160 then dmaTrigger u 2 else u).Inv := fun u hu =>
    (BusEffect.ite (fun _ => dmaTrigger_effect u 2) fun _ => BusEffect.refl u).inv hu
  have h5 : ∀ u : State, u.Inv → ({ u with left := 1232, phase := .run } : State).Inv := fun u hu =>
    { hu with budget := show (1232 : Int) ≤ 1232 by omega }
  exact h5 _ (h4 _ (h3 _ h2))

/-- The rest of a halted scanline has the effect of bus writes (R673, R674). -/
theorem haltedRest_effect (s : State) : BusEffect s (haltedRest s) := by
  have h1 : BusEffect s (if 0 < s.left then timersUpdate s s.left.toNat else s) :=
    BusEffect.ite (fun _ => timersUpdate_effect s _) fun _ => BusEffect.refl s
  exact BusEffect.ite (fun _ => BusEffect.ite (fun _ => h1.trans (BusEffect.halted _ false)) fun _ => h1)
    fun _ => BusEffect.refl s

theorem renderRow_wf (s : State) (line n x : Nat) (fb : List (Nat × Half)) (h : Framebuffer.wf fb = true) :
    Framebuffer.wf (renderRow s line n x fb) = true := by
  induction n generalizing x fb with
  | zero => exact h
  | succ n ih => exact ih _ _ (Framebuffer.wf_set fb line x _ h)

/-- The renderer writes the framebuffer and nothing else, and keeps its canonical form. -/
theorem renderScanline_inv (s : State) (line : Nat) (i : s.Inv) : (renderScanline s line).Inv := by
  have h := renderRow_wf s line 240 0 _ i.picture
  unfold renderScanline
  generalize renderRow s line 240 0 s.framebuffer = fb at h ⊢
  exact { i with picture := h }

theorem nextLine_inv (s : State) (i : s.Inv) : (nextLine s).Inv := by
  unfold nextLine
  by_cases h : s.line < 227
  · rw [if_pos h]; exact { i with line := show s.line + 1 < 228 by omega }
  · rw [if_neg h]; exact { i with line := show 0 < 228 by omega }

end Sys2Proof.Machine
end

