-- ==== Sys2Proof/Laws/Io.lean ====
section
/-! SUPPORT. Laws/Io.lean: the I/O registers by halfwords, the units of a DMA transfer, the flash commands, and
the GPIO window (spec/20_memory.md section 5, spec/61_devices.md R684, R716, R722). -/

namespace Sys2Proof.Machine

theorem align2_offset (a : Word) : offsetOf (align2 a) = offsetOf a / 2 * 2 := by
  rw [offsetOf_eq, offsetOf_eq, align2_toNat]; omega

theorem halves_append (h : Half) : hiByte h ++ loByte h = h := by
  apply BitVec.eq_of_getLsbD_eq
  intro k hk
  rw [append_bit]
  unfold hiByte loByte
  split <;> rename_i h8 <;> rw [BitVec.getLsbD_extractLsb']
  · simp [h8]
  · rw [show 8 + (k - 8) = k by omega]; simp; omega

/-- A halfword read of an I/O register (R106). -/
theorem read16_io (s : State) (a : Word) (off : Nat) (h4 : regionOf a = 4) (ho : off = offsetOf (align2 a)) (hlt : off < 0x400) :
    s.read16 a = ioRead16 s off := by
  have he : off % 2 = 0 := by rw [ho, align2_offset]; omega
  have hm := align2_toNat a
  have h1 : regionOf (align2 a + 1) = 4 := by rw [regionOf_align2_add, h4]
  have h2 : offsetOf (align2 a + 1) = off + 1 := by
    have h1 : (align2 a + 1).toNat = ((align2 a).toNat + 1) % 2^32 := BitVec.toNat_add ..
    have := (align2 a).isLt
    rw [offsetOf_eq] at ho
    rw [ho, offsetOf_eq, h1]
    omega
  unfold State.read16
  rw [if_neg (by rw [h4]; decide)]
  have lo : s.read8 (align2 a) = loByte (ioRead16 s off) := by
    unfold State.read8
    simp only [regionOf_align2, h4, ← ho, hlt, if_true]
    rw [show off / 2 * 2 = off by omega, if_pos he]
  have hi : s.read8 (align2 a + 1) = hiByte (ioRead16 s off) := by
    unfold State.read8
    simp only [h1, h2]
    rw [if_pos (by omega), show (off + 1) / 2 * 2 = off by omega, if_neg (by omega)]
  rw [lo, hi, halves_append]

/-- A halfword write of an I/O register (R107). -/
theorem write16_io (s : State) (a : Word) (v : Half) (off : Nat) (h4 : regionOf a = 4) (ho : off = offsetOf (align2 a)) (hlt : off < 0x400) :
    s.write16 a v = ioWrite16 rising s off v := by
  unfold State.write16 write16With
  simp only [regionOf_align2]
  rw [if_neg (by rw [h4]; decide), if_pos ⟨h4, by rw [← ho]; exact hlt⟩, ← ho]

theorem ioRead16_mem (s : State) (k : Nat) (v : Byte) (b : Bool) (off : Nat) (h : k < ioKey off ∨ ioKey off + 1 < k) :
    ioRead16 { s with mem := Memory.set s.mem k v, halted := b } off = ioRead16 s off := by
  have hh : State.ioHalf { s with mem := Memory.set s.mem k v, halted := b } off = s.ioHalf off := by
    unfold State.ioHalf
    simp only
    rw [Memory.get_set_other _ _ (by unfold ioKey at *; omega), Memory.get_set_other _ _ (by unfold ioKey at *; omega)]
  unfold ioRead16
  simp only [hh, State.dmaChannel, State.timer]

theorem bufferKey_notIo {romSize : Nat} {a : Word} {k : Nat} (h : bufferKey romSize a = some k) : k < 0x04000000 ∨ 0x05000000 ≤ k := by
  have := bufferKey_cases h
  omega

theorem timerIndex (n : Fin 4) (b : Nat) (h : b < 4) : Fin.ofNat 4 ((0x100 + 4 * n.val + b - 0x100) / 4) = n := by
  apply Fin.ext
  have := n.isLt
  simp only [Fin.ofNat]
  omega

theorem ioRead16_timer (s : State) (n : Fin 4) (b : Nat) (h : b = 0 ∨ b = 2) :
    ioRead16 s (0x100 + 4 * n.val + b) = if b = 0 then (s.timer n).counter else (s.timer n).ctrl := by
  have hn := n.isLt
  unfold ioRead16
  rw [if_neg (by omega), if_neg (by omega), if_neg (by omega), if_pos (by omega)]
  simp only
  rw [timerIndex n b (by omega)]
  rcases h with rfl | rfl
  · rw [if_pos (by omega), if_pos rfl]
  · rw [if_neg (by omega), if_neg (by decide)]

theorem ioWrite16_timer (s : State) (n : Fin 4) (b : Nat) (v : Half) (h : b = 0 ∨ b = 2) :
    ioWrite16 rising s (0x100 + 4 * n.val + b) v = if b = 0 then writeTimerReload s n v else writeTimerControl s n v := by
  have hn := n.isLt
  unfold ioWrite16
  have hr : isRefReg (0x100 + 4 * n.val + b) = false := by unfold isRefReg; simp; omega
  rw [if_neg (by omega), if_neg (by omega), if_neg (by rw [hr]; decide), if_neg (by omega), if_pos (by omega), timerIndex n b (by omega)]
  rcases h with rfl | rfl
  · rw [if_pos (by omega), if_pos rfl]
  · rw [if_neg (by omega), if_neg (by decide)]

theorem hiByte_masked (h : Half) : hiByte (h &&& 0x00FF#16) = 0 := by
  apply BitVec.eq_of_getLsbD_eq
  intro k hk
  unfold hiByte
  rw [BitVec.getLsbD_extractLsb', BitVec.getLsbD_and]
  have : (0x00FF#16).getLsbD (8 + k) = false := by
    rw [show (0x00FF#16) = (0xFF#8).zeroExtend 16 by decide, BitVec.getLsbD_setWidth, BitVec.getLsbD_of_ge _ _ (by omega), Bool.and_false]
  rw [this]; simp

/-- A write of POSTFLG and HALTCNT changes what one byte reads as. -/
theorem read8_postflg (s : State) (x : Byte) (y : Bool) (b : Word) (hb : regionOf b ≠ 4 ∨ offsetOf b ≠ 0x300) :
    State.read8 { s with mem := Memory.set s.mem (ioKey 0x300) x, halted := y } b = s.read8 b := by
  have hfl : ∀ off, flashRead { s with mem := Memory.set s.mem (ioKey 0x300) x, halted := y } off = flashRead s off := by
    intro off
    unfold flashRead
    simp only
    rw [Memory.get_set_other _ _ (by unfold flashKey ioKey; omega)]
  have hgp : ∀ off, readGpio { s with mem := Memory.set s.mem (ioKey 0x300) x, halted := y } off = readGpio s off := fun _ => rfl
  have hv : State.gpioVisible { s with mem := Memory.set s.mem (ioKey 0x300) x, halted := y } = s.gpioVisible := rfl
  unfold State.read8
  simp only [hfl, hgp, hv]
  split
  · rename_i h4
    have h300 : offsetOf b ≠ 0x300 := by rcases hb with h | h; exact absurd h4 h; exact h
    by_cases hlt : offsetOf b < 0x400
    · rw [if_pos hlt, if_pos hlt]
      by_cases he : offsetOf b / 2 * 2 = 0x300
      · rw [if_neg (by omega), if_neg (by omega), he]
        exact (hiByte_masked _).trans (hiByte_masked _).symm
      · rw [ioRead16_mem s _ x y _ (by unfold ioKey; omega)]
    · rw [if_neg hlt, if_neg hlt]
  · rfl
  · cases hk : bufferKey s.romSize b with
    | none => rfl
    | some k =>
      have hne := bufferKey_notIo hk
      simp only
      rw [Memory.get_set_other _ _ (by unfold ioKey; omega)]

/-! ## Storage, the DMA registers and words -/

/-- What reading answers when only a halfword of the I/O store, the halt flag and the reference points differ. -/
theorem read8_ioBytes {s t : State} (off : Nat) (he : off % 2 = 0)
    (ht : t = { s with mem := t.mem, halted := t.halted, refX2 := t.refX2, refY2 := t.refY2, refX3 := t.refX3, refY3 := t.refY3 })
    (hlt : off < 0x400) (hm : ∀ k, k ≠ ioKey off → k ≠ ioKey (off + 1) → Memory.get t.mem k = Memory.get s.mem k)
    (b : Word) (hb : regionOf b ≠ 4 ∨ offsetOf b / 2 * 2 ≠ off) : t.read8 b = s.read8 b := by
  have hio : ∀ o, o % 2 = 0 → o ≠ off → ioRead16 t o = ioRead16 s o := fun o h1 h2 => by
    have hh : t.ioHalf o = s.ioHalf o := by
      unfold State.ioHalf
      rw [hm _ (by unfold ioKey; omega) (by unfold ioKey; omega), hm _ (by unfold ioKey; omega) (by unfold ioKey; omega)]
    have hd : t.dma = s.dma := by rw [ht]
    have htm : t.timers = s.timers := by rw [ht]
    have e1 : t.dispstat = s.dispstat := by rw [ht]
    have e2 : t.vcount = s.vcount := by rw [ht]
    have e3 : t.keyinput = s.keyinput := by rw [ht]
    have e4 : t.ie = s.ie := by rw [ht]
    have e5 : t.if_ = s.if_ := by rw [ht]
    have e6 : t.ime = s.ime := by rw [ht]
    unfold ioRead16 State.dmaChannel State.timer
    rw [hh, hd, htm, e1, e2, e3, e4, e5, e6]
  have hfl : ∀ o, flashRead t o = flashRead s o := fun o => by
    have e : t.flashId = s.flashId := by rw [ht]
    unfold flashRead
    rw [e, hm _ (by unfold flashKey ioKey; omega) (by unfold flashKey ioKey; omega)]
  have hgp : ∀ o, readGpio t o = readGpio s o := fun o => by rw [ht]; rfl
  have hv : t.gpioVisible = s.gpioVisible := by rw [ht]; rfl
  have hr : t.romSize = s.romSize := by rw [ht]
  unfold State.read8
  simp only [hfl, hgp, hv, hr]
  split
  · rename_i h4
    have hne : offsetOf b / 2 * 2 ≠ off := by rcases hb with h | h; exact absurd h4 h; exact h
    rw [hio _ (by omega) hne]
  · rfl
  · cases hk : bufferKey s.romSize b with
    | none => rfl
    | some k =>
      have hne := bufferKey_notIo hk
      simp only
      rw [hm _ (by unfold ioKey; omega) (by unfold ioKey; omega)]

/-- An offset of plain storage is none of the registers that have a behaviour of their own (R110 to R118, R120). -/
theorem isStorage_offsets {off : Nat} (h : isStorage off = true) :
    (off ≠ 0x004 ∧ off ≠ 0x006 ∧ off ≠ 0x130) ∧ (off ≠ 0x200 ∧ off ≠ 0x202 ∧ off ≠ 0x208 ∧ off ≠ 0x300)
    ∧ ¬ (0x0B0 ≤ off ∧ off < 0x0E0) ∧ ¬ (0x100 ≤ off ∧ off < 0x110) := by
  unfold isStorage at h
  simp at h
  omega

/-- Plain storage has no read behaviour, and no write behaviour but that of the affine reference registers (R120). -/
theorem ioRead16_storage (s : State) (off : Nat) (h : isStorage off = true) : ioRead16 s off = s.ioHalf off := by
  obtain ⟨⟨dispstat, vcount, keys⟩, ⟨ie, irqFlags, ime, halt⟩, dma, timer⟩ := isStorage_offsets h
  simp only [ioRead16, dispstat, vcount, keys, ie, irqFlags, ime, halt, dma, timer, if_false]

theorem ioWrite16_storage (s : State) (off : Nat) (v : Half) (h : isStorage off = true) :
    ioWrite16 rising s off v = if isRefReg off then writeRefHalf s off v else s.setIoHalf off v := by
  obtain ⟨⟨dispstat, vcount, keys⟩, ⟨ie, irqFlags, ime, halt⟩, dma, timer⟩ := isStorage_offsets h
  simp only [ioWrite16, dispstat, vcount, keys, ie, irqFlags, ime, halt, dma, timer, if_false]

theorem setIoHalf_half (s : State) (off : Nat) (v : Half) : (s.setIoHalf off v).ioHalf off = v := by
  unfold State.setIoHalf State.ioHalf
  simp only
  rw [Memory.get_set_same, Memory.get_set_other _ _ (by unfold ioKey; omega), Memory.get_set_same, halves_append]

theorem setIoHalf_get (s : State) (off : Nat) (v : Half) (k : Nat) (h1 : k ≠ ioKey off) (h2 : k ≠ ioKey (off + 1)) :
    Memory.get (s.setIoHalf off v).mem k = Memory.get s.mem k := by
  unfold State.setIoHalf
  simp only
  rw [Memory.get_set_other _ _ h2, Memory.get_set_other _ _ h1]

/-- A write to the affine reference registers, field by field (R771, R772). -/
theorem writeRefHalf_eq (s : State) (off : Nat) (v : Half) (u : State) (hu : u = s.setIoHalf off v) (h : isRefReg off = true) :
    writeRefHalf s off v = { u with
      refX2 := if off / 4 = 0x28 / 4 then refValue (u.ioWord 0x28) else s.refX2,
      refY2 := if off / 4 = 0x2C / 4 then refValue (u.ioWord 0x2C) else s.refY2,
      refX3 := if off / 4 = 0x38 / 4 then refValue (u.ioWord 0x38) else s.refX3,
      refY3 := if off / 4 = 0x3C / 4 then refValue (u.ioWord 0x3C) else s.refY3 } := by
  subst hu
  unfold isRefReg at h
  simp at h
  have hc : off / 4 = 10 ∨ off / 4 = 11 ∨ off / 4 = 14 ∨ off / 4 = 15 := by omega
  unfold writeRefHalf
  rcases hc with h | h | h | h <;> rw [h] <;> rfl

/-- The index of the DMA channel whose registers an offset lies in. -/
theorem dmaIndex (n : Fin 4) (b : Nat) (h : b < 12) : Fin.ofNat 4 ((0xB0 + 12 * n.val + b - 0xB0) / 12) = n := by
  apply Fin.ext
  have := n.isLt
  simp only [Fin.ofNat]
  omega

theorem ioRead16_dma (s : State) (n : Fin 4) (b : Nat) (h : b < 12) :
    ioRead16 s (0xB0 + 12 * n.val + b) = readDmaReg (s.dmaChannel n) b := by
  have hn := n.isLt
  unfold ioRead16
  rw [if_neg (by omega), if_neg (by omega), if_pos (by omega), dmaIndex n b h, show (0xB0 + 12 * n.val + b - 0xB0) % 12 = b by omega]

theorem ioWrite16_dma (s : State) (n : Fin 4) (b : Nat) (v : Half) (h : b < 12) :
    ioWrite16 rising s (0xB0 + 12 * n.val + b) v = writeDmaReg rising s n b v := by
  have hn := n.isLt
  unfold ioWrite16
  have hr : isRefReg (0xB0 + 12 * n.val + b) = false := by unfold isRefReg; simp; omega
  rw [if_neg (by omega), if_neg (by omega), if_neg (by rw [hr]; decide), if_pos (by omega), dmaIndex n b h,
    show (0xB0 + 12 * n.val + b - 0xB0) % 12 = b by omega]

/-- The two halfwords of an I/O word. -/
theorem io_halves (a : Word) (h4 : regionOf a = 4) : align2 (align4 a) = align4 a ∧ align2 (align4 a + 2) = align4 a + 2
    ∧ regionOf (align4 a) = 4 ∧ regionOf (align4 a + 2) = 4 ∧ offsetOf (align4 a + 2) = offsetOf (align4 a) + 2
    ∧ offsetOf (align4 a) % 4 = 0 := by
  have hm := align4_mod4 a
  have hlt := (align4 a).isLt
  have e2 : (align4 a + 2).toNat = (align4 a).toNat + 2 := by
    rw [BitVec.toNat_add, show (2 : Word).toNat = 2 from rfl]; omega
  have r0 : regionOf (align4 a) = 4 := by rw [regionOf_align4, h4]
  refine ⟨BitVec.eq_of_toNat_eq (by rw [align2_toNat]; omega), BitVec.eq_of_toNat_eq (by rw [align2_toNat, e2]; omega), r0,
    (regionOf_add (align4 a) 2 hm (by omega)).trans r0, ?_, ?_⟩
  · rw [offsetOf_eq, offsetOf_eq, e2]; omega
  · rw [offsetOf_eq]; omega

/-- A word read in the I/O region is its two halfwords (R106). -/
theorem read32_io (s : State) (a : Word) (h4 : regionOf a = 4) : s.read32 a = s.read16 (align4 a + 2) ++ s.read16 (align4 a) := by
  obtain ⟨al0, al2, r0, r2, _, _⟩ := io_halves a h4
  unfold State.read32 State.read16
  simp only [al2, al0, h4, r0, r2, Nat.reduceEqDiff, if_false]
  rw [show align4 a + 2 + 1 = align4 a + 3 by rw [BitVec.add_assoc]; rfl]
  exact BitVec.append_assoc.trans rfl

/-- A word written there is its two halfwords, the low one first (R107). -/
theorem write32_io (s : State) (a v : Word) (h4 : regionOf a = 4) :
    s.write32 a v = (s.write16 (align4 a) (loHalf v)).write16 (align4 a + 2) (hiHalf v) := by
  obtain ⟨al0, al2, r0, r2, ho, hmo⟩ := io_halves a h4
  unfold State.write32 State.write16 write32With write16With
  simp only [al0, al2, r0, r2, ho, isRam, Bool.false_eq_true, if_false, true_and]
  by_cases hl : offsetOf (align4 a) < 0x400
  · rw [if_pos hl, if_pos hl, if_pos (by omega)]; rfl
  · rw [if_neg hl, if_neg hl, if_neg (show ¬ offsetOf (align4 a) + 2 < 0x400 by omega)]
    simp

/-- The count of a transfer (R682). -/
theorem effCount_eq (n : Fin 4) (c : Half) :
    effCount n c = BitVec.ofNat 17 (if c.toNat ≠ 0 then c.toNat else if n = 3 then 0x10000 else 0x4000) := by
  unfold effCount
  by_cases hc : c = 0
  · subst hc
    rw [if_pos rfl]
    by_cases hn : n = 3
    · rw [if_pos hn, if_neg (show ¬ (0 : Half).toNat ≠ 0 by decide), if_pos hn]
    · rw [if_neg hn, if_neg (show ¬ (0 : Half).toNat ≠ 0 by decide), if_neg hn]
  · have h0 : c.toNat ≠ 0 := fun e => hc (BitVec.eq_of_toNat_eq e)
    rw [if_neg hc, if_pos h0]
    apply BitVec.eq_of_toNat_eq
    rw [BitVec.toNat_setWidth, BitVec.toNat_ofNat]

/-- A write to an I/O register outside the DMA channels' starts no channel and leaves them. -/
theorem ioWrite16_notDma (r1 r2 : Fin 4 → State → State) (s : State) (off : Nat) (v : Half) (h : ¬ (0xB0 ≤ off ∧ off < 0xE0)) :
    ioWrite16 r1 s off v = ioWrite16 r2 s off v ∧ (ioWrite16 r1 s off v).dma = s.dma := by
  unfold ioWrite16
  refine ⟨by simp only [h, if_false], ?_⟩
  simp only [h, if_false]
  split
  · rfl
  split
  · rfl
  split
  · unfold writeRefHalf; simp only; split <;> rfl
  split
  · split
    · rfl
    · unfold writeTimerControl; simp only; split <;> rfl
  repeat' (first | rfl | split)

theorem align4_offset (a : Word) : offsetOf (align4 a) = offsetOf a / 4 * 4 := by
  unfold offsetOf busAddr; rw [align4_toNat]; omega

theorem write16With_rise (r1 r2 : Fin 4 → State → State) (s : State) (a : Word) (v : Half) (h : ¬ ReachesDma a) :
    write16With r1 s a v = write16With r2 s a v := by
  unfold write16With
  simp only [regionOf_align2]
  split
  · rfl
  split
  · rename_i hio
    refine (ioWrite16_notDma r1 r2 s _ v fun hd => h ⟨hio.1, ?_, ?_⟩).1 <;> (rw [align2_offset] at hd; omega)
  · rfl

theorem write32With_rise (r1 r2 : Fin 4 → State → State) (s : State) (a v : Word) (h : ¬ ReachesDma a) :
    write32With r1 s a v = write32With r2 s a v := by
  unfold write32With
  simp only [regionOf_align4]
  split
  · rfl
  split
  · rename_i hio
    unfold ioWrite32
    rw [(ioWrite16_notDma r1 r2 s _ _ fun hd => h ⟨hio.1, by rw [align4_offset] at hd; omega, by rw [align4_offset] at hd; omega⟩).1]
    exact (ioWrite16_notDma r1 r2 _ _ _ fun hd => h ⟨hio.1, by rw [align4_offset] at hd; omega, by rw [align4_offset] at hd; omega⟩).1
  · rfl

theorem mask28_toNat (a : Word) : (mask28 a).toNat = a.toNat % 2^28 := by
  unfold mask28
  rw [BitVec.toNat_and]
  exact Nat.and_two_pow_sub_one_eq_mod a.toNat 28

theorem unitAddr_zero (a : Word) (mode size : Nat) : unitAddr a mode size 0 = mask28 a := by
  have hm : mask28 (mask28 a) = mask28 a := by
    apply BitVec.eq_of_toNat_eq; rw [mask28_toNat, mask28_toNat]; omega
  unfold unitAddr
  split
  · rw [Nat.mul_zero, show BitVec.ofNat 32 0 = 0#32 from rfl, BitVec.sub_zero]; exact hm
  · rfl
  · rw [Nat.mul_zero, show BitVec.ofNat 32 0 = 0#32 from rfl, BitVec.add_zero]; exact hm

theorem unitAddr_succ (a : Word) (mode size k : Nat) (u : Word) (hu : u = BitVec.ofNat 32 size) :
    dmaAdv (unitAddr a mode size k) mode u = unitAddr a mode size (k + 1) := by
  subst hu
  unfold dmaAdv unitAddr
  have hk : BitVec.ofNat 32 (size * (k + 1)) = BitVec.ofNat 32 (size * k) + BitVec.ofNat 32 size := by
    rw [Nat.mul_succ, BitVec.ofNat_add]
  have hadd : ∀ x y : Word, mask28 (mask28 x + y) = mask28 (x + y) := by
    intro x y; apply BitVec.eq_of_toNat_eq
    rw [mask28_toNat, mask28_toNat, BitVec.toNat_add, BitVec.toNat_add, mask28_toNat]; omega
  have hsub : ∀ x y : Word, mask28 (mask28 x - y) = mask28 (x - y) := by
    intro x y; apply BitVec.eq_of_toNat_eq
    rw [mask28_toNat, mask28_toNat, BitVec.toNat_sub, BitVec.toNat_sub, mask28_toNat]
    have := y.isLt; omega
  have h28 : ∀ w : Word, w &&& 0x0FFFFFFF#32 = mask28 w := fun _ => rfl
  simp only [h28, hk]
  match mode with
  | 1 => simp only; rw [hsub, BitVec.sub_sub]
  | 2 =>
    simp only
    apply BitVec.eq_of_toNat_eq; rw [mask28_toNat, mask28_toNat]; omega
  | 0 => simp only; rw [hadd, BitVec.add_assoc]
  | _ + 3 => simp only; rw [hadd, BitVec.add_assoc]

/-- A transfer that writes no DMA register is its units one after another (R684). -/
theorem dmaUnits_seq (rise : Fin 4 → State → State) (word : Bool) (sm dm : Nat) (size : Nat) (src dst : Word) (m : Nat → State)
    (hsize : size = if word then 4 else 2) (j : Nat) :
    ∀ i, (∀ k, k < i + j → ¬ ReachesDma (unitAddr dst dm size k)
        ∧ m (k + 1) = if word then (m k).write32 (unitAddr dst dm size k) ((m k).read32 (unitAddr src sm size k))
          else (m k).write16 (unitAddr dst dm size k) ((m k).read16 (unitAddr src sm size k))) →
      dmaUnits rise word sm dm j (m i) (unitAddr src sm size i) (unitAddr dst dm size i)
        = (m (i + j), unitAddr src sm size (i + j), unitAddr dst dm size (i + j)) := by
  induction j with
  | zero => intro i _; rfl
  | succ j ih =>
    intro i hr
    have hu : (if word then 4 else 2 : Word) = BitVec.ofNat 32 size := by rw [hsize]; cases word <;> rfl
    have hstep : dmaUnit rise word (m i) (unitAddr src sm size i) (unitAddr dst dm size i) = m (i + 1) := by
      rw [(hr i (by omega)).2]
      unfold dmaUnit
      cases word
      · exact write16With_rise _ _ _ _ _ (hr i (by omega)).1
      · exact write32With_rise _ _ _ _ _ (hr i (by omega)).1
    unfold dmaUnits
    simp only
    rw [hstep, hu, unitAddr_succ _ _ _ _ _ rfl, unitAddr_succ _ _ _ _ _ rfl, ih (i + 1) (fun k hk => hr k (by omega))]
    rw [show i + 1 + j = i + (j + 1) by omega]

/-- A write outside the DMA registers leaves the DMA channels. -/
theorem write_dma (s : State) (a : Word) (h : ¬ ReachesDma a) :
    (∀ v, (s.write16 a v).dma = s.dma) ∧ ∀ v, (s.write32 a v).dma = s.dma := by
  have hb : ∀ (u : State) (b : Word) (v : Byte), (storeByte u b v).dma = u.dma := by
    intro u b v; unfold storeByte; split <;> rfl
  have hclk : ∀ (u : State) (b : Bool), (rtcClock u b).dma = u.dma := by
    intro u b
    have hc : ∀ (x : State) (y : Byte), (rtcCommand x y).dma = x.dma := by
      intro x y; unfold rtcCommand; simp only; split <;> (try split) <;> rfl
    unfold rtcClock
    simp only
    split
    · split
      · exact hc _ _
      · rfl
    · split
      · rfl
      · split
        · split <;> rfl
        · rfl
  have hp : ∀ (u : State) (x y z : Bool), (rtcPins u x y z).dma = u.dma := by
    intro u x y z
    unfold rtcPins
    simp only
    have h1 : (if z = true ∧ u.rtc.lastCs = false then { u with rtc := rtcStart u.rtc } else u).dma = u.dma := by split <;> rfl
    generalize (if z = true ∧ u.rtc.lastCs = false then { u with rtc := rtcStart u.rtc } else u) = q at h1 ⊢
    have h2 : (if z = true ∧ x = true ∧ u.rtc.lastSck = false then rtcClock q y else q).dma = u.dma := by
      split
      · rw [hclk, h1]
      · exact h1
    exact h2
  have hg : ∀ (u : State) (r : Nat) (v : Half), (writeGpio u r v).dma = u.dma := by
    intro u r v
    unfold writeGpio
    split
    · unfold writeGpioData
      simp only
      split
      · rw [hp]
      · rfl
    · split
      · rfl
      · split <;> rfl
  refine ⟨fun v => ?_, fun v => ?_⟩
  · unfold State.write16 write16With
    simp only [regionOf_align2]
    split
    · unfold storeHalf; rw [hb, hb]
    split
    · rename_i hio
      refine (ioWrite16_notDma rising rising s _ v fun hd => h ⟨hio.1, ?_, ?_⟩).2 <;> (rw [align2_offset] at hd; omega)
    split
    · exact hg _ _ _
    · rfl
  · unfold State.write32 write32With
    simp only [regionOf_align4]
    split
    · unfold storeWord; rw [hb, hb, hb, hb]
    split
    · rename_i hio
      unfold ioWrite32
      rw [(ioWrite16_notDma rising rising _ _ _ fun hd => h ⟨hio.1, by rw [align4_offset] at hd; omega, by rw [align4_offset] at hd; omega⟩).2]
      exact (ioWrite16_notDma rising rising _ _ _ fun hd => h ⟨hio.1, by rw [align4_offset] at hd; omega, by rw [align4_offset] at hd; omega⟩).2
    split
    · rw [hg, hg]
    · rfl

/-- The address fields of DMAnCNT_H as numbers (R681). -/
theorem dmaFields (d : DmaChannel) : d.srcMode = d.ctrl.toNat / 2^7 % 4 ∧ d.dstMode = d.ctrl.toNat / 2^5 % 4
    ∧ d.timing = d.ctrl.toNat / 2^12 % 4 := by
  unfold DmaChannel.srcMode DmaChannel.dstMode DmaChannel.timing
  simp only [BitVec.extractLsb'_toNat, Nat.shiftRight_eq_div_pow, and_self]

/-- What one run of a channel does when its destinations lie outside the DMA registers (R684, R685, R688). -/
theorem dmaRunWith_runs {n : Fin 4} {s t : State} (rise : Fin 4 → State → State) (hb : (s.dmaChannel n).onBus = true)
    (h : RunsChannel n s t) : dmaRunWith rise n s = t := by
  obtain ⟨d, u, smode, dmode, count, m, hd, hu, hsm, hdm, hc, hm0, hm, ht⟩ := h
  rw [← hd] at hb
  unfold DmaChannel.onBus at hb
  simp at hb
  obtain ⟨f1, f2, _⟩ := dmaFields d
  have z1 : mask28 d.internalSrc = d.internalSrc := by apply BitVec.eq_of_toNat_eq; rw [mask28_toNat]; omega
  have z2 : mask28 d.internalDst = d.internalDst := by apply BitVec.eq_of_toNat_eq; rw [mask28_toNat]; omega
  have hseq := dmaUnits_seq rise d.wordTransfer smode dmode u d.internalSrc d.internalDst m hu count 0
    (fun k hk => hm k (by omega))
  rw [unitAddr_zero, unitAddr_zero, z1, z2, hm0, Nat.zero_add] at hseq
  have hdma : ∀ k, k ≤ count → (m k).dma = s.dma := by
    intro k
    induction k with
    | zero => intro _; rw [hm0]
    | succ k ih =>
      intro hk
      rw [(hm k (by omega)).2]
      have hw := write_dma (m k) (unitAddr d.internalDst dmode u k) (hm k (by omega)).1
      split
      · rw [hw.2, ih (by omega)]
      · rw [hw.1, ih (by omega)]
  have hdc := hdma count (Nat.le_refl _)
  have hde : (m count).dmaChannel n = d := by unfold State.dmaChannel; rw [hdc, hd]; rfl
  have hraise : (if d.irqEnable = true then (m count).raiseIrq (8 + n.val) else m count)
      = { m count with if_ := if d.ctrl.getLsbD 14 then (m count).if_ ||| (1#16 <<< (8 + n.val)) else (m count).if_ } := by
    unfold DmaChannel.irqEnable; cases d.ctrl.getLsbD 14 <;> rfl
  have hset : ∀ (x : State) (c : DmaChannel), x.dma = s.dma → x.setDma n c = { x with dma := s.dma.set n c } := by
    intro x c hx; unfold State.setDma; rw [hx]
  unfold dmaRunWith
  simp only
  rw [← hd, f1, f2, ← hsm, ← hdm, ← hc, hseq]
  unfold dmaComplete
  simp only
  rw [hde, hraise, ht, f2, ← hdm, show d.repeats = d.ctrl.getLsbD 9 from rfl]
  by_cases h9 : d.ctrl.getLsbD 9 = true
  · rw [if_pos h9, if_pos h9]
    refine (hset _ _ (by exact hdc)).trans ?_
    rw [effCount_eq]
    rfl
  · rw [if_neg h9, if_neg h9]
    refine (hset _ _ (by exact hdc)).trans ?_
    rfl

/-! ## The flash -/

theorem write8_flash (s : State) (a : Word) (v : Byte) (h : regionOf a = 14) : s.write8 a v = flashWrite s (offsetOf a % 0x20000) v := by
  unfold State.write8 write8With
  simp only [h]

theorem read8_flash (s : State) (a : Word) (h : regionOf a = 14) : s.read8 a = flashRead s (offsetOf a % 0x20000) := by
  unfold State.read8
  simp only [h]

/-- The unlock sequence and a command byte, from the ready state (R722). -/
theorem flash_command (s : State) (c : Byte) (h : s.flashState = .ready) :
    ((s.write8 0x0E005555#32 0xAA#8).write8 0x0E002AAA#32 0x55#8).write8 0x0E005555#32 c
      = flashWrite { s with flashState := .got55 } 0x5555 c := by
  rw [write8_flash _ _ _ (by decide), write8_flash _ _ _ (by decide), write8_flash _ _ _ (by decide)]
  rw [show offsetOf 0x0E005555#32 % 0x20000 = 0x5555 by decide, show offsetOf 0x0E002AAA#32 % 0x20000 = 0x2AAA by decide]
  have h1 : flashWrite s 0x5555 0xAA#8 = { s with flashState := .gotAA } := by
    unfold flashWrite; rw [h]; rfl
  rw [h1]
  rfl

/-- The whole erase sequence up to its last write. -/
theorem flash_erase (s : State) (b : Word) (c : Byte) (h : s.flashState = .ready) (hb : regionOf b = 14) :
    ((((((s.write8 0x0E005555#32 0xAA#8).write8 0x0E002AAA#32 0x55#8).write8 0x0E005555#32 0x80#8).write8 0x0E005555#32 0xAA#8).write8
      0x0E002AAA#32 0x55#8).write8 b c) = flashWrite { s with flashState := .erase55 } (offsetOf b % 0x20000) c := by
  rw [flash_command s 0x80#8 h]
  have h1 : flashWrite { s with flashState := .got55 } 0x5555 0x80#8 = { s with flashState := .erase } := rfl
  rw [h1]
  rw [write8_flash _ _ _ (show regionOf 0x0E005555#32 = 14 by decide), write8_flash _ _ _ (show regionOf 0x0E002AAA#32 = 14 by decide), write8_flash _ _ _ hb]
  rw [show offsetOf 0x0E005555#32 % 0x20000 = 0x5555 by decide, show offsetOf 0x0E002AAA#32 % 0x20000 = 0x2AAA by decide]
  rfl

theorem flashRead_array (s : State) (o : Nat) (h : s.flashId = false) : flashRead s o = Memory.get s.mem (flashKey o) := by
  unfold flashRead
  rw [h]
  simp

/-- What an erased range reads as. -/
theorem flashErase_get (o n k : Nat) (m : List (Nat × Byte)) :
    Memory.get (flashErase o n m) (flashKey k) = if o ≤ k ∧ k < o + n then 0xFF#8 else Memory.get m (flashKey k) := by
  unfold Memory.get flashErase
  split
  · rename_i h
    rw [Store.get_filter_self (by
      intro c hc
      rw [hc]
      unfold flashKey
      rw [decide_eq_true (show 0x0E000000 + o ≤ 0x0E000000 + k by omega), decide_eq_true (show 0x0E000000 + k < 0x0E000000 + o + n by omega)]
      rfl)]
    unfold Memory.unlisted flashKey
    rw [if_pos (by omega)]
  · rename_i h
    rw [Store.get_filter_kept (by
      intro c hc
      rw [hc, Bool.not_eq_true', Bool.and_eq_false_imp]
      intro h1
      rw [decide_eq_true_eq] at h1
      rw [decide_eq_false_iff_not]
      unfold flashKey at *
      omega)]

/-! ## The GPIO window -/

/-- A visible GPIO register answers reads of its halfword whatever ROM_SIZE is (R86, R716). -/
theorem read16_gpio (s : State) (a : Word) (hv : s.gpioCtrl.getLsbD 0 = true)
    (ha : a = 0x080000C4#32 ∨ a = 0x080000C6#32 ∨ a = 0x080000C8#32) : s.read16 a = readGpio s (romOffset a) := by
  have hv : s.gpioVisible = true := hv
  have h : regionOf a = 8 ∧ align2 a = a ∧ regionOf (a + 1) = 8 ∧ romOffset (a + 1) = romOffset a + 1 ∧ romOffset a % 2 = 0
      ∧ inGpioWindow (romOffset a) = true ∧ inGpioWindow (romOffset a + 1) = true := by
    rcases ha with rfl | rfl | rfl <;> decide
  obtain ⟨h1, h2, h3, h4, h5, h6, h7⟩ := h
  have lo : s.read8 a = loByte (readGpio s (romOffset a)) := by
    unfold State.read8
    simp only [h1, hv, h6, and_self, if_true, h5]
    rw [show romOffset a / 2 * 2 = romOffset a by omega]
  have hi : s.read8 (a + 1) = hiByte (readGpio s (romOffset a)) := by
    unfold State.read8
    simp only [h3, h4, hv, h7, and_self, if_true]
    rw [if_neg (by omega), show (romOffset a + 1) / 2 * 2 = romOffset a by omega]
  unfold State.read16
  rw [h2, if_neg (by rw [h1]; decide), lo, hi, halves_append]

/-! ## The host's operations -/

/-- A read of a plain buffer outside the GPIO window. -/
theorem read8_buffer (s : State) (a : Word) (h4 : regionOf a ≠ 4) (h14 : regionOf a ≠ 14)
    (h8 : regionOf a = 8 → inGpioWindow (romOffset a) = false) :
    s.read8 a = ((bufferKey s.romSize a).map (Memory.get s.mem)).getD 0 := by
  have hg : ¬ (regionOf a = 8 ∧ s.gpioVisible = true ∧ inGpioWindow (romOffset a) = true) := by
    rintro ⟨h1, _, h3⟩; rw [h8 h1] at h3; cases h3
  unfold State.read8
  generalize regionOf a = r at h4 h14 hg
  simp only
  cases bufferKey s.romSize a <;> exact if_neg hg

/-- The driver's place and the host's queue are not read. -/
theorem read8_driver (s : State) (a : Word) (h : List HostCmd) (p : Phase) (l : Nat) :
    State.read8 { s with host := h, phase := p, line := l } a = s.read8 a := by
  have h1 : ∀ off, ioRead16 { s with host := h, phase := p, line := l } off = ioRead16 s off := fun _ => by
    simp only [ioRead16, State.dmaChannel, State.timer, State.ioHalf]
  have h2 : ∀ off, readGpio { s with host := h, phase := p, line := l } off = readGpio s off := fun _ => rfl
  have h3 : ∀ off, flashRead { s with host := h, phase := p, line := l } off = flashRead s off := fun _ => rfl
  unfold State.read8
  simp only [h1, h2, h3, State.gpioVisible]
  rfl

end Sys2Proof.Machine
end

