-- ==== Sys2Proof/Laws/Transfers.lean ====
section
/-! SUPPORT. Laws/Transfers.lean: the shared operations of the loads, stores, swaps and block transfers, in the terms of
Safety.lean. -/

namespace Sys2Proof.Machine

theorem offsetValue_eq (s : State) (off : Offset) (offset : Word) (h1 : ∀ imm12, off = .imm imm12 → offset.toNat = imm12.toNat)
    (h2 : ∀ rx ty n, off = .reg rx ty n → offset = (operand2 s (.shiftImm rx ty n)).value) : offset = offsetValue s off := by
  cases off with
  | imm i =>
    apply BitVec.eq_of_toNat_eq
    have := i.isLt
    rw [h1 i rfl, offsetValue, BitVec.toNat_setWidth, Nat.mod_eq_of_lt (by omega)]
  | reg rx ty n => exact h2 rx ty n rfl

theorem zext8_eq (half : Word) (b : BitVec 8) (h : half.toNat = b.toNat) : half = zext8 b := by
  apply BitVec.eq_of_toNat_eq
  have := b.isLt
  rw [h, zext8, BitVec.toNat_setWidth, Nat.mod_eq_of_lt (by omega)]

theorem writeBack_beyond (s : State) (b : Bool) (n : Reg) (v : Word) : SameBeyondCpu s (writeBack s b n v) := by
  cases b
  · exact SameBeyondCpu.refl s
  · exact (SameBeyondCpu.refl s).setReg n v

theorem writeBack_cpsr (s : State) (b : Bool) (n : Reg) (v : Word) : (writeBack s b n v).cpsr = s.cpsr := by
  cases b
  · rfl
  · exact State.setReg_cpsr ..

theorem writeBack_r15 (s : State) (b : Bool) (n : Reg) (v : Word) : (writeBack s b n v).r15 = s.r15 := by
  cases b
  · rfl
  · exact State.setReg_r15 ..

theorem writeBack_cell (s : State) (b : Bool) (n : Reg) (v : Word) (j : Fin 30) (h : b = true → phys s.mode n ≠ some j) :
    (writeBack s b n v).regs[j] = s.regs[j] := by
  cases b
  · rfl
  · exact State.setRegIn_cell s s.mode n v j (h rfl)

theorem loads_of {i : Instr} {s : State} {p u w : Bool} {rn rd : Reg} {offset : Word} {value : Word → Word}
    (he : exec i s = execLoad i s p u w rn rd offset value) : Loads i s p u w rn rd offset value := by
  unfold execLoad at he
  refine ⟨fun h => by rw [he, if_pos h]; rfl, fun h => ?_⟩
  rw [if_neg h] at he
  generalize ha : transferAddr s p u rn offset = a at *
  generalize hx : indexed s u rn offset = x at *
  have hrn : writesBack p w = true → rn ≠ 15 := fun hw hr => h ⟨hr, hw⟩
  refine ⟨fun hrd => ?_, fun hrd => ?_⟩
  · rw [finishWrite, if_neg hrd] at he
    have hb : SameBeyondCpu s ((loadWriteBack s (writesBack p w) rn rd x).setReg rd (value a)).advance :=
      ((writeBack_beyond s _ rn x).setReg rd _).advance
    have hm : (loadWriteBack s (writesBack p w) rn rd x).mode = s.mode := State.mode_of_cpsr (writeBack_cpsr ..)
    refine ⟨_, he, ?_, fun hw hne => ?_, ?_, ?_, ⟨fun j hj => ?_, ?_, hb, hb.bytes⟩⟩
    · rw [reg_advance _ _ hrd, State.reg_setReg_same _ _ _ hrd]
    · rw [reg_advance _ _ (hrn hw), State.reg_setReg_other _ _ _ _ hne, loadWriteBack, hw]
      simp only [Bool.true_and, bne_iff_ne, ne_eq, hne, not_false_eq_true, writeBack, if_true]
      exact State.reg_setReg_same _ _ _ (hrn hw)
    · show State.r15 (State.setReg _ _ _) + instrWidth (State.thumb (State.setReg _ _ _)) = _
      rw [State.setReg_r15, State.setReg_thumb]
      unfold State.thumb loadWriteBack
      rw [writeBack_r15, writeBack_cpsr]
    · rw [nzcv_congr (State.advance_cpsr _), nzcv_setReg]
      exact nzcv_congr (writeBack_cpsr ..)
    · rw [State.advance_regs, State.setReg, State.setRegIn_cell]
      · refine writeBack_cell _ _ _ _ _ fun hw => ?_
        simp at hw
        exact hj rn (by rw [hw.1]; simp)
      · rw [hm]; exact hj rd (by split <;> simp)
    · refine SameControl.of_cpsr ?_
      rw [State.advance_cpsr, State.setReg_cpsr]; exact writeBack_cpsr ..
  · subst hrd
    rw [finishWrite, if_pos rfl] at he
    refine branches_of_jump (he.trans ?_)
    congr 1
    unfold loadWriteBack writeBack
    by_cases hw : writesBack p w = true
    · rw [if_pos hw, if_pos]
      simp [hw, hrn hw]
    · rw [if_neg hw, if_neg]
      simp [hw]

theorem stores_of {i : Instr} {s : State} {p u w : Bool} {rn : Reg} {offset : Word} {write : Word → State}
    {stored : State → Word → Prop} (hbus : ∀ a, BusEffect s (write a)) (hst : ∀ a, stored (write a) a)
    (hcongr : ∀ a t t', stored t a → (∀ b, t'.read8 b = t.read8 b) → stored t' a)
    (he : exec i s = execStore i s p u w rn offset write) : Stores i s p u w rn offset write stored := by
  unfold execStore at he
  refine ⟨fun h => by rw [he, if_pos h]; rfl, fun h => ?_⟩
  rw [if_neg h] at he
  generalize ha : transferAddr s p u rn offset = a at *
  generalize hx : indexed s u rn offset = x at *
  have hrn : writesBack p w = true → rn ≠ 15 := fun hw hr => h ⟨hr, hw⟩
  have hB := hbus a
  have hbey : SameBeyondCpu (write a) (writeBack (write a) (writesBack p w) rn x).advance := (writeBack_beyond ..).advance
  have hc : (writeBack (write a) (writesBack p w) rn x).cpsr = s.cpsr := (writeBack_cpsr ..).trans hB.cpsr
  have hm : (write a).mode = s.mode := State.mode_of_cpsr hB.cpsr
  refine ⟨_, he, ?_, hcongr _ _ _ (hst a) hbey.bytes, fun hw => ?_, ?_, hc, fun j hj => ?_⟩
  · exact hbey.trans (by rw [show State.cpsr (State.advance _) = (write a).cpsr from hc.trans hB.cpsr.symm])
  · rw [reg_advance _ _ (hrn hw), writeBack, if_pos hw]; exact State.reg_setReg_same _ _ _ (hrn hw)
  · show State.r15 (writeBack _ _ _ _) + instrWidth (State.thumb (writeBack _ _ _ _)) = _
    unfold State.thumb
    rw [hc, writeBack_r15, hB.r15]
  · rw [State.advance_regs, writeBack_cell, hB.regs]
    intro hw; rw [hm]; exact hj rn (by rw [hw]; simp)

theorem loHalf_bytes (v : Word) (i : Nat) (h : i < 2) : (v.extractLsb' 0 16).extractLsb' (8 * i) 8 = v.extractLsb' (8 * i) 8 := by
  have : i = 0 ∨ i = 1 := by omega
  apply BitVec.eq_of_getLsbD_eq
  intro k hk
  rcases this with rfl | rfl <;> simp [hk]; try omega

theorem StoredAligned.bytes {s t : State} {n : Nat} {a : Word} {f g : Nat → Byte} (h : StoredAligned s t n a f) (e : ∀ i, i < n → f i = g i) :
    StoredAligned s t n a g := 
  ⟨fun hr => ⟨fun i hi b hb => ((h.1 hr).1 i hi b hb).trans (e i hi), (h.1 hr).2⟩, h.2⟩

theorem write16_half (s : State) (a v : Word) : StoredAligned s (s.write16 a (v.extractLsb' 0 16)) 2 (align2 a) (fun i => v.extractLsb' (8 * i) 8) :=
  StoredAligned.bytes (write16_stored s a _) (loHalf_bytes v)

theorem swap_of {i : Instr} {s m : State} {rd : Reg} {v : Word} (hB : BusEffect s m) (hrd : rd ≠ 15)
    (he : exec i s = finishWrite s m rd v) {P : State → Prop} (hP : ∀ t : State, (∀ b, t.read8 b = m.read8 b) → P t) :
    ∃ t, exec i s = .next t ∧ t = { m with regs := t.regs, r15 := t.r15 } ∧ t.reg rd = v
      ∧ t.r15 = s.r15 + instrWidth s.thumb ∧ t.cpsr = s.cpsr ∧ SameCellsBut [rd] s t ∧ P t := by
  rw [finishWrite, if_neg hrd] at he
  have hb : SameBeyondCpu m (m.setReg rd v).advance := ((SameBeyondCpu.refl m).setReg rd v).advance
  have hc : (m.setReg rd v).advance.cpsr = m.cpsr := State.setReg_cpsr ..
  refine ⟨_, he, ?_, ?_, ?_, hc.trans hB.cpsr, fun j hj => ?_, hP _ hb.bytes⟩
  · exact hb.trans (by rw [hc])
  · rw [reg_advance _ _ hrd, State.reg_setReg_same _ _ _ hrd]
  · show State.r15 (State.setReg _ _ _) + instrWidth (State.thumb (State.setReg _ _ _)) = _
    rw [State.setReg_r15, State.setReg_thumb]
    unfold State.thumb
    rw [hB.cpsr, hB.r15]
  · rw [State.advance_regs, State.setReg, State.setRegIn_cell, hB.regs]
    rw [State.mode_of_cpsr hB.cpsr]; exact hj rd (by simp)

theorem blockLoads_of {i : Instr} {s : State} {bank : Mode} {restore p u w : Bool} {rn : Reg} {list : BitVec 16}
    (he : exec i s = execLdmWith i s bank restore p u w rn list) : BlockLoads i s bank restore p u w rn list := by
  unfold execLdmWith at he
  simp only at he
  refine ⟨fun h => ?_, fun h => ?_⟩
  · rw [he, if_pos ((blockStops_iff w rn list).mpr h)]; rfl
  · rw [if_neg (fun h' => h ((blockStops_iff w rn list).mp h'))] at he
    have hrn : w = true → rn ≠ 15 := fun hw hr => h (.inr ⟨hr, hw⟩)
    have hl := loaded_of s bank p u w rn list hrn
    refine ⟨_, hl, fun h15 => ?_, fun h15 => ?_⟩
    · rw [he, slots_eq, loadedPc_eq, if_neg (by rw [mem_listRegs]; rw [show (15 : Reg).val = 15 from rfl, h15]; simp), ← slots_eq]
      simp only
      rw [State.advance, hl.1]
      rfl
    · refine branches_of_jump (he.trans ?_)
      rw [slots_eq, loadedPc_eq, if_pos (by rw [mem_listRegs]; exact h15)]
      rfl

theorem blockStores_of {i : Instr} {s : State} {bank : Mode} {p u w : Bool} {rn : Reg} {list : BitVec 16}
    (he : exec i s = execStmWith i s bank p u w rn list) : BlockStores i s bank p u w rn list := by
  unfold execStmWith at he
  simp only at he
  refine ⟨fun h => ?_, fun h => ?_⟩
  · rw [he, if_pos ((blockStops_iff w rn list).mpr h)]; rfl
  · rw [if_neg (fun h' => h ((blockStops_iff w rn list).mp h'))] at he
    have hrn : w = true → rn ≠ 15 := fun hw hr => h (.inr ⟨hr, hw⟩)
    have hv : ∀ n : Reg, list.getLsbD n.val = true →
        stmValue s bank w rn (listRegs list) (blockFinal (s.reg rn) u (listRegs list)) n = slotValue s bank u w rn list n := by
      intro n hn
      unfold stmValue slotValue
      rw [blockFinal_eq]
      simp only [isFirst_iff list n hn]
    rw [storeRegs_eq s bank p u w rn list _ hv, blockFinal_eq] at he
    have hB := blockWrites_effect s bank p u w rn list
    have hbytes := blockWrites_bytes s bank p u w rn list
    generalize blockWrites s bank p u w rn list = m at *
    generalize hx : baseAfter (s.reg rn) u list = x at *
    have hbey : SameBeyondCpu m (writeBack m w rn x).advance := (writeBack_beyond ..).advance
    have hc : (writeBack m w rn x).cpsr = s.cpsr := (writeBack_cpsr ..).trans hB.cpsr
    have hm : m.mode = s.mode := State.mode_of_cpsr hB.cpsr
    refine ⟨_, he, ?_, fun hw => ?_, ?_, hc, fun j hj => ?_, fun hram => ?_⟩
    · exact hbey.trans (by rw [show State.cpsr (State.advance _) = m.cpsr from hc.trans hB.cpsr.symm])
    · rw [reg_advance _ _ (hrn hw), writeBack, if_pos hw]; exact State.reg_setReg_same _ _ _ (hrn hw)
    · show State.r15 (writeBack _ _ _ _) + instrWidth (State.thumb (writeBack _ _ _ _)) = _
      unfold State.thumb
      rw [hc, writeBack_r15, hB.r15]
    · rw [State.advance_regs, writeBack_cell, hB.regs]
      intro hw; rw [hm]; exact hj rn (by rw [hw]; simp)
    · obtain ⟨g1, g2⟩ := hbytes hram
      exact ⟨fun n hn k hk b hb => (hbey.bytes b).trans (g1 n hn k hk b hb), fun b hb => (hbey.bytes b).trans (g2 b hb)⟩

end Sys2Proof.Machine
end

