-- ==== Sys2Proof/Laws/Thumb.lean ====
section
/-! SUPPORT. Laws/Thumb.lean: the Thumb endings, immediates and register lists, in the terms of Safety.lean. -/

namespace Sys2Proof.Machine

theorem zext_eq {n : Nat} (x : Word) (b : BitVec n) (h : x.toNat = b.toNat) : x = b.zeroExtend 32 := by
  apply BitVec.eq_of_toNat_eq
  have := x.isLt
  rw [BitVec.toNat_setWidth, ← h, Nat.mod_eq_of_lt this]

theorem writesPlain_of {i : Instr} {s : State} {rd : Reg} {v : Word} (h : rd ≠ 15)
    (he : exec i s = .next (s.setReg rd v).advance) : WritesResult i s rd v false s.nzcv :=
  writesResult_of (f := s.nzcv) h he

theorem shl_eq (n k : Nat) (x : Word) (b : BitVec n) (h : x.toNat = 2 ^ k * b.toNat) : x = b.zeroExtend 32 <<< k := by
  apply BitVec.eq_of_toNat_eq
  have := x.isLt
  rw [BitVec.toNat_shiftLeft, BitVec.toNat_setWidth, Nat.shiftLeft_eq, h, Nat.mul_comm]
  rw [h] at this
  have hb : b.toNat ≤ 2^k * b.toNat := Nat.le_mul_of_pos_left _ (Nat.two_pow_pos k)
  rw [Nat.mod_eq_of_lt (a := b.toNat) (by omega), Nat.mod_eq_of_lt (by rw [Nat.mul_comm]; exact this)]

theorem align_eq (v : Word) : v &&& ~~~3#32 = v &&& 0xFFFFFFFC#32 := by rw [show (~~~3#32) = 0xFFFFFFFC#32 by decide]

theorem ofNat_shl (n k m : Nat) (b : BitVec n) (hm : m = 2 ^ k * b.toNat) (h : m < 2^32) : BitVec.ofNat 32 m = b.zeroExtend 32 <<< k := 
  shl_eq n k _ b (by rw [BitVec.toNat_ofNat, Nat.mod_eq_of_lt h, hm])

theorem oneStore_of {i : Instr} {s m : State} {P : State → Prop} (hB : BusEffect s m) (hP : P m.advance) (he : exec i s = .next m.advance) :
    OneStore i s m P := by
  refine ⟨_, he, ?_, hB.regs, hB.cpsr, hP⟩
  show { m with r15 := m.r15 + instrWidth m.thumb } = _
  unfold State.thumb
  rw [hB.r15, hB.cpsr]

theorem storesWord_of {i : Instr} {s : State} {a v : Word} (he : exec i s = .next (s.write32 a v).advance) : StoresWord i s a v :=
  oneStore_of (write32_effect s a v) (StoredAligned.congr (write32_stored s a v) (SameBeyondCpu.refl _).advance.bytes) he

theorem storesHalf_of {i : Instr} {s : State} {a : Word} {v : Half} (he : exec i s = .next (s.write16 a v).advance) : StoresHalf i s a v :=
  oneStore_of (write16_effect s a v) (StoredAligned.congr (write16_stored s a v) (SameBeyondCpu.refl _).advance.bytes) he

theorem storesByte_of {i : Instr} {s : State} {a : Word} {v : Byte} (he : exec i s = .next (s.write8 a v).advance) : StoresByte i s a v :=
  oneStore_of (write8_effect s a v) (StoredByte.congr (write8_stored s a v) (SameBeyondCpu.refl _).advance.bytes) he

theorem filter_single (p : Reg → Bool) (n : Reg) (b : Bool) (h : p n = b) : [n].filter p = if b then [n] else [] := by
  cases b <;> simp [h]

theorem pushRegs_eq (extra : Bool) (last : Reg) (list : BitVec 8) (l16 : BitVec 16) (hl : last = 14 ∨ last = 15)
    (h : ∀ k, k < 16 → l16.getLsbD k = if k < 8 then list.getLsbD k else decide (k = last.val) && extra) :
    pushRegs extra last list = listRegs l16 := by
  have e : allRegs = [0, 1, 2, 3, 4, 5, 6, 7] ++ [8, 9, 10, 11, 12, 13] ++ [14] ++ [15] := rfl
  have hz : ∀ k, k < 16 → (list.zeroExtend 16).getLsbD k = if k < 8 then list.getLsbD k else false := by
    intro k hk
    rw [BitVec.getLsbD_setWidth]
    by_cases h8 : k < 8
    · simp [h8, hk]
    · simp [h8, BitVec.getLsbD_of_ge list k (by omega)]
  unfold pushRegs lowListRegs listRegs
  rw [e]
  simp only [List.filter_append]
  have hlow : ∀ n ∈ ([0, 1, 2, 3, 4, 5, 6, 7] : List Reg), (list.zeroExtend 16).getLsbD n.val = l16.getLsbD n.val := by
    intro n hn
    have : n.val < 8 := by
      have : ∀ n ∈ ([0, 1, 2, 3, 4, 5, 6, 7] : List Reg), n.val < 8 := by decide
      exact this n hn
    rw [hz _ n.isLt, h _ n.isLt, if_pos this, if_pos this]
  rw [List.filter_congr hlow]
  have hmid : ∀ n ∈ ([8, 9, 10, 11, 12, 13] : List Reg), (list.zeroExtend 16).getLsbD n.val = false ∧ l16.getLsbD n.val = false := by
    intro n hn
    have : 8 ≤ n.val ∧ n.val < 14 := by
      have : ∀ n ∈ ([8, 9, 10, 11, 12, 13] : List Reg), 8 ≤ n.val ∧ n.val < 14 := by decide
      exact this n hn
    rw [hz _ n.isLt, h _ n.isLt, if_neg (by omega), if_neg (by omega)]
    refine ⟨rfl, ?_⟩
    have : ¬ n.val = last.val := by
      have h14 : ((14 : Reg) : Fin 16).val = 14 := rfl
      have h15 : ((15 : Reg) : Fin 16).val = 15 := rfl
      rcases hl with rfl | rfl <;> omega
    simp [this]
  have hm1 : List.filter (fun i : Reg => (list.zeroExtend 16).getLsbD i.val) [8, 9, 10, 11, 12, 13] = [] := by
    rw [List.filter_eq_nil_iff]; intro n hn; rw [(hmid n hn).1]; simp
  have hm2 : List.filter (fun i : Reg => l16.getLsbD i.val) [8, 9, 10, 11, 12, 13] = [] := by
    rw [List.filter_eq_nil_iff]; intro n hn; rw [(hmid n hn).2]; simp
  rw [hm1, hm2]
  rw [filter_single _ 14 false (by show (list.zeroExtend 16).getLsbD 14 = _; rw [hz 14 (by omega)]; rfl),
    filter_single _ 15 false (by show (list.zeroExtend 16).getLsbD 15 = _; rw [hz 15 (by omega)]; rfl),
    filter_single _ 14 (decide (14 = last.val) && extra) (by show l16.getLsbD 14 = _; rw [h 14 (by omega)]; rfl),
    filter_single _ 15 (decide (15 = last.val) && extra) (by show l16.getLsbD 15 = _; rw [h 15 (by omega)]; rfl)]
  rcases hl with rfl | rfl <;> cases extra <;> simp <;> rfl

theorem lowListRegs_eq (list : BitVec 8) (l16 : BitVec 16) (h : ∀ k, k < 16 → l16.getLsbD k = list.getLsbD k) :
    lowListRegs list = listRegs l16 := by
  have : list.zeroExtend 16 = l16 := BitVec.eq_of_getLsbD_eq fun k hk => by
    rw [h k hk, BitVec.getLsbD_setWidth]; simp [hk]
  rw [lowListRegs, this]

theorem foldl_storeRegs_congr (f g : Reg → Word) (a : Word) (ns : List Reg) (s : State) (h : ∀ n ∈ ns, f n = g n) :
    storeRegs f (withAddrs a ns) s = storeRegs g (withAddrs a ns) s := by
  induction ns generalizing a s with
  | nil => simp only [withAddrs, storeRegs, List.foldl_nil]
  | cons x rest ih =>
    have ih' := ih (a + 4) (s.write32 a (g x)) fun n hn => h n (List.mem_cons_of_mem _ hn)
    unfold storeRegs at ih' ⊢
    rw [withAddrs, List.foldl_cons, List.foldl_cons, h x (by simp)]
    exact ih'

theorem setRegIn_comm (s : State) (m : Mode) (n n' : Reg) (v v' : Word) (h : n ≠ n') :
    (s.setRegIn m n v).setRegIn m n' v' = (s.setRegIn m n' v').setRegIn m n v := by
  cases hj : phys m n with
  | none => simp [State.setRegIn, hj]
  | some j =>
    cases hj' : phys m n' with
    | none => simp [State.setRegIn, hj, hj']
    | some j' =>
      have hne : (j : Nat) ≠ j' := fun e => h (phys_inj m n n' j hj (by rw [hj', Fin.ext e]))
      simp only [State.setRegIn, hj, hj']
      rw [Vector.set_comm _ _ hne]

theorem loadRegs_comm (m : State) (bank : Mode) (ts : List (Reg × Word)) (n : Reg) (v : Word) (s : State) (h : ∀ t ∈ ts, t.1 ≠ n) :
    loadRegs m bank ts (s.setRegIn bank n v) = (loadRegs m bank ts s).setRegIn bank n v := by
  induction ts generalizing s with
  | nil => rfl
  | cons t rest ih =>
    have ih' := ih (s.setRegIn bank t.1 (m.read32 t.2)) fun t' ht => h t' (List.mem_cons_of_mem _ ht)
    unfold loadRegs at ih' ⊢
    rw [List.foldl_cons, List.foldl_cons, setRegIn_comm _ _ _ _ _ _ (h t (by simp)).symm]
    exact ih'

theorem loadRegs_mode (m : State) (bank : Mode) (ts : List (Reg × Word)) (s : State) : (loadRegs m bank ts s).mode = s.mode := by
  induction ts generalizing s with
  | nil => rfl
  | cons t rest ih =>
    have ih' := ih (s.setRegIn bank t.1 (m.read32 t.2))
    unfold loadRegs at ih' ⊢
    rw [List.foldl_cons, ih', State.setRegIn_mode]

theorem condOffset_eq (o : BitVec 8) : thumbCondOffset o = BitVec.ofInt 32 (2 * o.toInt) := by
  rw [thumbCondOffset, BitVec.shiftLeft_eq_mul_twoPow, Int.mul_comm, BitVec.ofInt_mul]; rfl

theorem thumbOffset_eq (o : BitVec 11) : thumbBranchOffset o = BitVec.ofInt 32 (2 * o.toInt) := by
  rw [thumbBranchOffset, BitVec.shiftLeft_eq_mul_twoPow, Int.mul_comm, BitVec.ofInt_mul]; rfl

theorem thumbHigh_eq (o : BitVec 11) : o.signExtend 32 <<< 12 = BitVec.ofInt 32 (4096 * o.toInt) := by
  rw [BitVec.shiftLeft_eq_mul_twoPow, Int.mul_comm, BitVec.ofInt_mul]; rfl

end Sys2Proof.Machine
end

