-- ==== Sys2Proof/Laws/System.lean ====
section
/-! SUPPORT. Laws/System.lean: the BIOS calls of an SWI and the taking of exceptions, in the terms of Safety.lean. -/

namespace Sys2Proof.Machine

theorem exec_of_calls {i : Instr} {s : State} {n : Nat} (h : Calls i s n) : exec i s = biosCall n s := by
  rcases h with ⟨c, comment, rfl, hc, hn⟩ | ⟨v, rfl, rfl⟩
  · have : n = swiNumber s comment := by
      rw [hn, swiNumber]
      have := comment.isLt
      cases s.params.swiField
      · simp only [BitVec.extractLsb'_toNat, Nat.shiftRight_eq_div_pow]; omega
      · simp only [BitVec.extractLsb'_toNat, Nat.shiftRight_eq_div_pow]; omega
    rw [this]
    exact passing hc rfl (by rfl)
  · rfl

theorem toInt_zero (v : Word) : v.toInt = 0 ↔ v = 0 := by
  rw [← BitVec.toInt_inj]; rfl

theorem tdiv_unique (n d q r : Int) (hd : d ≠ 0) (h : q * d + r = n) (hr : r.natAbs < d.natAbs) (hp : 0 < r → 0 < n)
    (hn : r < 0 → n < 0) : n.tdiv d = q := by
  have hc : d * q = q * d := Int.mul_comm d q
  rcases Int.le_total 0 n with h0 | h0
  · exact ((Int.tdiv_tmod_unique (r := r) h0 hd).mpr ⟨by omega, by omega, by omega⟩).1
  · exact ((Int.tdiv_tmod_unique' (r := r) h0 hd).mpr ⟨by omega, by omega, by omega⟩).1

theorem reg_setReg3 (s : State) (a b c : Word) : 
    let t := ((s.setReg 0 a).setReg 1 b).setReg 3 c
    t.reg 0 = a ∧ t.reg 1 = b ∧ t.reg 3 = c := by
  refine ⟨?_, ?_, ?_⟩
  · rw [State.reg_setReg_other _ _ _ _ (by decide), State.reg_setReg_other _ _ _ _ (by decide), State.reg_setReg_same _ _ _ (by decide)]
  · rw [State.reg_setReg_other _ _ _ _ (by decide), State.reg_setReg_same _ _ _ (by decide)]
  · rw [State.reg_setReg_same _ _ _ (by decide)]

theorem isqrtFrom_spec (k n root : Nat) (h : root * root ≤ n) (hu : n < (root + 2^k) * (root + 2^k)) :
    (isqrtFrom k n root) * (isqrtFrom k n root) ≤ n ∧ n < (isqrtFrom k n root + 1) * (isqrtFrom k n root + 1) := by
  induction k generalizing root with
  | zero => exact ⟨h, hu⟩
  | succ k ih =>
    unfold isqrtFrom
    split
    · rename_i hc
      exact ih (root + 2^k) hc (by rw [Nat.add_assoc, show 2^k + 2^k = 2^(k+1) by omega]; exact hu)
    · rename_i hc
      exact ih root h (by omega)

theorem sqrt_unique (n a b : Nat) (ha : a * a ≤ n) (ha' : n < (a + 1) * (a + 1)) (hb : b * b ≤ n) (hb' : n < (b + 1) * (b + 1)) : a = b := by
  rcases Nat.lt_trichotomy a b with h | h | h
  · have := Nat.mul_le_mul (show a + 1 ≤ b by omega) (show a + 1 ≤ b by omega); omega
  · exact h
  · have := Nat.mul_le_mul (show b + 1 ≤ a by omega) (show b + 1 ≤ a by omega); omega

theorem copyUnits_seq (word fixed : Bool) (src dst : Word) (m : Nat → State) (k j : Nat)
    (hm : ∀ k, m (k + 1) = if word
        then (m k).write32 (dst + BitVec.ofNat 32 (4 * k)) ((m k).read32 (if fixed then src else src + BitVec.ofNat 32 (4 * k)))
        else (m k).write16 (dst + BitVec.ofNat 32 (2 * k)) ((m k).read16 (if fixed then src else src + BitVec.ofNat 32 (2 * k)))) :
    copyUnits word fixed k (m j) (if fixed then src else src + BitVec.ofNat 32 ((if word then 4 else 2) * j)) (dst + BitVec.ofNat 32 ((if word then 4 else 2) * j))
      = m (j + k) := by
  induction k generalizing j with
  | zero => rfl
  | succ k ih =>
    have h := ih (j + 1)
    rw [show j + 1 + k = j + (k + 1) by omega] at h
    rw [← h, copyUnits, hm j]
    have e : ∀ (a : Word) (c : Nat), a + BitVec.ofNat 32 (c * (j + 1)) = a + BitVec.ofNat 32 (c * j) + BitVec.ofNat 32 c := by
      intro a c
      rw [BitVec.add_assoc, ← BitVec.ofNat_add, Nat.mul_add, Nat.mul_one]
    cases word <;> cases fixed <;> simp only [e, if_true, if_false, Bool.false_eq_true] <;> rfl

theorem takeException_enters (s : State) (m : Mode) (vector link : Word) (hm : m ≠ .usr) (hm' : m ≠ .sys) :
    EntersException s (takeException s m vector link) m vector link := by
  have hcp : (takeException s m vector link).cpsr = setBit (setBit (setLow5 s.cpsr m.bits) 7 true) 5 false := rfl
  have hregs : (takeException s m vector link).regs = (s.setRegIn m 14 link).regs := by
    show ((s.setSpsrOf m s.cpsr).setRegIn m 14 link).regs = _
    rw [State.setRegIn_regs, State.setRegIn_regs]
    cases m <;> rfl
  have hsp : ∀ m', (takeException s m vector link).spsrOf m' = (s.setSpsrOf m s.cpsr).spsrOf m' := by
    intro m'
    unfold takeException
    rw [State.setRegIn_eq]
    cases m' <;> rfl
  have hrest : takeException s m vector link = { s with regs := (takeException s m vector link).regs, r15 := (takeException s m vector link).r15, cpsr := (takeException s m vector link).cpsr, spsrFiq := (takeException s m vector link).spsrFiq, spsrIrq := (takeException s m vector link).spsrIrq, spsrSvc := (takeException s m vector link).spsrSvc, spsrAbt := (takeException s m vector link).spsrAbt, spsrUnd := (takeException s m vector link).spsrUnd } := by
    unfold takeException
    rw [State.setRegIn_eq]
    cases m <;> rfl
  refine ⟨?_, fun m' h => ?_, ?_, fun j hj => ?_, ?_, ?_, ?_, fun k h6 h7 => ?_, rfl, hrest, ?_⟩
  · rw [hsp]; cases m <;> first | rfl | exact absurd rfl hm | exact absurd rfl hm'
  · rw [hsp]; cases m <;> cases m' <;> first | rfl | exact absurd rfl h
  · have h := State.regIn_setRegIn_same s m 14 link (by decide)
    obtain ⟨j, hj⟩ := phys_some (m := m) (n := 14) (by decide)
    simp only [State.regIn, hj] at h ⊢
    rw [hregs]; exact h
  · rw [hregs]; exact State.setRegIn_cell s m 14 link j hj
  · rw [hcp, setBit_low5 _ _ _ (by omega) (by omega), setBit_low5 _ _ _ (by omega) (by omega), setLow5_low5]
  · rw [hcp, setBit_getLsbD _ _ _ _ (by omega), setBit_getLsbD _ _ _ _ (by omega)]; rfl
  · rw [hcp, setBit_getLsbD _ _ _ _ (by omega)]; rfl
  · rw [hcp, setBit_getLsbD _ _ _ _ (by omega), setBit_getLsbD _ _ _ _ (by omega), if_neg (by omega), if_neg h7,
      setLow5_getLsbD _ _ _ (by omega)]
  · intro a
    have hio : ∀ off, ioRead16 (takeException s m vector link) off = ioRead16 s off := by
      intro off; rw [hrest]; simp only [ioRead16, State.dmaChannel, State.timer, State.ioHalf]
    have hfl : ∀ off, flashRead (takeException s m vector link) off = flashRead s off := by intro off; rw [hrest]; rfl
    have hgp : ∀ off, readGpio (takeException s m vector link) off = readGpio s off := by intro off; rw [hrest]; rfl
    have hv : (takeException s m vector link).gpioVisible = s.gpioVisible := by rw [hrest]; rfl
    have hmm : (takeException s m vector link).mem = s.mem := by rw [hrest]
    have hr : (takeException s m vector link).romSize = s.romSize := by rw [hrest]
    unfold State.read8
    simp only [hio, hfl, hgp, hv, hmm, hr]

/-- What every BIOS call but SoftReset leaves alone, before the advance. -/
structure Quiet (s u : State) : Prop where
  cpsr : u.cpsr = s.cpsr
  spsrs : ∀ m, u.spsrOf m = s.spsrOf m
  cells : SameCellsBut [0, 1, 3] s u
  r15 : u.r15 = s.r15

theorem Quiet.of_bus {s u : State} (h : BusEffect s u) : Quiet s u :=
  ⟨h.cpsr, fun m => by cases m <;> simp [State.spsrOf, h.spsrFiq, h.spsrIrq, h.spsrSvc, h.spsrAbt, h.spsrUnd],
   fun j _ => by rw [h.regs], h.r15⟩

theorem Quiet.setReg {s u : State} (h : Quiet s u) (n : Reg) (v : Word) (hn : n = 0 ∨ n = 1 ∨ n = 3) : Quiet s (u.setReg n v) := by
  have hm : u.mode = s.mode := State.mode_of_cpsr h.cpsr
  refine ⟨(State.setReg_cpsr ..).trans h.cpsr, fun m => ?_, fun j hj => ?_, (State.setReg_r15 ..).trans h.r15⟩
  · rw [← h.spsrs m]
    unfold State.setReg
    rw [State.setRegIn_eq]
    cases m <;> rfl
  · refine (State.setRegIn_cell u u.mode n v j ?_).trans (h.cells j hj)
    rw [hm]
    exact hj n (by rcases hn with rfl | rfl | rfl <;> simp)

theorem Quiet.done {s u : State} (h : Quiet s u) {i : Instr} (he : exec i s = .next u.advance) :
    ∃ t, exec i s = .next t ∧ t.cpsr = s.cpsr ∧ (∀ m, t.spsrOf m = s.spsrOf m) ∧ SameCellsBut [0, 1, 3] s t
      ∧ t.r15 = s.r15 + instrWidth s.thumb := by
  refine ⟨_, he, h.cpsr, fun m => ?_, h.cells, ?_⟩
  · rw [← h.spsrs m]; cases m <;> rfl
  · show u.r15 + instrWidth u.thumb = _
    unfold State.thumb; rw [h.r15, h.cpsr]

theorem Quiet.finishUnpack (s : State) (d : Unpack) (size : Nat) (halves : Bool) : Quiet s (finishUnpack s d size halves) := by
  unfold Machine.finishUnpack
  simp only
  have h0 : Quiet s { s with free := d.free } := ⟨rfl, fun m => by cases m <;> rfl, fun _ _ => rfl, rfl⟩
  have trans : ∀ u v, Quiet s u → BusEffect u v → Quiet s v := by
    intro u v h g
    have q := Quiet.of_bus g
    refine ⟨q.cpsr.trans h.cpsr, fun m => (q.spsrs m).trans (h.spsrs m), fun j hj => ?_, q.r15.trans h.r15⟩
    rw [show v.regs[j] = u.regs[j] by rw [g.regs]]; exact h.cells j hj
  refine (Quiet.setReg ?_ _ _ (.inl rfl)).setReg _ _ (.inr (.inl rfl))
  split
  · exact trans _ _ h0 (writeHalves_effect ..)
  · exact trans _ _ h0 (writeBytes_effect ..)

theorem pushRun_out (b : Byte) (size n : Nat) (d : Unpack) (hl : d.len = d.out.length) :
    Unpack.pushRun b size n d = { d with out := List.replicate (min n (size - d.len)) b ++ d.out, len := d.len + min n (size - d.len) } := by
  induction n generalizing d with
  | zero => simp [Unpack.pushRun]
  | succ n ih =>
    unfold Unpack.pushRun
    by_cases h : d.len < size
    · rw [if_pos h, ih (d.push b) (by simp [Unpack.push, hl])]
      have e : min (n + 1) (size - d.len) = min n (size - (d.len + 1)) + 1 := by omega
      simp only [Unpack.push, e, List.replicate_succ', List.append_assoc, List.singleton_append]
      congr 1
      omega
    · rw [if_neg h, show min (n + 1) (size - d.len) = 0 by omega]; rfl

theorem literalRun_out (s : State) (size n : Nat) (d : Unpack) (hl : d.len = d.out.length) :
    Unpack.literalRun s size n d = { d with
      p := d.p + BitVec.ofNat 32 (min n (size - d.len)),
      out := ((List.range (min n (size - d.len))).map fun k => s.read8 (d.p + BitVec.ofNat 32 k)).reverse ++ d.out,
      len := d.len + min n (size - d.len) } := by
  induction n generalizing d with
  | zero => simp [Unpack.literalRun]
  | succ n ih =>
    unfold Unpack.literalRun
    by_cases h : d.len < size
    · rw [if_pos h, ih _ (by simp [Unpack.push, hl])]
      have e : min (n + 1) (size - d.len) = min n (size - (d.len + 1)) + 1 := by omega
      simp only [Unpack.push, e, List.range_succ_eq_map, List.map_cons, List.reverse_cons, List.append_assoc, List.singleton_append, List.map_map]
      have ea : ∀ k, d.p + 1 + BitVec.ofNat 32 k = d.p + BitVec.ofNat 32 (k + 1) := by
        intro k; rw [BitVec.add_assoc, Nat.add_comm k 1, BitVec.ofNat_add]; rfl
      simp only [ea, Function.comp_def, Nat.succ_eq_add_one]
      congr 1
      · simp
      · omega
    · rw [if_neg h, show min (n + 1) (size - d.len) = 0 by omega]; simp

theorem rlLoop_spec (s : State) (size fuel : Nat) (d : Unpack) (hl : d.len = d.out.length) (hf : size - d.len ≤ fuel) :
    RlOut s size d.p d.out.reverse (rlLoop s size fuel d).p (rlLoop s size fuel d).out.reverse
    ∧ (d.len ≤ size → (rlLoop s size fuel d).out.length = size) ∧ (rlLoop s size fuel d).free = d.free := by
  induction fuel generalizing d with
  | zero =>
    exact ⟨RlOut.stop (by simp; omega), fun h => by show d.out.length = size; omega, rfl⟩
  | succ fuel ih =>
    unfold rlLoop
    by_cases h : d.len < size
    · rw [if_pos h]
      simp only
      by_cases hb : (s.read8 d.p).getLsbD 7 = true
      · rw [if_pos hb, pushRun_out _ _ _ _ (by exact hl)]
        obtain ⟨i1, i2, i3⟩ := ih { p := d.p + 1 + 1, out := List.replicate (min ((s.read8 d.p).toNat % 128 + 3) (size - d.len)) (s.read8 (d.p + 1)) ++ d.out, len := d.len + min ((s.read8 d.p).toNat % 128 + 3) (size - d.len), free := d.free } (by simp [hl]; omega) (by simp only; omega)
        refine ⟨?_, fun _ => i2 (by simp only; omega), i3⟩
        refine RlOut.run (by simpa [← hl] using h) hb ?_
        have e2 : d.p + 2 = d.p + 1 + 1 := by rw [BitVec.add_assoc]; rfl
        rw [e2]
        simpa [← hl] using i1
      · rw [if_neg hb, literalRun_out _ _ _ _ (by exact hl)]
        obtain ⟨i1, i2, i3⟩ := ih { p := d.p + 1 + BitVec.ofNat 32 (min ((s.read8 d.p).toNat % 128 + 1) (size - d.len)), out := ((List.range (min ((s.read8 d.p).toNat % 128 + 1) (size - d.len))).map fun k => s.read8 (d.p + 1 + BitVec.ofNat 32 k)).reverse ++ d.out, len := d.len + min ((s.read8 d.p).toNat % 128 + 1) (size - d.len), free := d.free } (by simp [hl]; omega) (by simp only; omega)
        refine ⟨?_, fun _ => i2 (by simp only; omega), i3⟩
        refine RlOut.literal (min ((s.read8 d.p).toNat % 128 + 1) (size - d.len)) (by simpa [← hl] using h) (by simpa using hb) (by simp [hl]) ?_
        simpa using i1
    · rw [if_neg h]
      exact ⟨RlOut.stop (by simp; omega), fun h' => by show d.out.length = size; omega, rfl⟩

theorem copyBack_out (d : Unpack) (disp : Nat) : ∃ b, (d.copyBack disp).out = b :: d.out ∧ (d.copyBack disp).p = d.p
    ∧ (d.copyBack disp).len = d.len + 1 ∧ (disp - 1 < d.out.length → d.out[disp - 1]? = some b) := by
  unfold Unpack.copyBack
  cases h : d.out[disp - 1]? with
  | some b => exact ⟨b, rfl, rfl, rfl, fun _ => rfl⟩
  | none =>
    refine ⟨Config.freeByte d.free, rfl, rfl, rfl, fun hl => ?_⟩
    rw [List.getElem?_eq_getElem hl] at h; cases h

/-- A back reference appends the bytes of `CopiedBack`. -/
theorem copyRun_out (disp size n : Nat) (d : Unpack) (hl : d.len = d.out.length) (hd : 0 < disp) :
    ∃ new : List Byte, new.length = min n (size - d.len) ∧ (Unpack.copyRun disp size n d).out.reverse = d.out.reverse ++ new
      ∧ (Unpack.copyRun disp size n d).p = d.p ∧ (Unpack.copyRun disp size n d).len = (Unpack.copyRun disp size n d).out.length
      ∧ CopiedBack disp d.out.reverse new := by
  induction n generalizing d with
  | zero => exact ⟨[], by simp, by simp [Unpack.copyRun], rfl, hl, fun k hk => absurd hk (by simp)⟩
  | succ n ih =>
    unfold Unpack.copyRun
    by_cases h : d.len < size
    · rw [if_pos h]
      obtain ⟨b, ho, hp, hn, hb⟩ := copyBack_out d disp
      obtain ⟨new, h1, h2, h3, h4, h5⟩ := ih (d.copyBack disp) (by rw [hn, ho, hl]; rfl)
      rw [ho, List.reverse_cons, List.append_assoc, List.singleton_append] at h2
      refine ⟨b :: new, ?_, h2, h3.trans hp, h4, ?_⟩
      · rw [List.length_cons, h1, hn]; omega
      · intro k hk hle
        cases k with
        | zero =>
          rw [Nat.add_zero, List.getElem?_append_right (by omega), Nat.sub_self, List.getElem?_cons_zero]
          rw [List.length_reverse] at hle ⊢
          rw [List.getElem?_append_left (by rw [List.length_reverse]; omega), List.getElem?_reverse (by omega),
            show d.out.length - 1 - (d.out.length - disp) = disp - 1 by omega, hb (by omega)]
        | succ k =>
          have := h5 k (by simpa using hk) (by rw [ho]; simp at hle ⊢; omega)
          rw [ho, List.reverse_cons, List.append_assoc, List.singleton_append, List.length_append, List.length_singleton] at this
          rw [show d.out.reverse.length + (k + 1) = d.out.reverse.length + 1 + k by omega]
          exact this
    · rw [if_neg h]
      exact ⟨[], by simp; omega, by simp, rfl, hl, fun k hk => absurd hk (by simp)⟩

/-- One block keeps the length right and goes forward. -/
theorem lzBlock_len (s : State) (size : Nat) (flag : Bool) (d : Unpack) (hl : d.len = d.out.length) :
    (lzBlock s size flag d).len = (lzBlock s size flag d).out.length ∧ d.len ≤ (lzBlock s size flag d).len
    ∧ (d.len < size → d.len < (lzBlock s size flag d).len) ∧ (d.len ≤ size → (lzBlock s size flag d).len ≤ size) := by
  unfold lzBlock
  by_cases h : d.len < size
  · rw [if_pos h]
    cases flag
    · simp [Unpack.push, hl]; omega
    · obtain ⟨new, h1, h2, _, h4, _⟩ := copyRun_out ((s.read8 d.p).toNat % 16 * 256 + (s.read8 (d.p + 1)).toNat + 1) size
        ((s.read8 d.p).toNat / 16 + 3) { d with p := d.p + 2 } hl (by omega)
      have h6 := congrArg List.length h2
      rw [List.length_reverse, List.length_append, List.length_reverse, ← h4] at h6
      simp only at h1 h6
      simp only [if_true]
      refine ⟨h4, ?_, fun _ => ?_, fun _ => ?_⟩ <;> omega
  · rw [if_neg h]; exact ⟨hl, Nat.le_refl _, fun h' => absurd h' h, id⟩

/-- `n` blocks of a flag byte, from bit n − 1 down. -/
def lzBlocks (s : State) (size : Nat) (flags : Byte) : Nat → Unpack → Unpack
  | 0, d => d
  | n + 1, d => lzBlocks s size flags n (lzBlock s size (flags.getLsbD n) d)

theorem lzGroup_eq (s : State) (size : Nat) (flags : Byte) (d : Unpack) : lzGroup s size flags d = lzBlocks s size flags 8 d := rfl

theorem lzBlocks_len (s : State) (size : Nat) (flags : Byte) (n : Nat) (d : Unpack) (hl : d.len = d.out.length) :
    (lzBlocks s size flags n d).len = (lzBlocks s size flags n d).out.length ∧ d.len ≤ (lzBlocks s size flags n d).len
    ∧ (0 < n → d.len < size → d.len < (lzBlocks s size flags n d).len) ∧ (d.len ≤ size → (lzBlocks s size flags n d).len ≤ size) := by
  induction n generalizing d with
  | zero => exact ⟨hl, Nat.le_refl _, fun h => absurd h (by omega), id⟩
  | succ n ih =>
    obtain ⟨b1, b2, b3, b4⟩ := lzBlock_len s size (flags.getLsbD n) d hl
    obtain ⟨i1, i2, _, i4⟩ := ih _ b1
    exact ⟨i1, Nat.le_trans b2 i2, fun _ h => Nat.lt_of_lt_of_le (b3 h) i2, fun h => i4 (b4 h)⟩

theorem lzBlocks_done (s : State) (size : Nat) (flags : Byte) (n : Nat) (d : Unpack) (h : ¬ d.len < size) : lzBlocks s size flags n d = d := by
  induction n with
  | zero => rfl
  | succ n ih => rw [lzBlocks, show lzBlock s size (flags.getLsbD n) d = d by unfold lzBlock; rw [if_neg h], ih]

theorem lzBlocks_spec (s : State) (size : Nat) (flags : Byte) (n : Nat) (d : Unpack) (hl : d.len = d.out.length) (p' : Word) (out : List Byte)
    (h : LzOut s size 0 flags (lzBlocks s size flags n d).p (lzBlocks s size flags n d).out.reverse p' out) :
    LzOut s size n flags d.p d.out.reverse p' out := by
  induction n generalizing d with
  | zero => exact h
  | succ n ih =>
    by_cases hs : d.len < size
    · rw [lzBlocks] at h
      have i := ih _ (lzBlock_len s size (flags.getLsbD n) d hl).1 h
      have hs' : d.out.reverse.length < size := by rw [List.length_reverse, ← hl]; exact hs
      cases hf : flags.getLsbD n
      · rw [hf] at i
        refine LzOut.literal hs' hf ?_
        have e : lzBlock s size false d = { d.push (s.read8 d.p) with p := d.p + 1 } := by
          unfold lzBlock; rw [if_pos hs]; rfl
        rw [e] at i
        simpa [Unpack.push] using i
      · rw [hf] at i
        obtain ⟨new, h1, h2, h3, _, h5⟩ := copyRun_out ((s.read8 d.p).toNat % 16 * 256 + (s.read8 (d.p + 1)).toNat + 1) size
          ((s.read8 d.p).toNat / 16 + 3) { d with p := d.p + 2 } hl (by omega)
        have e : lzBlock s size true d = Unpack.copyRun ((s.read8 d.p).toNat % 16 * 256 + (s.read8 (d.p + 1)).toNat + 1) size
          ((s.read8 d.p).toNat / 16 + 3) { d with p := d.p + 2 } := by unfold lzBlock; rw [if_pos hs]; rfl
        rw [e, h2, h3] at i
        exact LzOut.copy new hs' hf (by rw [h1, List.length_reverse, ← hl]) h5 i
    · rw [lzBlocks_done _ _ _ _ _ hs] at h
      cases h with
      | stop h => exact LzOut.stop h
      | group h _ => rw [List.length_reverse, ← hl] at h; exact absurd h hs

theorem lzLoop_spec (s : State) (size fuel : Nat) (flags : Byte) (d : Unpack) (hl : d.len = d.out.length) (hf : size - d.len ≤ fuel) :
    LzOut s size 0 flags d.p d.out.reverse (lzLoop s size fuel d).p (lzLoop s size fuel d).out.reverse
    ∧ (d.len ≤ size → (lzLoop s size fuel d).out.length = size) := by
  induction fuel generalizing d flags with
  | zero => exact ⟨LzOut.stop (by simp; omega), fun h => by show d.out.length = size; omega⟩
  | succ fuel ih =>
    unfold lzLoop
    by_cases h : d.len < size
    · rw [if_pos h, lzGroup_eq]
      obtain ⟨b1, b2, b3, b4⟩ := lzBlocks_len s size (s.read8 d.p) 8 { d with p := d.p + 1 } hl
      have b3' := b3 (by omega) h
      obtain ⟨i1, i2⟩ := ih (s.read8 d.p) (lzBlocks s size (s.read8 d.p) 8 { d with p := d.p + 1 }) b1 (by simp only at b3'; omega)
      refine ⟨LzOut.group (by rw [List.length_reverse, ← hl]; exact h) ?_, fun hh => i2 (b4 hh)⟩
      exact lzBlocks_spec s size (s.read8 d.p) 8 { d with p := d.p + 1 } hl _ _ i1
    · rw [if_neg h]
      exact ⟨LzOut.stop (by simp; omega), fun h' => by show d.out.length = size; omega⟩

theorem writeBytes_seq (out : List Byte) (a : Word) (m : Nat → State)
    (j : Nat) (full : List Byte) (hd : full.drop j = out)
    (hm : ∀ k, m (k + 1) = (m k).write8 (a + BitVec.ofNat 32 k) (full.getD k 0)) :
    writeBytes out (m j) (a + BitVec.ofNat 32 j) = m (j + out.length) := by
  induction out generalizing j with
  | nil => rfl
  | cons b rest ih =>
    have hb : full.getD j 0 = b := by
      have : full[j]? = some b := by
        have := congrArg (fun l => l[0]?) hd; simpa using this
      simp [List.getD_eq_getElem?_getD, this]
    have hr : full.drop (j + 1) = rest := by
      rw [← List.drop_drop, hd]; rfl
    have := ih (j + 1) hr
    rw [List.length_cons, show j + (rest.length + 1) = j + 1 + rest.length by omega, ← this, writeBytes, hm j, hb, BitVec.add_assoc]
    congr 2
    rw [BitVec.ofNat_add]; rfl

theorem writeHalves_seq (n : Nat) (out : List Byte) (hn : (out.length + 1) / 2 = n) (a : Word) (m : Nat → State)
    (j : Nat) (full : List Byte) (hd : full.drop (2 * j) = out)
    (hm : ∀ k, m (k + 1) = (m k).write16 (a + BitVec.ofNat 32 (2 * k)) (full.getD (2 * k + 1) 0 ++ full.getD (2 * k) 0)) :
    writeHalves out (m j) (a + BitVec.ofNat 32 (2 * j)) = m (j + n) := by
  induction n generalizing j out with
  | zero =>
    have : out = [] := List.eq_nil_of_length_eq_zero (by omega)
    subst this; rfl
  | succ n ih =>
    have g : ∀ i, full.getD (2 * j + i) 0 = out.getD i 0 := by
      intro i; rw [← hd]; simp [List.getD_eq_getElem?_getD]
    have g0 := g 0
    have g1 := g 1
    rw [Nat.add_zero] at g0
    match out, hn, hd, g0, g1 with
    | [], hn, _, _, _ => simp at hn
    | [b], hn, hd, g0, g1 =>
      have : n = 0 := by simp at hn; omega
      subst this
      rw [writeHalves, hm j, g0, g1]; rfl
    | b0 :: b1 :: rest, hn, hd, g0, g1 =>
      have hr : full.drop (2 * (j + 1)) = rest := by
        rw [show 2 * (j + 1) = 2 * j + 2 by omega, ← List.drop_drop, hd]; rfl
      have := ih rest (by simp at hn; omega) (j + 1) hr
      rw [show j + (n + 1) = j + 1 + n by omega, ← this, writeHalves, hm j, g0, g1, BitVec.add_assoc]
      congr 2
      rw [show 2 * (j + 1) = 2 * j + 2 by omega, BitVec.ofNat_add]; rfl

/-- The write-out of Machine/Bios.lean is the one of Safety.lean. -/
theorem writtenOut (s : State) (a : Word) (out : List Byte) (halves : Bool) :
    WrittenOut s (if halves then writeHalves out s a else writeBytes out s a) a out halves := by
  intro m h0
  subst h0
  refine ⟨fun h hm => ?_, fun h hm => ?_⟩ <;> subst h
  · have := writeBytes_seq out a m 0 out rfl hm
    simpa using this
  · have := writeHalves_seq _ out rfl a m 0 out rfl hm
    simpa using this

theorem SameBeyondCpu.sameCpsr {u t : State} (h : SameBeyondCpu u t) (e : t.cpsr = u.cpsr) :
    t = { u with regs := t.regs, r15 := t.r15 } := by
  unfold SameBeyondCpu at h; rw [e] at h; exact h

theorem finishUnpack_facts (s : State) (d : Unpack) (size : Nat) (halves : Bool) (s0 u : State) (h0 : s0 = { s with free := d.free })
    (hu : u = if halves then writeHalves d.out.reverse s0 (s.reg 1) else writeBytes d.out.reverse s0 (s.reg 1)) :
    let t := (finishUnpack s d size halves).advance
    t = { u with regs := t.regs, r15 := t.r15 } ∧ t.r15 = s.r15 + instrWidth s.thumb ∧ t.cpsr = s.cpsr ∧ t.reg 0 = d.p
      ∧ t.reg 1 = s.reg 1 + BitVec.ofNat 32 size ∧ SameCellsBut [0, 1] s t := by
  have hb : BusEffect s u := by
    refine BusEffect.trans (t := s0) (by rw [h0]; exact BusEffect.free s d.free) ?_
    rw [hu]; exact BusEffect.ite (fun _ => writeHalves_effect ..) fun _ => writeBytes_effect ..
  have hm : u.mode = s.mode := State.mode_of_cpsr hb.cpsr
  have e : finishUnpack s d size halves = (u.setReg 0 d.p).setReg 1 (s.reg 1 + BitVec.ofNat 32 size) := by
    unfold finishUnpack; rw [hu, h0]
  rw [e]
  have hcp : ((u.setReg 0 d.p).setReg 1 (s.reg 1 + BitVec.ofNat 32 size)).advance.cpsr = u.cpsr := by simp
  refine ⟨((((SameBeyondCpu.refl u).setReg _ _).setReg _ _).advance).sameCpsr hcp, ?_, hcp.trans hb.cpsr, ?_, ?_, ?_⟩
  · show State.r15 (State.setReg _ _ _) + instrWidth (State.thumb (State.setReg _ _ _)) = _
    simp [hb.r15, State.thumb, hb.cpsr]
  · rw [reg_advance _ _ (by decide), State.reg_setReg_other _ _ _ _ (by decide), State.reg_setReg_same _ _ _ (by decide)]
  · rw [reg_advance _ _ (by decide), State.reg_setReg_same _ _ _ (by decide)]
  · intro j hj
    rw [State.advance_regs]
    unfold State.setReg
    rw [State.setRegIn_cell, State.setRegIn_cell, hb.regs]
    · rw [hm]; exact hj 0 (by simp)
    · rw [State.setRegIn_mode, hm]; exact hj 1 (by simp)

theorem storesBytes_append {s m t : State} {a : Word} {k n : Nat} {v : Byte} (hr : m.romSize = s.romSize)
    (h1 : StoresBytes s m a k fun _ => v) (h2 : StoresBytes m t (a + BitVec.ofNat 32 k) n fun _ => v) :
    StoresBytes s t a (k + n) fun _ => v := by
  have e : ∀ i, a + BitVec.ofNat 32 k + BitVec.ofNat 32 i = a + BitVec.ofNat 32 (k + i) := by
    intro i; rw [BitVec.add_assoc, BitVec.ofNat_add]
  refine ⟨fun i hi b hb => ?_, fun b hb => ?_⟩
  · by_cases hc : ∃ j, j < n ∧ sameByte m.romSize b (a + BitVec.ofNat 32 k + BitVec.ofNat 32 j)
    · obtain ⟨j, hj, hs⟩ := hc
      exact h2.1 j hj b hs
    · by_cases hk : i < k
      · rw [h2.2 b (fun j hj hs => hc ⟨j, hj, hs⟩)]
        exact h1.1 i hk b hb
      · exfalso
        refine hc ⟨i - k, by omega, ?_⟩
        rw [hr, e, show k + (i - k) = i by omega]; exact hb
  · rw [h2.2 b, h1.2 b]
    · exact fun i hi => hb i (by omega)
    · intro j hj
      rw [hr, e]
      exact hb (k + j) (by omega)

/-- Words of IWRAM cleared. -/
theorem clearWords_spec (n : Nat) (s : State) (a : Word) (h : 0x03000000 ≤ a.toNat) (h' : a.toNat + 4 * n ≤ 0x03008000) (h4 : a.toNat % 4 = 0) :
    clearWords n s a = { s with mem := (clearWords n s a).mem } ∧ StoresBytes s (clearWords n s a) a (4 * n) fun _ => 0 := by
  induction n generalizing s a with
  | zero => exact ⟨rfl, fun i hi => absurd hi (by omega), fun _ _ => rfl⟩
  | succ n ih =>
    have hreg : regionOf a = 3 := by unfold regionOf busAddr; omega
    have hal : align4 a = a := by
      apply BitVec.eq_of_toNat_eq; rw [align4_toNat]; omega
    have ha4 : (a + 4).toNat = a.toNat + 4 := by rw [BitVec.toNat_add]; simp; omega
    have hm := write32_mem s a 0 (by rw [hreg]; decide) (by rw [hreg]; decide)
    obtain ⟨i1, i2⟩ := ih (s.write32 a 0) (a + 4) (by omega) (by omega) (by omega)
    have hw := (write32_stored s a 0).1 (by rw [hal, hreg]; rfl)
    rw [hal] at hw
    have hz : byteOf 0 = fun _ => (0 : Byte) := by funext k; simp [byteOf]
    rw [hz] at hw
    refine ⟨?_, ?_⟩
    · rw [clearWords]
      have : ∀ u : State, u = { s with mem := u.mem } → ∀ v : State, v = { u with mem := v.mem } → v = { s with mem := v.mem } := by
        intro u hu v hv; rw [hv, hu]
      exact this _ hm _ i1
    · rw [clearWords, show 4 * (n + 1) = 4 + 4 * n by omega]
      exact storesBytes_append (by rw [hm]) hw i2

/-- What differs in the CPU only, the SPSRs among it, reads the same everywhere. -/
theorem sameBytes_cpu {s t : State} (h : t = { s with
      regs := t.regs, r15 := t.r15, cpsr := t.cpsr, spsrFiq := t.spsrFiq, spsrIrq := t.spsrIrq,
      spsrSvc := t.spsrSvc, spsrAbt := t.spsrAbt, spsrUnd := t.spsrUnd }) : SameBytes s t := by
  intro a
  have hio : ∀ off, ioRead16 t off = ioRead16 s off := by
    intro off; rw [h]; simp only [ioRead16, State.dmaChannel, State.timer, State.ioHalf]
  have hfl : ∀ off, flashRead t off = flashRead s off := by intro off; rw [h]; rfl
  have hgp : ∀ off, readGpio t off = readGpio s off := by intro off; rw [h]; rfl
  have hv : t.gpioVisible = s.gpioVisible := by rw [h]; rfl
  have hm : t.mem = s.mem := by rw [h]
  have hr : t.romSize = s.romSize := by rw [h]
  unfold State.read8
  simp only [hio, hfl, hgp, hv, hm, hr]

theorem setRegIn_get (s : State) (m : Mode) (n : Reg) (v : Word) (j k : Nat) (hk : k < 30) (hj : j < 30) (h : phys m n = some ⟨j, hj⟩) :
    (s.setRegIn m n v).regs[k] = if j = k then v else s.regs[k] := by
  rw [State.setRegIn_regs, h]
  exact Vector.getElem_set ..

/-- R0 to R12 of the User bank cleared: their cells are the first thirteen. -/
theorem clearLowRegs_cells (s : State) : clearLowRegs s = { s with regs := (clearLowRegs s).regs }
    ∧ ∀ k, (hk : k < 30) → (clearLowRegs s).regs[k] = if k < 13 then (0 : Word) else s.regs[k] := by
  have hp : ∀ i : Fin 13, phys .usr (Fin.ofNat 16 i.val) = some ⟨i.val, by omega⟩ := by decide
  have hl : ∀ (l : List (Fin 13)) (u : State),
      l.foldl (fun s i => s.setRegIn .usr (Fin.ofNat 16 i.val) 0) u
        = { u with regs := (l.foldl (fun s i => s.setRegIn .usr (Fin.ofNat 16 i.val) 0) u).regs }
      ∧ ∀ k, (hk : k < 30) → (l.foldl (fun s i => s.setRegIn .usr (Fin.ofNat 16 i.val) 0) u).regs[k]
        = if ∃ i ∈ l, i.val = k then (0 : Word) else u.regs[k] := by
    intro l
    induction l with
    | nil => intro u; exact ⟨rfl, fun k hk => by simp⟩
    | cons i l ih =>
      intro u
      obtain ⟨h1, h2⟩ := ih (u.setRegIn .usr (Fin.ofNat 16 i.val) 0)
      refine ⟨?_, fun k hk => (h2 k hk).trans ?_⟩
      · rw [List.foldl_cons]
        generalize (l.foldl (fun s i => s.setRegIn .usr (Fin.ofNat 16 i.val) 0) (u.setRegIn .usr (Fin.ofNat 16 i.val) 0)).regs = r at h1 ⊢
        rw [h1, State.setRegIn_eq]
      rw [setRegIn_get u .usr _ 0 i.val k hk (by omega) (hp i)]
      by_cases hm : ∃ i' ∈ l, i'.val = k
      · rw [if_pos hm, if_pos (hm.imp fun _ h => ⟨List.mem_cons_of_mem _ h.1, h.2⟩)]
      · rw [if_neg hm]
        by_cases hi : i.val = k
        · rw [if_pos hi, if_pos ⟨i, List.mem_cons_self .., hi⟩]
        · rw [if_neg hi, if_neg]
          rintro ⟨i', hm', hk'⟩
          rcases List.mem_cons.1 hm' with rfl | hm'
          · exact hi hk'
          · exact hm ⟨i', hm', hk'⟩
  obtain ⟨h1, h2⟩ := hl (List.finRange 13) s
  refine ⟨h1, fun k hk => (h2 k hk).trans ?_⟩
  by_cases h : k < 13
  · rw [if_pos h, if_pos ⟨⟨k, h⟩, List.mem_finRange _, rfl⟩]
  · rw [if_neg h, if_neg (fun ⟨i, _, hi⟩ => h (by omega))]

theorem softResetRegs_eq (u : State) : softResetRegs u = { u with regs := (softResetRegs u).regs } := by
  have set : ∀ (v : State) (m : Mode) (n : Reg) (x : Word), v = { u with regs := v.regs } →
      v.setRegIn m n x = { u with regs := (v.setRegIn m n x).regs } := by
    intro v m n x h
    have e := State.setRegIn_eq v m n x
    generalize (v.setRegIn m n x).regs = r at e ⊢
    rw [e, h]
  have low : ∀ v : State, v = { u with regs := v.regs } → clearLowRegs v = { u with regs := (clearLowRegs v).regs } := by
    intro v h
    have e := (clearLowRegs_cells v).1
    generalize (clearLowRegs v).regs = r at e ⊢
    rw [e, h]
  unfold softResetRegs
  simp only
  apply set
  apply set
  apply low
  apply set
  apply set
  apply set
  apply set
  rfl

theorem softResetRegs_cell (u : State) (k : Nat) (hk : k < 30) : (softResetRegs u).regs[k] =
    if k < 13 then 0 else if k = 13 then 0x03007F00#32 else if k = 14 then 0 else if k = 22 then 0x03007FA0#32 else if k = 23 then 0
    else if k = 24 then 0x03007FE0#32 else if k = 25 then 0 else u.regs[k] := by
  unfold softResetRegs
  simp only
  rw [setRegIn_get _ _ _ _ 14 k hk (by omega) rfl, setRegIn_get _ _ _ _ 13 k hk (by omega) rfl, (clearLowRegs_cells _).2 k hk,
    setRegIn_get _ _ _ _ 23 k hk (by omega) rfl, setRegIn_get _ _ _ _ 22 k hk (by omega) rfl,
    setRegIn_get _ _ _ _ 25 k hk (by omega) rfl, setRegIn_get _ _ _ _ 24 k hk (by omega) rfl]
  repeat' (first | rfl | (exfalso; omega) | split)

theorem phys_sys_lt (n : Reg) (h : n.val < 13) : ∃ j : Fin 30, phys .sys n = some j ∧ j.val < 13 := by
  revert n; decide

theorem phys_fiq_mid (n : Reg) (h : 8 ≤ n.val) : n = 15 ∨ ∃ j : Fin 30, phys .fiq n = some j ∧ 15 ≤ j.val ∧ j.val ≤ 21 := by
  revert n; decide

/-- The cells SoftReset leaves alone are those of the other modes. -/
theorem softReset_kept (u t : State) (hr : ∀ k, (hk : k < 30) → t.regs[k] = (softResetRegs u).regs[k]) (m : Mode) (n : Reg) (j : Fin 30)
    (hj : phys m n = some j) (h : 15 ≤ j.val ∧ j.val ≤ 21 ∨ 26 ≤ j.val) : t.regIn m n = u.regIn m n := by
  simp only [State.regIn, hj]
  show t.regs[j.val] = u.regs[j.val]
  rw [hr _ j.isLt, softResetRegs_cell _ _ j.isLt]
  repeat' (first | rfl | (exfalso; omega) | split)

end Sys2Proof.Machine
end

