-- ==== Sys2Proof/Laws/Timers.lean ====
section
/-! SUPPORT. Laws/Timers.lean: the timers in closed form (spec/61_devices.md R701 to R704): what a number of ticks does to a
counter, how the overflows of one timer are the ticks of the next, and from that all that `timersUpdate` does. -/

namespace Sys2Proof.Machine


/-! ## Counting -/

theorem countUp_lt (r c k : Nat) (hr : r < 2^16) : (countUp r c k).1 < 2^16 := by
  unfold countUp
  split
  · assumption
  · have : (c + k - 2^16) % (2^16 - r) < 2^16 - r := Nat.mod_lt _ (by omega)
    simp only
    omega

theorem countUp_zero (r c : Nat) (hc : c < 2^16) : countUp r c 0 = (c, 0) := by
  unfold countUp; rw [if_pos (by omega)]; rfl

/-- Counting on, `j` past the first overflow; `P` is the period. -/
theorem count_past (j b P : Nat) (hp : 0 < P) (hb : j % P + b < P) :
    (j + b) % P = j % P + b ∧ (j + b) / P = j / P := by
  have hdm := Nat.div_add_mod j P
  have hjb : j + b = (j % P + b) + P * (j / P) := by omega
  rw [hjb, Nat.add_mul_mod_self_left, Nat.add_mul_div_left _ _ hp, Nat.mod_eq_of_lt hb, Nat.div_eq_of_lt hb]
  omega

theorem count_over (j b P : Nat) (hp : 0 < P) (hb : P ≤ j % P + b) :
    (j + b) % P = (j % P + b - P) % P ∧ (j + b) / P = j / P + 1 + (j % P + b - P) / P := by
  have hdm := Nat.div_add_mod j P
  have hjb : j + b = (j % P + b - P) + P * (j / P + 1) := by rw [Nat.mul_add]; omega
  have : (j + b) % P = (j % P + b - P) % P := by rw [hjb, Nat.add_mul_mod_self_left]
  refine ⟨this, ?_⟩
  rw [hjb, Nat.add_mul_div_left _ _ hp, Nat.add_comm]

/-- Counting on from where a count ended. -/
theorem countUp_add (r c a b : Nat) (hr : r < 2^16) :
    countUp r c (a + b) = ((countUp r (countUp r c a).1 b).1, (countUp r c a).2 + (countUp r (countUp r c a).1 b).2) := by
  unfold countUp
  generalize hQ : (2^16 : Nat) = Q at *
  clear hQ
  by_cases h : c + a < Q
  · simp only [if_pos h, Nat.zero_add]
    rw [Nat.add_assoc]
  · generalize hj : c + a - Q = j
    generalize hP : Q - r = P
    have hp : 0 < P := by omega
    have hmod : j % P < P := Nat.mod_lt _ hp
    rw [if_neg (show ¬ c + (a + b) < Q by omega), if_neg h, show c + (a + b) - Q = j + b by omega]
    simp only
    by_cases hb : r + j % P + b < Q
    · obtain ⟨h1, h2⟩ := count_past j b P hp (by omega)
      rw [if_pos hb, h1, h2]
      simp only [Prod.mk.injEq]
      omega
    · obtain ⟨h1, h2⟩ := count_over j b P hp (by omega)
      rw [if_neg hb, h1, h2, show r + j % P + b - Q = j % P + b - P by omega]
      simp only [Prod.mk.injEq, true_and]
      omega

/-! ## The chain -/

theorem fin4_pred_succ : ∀ m : Fin 4, m ≠ 0 → m - 1 + 1 = m := by decide
theorem fin4_succ_pred : ∀ n : Fin 4, n + 1 - 1 = n := by decide
theorem fin4_succ_val : ∀ n : Fin 4, n.val < 3 → (n + 1).val = n.val + 1 ∧ n + 1 ≠ 0 := by decide
theorem fin4_below : ∀ m : Fin 4, m ≠ 0 → (m - 1).val < 3 := by decide

/-! ## What ticks do -/

/-- `t` is `s` after timer `m` ticked `N m` times: the counters, the requests, perhaps the accumulators. -/
structure Ticked (s t : State) (N : Fin 4 → Nat) : Prop where
  rest : t = { s with timers := t.timers, if_ := t.if_ }
  timers : ∀ m, t.timer m = { s.timer m with
    counter := BitVec.ofNat 16 (countUp (s.timer m).reload.toNat (s.timer m).counter.toNat (N m)).1,
    accumulator := (t.timer m).accumulator }
  requests : ∀ k, t.if_.getLsbD k = (s.if_.getLsbD k
    || decide (∃ m : Fin 4, k = 3 + m.val ∧ (s.timer m).irqEnable = true ∧ 0 < overflowsOf s m (N m)))

/-- The ticks `N` are `F` and what cascades. -/
def Fed (s : State) (N F : Fin 4 → Nat) : Prop :=
  ∀ m, N m = F m + (if m ≠ 0 ∧ (s.timer m).enabled = true ∧ (s.timer m).cascade = true then overflowsOf s (m - 1) (N (m - 1)) else 0)

/-- `k` ticks of timer `n` alone. -/
def single (n : Fin 4) (k : Nat) : Fin 4 → Nat := fun m => if m = n then k else 0

theorem Ticked.reload {s t : State} {N : Fin 4 → Nat} (h : Ticked s t N) (m : Fin 4) : (t.timer m).reload = (s.timer m).reload := by
  rw [h.timers m]
theorem Ticked.ctrl {s t : State} {N : Fin 4 → Nat} (h : Ticked s t N) (m : Fin 4) : (t.timer m).ctrl = (s.timer m).ctrl := by
  rw [h.timers m]
theorem Ticked.counter {s t : State} {N : Fin 4 → Nat} (h : Ticked s t N) (m : Fin 4) :
    (t.timer m).counter.toNat = (countUp (s.timer m).reload.toNat (s.timer m).counter.toNat (N m)).1 := by
  rw [h.timers m]
  simp only [BitVec.toNat_ofNat]
  exact Nat.mod_eq_of_lt (countUp_lt _ _ _ (s.timer m).reload.isLt)

/-- The overflows of two counts in a row. -/
theorem Ticked.overflows {s t : State} {N : Fin 4 → Nat} (h : Ticked s t N) (m : Fin 4) (k : Nat) :
    overflowsOf s m (N m + k) = overflowsOf s m (N m) + overflowsOf t m k := by
  unfold overflowsOf
  rw [countUp_add _ _ _ _ (s.timer m).reload.isLt, h.reload, h.counter]

theorem overflowsOf_zero (s : State) (m : Fin 4) : overflowsOf s m 0 = 0 := by
  unfold overflowsOf; rw [countUp_zero _ _ (s.timer m).counter.isLt]

theorem Ticked.refl (s : State) : Ticked s s fun _ => 0 := by
  refine ⟨rfl, fun m => ?_, fun k => ?_⟩
  · rw [countUp_zero _ _ (s.timer m).counter.isLt]; simp
  · simp [overflowsOf_zero]

theorem Ticked.trans {s t u : State} {N M : Fin 4 → Nat} (h : Ticked s t N) (g : Ticked t u M) :
    Ticked s u fun m => N m + M m := by
  refine ⟨?_, fun m => ?_, fun k => ?_⟩
  · have hg := g.rest
    rw [h.rest] at hg
    exact hg
  · rw [g.timers m, countUp_add _ _ _ _ (s.timer m).reload.isLt, h.reload, h.counter]
    rw [h.timers m]
  · rw [g.requests, h.requests, Bool.or_assoc]
    congr 1
    rw [Bool.eq_iff_iff]
    simp only [Bool.or_eq_true, decide_eq_true_eq]
    have he : ∀ m, (t.timer m).irqEnable = (s.timer m).irqEnable := fun m => by unfold Timer.irqEnable; rw [h.ctrl]
    constructor
    · rintro (⟨m, h1, h2, h3⟩ | ⟨m, h1, h2, h3⟩)
      · exact ⟨m, h1, h2, by rw [h.overflows]; omega⟩
      · exact ⟨m, h1, by rw [← he]; exact h2, by rw [h.overflows]; omega⟩
    · rintro ⟨m, h1, h2, h3⟩
      rw [h.overflows] at h3
      by_cases h0 : 0 < overflowsOf s m (N m)
      · exact .inl ⟨m, h1, h2, h0⟩
      · exact .inr ⟨m, h1, by rw [he]; exact h2, by omega⟩

theorem Fed.trans {s t : State} {N M F G : Fin 4 → Nat} (hT : Ticked s t N) (h : Fed s N F) (g : Fed t M G) :
    Fed s (fun m => N m + M m) fun m => F m + G m := by
  intro m
  have h1 := h m
  have g1 := g m
  have he : (t.timer m).enabled = (s.timer m).enabled := by unfold Timer.enabled; rw [hT.ctrl]
  have hc : (t.timer m).cascade = (s.timer m).cascade := by unfold Timer.cascade; rw [hT.ctrl]
  rw [he, hc] at g1
  simp only
  rw [hT.overflows]
  split at h1 <;> rename_i hh
  · rw [if_pos hh] at g1 ⊢; omega
  · rw [if_neg hh] at g1 ⊢; omega

theorem Fed.zero (s : State) : Fed s (fun _ => 0) fun _ => 0 := by
  intro m; simp [overflowsOf_zero]

theorem timer_setTimer (s : State) (n m : Fin 4) (t : Timer) : (s.setTimer n t).timer m = if m = n then t else s.timer m := by
  simp only [State.timer, State.setTimer]
  by_cases e : m = n
  · subst e; simp
  · have : (n : Nat) ≠ m := fun h => e (Fin.ext h.symm)
    simp [e, this]

theorem shift_bit (i k : Nat) (hi : i < 16) : (1#16 <<< i).getLsbD k = decide (k = i) := by
  rw [BitVec.getLsbD_shiftLeft, show ((1#16).getLsbD (k - i)) = decide (k - i = 0) by
    rw [show (1#16) = BitVec.ofNat 16 1 from rfl, BitVec.getLsbD_ofNat]; cases h : k - i <;> simp [Nat.testBit_succ]]
  by_cases h : k = i
  · simp [h, hi]
  · simp [h]; omega

/-- A tick that does not overflow. -/
theorem ticked_plain (s : State) (n : Fin 4) (h : (s.timer n).counter.toNat + 1 < 2^16) :
    Ticked s (s.setTimer n { s.timer n with counter := (s.timer n).counter + 1 }) (single n 1) ∧ overflowsOf s n 1 = 0 := by
  have hc : countUp (s.timer n).reload.toNat (s.timer n).counter.toNat 1 = ((s.timer n).counter.toNat + 1, 0) := by
    unfold countUp; rw [if_pos h]
  have ho : overflowsOf s n 1 = 0 := by unfold overflowsOf; rw [hc]
  refine ⟨⟨rfl, fun m => ?_, fun k => ?_⟩, ho⟩
  · rw [timer_setTimer]
    unfold single
    by_cases e : m = n
    · subst e
      rw [if_pos rfl, if_pos rfl, hc]
      simp [BitVec.ofNat_add]
    · rw [if_neg e, if_neg e, countUp_zero _ _ (s.timer m).counter.isLt]; simp
  · have : ∀ m, overflowsOf s m (single n 1 m) = 0 := by
      intro m; unfold single; split
      · subst m; exact ho
      · exact overflowsOf_zero s m
    simp only [this]
    simp [State.setTimer]

/-- A tick that overflows. -/
theorem ticked_wrap (s : State) (n : Fin 4) (h : (s.timer n).counter.toNat + 1 = 2^16) :
    Ticked s (if (s.timer n).irqEnable then (s.setTimer n { s.timer n with counter := (s.timer n).reload }).raiseIrq (3 + n.val)
      else s.setTimer n { s.timer n with counter := (s.timer n).reload }) (single n 1) ∧ overflowsOf s n 1 = 1 := by
  have hr := (s.timer n).reload.isLt
  have hc : countUp (s.timer n).reload.toNat (s.timer n).counter.toNat 1 = ((s.timer n).reload.toNat, 1) := by
    unfold countUp; rw [if_neg (by omega), h, Nat.sub_self, Nat.zero_mod, Nat.zero_div]; rfl
  have ho : overflowsOf s n 1 = 1 := by unfold overflowsOf; rw [hc]
  have hov : ∀ m, overflowsOf s m (single n 1 m) = if m = n then 1 else 0 := by
    intro m; unfold single; split
    · subst m; exact ho
    · exact overflowsOf_zero s m
  refine ⟨⟨?_, fun m => ?_, fun k => ?_⟩, ho⟩
  · split <;> rfl
  · have : ∀ b : Bool, State.timer (if b = true then (s.setTimer n { s.timer n with counter := (s.timer n).reload }).raiseIrq (3 + n.val)
      else s.setTimer n { s.timer n with counter := (s.timer n).reload }) m = (s.setTimer n { s.timer n with counter := (s.timer n).reload }).timer m := by
      intro b; cases b <;> rfl
    rw [this, timer_setTimer]
    unfold single
    by_cases e : m = n
    · subst e
      rw [if_pos rfl, if_pos rfl, hc]
      simp
    · rw [if_neg e, if_neg e, countUp_zero _ _ (s.timer m).counter.isLt]; simp
  · have hn := n.isLt
    cases hi : (s.timer n).irqEnable
    · simp only [Bool.false_eq_true, if_false]
      show s.if_.getLsbD k = _
      have : ¬ ∃ m : Fin 4, k = 3 + m.val ∧ (s.timer m).irqEnable = true ∧ 0 < overflowsOf s m (single n 1 m) := by
        rintro ⟨m, _, h2, h3⟩
        rw [hov] at h3
        split at h3
        · subst m; rw [hi] at h2; cases h2
        · omega
      simp [this]
    · simp only [if_true]
      show (s.if_ ||| (1#16 <<< (3 + n.val))).getLsbD k = _
      rw [BitVec.getLsbD_or, shift_bit _ _ (by omega)]
      congr 1
      rw [decide_eq_decide]
      constructor
      · rintro rfl; exact ⟨n, rfl, hi, by rw [hov]; simp⟩
      · rintro ⟨m, h1, _, h3⟩
        rw [hov] at h3
        split at h3
        · subst m; exact h1
        · omega

theorem fed_single (s : State) (n : Fin 4) (h : n.val < 3 → (s.timer (n + 1)).enabled = true → (s.timer (n + 1)).cascade = true → overflowsOf s n 1 = 0) :
    Fed s (single n 1) (single n 1) := by
  intro m
  have : (if m ≠ 0 ∧ (s.timer m).enabled = true ∧ (s.timer m).cascade = true then overflowsOf s (m - 1) (single n 1 (m - 1)) else 0) = 0 := by
    split
    · rename_i hm
      unfold single
      split
      · rename_i e
        have e' : m = n + 1 := by rw [← e]; exact (fin4_pred_succ m hm.1).symm
        rw [e]
        have hn : n.val < 3 := e ▸ fin4_below m hm.1
        exact h hn (e' ▸ hm.2.1) (e' ▸ hm.2.2)
      · exact overflowsOf_zero s _
    · rfl
  omega

/-- One tick with its overflows and cascades. -/
theorem tick_ticked (fuel : Nat) (n : Fin 4) (s : State) (hf : 4 ≤ fuel + n.val) :
    ∃ N, Ticked s (tick fuel n s) N ∧ Fed s N (single n 1) := by
  induction fuel generalizing n s with
  | zero => have := n.isLt; omega
  | succ fuel ih =>
    unfold tick
    simp only
    have hlt := (s.timer n).counter.isLt
    by_cases hw : (s.timer n).counter + 1 = 0#16
    · have hw' : (s.timer n).counter.toNat + 1 = 2^16 := by
        have := congrArg BitVec.toNat hw
        rw [BitVec.toNat_add] at this
        simp at this
        omega
      rw [if_pos hw]
      obtain ⟨t1, o1⟩ := ticked_wrap s n hw'
      generalize (if (s.timer n).irqEnable then (s.setTimer n { s.timer n with counter := (s.timer n).reload }).raiseIrq (3 + n.val)
        else s.setTimer n { s.timer n with counter := (s.timer n).reload }) = s2 at t1 ⊢
      have he : ∀ m, (s2.timer m).enabled = (s.timer m).enabled := fun m => by unfold Timer.enabled; rw [t1.ctrl]
      have hc : ∀ m, (s2.timer m).cascade = (s.timer m).cascade := fun m => by unfold Timer.cascade; rw [t1.ctrl]
      by_cases hcas : n.val < 3 ∧ (s2.timer (n + 1)).enabled = true ∧ (s2.timer (n + 1)).cascade = true
      · rw [if_pos hcas]
        obtain ⟨h3, h4, h5⟩ := hcas
        have hv := (fin4_succ_val n h3).1
        obtain ⟨N, a1, a2⟩ := ih (n + 1) s2 (by rw [hv]; omega)
        refine ⟨_, t1.trans a1, fun m => ?_⟩
        have b := a2 m
        rw [t1.overflows]
        rw [he, hc] at b
        have hso : ∀ m : Fin 4, m ≠ 0 → overflowsOf s (m - 1) (single n 1 (m - 1)) = if m = n + 1 then 1 else 0 := by
          intro m hm
          unfold single
          by_cases e : m - 1 = n
          · rw [if_pos e, e, o1, if_pos (by rw [← e]; exact (fin4_pred_succ m hm).symm)]
          · rw [if_neg e, overflowsOf_zero, if_neg (by intro e'; apply e; rw [e']; exact fin4_succ_pred n)]
        have hsn : single (n + 1) 1 m = if m = n + 1 then 1 else 0 := rfl
        rw [hsn] at b
        by_cases hC : m ≠ 0 ∧ (s.timer m).enabled = true ∧ (s.timer m).cascade = true
        · rw [if_pos hC, hso m hC.1]; rw [if_pos hC] at b; omega
        · rw [if_neg hC]; rw [if_neg hC] at b
          have : m ≠ n + 1 := by
            rintro rfl
            exact hC ⟨(fin4_succ_val n h3).2, by rw [← he]; exact h4, by rw [← hc]; exact h5⟩
          rw [if_neg this] at b; omega
      · rw [if_neg hcas]
        refine ⟨_, t1, fed_single s n fun h3 h4 h5 => absurd ⟨h3, by rw [he]; exact h4, by rw [hc]; exact h5⟩ hcas⟩
    · rw [if_neg hw]
      have hw' : (s.timer n).counter.toNat + 1 < 2^16 := by
        rcases Nat.lt_or_ge ((s.timer n).counter.toNat + 1) (2^16) with h | h
        · exact h
        · exfalso; apply hw
          apply BitVec.eq_of_toNat_eq
          rw [BitVec.toNat_add]
          have : (s.timer n).counter.toNat = 65535 := by omega
          rw [this]; rfl
      obtain ⟨t1, o1⟩ := ticked_plain s n hw'
      exact ⟨_, t1, fed_single s n fun _ _ _ => o1⟩

theorem Ticked.accumulator_refl (s : State) (n : Fin 4) (a : Nat) : Ticked s (s.setTimer n { s.timer n with accumulator := a }) fun _ => 0 := by
  refine ⟨rfl, fun m => ?_, fun k => ?_⟩
  · rw [countUp_zero _ _ (s.timer m).counter.isLt, timer_setTimer]
    split
    · subst m; simp
    · simp
  · simp [overflowsOf_zero, State.setTimer]


/-- `k` ticks of timer `n`. -/
theorem ticks_ticked (k : Nat) (n : Fin 4) (s : State) :
    ∃ N, Ticked s (ticks k n s) N ∧ Fed s N (single n k) := by
  induction k generalizing s with
  | zero => exact ⟨_, Ticked.refl s, by rw [show single n 0 = fun _ => 0 by funext m; unfold single; split <;> rfl]; exact Fed.zero s⟩
  | succ k ih =>
    obtain ⟨N, h1, h2⟩ := tick_ticked 4 n s (by omega)
    obtain ⟨M, g1, g2⟩ := ih (tick 4 n s)
    refine ⟨_, h1.trans g1, ?_⟩
    have := Fed.trans h1 h2 g2
    rwa [show (fun m => single n 1 m + single n k m) = single n (k + 1) by
      funext m; unfold single; split <;> omega] at this

theorem tick_accumulator (fuel : Nat) (n m : Fin 4) (s : State) :
    ((tick fuel n s).timer m).accumulator = (s.timer m).accumulator := by
  induction fuel generalizing n s with
  | zero => rfl
  | succ fuel ih =>
    have hset : ∀ t : Timer, t.accumulator = (s.timer n).accumulator →
        ((s.setTimer n t).timer m).accumulator = (s.timer m).accumulator := by
      intro t ht; rw [timer_setTimer]; split
      · subst m; exact ht
      · rfl
    have hraise : ∀ (b : Bool) (u : State) (k : Nat), State.timer (if b = true then u.raiseIrq k else u) m = u.timer m := by
      intro b u k; cases b <;> rfl
    unfold tick
    simp only
    by_cases hw : (s.timer n).counter + 1 = 0#16
    · rw [if_pos hw]
      generalize hu : (if (s.timer n).irqEnable then (s.setTimer n { s.timer n with counter := (s.timer n).reload }).raiseIrq (3 + n.val)
        else s.setTimer n { s.timer n with counter := (s.timer n).reload }) = u
      have hm : (u.timer m).accumulator = (s.timer m).accumulator := by rw [← hu, hraise]; exact hset _ rfl
      split
      · rw [ih, hm]
      · exact hm
    · rw [if_neg hw]; exact hset _ rfl

theorem ticks_accumulator (k : Nat) (n m : Fin 4) (s : State) :
    ((ticks k n s).timer m).accumulator = (s.timer m).accumulator := by
  induction k generalizing s with
  | zero => rfl
  | succ k ih => exact (ih _).trans (tick_accumulator 4 n m s)

/-- The ticks of timer `m` that its prescaler gives it in `c` cycles. -/
def ownTicks (s : State) (c : Nat) (m : Fin 4) : Nat :=
  if (s.timer m).enabled = true ∧ (s.timer m).cascade = false then ((s.timer m).accumulator + c) / (s.timer m).prescaler else 0

/-- Its accumulator after them. -/
def ownRest (s : State) (c : Nat) (m : Fin 4) : Nat :=
  if (s.timer m).enabled = true ∧ (s.timer m).cascade = false then ((s.timer m).accumulator + c) % (s.timer m).prescaler
  else (s.timer m).accumulator

/-- `t` is `s` after the turns of the timers `p`. -/
def Turned (s t : State) (c : Nat) (p : Fin 4 → Bool) : Prop :=
  ∃ N, Ticked s t N ∧ Fed s N (fun m => if p m then ownTicks s c m else 0)
    ∧ ∀ m, (t.timer m).accumulator = if p m then ownRest s c m else (s.timer m).accumulator

theorem Turned.turn {s t : State} {c : Nat} {p : Fin 4 → Bool} (h : Turned s t c p) (n : Fin 4) (hn : p n = false) :
    Turned s (timerTurn c t n) c fun m => p m || decide (m = n) := by
  obtain ⟨N, h1, h2, h3⟩ := h
  have ha : (t.timer n).accumulator = (s.timer n).accumulator := by rw [h3 n, hn]; rfl
  have he : (t.timer n).enabled = (s.timer n).enabled := by unfold Timer.enabled; rw [h1.ctrl]
  have hc : (t.timer n).cascade = (s.timer n).cascade := by unfold Timer.cascade; rw [h1.ctrl]
  have hp : (t.timer n).prescaler = (s.timer n).prescaler := by unfold Timer.prescaler; rw [h1.ctrl]
  unfold timerTurn
  simp only [he, hc, hp, ha]
  by_cases ho : (s.timer n).enabled = true ∧ (s.timer n).cascade = false
  · rw [if_pos ho]
    obtain ⟨M, g1, g2⟩ := ticks_ticked (((s.timer n).accumulator + c) / (s.timer n).prescaler) n
      (t.setTimer n { t.timer n with accumulator := ((s.timer n).accumulator + c) % (s.timer n).prescaler })
    have k1 := Ticked.accumulator_refl t n (((s.timer n).accumulator + c) % (s.timer n).prescaler)
    have k2 := k1.trans g1
    have k3 := Fed.trans k1 (Fed.zero t) g2
    refine ⟨_, h1.trans k2, ?_, fun m => ?_⟩
    · have := Fed.trans h1 h2 k3
      simp only [Nat.zero_add] at this ⊢
      rwa [show (fun m => (if p m = true then ownTicks s c m else 0) + single n (((s.timer n).accumulator + c) / (s.timer n).prescaler) m)
          = (fun m => if (p m || decide (m = n)) = true then ownTicks s c m else 0) by
        funext m; unfold single
        by_cases e : m = n
        · subst e; simp [hn, ownTicks, ho]
        · simp [e]] at this
    · rw [ticks_accumulator, timer_setTimer]
      by_cases e : m = n
      · subst e; simp [ownRest, ho]
      · simp [e, h3 m]
  · rw [if_neg ho]
    refine ⟨N, h1, ?_, fun m => ?_⟩
    · rwa [show (fun m => if (p m || decide (m = n)) = true then ownTicks s c m else 0) = (fun m => if p m = true then ownTicks s c m else 0) by
        funext m
        by_cases e : m = n
        · subst e; simp [hn, ownTicks, ho]
        · simp [e]]
    · rw [h3 m]
      by_cases e : m = n
      · subst e; simp [hn, ownRest, ho]
      · simp [e]

/-- What `c` cycles do to the timers: each ticks as `TicksIn` says. -/
theorem timersUpdate_ticked (s : State) (c : Nat) :
    ∃ N, Ticked s (timersUpdate s c) N ∧ TicksIn s c N ∧ ∀ m, ((timersUpdate s c).timer m).accumulator = ownRest s c m := by
  have h0 : Turned s s c fun _ => false := ⟨_, Ticked.refl s, Fed.zero s, fun m => rfl⟩
  obtain ⟨N, h1, h2, h3⟩ := (((h0.turn 0 rfl).turn 1 rfl).turn 2 rfl).turn 3 rfl
  have hall : ∀ m : Fin 4, ((((false || decide (m = 0)) || decide (m = 1)) || decide (m = 2)) || decide (m = 3)) = true := by decide
  refine ⟨N, h1, fun m => ?_, fun m => ?_⟩
  · have := h2 m
    simp only [hall, if_true] at this
    rw [this]
    unfold ownTicks
    cases (s.timer m).enabled <;> cases (s.timer m).cascade <;> simp
  · have := h3 m
    simp only [hall, if_true] at this
    exact this

theorem TicksIn.unique {s : State} {c : Nat} {N M : Fin 4 → Nat} (h : TicksIn s c N) (g : TicksIn s c M) : N = M := by
  have e0 : N 0 = M 0 := by rw [h 0, g 0]; simp
  have e1 : N 1 = M 1 := by rw [h 1, g 1]; simp only [show (1 : Fin 4) - 1 = 0 from rfl, e0]
  have e2 : N 2 = M 2 := by rw [h 2, g 2]; simp only [show (2 : Fin 4) - 1 = 1 from rfl, e1]
  have e3 : N 3 = M 3 := by rw [h 3, g 3]; simp only [show (3 : Fin 4) - 1 = 2 from rfl, e2]
  funext m
  match m with
  | 0 => exact e0
  | 1 => exact e1
  | 2 => exact e2
  | 3 => exact e3

/-- Time changes nothing but the timers and their requests. -/
theorem timersUpdate_rest (s : State) (c : Nat) :
    timersUpdate s c = { s with timers := (timersUpdate s c).timers, if_ := (timersUpdate s c).if_ } := by
  obtain ⟨N, h, _⟩ := timersUpdate_ticked s c
  exact h.rest

end Sys2Proof.Machine
end

