-- ==== Sys2Proof/Laws/User.lean ====
section
/-! SUPPORT. Laws/User.lean: no instruction leaves User mode but an undefined encoding where UNDEF_POLICY takes the exception
and the SoftReset call (R661, R662): the proof of Laws/Exec.lean again, for this one property. -/

namespace Sys2Proof.Machine

/-- A state in User mode leads to one in User mode. -/
def KeepsUser (s t : State) : Prop := s.cpsr.extractLsb' 0 5 = 0x10#5 → t.cpsr.extractLsb' 0 5 = 0x10#5

theorem KeepsUser.refl (s : State) : KeepsUser s s := id
theorem KeepsUser.trans {s t u : State} (h : KeepsUser s t) (g : KeepsUser t u) : KeepsUser s u := fun x => g (h x)
theorem KeepsUser.of_low5 {s t : State} (h : t.cpsr.extractLsb' 0 5 = s.cpsr.extractLsb' 0 5) : KeepsUser s t := fun x => h.trans x
theorem BusEffect.keepsUser {s t : State} (h : BusEffect s t) : KeepsUser s t := KeepsUser.of_low5 (by rw [h.cpsr])
theorem KeepsUser.ite {p : Prop} [Decidable p] {s a b : State} (ha : p → KeepsUser s a) (hb : ¬p → KeepsUser s b) :
    KeepsUser s (if p then a else b) := by
  by_cases h : p
  · rw [if_pos h]; exact ha h
  · rw [if_neg h]; exact hb h
theorem KeepsUser.setRegIn (s : State) (m : Mode) (n : Reg) (v : Word) : KeepsUser s (s.setRegIn m n v) :=
  KeepsUser.of_low5 (by rw [State.setRegIn_cpsr])
theorem KeepsUser.setReg (s : State) (n : Reg) (v : Word) : KeepsUser s (s.setReg n v) := KeepsUser.setRegIn s s.mode n v
theorem KeepsUser.writeBack (s : State) (wb : Bool) (n : Reg) (v : Word) : KeepsUser s (writeBack s wb n v) :=
  KeepsUser.ite (fun _ => KeepsUser.setReg s n v) fun _ => KeepsUser.refl s
theorem KeepsUser.setFlags (s : State) (f : Nzcv) : KeepsUser s (s.setFlags f) := KeepsUser.of_low5 (by simp)
theorem KeepsUser.setFlagsIf (s : State) (b : Bool) (f : Nzcv) : KeepsUser s (s.setFlagsIf b f) :=
  KeepsUser.ite (fun _ => KeepsUser.setFlags s f) fun _ => KeepsUser.refl s
theorem KeepsUser.setSpsrOf (s : State) (m : Mode) (v : Word) : KeepsUser s (s.setSpsrOf m v) := by
  cases m <;> exact KeepsUser.of_low5 rfl
theorem KeepsUser.halt (s : State) (b : Bool) : KeepsUser s { s with halted := b } := KeepsUser.of_low5 rfl
theorem KeepsUser.advance (s : State) : KeepsUser s s.advance := KeepsUser.of_low5 rfl
theorem KeepsUser.branchTo (s : State) (v : Word) : KeepsUser s (s.branchTo v) := KeepsUser.of_low5 rfl
theorem KeepsUser.branchExchange (s : State) (v : Word) : KeepsUser s (s.branchExchange v) :=
  KeepsUser.of_low5 (setBit_low5 s.cpsr 5 (v.getLsbD 0) (by omega) (by omega))
/-- The mode of a state in User mode. -/
theorem mode_usr {s : State} (h : s.cpsr.extractLsb' 0 5 = 0x10#5) : s.mode = .usr := by
  unfold State.mode; rw [h]; rfl
theorem KeepsUser.restoreCpsr (s : State) : KeepsUser s s.restoreCpsr := fun x => by
  unfold State.restoreCpsr; rw [mode_usr x]; exact x
theorem KeepsUser.loadRegs (m : State) (bank : Mode) (ts : List (Reg × Word)) (s : State) :
    KeepsUser s (loadRegs m bank ts s) := by
  unfold Machine.loadRegs
  induction ts generalizing s with
  | nil => exact KeepsUser.refl s
  | cons t ts ih => exact (KeepsUser.setRegIn s bank t.1 _).trans (ih _)
theorem KeepsUser.of_jump {s s' t : State} {v : Word} (h : KeepsUser s s') (hj : jump s s' v = .next t) :
    KeepsUser s t := by
  unfold jump at hj
  split at hj
  · injection hj with e; subst e; exact KeepsUser.advance s
  · injection hj with e; subst e; exact h.trans (KeepsUser.branchTo s' v)
theorem KeepsUser.of_jumpExchange {s s' t : State} {v : Word} (h : KeepsUser s s') (hj : jumpExchange s s' v = .next t) :
    KeepsUser s t := by
  unfold jumpExchange at hj
  split at hj
  · injection hj with e; subst e; exact KeepsUser.advance s
  · injection hj with e; subst e; exact h.trans (KeepsUser.branchExchange s' v)
theorem KeepsUser.of_finishWrite {s s' t : State} {rd : Reg} {v : Word} (h : KeepsUser s s')
    (hj : finishWrite s s' rd v = .next t) : KeepsUser s t := by
  unfold finishWrite at hj
  split at hj
  · exact KeepsUser.of_jump h hj
  · injection hj with e; subst e; exact (h.trans (KeepsUser.setReg s' rd v)).trans (KeepsUser.advance _)
theorem KeepsUser.of_advance {s s' t : State} (h : KeepsUser s s') (hj : (.next s'.advance : Result) = .next t) :
    KeepsUser s t := by
  injection hj with e; subst e; exact h.trans (KeepsUser.advance s')
theorem KeepsUser.of_conditionally {c : Cond} {s t : State} {f : State → Result}
    (hf : f s = .next t → KeepsUser s t) (h : conditionally c s f = .next t) : KeepsUser s t := by
  rcases conditionally_cases h with ⟨_, rfl⟩ | ⟨_, h⟩
  · exact KeepsUser.advance s
  · exact hf h
theorem KeepsUser.of_undefinedInstr {i : Instr} {s t : State} (hu : ¬ (s.params.undefPolicy = .undException ∧ t.cpsr.extractLsb' 0 5 = 0x1B#5))
    (h : undefinedInstr i s = .next t) : KeepsUser s t := by
  unfold undefinedInstr at h
  split at h
  · cases h
  · exact KeepsUser.of_advance (KeepsUser.refl s) h
  · injection h with e; subst e; exact absurd ⟨‹_›, takeException_low5 s.cpsr .und⟩ hu

/-! ## The shared operations of the families -/

theorem finishAlu_user {s t : State} {b : Bool} {rd : Reg} {r : Word} {f : Nzcv}
    (h : finishAlu s b rd r f = .next t) : KeepsUser s t := by
  unfold finishAlu at h
  split at h
  · exact KeepsUser.of_jump (KeepsUser.ite (fun _ => KeepsUser.restoreCpsr s) fun _ => KeepsUser.refl s) h
  · exact KeepsUser.of_advance ((KeepsUser.setReg s rd r).trans (KeepsUser.setFlagsIf _ b f)) h

theorem finishCompare_user {s t : State} {f : Nzcv} (h : finishCompare s f = .next t) : KeepsUser s t :=
  KeepsUser.of_advance (KeepsUser.setFlags s f) h

theorem finishMul_user {s t : State} {b : Bool} {rd : Reg} {r : Word} (h : finishMul s b rd r = .next t) :
    KeepsUser s t :=
  KeepsUser.of_finishWrite (KeepsUser.setFlagsIf s b _) h

theorem finishLong_user {s t : State} {b : Bool} {hi lo : Reg} {p : BitVec 64}
    (h : finishLong s b hi lo p = .next t) : KeepsUser s t := by
  have hf := KeepsUser.setFlagsIf s b (longFlags s p)
  unfold finishLong at h
  simp only at h
  split at h
  · split at h
    · exact KeepsUser.of_advance (KeepsUser.refl s) h
    · split at h
      · exact KeepsUser.of_jump hf h
      · injection h with e; subst e
        exact (hf.trans (KeepsUser.branchTo _ _)).trans (KeepsUser.setReg _ _ _)
  · exact KeepsUser.of_finishWrite (hf.trans (KeepsUser.setReg _ _ _)) h

theorem writePsr_user (s : State) (pd : Bool) (fields : BitVec 4) (v : Word) : KeepsUser s (writePsr s pd fields v) := by
  unfold writePsr
  refine KeepsUser.ite (fun _ => ?_) fun _ => ?_
  · split
    · exact (KeepsUser.setSpsrOf s _ _).trans (KeepsUser.advance _)
    · exact KeepsUser.advance s
  · have h : KeepsUser s (s.setCpsr (mergeBits s.cpsr v (cpsrMask s fields))) := fun x => by
      have hm : (mergeBits s.cpsr v (cpsrMask s fields)).extractLsb' 0 5 = 0x10#5 := by
        rw [← x]
        refine extractLsb'_congr fun k _ hk => ?_
        rw [mergeBits_bit _ _ _ _ (by omega), cpsrMask, if_pos (mode_usr x)]
        have : (0xFF000000#32).getLsbD k = false := by
          have : k = 0 ∨ k = 1 ∨ k = 2 ∨ k = 3 ∨ k = 4 := by omega
          rcases this with rfl | rfl | rfl | rfl | rfl <;> rfl
        rw [BitVec.getLsbD_and, this, Bool.and_false]; rfl
      unfold State.setCpsr
      rw [hm]
      exact hm
    unfold advanceRebased
    by_cases ht : (s.setCpsr (mergeBits s.cpsr v (cpsrMask s fields))).thumb = s.thumb
    · rw [if_pos ht]; exact h.trans (KeepsUser.advance _)
    · rw [if_neg ht]; exact h.trans (KeepsUser.of_low5 rfl)

theorem execLoad_user {i : Instr} {s t : State} {p u w : Bool} {rn rd : Reg} {off : Word} {read : Word → Word}
    (h : execLoad i s p u w rn rd off read = .next t) : KeepsUser s t := by
  unfold execLoad at h
  split at h
  · cases h
  · exact KeepsUser.of_finishWrite (KeepsUser.writeBack s _ rn _) h

theorem execStore_user {i : Instr} {s t : State} {p u w : Bool} {rn : Reg} {off : Word} {write : Word → State}
    (hw : ∀ a, BusEffect s (write a)) (h : execStore i s p u w rn off write = .next t) : KeepsUser s t := by
  unfold execStore at h
  split at h
  · cases h
  · exact KeepsUser.of_advance ((hw _).keepsUser.trans (KeepsUser.writeBack _ _ rn _)) h

theorem execLdmWith_user {i : Instr} {s t : State} {bank : Mode} {r p u w : Bool} {rn : Reg} {list : BitVec 16}
    (h : execLdmWith i s bank r p u w rn list = .next t) : KeepsUser s t := by
  unfold execLdmWith at h
  simp only at h
  split at h
  · cases h
  · have h1 : ∀ ts, KeepsUser s (loadRegs s bank ts (writeBack s w rn (blockFinal (s.reg rn) u (listRegs list)))) :=
      fun ts => (KeepsUser.writeBack s w rn _).trans (KeepsUser.loadRegs s bank ts _)
    split at h
    · exact KeepsUser.of_jump
        (KeepsUser.ite (fun _ => (h1 _).trans (KeepsUser.restoreCpsr _)) fun _ => h1 _) h
    · exact KeepsUser.of_advance (h1 _) h

theorem execStmWith_user {i : Instr} {s t : State} {bank : Mode} {p u w : Bool} {rn : Reg} {list : BitVec 16}
    (h : execStmWith i s bank p u w rn list = .next t) : KeepsUser s t := by
  unfold execStmWith at h
  simp only at h
  split at h
  · cases h
  · exact KeepsUser.of_advance ((storeRegs_effect _ _ s).keepsUser.trans (KeepsUser.writeBack _ w rn _)) h

theorem finishThumb_user {s t : State} {rd : LowReg} {r : Word} {f : Nzcv} (h : finishThumb s rd r f = .next t) :
    KeepsUser s t :=
  KeepsUser.of_advance ((KeepsUser.setReg s _ r).trans (KeepsUser.setFlags _ f)) h

theorem finishThumbFlags_user {s t : State} {f : Nzcv} (h : finishThumbFlags s f = .next t) : KeepsUser s t :=
  KeepsUser.of_advance (KeepsUser.setFlags s f) h

theorem finishThumbPlain_user {s t : State} {rd : Reg} {r : Word} (h : finishThumbPlain s rd r = .next t) :
    KeepsUser s t :=
  KeepsUser.of_advance (KeepsUser.setReg s rd r) h

theorem finishThumbLoad_user {s t : State} {rd : LowReg} {v : Word} (h : finishThumbLoad s rd v = .next t) :
    KeepsUser s t :=
  KeepsUser.of_advance (KeepsUser.setReg s _ v) h

theorem store_advance_user {s u t : State} (hb : BusEffect s u) (h : (.next u.advance : Result) = .next t) :
    KeepsUser s t :=
  KeepsUser.of_advance hb.keepsUser h

theorem thumbCondBranch_user {c : Cond} {o : BitVec 8} {s t : State} (h : thumbCondBranch c o s = .next t) :
    KeepsUser s t :=
  KeepsUser.of_conditionally (KeepsUser.of_jump (KeepsUser.refl s)) h

/-! ## The BIOS calls -/

theorem biosHalt_user (s : State) : KeepsUser s (biosHalt s) := KeepsUser.halt s true

theorem biosIntrWait_user (s : State) : KeepsUser s (biosIntrWait s) :=
  KeepsUser.of_low5 rfl

theorem biosDiv_user {s t : State} (h : biosDiv s = .next t) : KeepsUser s t := by
  unfold biosDiv at h
  simp only at h
  split at h
  · cases h
  · injection h with e; subst e
    exact ((KeepsUser.setReg _ _ _).trans (KeepsUser.setReg _ _ _)).trans (KeepsUser.setReg _ _ _)

theorem finishUnpack_user (s : State) (d : Unpack) (size : Nat) (halves : Bool) :
    KeepsUser s (finishUnpack s d size halves) := by
  have h1 : ∀ u : State, BusEffect u
      (if halves then writeHalves d.out.reverse u (s.reg 1) else writeBytes d.out.reverse u (s.reg 1)) :=
    fun u => BusEffect.ite (fun _ => writeHalves_effect _ u _) fun _ => writeBytes_effect _ u _
  exact (((BusEffect.free s d.free).trans (h1 _)).keepsUser.trans (KeepsUser.setReg _ _ _)).trans (KeepsUser.setReg _ _ _)

theorem biosCall_user {n : Nat} {s t : State} (hn : n ≠ 0) (h : biosCall n s = .next t) : KeepsUser s t := by
  unfold biosCall at h
  split at h
  · exact absurd rfl hn
  · exact KeepsUser.of_advance (biosHalt_user s) h
  · exact KeepsUser.of_advance (biosHalt_user s) h
  · exact KeepsUser.of_advance (biosIntrWait_user s) h
  · exact KeepsUser.of_advance (biosIntrWait_user s) h
  · split at h
    · exact KeepsUser.of_advance (biosDiv_user ‹_›) h
    · cases h
    · cases h
  · exact KeepsUser.of_advance (KeepsUser.setReg s 0 _) h
  · exact KeepsUser.of_advance (copyUnits_effect _ _ _ s _ _).keepsUser h
  · exact KeepsUser.of_advance (copyUnits_effect _ _ _ s _ _).keepsUser h
  · exact KeepsUser.of_advance (KeepsUser.setReg s 0 _) h
  all_goals first
    | exact KeepsUser.of_advance (finishUnpack_user s _ _ _) h
    | exact KeepsUser.of_advance (KeepsUser.refl s) h

/-! ## Thumb block transfers -/

theorem execTPush_user {lr : Bool} {list : BitVec 8} {s t : State} (h : execTPush lr list s = .next t) :
    KeepsUser s t := by
  unfold execTPush at h
  simp only at h
  split at h
  · cases h
  · exact KeepsUser.of_advance ((storeRegs_effect _ _ s).keepsUser.trans (KeepsUser.setReg _ 13 _)) h

theorem execTPop_user {pc : Bool} {list : BitVec 8} {s t : State} (h : execTPop pc list s = .next t) :
    KeepsUser s t := by
  unfold execTPop at h
  simp only at h
  split at h
  · cases h
  · have h1 : ∀ ts v, KeepsUser s ((loadRegs s s.mode ts s).setReg 13 v) := fun ts v =>
      (KeepsUser.loadRegs s s.mode ts s).trans (KeepsUser.setReg _ 13 v)
    split at h
    · exact KeepsUser.of_jump (h1 _ _) h
    · exact KeepsUser.of_advance (h1 _ _) h

theorem execTStmia_user {rb : LowReg} {list : BitVec 8} {s t : State} (h : execTStmia rb list s = .next t) :
    KeepsUser s t := by
  unfold execTStmia at h
  simp only at h
  split at h
  · cases h
  · exact KeepsUser.of_advance ((storeRegs_effect _ _ s).keepsUser.trans (KeepsUser.setReg _ _ _)) h

theorem execTLdmia_user {rb : LowReg} {list : BitVec 8} {s t : State} (h : execTLdmia rb list s = .next t) :
    KeepsUser s t := by
  unfold execTLdmia at h
  simp only at h
  split at h
  · cases h
  · exact KeepsUser.of_advance ((KeepsUser.setReg s _ _).trans (KeepsUser.loadRegs s s.mode _ _)) h

/-! ## Every instruction -/

/-- An instruction that answers a next state keeps User mode. -/
theorem exec_user {i : Instr} {s t : State} (hu : ¬ (s.params.undefPolicy = .undException ∧ t.cpsr.extractLsb' 0 5 = 0x1B#5)) (hc : ¬ Calls i s 0)
    (h : exec i s = .next t) : KeepsUser s t := by
  cases i with
  | and c sb rn rd op2 => exact KeepsUser.of_conditionally finishAlu_user (show execAnd c sb rn rd op2 s = .next t from h)
  | eor c sb rn rd op2 => exact KeepsUser.of_conditionally finishAlu_user (show execEor c sb rn rd op2 s = .next t from h)
  | sub c sb rn rd op2 => exact KeepsUser.of_conditionally finishAlu_user (show execSub c sb rn rd op2 s = .next t from h)
  | rsb c sb rn rd op2 => exact KeepsUser.of_conditionally finishAlu_user (show execRsb c sb rn rd op2 s = .next t from h)
  | add c sb rn rd op2 => exact KeepsUser.of_conditionally finishAlu_user (show execAdd c sb rn rd op2 s = .next t from h)
  | adc c sb rn rd op2 => exact KeepsUser.of_conditionally finishAlu_user (show execAdc c sb rn rd op2 s = .next t from h)
  | sbc c sb rn rd op2 => exact KeepsUser.of_conditionally finishAlu_user (show execSbc c sb rn rd op2 s = .next t from h)
  | rsc c sb rn rd op2 => exact KeepsUser.of_conditionally finishAlu_user (show execRsc c sb rn rd op2 s = .next t from h)
  | orr c sb rn rd op2 => exact KeepsUser.of_conditionally finishAlu_user (show execOrr c sb rn rd op2 s = .next t from h)
  | mov c sb sbz rd op2 => exact KeepsUser.of_conditionally finishAlu_user (show execMov c sb sbz rd op2 s = .next t from h)
  | bic c sb rn rd op2 => exact KeepsUser.of_conditionally finishAlu_user (show execBic c sb rn rd op2 s = .next t from h)
  | mvn c sb sbz rd op2 => exact KeepsUser.of_conditionally finishAlu_user (show execMvn c sb sbz rd op2 s = .next t from h)
  | tst c rn sbz op2 => exact KeepsUser.of_conditionally finishCompare_user (show execTst c rn sbz op2 s = .next t from h)
  | teq c rn sbz op2 => exact KeepsUser.of_conditionally finishCompare_user (show execTeq c rn sbz op2 s = .next t from h)
  | cmp c rn sbz op2 => exact KeepsUser.of_conditionally finishCompare_user (show execCmp c rn sbz op2 s = .next t from h)
  | cmn c rn sbz op2 => exact KeepsUser.of_conditionally finishCompare_user (show execCmn c rn sbz op2 s = .next t from h)
  | mul c sb rd sbz rs rm => exact KeepsUser.of_conditionally finishMul_user (show execMul c sb rd sbz rs rm s = .next t from h)
  | mla c sb rd rn rs rm => exact KeepsUser.of_conditionally finishMul_user (show execMla c sb rd rn rs rm s = .next t from h)
  | umull c sb rdHi rdLo rs rm => exact KeepsUser.of_conditionally finishLong_user (show execUmull c sb rdHi rdLo rs rm s = .next t from h)
  | umlal c sb rdHi rdLo rs rm => exact KeepsUser.of_conditionally finishLong_user (show execUmlal c sb rdHi rdLo rs rm s = .next t from h)
  | smull c sb rdHi rdLo rs rm => exact KeepsUser.of_conditionally finishLong_user (show execSmull c sb rdHi rdLo rs rm s = .next t from h)
  | smlal c sb rdHi rdLo rs rm => exact KeepsUser.of_conditionally finishLong_user (show execSmlal c sb rdHi rdLo rs rm s = .next t from h)
  | armNever bits => exact KeepsUser.of_advance (KeepsUser.refl s) (show execArmNever bits s = .next t from h)
  | bx c rm => exact KeepsUser.of_conditionally (KeepsUser.of_jumpExchange (KeepsUser.refl s)) (show execBx c rm s = .next t from h)
  | b c offset24 => exact KeepsUser.of_conditionally (KeepsUser.of_jump (KeepsUser.refl s)) (show execB c offset24 s = .next t from h)
  | bl c offset24 => exact KeepsUser.of_conditionally (KeepsUser.of_jump (KeepsUser.setReg s 14 _)) (show execBl c offset24 s = .next t from h)
  | mrs c ps rd => exact KeepsUser.of_conditionally (KeepsUser.of_finishWrite (KeepsUser.refl s)) (show execMrs c ps rd s = .next t from h)
  | msrReg c pd fields rm => exact KeepsUser.of_conditionally (fun h => by injection h with e; subst e; exact writePsr_user s _ _ _) (show execMsrReg c pd fields rm s = .next t from h)
  | msrImm c pd fields rotate imm8 => exact KeepsUser.of_conditionally (fun h => by injection h with e; subst e; exact writePsr_user s _ _ _) (show execMsrImm c pd fields rotate imm8 s = .next t from h)
  | swp c rn rd rm => exact KeepsUser.of_conditionally (KeepsUser.of_finishWrite (write32_effect s _ _).keepsUser) (show execSwp c rn rd rm s = .next t from h)
  | swpb c rn rd rm => exact KeepsUser.of_conditionally (KeepsUser.of_finishWrite (write8_effect s _ _).keepsUser) (show execSwpb c rn rd rm s = .next t from h)
  | ldrhReg c p u w rn rd rm => exact KeepsUser.of_conditionally execLoad_user (show execLdrhReg c p u w rn rd rm s = .next t from h)
  | ldrhImm c p u w rn rd imm8 => exact KeepsUser.of_conditionally execLoad_user (show execLdrhImm c p u w rn rd imm8 s = .next t from h)
  | ldrsbReg c p u w rn rd rm => exact KeepsUser.of_conditionally execLoad_user (show execLdrsbReg c p u w rn rd rm s = .next t from h)
  | ldrsbImm c p u w rn rd imm8 => exact KeepsUser.of_conditionally execLoad_user (show execLdrsbImm c p u w rn rd imm8 s = .next t from h)
  | ldrshReg c p u w rn rd rm => exact KeepsUser.of_conditionally execLoad_user (show execLdrshReg c p u w rn rd rm s = .next t from h)
  | ldrshImm c p u w rn rd imm8 => exact KeepsUser.of_conditionally execLoad_user (show execLdrshImm c p u w rn rd imm8 s = .next t from h)
  | ldrt c u rn rd off => exact KeepsUser.of_conditionally execLoad_user (show execLdrt c u rn rd off s = .next t from h)
  | ldrbt c u rn rd off => exact KeepsUser.of_conditionally execLoad_user (show execLdrbt c u rn rd off s = .next t from h)
  | ldr c p u w rn rd off => exact KeepsUser.of_conditionally execLoad_user (show execLdr c p u w rn rd off s = .next t from h)
  | ldrb c p u w rn rd off => exact KeepsUser.of_conditionally execLoad_user (show execLdrb c p u w rn rd off s = .next t from h)
  | strhReg c p u w rn rd rm => exact KeepsUser.of_conditionally (execStore_user fun a => write16_effect s a _) (show execStrhReg c p u w rn rd rm s = .next t from h)
  | strhImm c p u w rn rd imm8 => exact KeepsUser.of_conditionally (execStore_user fun a => write16_effect s a _) (show execStrhImm c p u w rn rd imm8 s = .next t from h)
  | strt c u rn rd off => exact KeepsUser.of_conditionally (execStore_user fun a => write32_effect s a _) (show execStrt c u rn rd off s = .next t from h)
  | str c p u w rn rd off => exact KeepsUser.of_conditionally (execStore_user fun a => write32_effect s a _) (show execStr c p u w rn rd off s = .next t from h)
  | strbt c u rn rd off => exact KeepsUser.of_conditionally (execStore_user fun a => write8_effect s a _) (show execStrbt c u rn rd off s = .next t from h)
  | strb c p u w rn rd off => exact KeepsUser.of_conditionally (execStore_user fun a => write8_effect s a _) (show execStrb c p u w rn rd off s = .next t from h)
  | ldmRet c p u w rn list => exact KeepsUser.of_conditionally execLdmWith_user (show execLdmRet c p u w rn list s = .next t from h)
  | ldmUser c p u w rn list => exact KeepsUser.of_conditionally execLdmWith_user (show execLdmUser c p u w rn list s = .next t from h)
  | ldm c p u w rn list => exact KeepsUser.of_conditionally execLdmWith_user (show execLdm c p u w rn list s = .next t from h)
  | stmUser c p u w rn list => exact KeepsUser.of_conditionally execStmWith_user (show execStmUser c p u w rn list s = .next t from h)
  | stm c p u w rn list => exact KeepsUser.of_conditionally execStmWith_user (show execStm c p u w rn list s = .next t from h)
  | swi c comment =>
    rcases conditionally_cases (show execSwi c comment s = .next t from h) with ⟨_, rfl⟩ | ⟨hp, h⟩
    · exact KeepsUser.advance s
    · refine biosCall_user (fun h0 => hc (.inl ⟨c, comment, rfl, hp, ?_⟩)) h
      unfold swiNumber at h0
      have := comment.isLt
      cases hf : s.params.swiField <;> rw [hf] at h0 <;>
        simp only [BitVec.extractLsb'_toNat, Nat.shiftRight_eq_div_pow] at h0 ⊢ <;> omega
  | ldc c p u n w rn crd cp offset8 => exact KeepsUser.of_conditionally (KeepsUser.of_advance (KeepsUser.refl s)) (show execLdc c p u n w rn crd cp offset8 s = .next t from h)
  | stc c p u n w rn crd cp offset8 => exact KeepsUser.of_conditionally (KeepsUser.of_advance (KeepsUser.refl s)) (show execStc c p u n w rn crd cp offset8 s = .next t from h)
  | cdp c opc1 crn crd cp opc2 crm => exact KeepsUser.of_conditionally (KeepsUser.of_advance (KeepsUser.refl s)) (show execCdp c opc1 crn crd cp opc2 crm s = .next t from h)
  | mrc c opc1 crn rd cp opc2 crm => exact KeepsUser.of_conditionally (KeepsUser.of_advance (KeepsUser.refl s)) (show execMrc c opc1 crn rd cp opc2 crm s = .next t from h)
  | mcr c opc1 crn rd cp opc2 crm => exact KeepsUser.of_conditionally (KeepsUser.of_advance (KeepsUser.refl s)) (show execMcr c opc1 crn rd cp opc2 crm s = .next t from h)
  | undefMul c bits => exact KeepsUser.of_conditionally (KeepsUser.of_undefinedInstr hu) (show execUndefMul c bits s = .next t from h)
  | undefCompare c bits => exact KeepsUser.of_conditionally (KeepsUser.of_undefinedInstr hu) (show execUndefCompare c bits s = .next t from h)
  | undefTransfer c bits => exact KeepsUser.of_conditionally (KeepsUser.of_undefinedInstr hu) (show execUndefTransfer c bits s = .next t from h)
  | tLslImm amount rs rd => exact finishThumb_user (show execTLslImm amount rs rd s = .next t from h)
  | tLsrImm amount rs rd => exact finishThumb_user (show execTLsrImm amount rs rd s = .next t from h)
  | tAsrImm amount rs rd => exact finishThumb_user (show execTAsrImm amount rs rd s = .next t from h)
  | tAddReg rn rs rd => exact finishThumb_user (show execTAddReg rn rs rd s = .next t from h)
  | tSubReg rn rs rd => exact finishThumb_user (show execTSubReg rn rs rd s = .next t from h)
  | tAddImm3 imm3 rs rd => exact finishThumb_user (show execTAddImm3 imm3 rs rd s = .next t from h)
  | tSubImm3 imm3 rs rd => exact finishThumb_user (show execTSubImm3 imm3 rs rd s = .next t from h)
  | tMovImm8 rd imm8 => exact finishThumb_user (show execTMovImm8 rd imm8 s = .next t from h)
  | tAddImm8 rd imm8 => exact finishThumb_user (show execTAddImm8 rd imm8 s = .next t from h)
  | tSubImm8 rd imm8 => exact finishThumb_user (show execTSubImm8 rd imm8 s = .next t from h)
  | tAnd rs rd => exact finishThumb_user (show execTAnd rs rd s = .next t from h)
  | tEor rs rd => exact finishThumb_user (show execTEor rs rd s = .next t from h)
  | tLslReg rs rd => exact finishThumb_user (show execTLslReg rs rd s = .next t from h)
  | tLsrReg rs rd => exact finishThumb_user (show execTLsrReg rs rd s = .next t from h)
  | tAsrReg rs rd => exact finishThumb_user (show execTAsrReg rs rd s = .next t from h)
  | tAdc rs rd => exact finishThumb_user (show execTAdc rs rd s = .next t from h)
  | tSbc rs rd => exact finishThumb_user (show execTSbc rs rd s = .next t from h)
  | tRorReg rs rd => exact finishThumb_user (show execTRorReg rs rd s = .next t from h)
  | tNeg rs rd => exact finishThumb_user (show execTNeg rs rd s = .next t from h)
  | tOrr rs rd => exact finishThumb_user (show execTOrr rs rd s = .next t from h)
  | tMul rs rd => exact finishThumb_user (show execTMul rs rd s = .next t from h)
  | tBic rs rd => exact finishThumb_user (show execTBic rs rd s = .next t from h)
  | tMvn rs rd => exact finishThumb_user (show execTMvn rs rd s = .next t from h)
  | tCmpImm8 rd imm8 => exact finishThumbFlags_user (show execTCmpImm8 rd imm8 s = .next t from h)
  | tTst rs rd => exact finishThumbFlags_user (show execTTst rs rd s = .next t from h)
  | tCmpReg rs rd => exact finishThumbFlags_user (show execTCmpReg rs rd s = .next t from h)
  | tCmn rs rd => exact finishThumbFlags_user (show execTCmn rs rd s = .next t from h)
  | tCmpHi rs rd => exact finishThumbFlags_user (show execTCmpHi rs rd s = .next t from h)
  | tAddHi rs rd => exact KeepsUser.of_finishWrite (KeepsUser.refl s) (show execTAddHi rs rd s = .next t from h)
  | tMovHi rs rd => exact KeepsUser.of_finishWrite (KeepsUser.refl s) (show execTMovHi rs rd s = .next t from h)
  | tBx rs sbz => exact KeepsUser.of_jumpExchange (KeepsUser.refl s) (show execTBx rs sbz s = .next t from h)
  | tBlxReg rs sbz => exact KeepsUser.of_jumpExchange (KeepsUser.setReg s 14 _) (show execTBlxReg rs sbz s = .next t from h)
  | tLdrPc rd word8 => exact finishThumbLoad_user (show execTLdrPc rd word8 s = .next t from h)
  | tLdrReg ro rb rd => exact finishThumbLoad_user (show execTLdrReg ro rb rd s = .next t from h)
  | tLdrbReg ro rb rd => exact finishThumbLoad_user (show execTLdrbReg ro rb rd s = .next t from h)
  | tLdrhReg ro rb rd => exact finishThumbLoad_user (show execTLdrhReg ro rb rd s = .next t from h)
  | tLdsbReg ro rb rd => exact finishThumbLoad_user (show execTLdsbReg ro rb rd s = .next t from h)
  | tLdshReg ro rb rd => exact finishThumbLoad_user (show execTLdshReg ro rb rd s = .next t from h)
  | tLdrImm offset5 rb rd => exact finishThumbLoad_user (show execTLdrImm offset5 rb rd s = .next t from h)
  | tLdrbImm offset5 rb rd => exact finishThumbLoad_user (show execTLdrbImm offset5 rb rd s = .next t from h)
  | tLdrhImm offset5 rb rd => exact finishThumbLoad_user (show execTLdrhImm offset5 rb rd s = .next t from h)
  | tLdrSp rd word8 => exact finishThumbLoad_user (show execTLdrSp rd word8 s = .next t from h)
  | tStrReg ro rb rd => exact store_advance_user (write32_effect s _ _) (show execTStrReg ro rb rd s = .next t from h)
  | tStrImm offset5 rb rd => exact store_advance_user (write32_effect s _ _) (show execTStrImm offset5 rb rd s = .next t from h)
  | tStrSp rd word8 => exact store_advance_user (write32_effect s _ _) (show execTStrSp rd word8 s = .next t from h)
  | tStrbReg ro rb rd => exact store_advance_user (write8_effect s _ _) (show execTStrbReg ro rb rd s = .next t from h)
  | tStrbImm offset5 rb rd => exact store_advance_user (write8_effect s _ _) (show execTStrbImm offset5 rb rd s = .next t from h)
  | tStrhReg ro rb rd => exact store_advance_user (write16_effect s _ _) (show execTStrhReg ro rb rd s = .next t from h)
  | tStrhImm offset5 rb rd => exact store_advance_user (write16_effect s _ _) (show execTStrhImm offset5 rb rd s = .next t from h)
  | tAddPc rd word8 => exact finishThumbPlain_user (show execTAddPc rd word8 s = .next t from h)
  | tAddSp rd word8 => exact finishThumbPlain_user (show execTAddSp rd word8 s = .next t from h)
  | tIncSp sword7 => exact finishThumbPlain_user (show execTIncSp sword7 s = .next t from h)
  | tDecSp sword7 => exact finishThumbPlain_user (show execTDecSp sword7 s = .next t from h)
  | tPush lr list => exact execTPush_user (show execTPush lr list s = .next t from h)
  | tPop pc list => exact execTPop_user (show execTPop pc list s = .next t from h)
  | tStmia rb list => exact execTStmia_user (show execTStmia rb list s = .next t from h)
  | tLdmia rb list => exact execTLdmia_user (show execTLdmia rb list s = .next t from h)
  | tBeq soffset8 => exact thumbCondBranch_user (show execTBeq soffset8 s = .next t from h)
  | tBne soffset8 => exact thumbCondBranch_user (show execTBne soffset8 s = .next t from h)
  | tBcs soffset8 => exact thumbCondBranch_user (show execTBcs soffset8 s = .next t from h)
  | tBcc soffset8 => exact thumbCondBranch_user (show execTBcc soffset8 s = .next t from h)
  | tBmi soffset8 => exact thumbCondBranch_user (show execTBmi soffset8 s = .next t from h)
  | tBpl soffset8 => exact thumbCondBranch_user (show execTBpl soffset8 s = .next t from h)
  | tBvs soffset8 => exact thumbCondBranch_user (show execTBvs soffset8 s = .next t from h)
  | tBvc soffset8 => exact thumbCondBranch_user (show execTBvc soffset8 s = .next t from h)
  | tBhi soffset8 => exact thumbCondBranch_user (show execTBhi soffset8 s = .next t from h)
  | tBls soffset8 => exact thumbCondBranch_user (show execTBls soffset8 s = .next t from h)
  | tBge soffset8 => exact thumbCondBranch_user (show execTBge soffset8 s = .next t from h)
  | tBlt soffset8 => exact thumbCondBranch_user (show execTBlt soffset8 s = .next t from h)
  | tBgt soffset8 => exact thumbCondBranch_user (show execTBgt soffset8 s = .next t from h)
  | tBle soffset8 => exact thumbCondBranch_user (show execTBle soffset8 s = .next t from h)
  | tSwi value8 => exact biosCall_user (fun h0 => hc (.inr ⟨value8, rfl, h0.symm⟩)) (show execTSwi value8 s = .next t from h)
  | tB offset11 => exact KeepsUser.of_jump (KeepsUser.refl s) (show execTB offset11 s = .next t from h)
  | tBlHigh offset11 => exact KeepsUser.of_advance (KeepsUser.setReg s 14 _) (show execTBlHigh offset11 s = .next t from h)
  | tBlLow offset11 => exact KeepsUser.of_jump (KeepsUser.setReg s 14 _) (show execTBlLow offset11 s = .next t from h)
  | tBlxLow offset11 => exact KeepsUser.of_jumpExchange (KeepsUser.setReg s 14 _) (show execTBlxLow offset11 s = .next t from h)
  | tUndefCond bits => exact (KeepsUser.of_undefinedInstr hu) (show execTUndefCond bits s = .next t from h)
  | tUndefB1 bits => exact (KeepsUser.of_undefinedInstr hu) (show execTUndefB1 bits s = .next t from h)
  | tUndefB2 bits => exact (KeepsUser.of_undefinedInstr hu) (show execTUndefB2 bits s = .next t from h)
  | tUndefB6 bits => exact (KeepsUser.of_undefinedInstr hu) (show execTUndefB6 bits s = .next t from h)
  | tUndefB8 bits => exact (KeepsUser.of_undefinedInstr hu) (show execTUndefB8 bits s = .next t from h)
  | tUndefBE bits => exact (KeepsUser.of_undefinedInstr hu) (show execTUndefBE bits s = .next t from h)

end Sys2Proof.Machine
end

