-- ==== Sys2Proof/Laws/Driver.lean ====
section
/-! SUPPORT. Laws/Driver.lean: the turns of the frame driver: the CPU's turn and IRQ entry, what every step leaves of BIOS
and ROM and of the mode, the flags of a scanline's start, a reset by the host, the row that its end draws (spec/61_devices.md R671, spec/62_ppu.md). -/

namespace Sys2Proof.Machine

theorem cpuTurn_running {s : State} (h : CpuTurn s) : s.running = true := by
  obtain ⟨_, h2, h3⟩ := h
  simp [State.running, h2, h3]

theorem irqDue_iff (s : State) : IrqDue s ↔ s.takesIrq = true := by
  unfold IrqDue State.takesIrq State.pending State.irqDisabled
  simp only [Bool.and_eq_true, bne_iff_ne, Bool.not_eq_true', and_assoc]

/-- A step in the CPU's turn with no IRQ due. -/
theorem step_cpu {s : State} (h : CpuTurn s) (hi : ¬ IrqDue s) : step s = runStep s := by
  unfold step machineStep
  rw [h.1]
  simp only [cpuTurn_running h, if_true]
  rw [if_neg (fun h' => hi ((irqDue_iff s).mpr h'))]

theorem step_irq {s : State} (h : CpuTurn s) (hi : IrqDue s) : step s = .next (takeIrq s) := by
  unfold step machineStep
  rw [h.1]
  simp only [cpuTurn_running h, if_true]
  rw [if_pos ((irqDue_iff s).mp hi)]

theorem accounts_of {s u : State} (h : CpuTurn s) (hi : ¬ IrqDue s) (hu : cpuStep s = .next u) : Accounts s u s.stepCost := by
  refine ⟨?_, ?_⟩
  · unfold State.stepCost cycleCost; split <;> omega
  · rw [step_cpu h hi, runStep, hu]
    simp only [afterStep]
    rw [(timersUpdate_effect { u with cycles := u.cycles + BitVec.ofNat 64 s.stepCost } s.stepCost).left]

theorem halfBytes_toNat (h : Half) : (loByte h).toNat + 256 * (hiByte h).toNat = h.toNat := by
  have := h.isLt
  unfold loByte hiByte
  simp only [BitVec.extractLsb'_toNat, Nat.shiftRight_eq_div_pow]
  omega

theorem wordBytes_toNat (w : Word) :
    (byteOf w 0).toNat + 256 * ((byteOf w 1).toNat + 256 * ((byteOf w 2).toNat + 256 * (byteOf w 3).toNat)) = w.toNat := by
  have := w.isLt
  unfold byteOf
  simp only [BitVec.extractLsb'_toNat, Nat.shiftRight_eq_div_pow]
  omega

/-- The word of an ARM fetch, R803's case said by the bits of the address. -/
theorem fetchArm_eq (s : State) :
    s.fetchArm = if s.romSize < 4 ∧ s.ia &&& 0x0FFFFFFC#32 = 0x08000000#32 then 0 else s.read32 s.ia := by
  have e : busAddr (align4 s.ia) = (s.ia &&& 0x0FFFFFFC#32).toNat := by
    have h : s.ia &&& 0x0FFFFFFC#32 = align4 s.ia &&& BitVec.ofNat 32 (2^28 - 1) := by
      unfold align4; rw [BitVec.and_assoc]; rfl
    rw [h, BitVec.toNat_and, BitVec.toNat_ofNat, Nat.mod_eq_of_lt (by decide), Nat.and_two_pow_sub_one_eq_mod]; rfl
  unfold State.fetchArm
  simp only [show busAddr (align4 s.ia) = 0x08000000 ↔ s.ia &&& 0x0FFFFFFC#32 = 0x08000000#32 by rw [e, ← BitVec.toNat_inj]; rfl]

/-- The fetched word is the little-endian number of its bytes, and decodes as they do. -/
theorem fetchWord_eq (s : State) (bytes : List Byte) (i : Instr)
    (hb : bytes = if s.thumb then [loByte (s.read16 s.ia), hiByte (s.read16 s.ia)] else [0, 1, 2, 3].map (byteOf s.fetchArm))
    (hd : decode s.thumb bytes = .ok (i, [])) :
    s.fetchWord = bytes.foldr (fun b n => b.toNat + 256 * n) 0 ∧ decodeWord s.thumb s.fetchWord = i := by
  have hw := wordBytes_toNat s.fetchArm
  have hh := halfBytes_toNat (s.read16 s.ia)
  unfold State.fetchWord decodeWord
  cases ht : s.thumb <;> rw [ht] at hb hd <;> subst hb <;>
    simp only [Bool.false_eq_true, if_false, if_true, List.map_cons, List.map_nil, List.foldr_cons, List.foldr_nil, decode,
      Except.ok.injEq, Prod.mk.injEq, and_true] at hd ⊢
  · refine ⟨by omega, ?_⟩
    rw [← hd]; congr 1; omega
  · refine ⟨by omega, ?_⟩
    rw [← hd]; congr 1; omega

theorem forall_mode {p : Mode → Prop} (h : ∀ m ∈ [Mode.usr, .fiq, .irq, .svc, .abt, .und, .sys], p m) : ∀ m, p m := fun m => by
  cases m <;> exact h _ (by simp)

/-- The keys of BIOS and ROM. -/
def bootKey (k : Nat) : Prop := k < 0x4000 ∨ (0x08000000 ≤ k ∧ k < 0x0E000000)

theorem readOnly_bootKey {k : Nat} (h : bootKey k) : readOnlyKey k = true := by
  unfold bootKey at h; unfold readOnlyKey; simp; omega

theorem bufferKey_boot {romSize : Nat} {a : Word} {k : Nat} (h : regionOf a = 0 ∨ regionOf a = 9 ∨ regionOf a = 8)
    (hk : bufferKey romSize a = some k) : bootKey k := by
  have hlt := busAddr_lt a
  unfold bootKey
  unfold bufferKey at hk
  rcases h with h | h | h <;> simp only [h] at hk <;> split at hk <;> rename_i hc
  · injection hk with hk; subst hk; exact .inl hc
  · cases hk
  · injection hk with hk; subst hk
    unfold regionOf at h; unfold romOffset; right; omega
  · cases hk
  · injection hk with hk; subst hk
    unfold regionOf at h; unfold romOffset; right; omega
  · cases hk

/-- What a byte of BIOS or ROM reads as depends on memory and the size of ROM only. -/
theorem read8_boot {s t : State} (a : Word) (hr : t.romSize = s.romSize) (hm : ∀ k, bootKey k → Memory.get t.mem k = Memory.get s.mem k)
    (h : regionOf a = 0 ∨ regionOf a = 9 ∨ (regionOf a = 8 ∧ inGpioWindow (romOffset a) = false)) : t.read8 a = s.read8 a := by
  unfold State.read8
  have hg : ∀ (p : Prop), ¬ (regionOf a = 8 ∧ p ∧ inGpioWindow (romOffset a) = true) := by
    intro p ⟨h8, _, hw⟩
    rcases h with h | h | ⟨_, h⟩
    · omega
    · omega
    · rw [h] at hw; cases hw
  have h4 : regionOf a ≠ 4 ∧ regionOf a ≠ 14 := by rcases h with h | h | ⟨h, _⟩ <;> omega
  simp only [hr]
  split
  · exact absurd ‹_› h4.1
  · exact absurd ‹_› h4.2
  · rw [if_neg (hg _), if_neg (hg _)]
    cases hk : bufferKey s.romSize a with
    | none => rfl
    | some k =>
      exact hm k (bufferKey_boot (by rcases h with h | h | h <;> simp [h]) hk)

/-- A reset by the host keeps BIOS, ROM and flash and fills the rest from RESET_STATE (R70, R800). -/
theorem hostReset_get (s : State) (clock k : Nat) : Memory.get (hostReset s clock).mem k =
    if k < 0x4000 ∨ 0x08000000 ≤ k then Memory.get s.mem k else Memory.get s.params.resetState.ram k := by
  have h := startMem_get (s.mem.filter belowRam) s.params.resetState.ram (s.mem.filter aboveRam) k
    (fun _ hc => (List.mem_filter.mp hc).2) fun _ hc => (List.mem_filter.mp hc).2
  refine h.trans ?_
  by_cases h1 : k < 0x4000
  · rw [if_pos h1, if_pos (.inl h1)]
    exact Store.get_filter_kept (by intro c hc; simp [belowRam, hc]; omega) _
  · rw [if_neg h1]
    by_cases h2 : 0x08000000 ≤ k
    · rw [if_pos h2, if_pos (.inr h2)]
      exact Store.get_filter_kept (by intro c hc; simp [aboveRam, hc]; omega) _
    · rw [if_neg h2, if_neg (by omega)]

/-- A byte of RAM, where memory agrees with `m` between BIOS and cartridge. -/
theorem read8_ram (t : State) (m : List Host.Cell) (hm : ∀ k, 0x4000 ≤ k → k < 0x08000000 → Memory.get t.mem k = Memory.get m k)
    (a : Word) (k : Nat) (h : isRam (regionOf a) = true) (hk : bufferKey t.romSize a = some k) : t.read8 a = Memory.get m k := by
  have hr := ramKey_isRamKey a h
  rw [bufferKey_ram _ _ h] at hk
  injection hk with hk
  have h4 : regionOf a ≠ 4 ∧ regionOf a ≠ 14 ∧ regionOf a ≠ 8 := by
    rcases isRam_cases h with e | e | e | e | e | e <;> rw [e] <;> decide
  rw [read8_buffer t a h4.1 h4.2.1 (fun e => absurd e h4.2.2), bufferKey_ram _ _ h]
  subst hk
  unfold isRamKey at hr
  exact hm _ (by omega) (by omega)

/-- A machine that starts has the values of its reset record (R70, R730, R800). -/
theorem start_started (p : Params) (bios cart : List Host.Cell) (romSize clock : Nat) (u : State)
    (hb : ∀ c, c ∈ bios → belowRam c = true) (hc : ∀ c, c ∈ cart → aboveRam c = true)
    (hu : u = { State.start p (startMem bios p.resetState.ram cart) romSize clock with host := u.host, free := u.free }) :
    Started u p.resetState clock := by
  have hg : ∀ k, 0x4000 ≤ k → k < 0x08000000 → Memory.get u.mem k = Memory.get p.resetState.ram k := fun k h1 h2 => by
    rw [hu]
    show Memory.get (startMem bios p.resetState.ram cart) k = _
    rw [startMem_get _ _ _ _ hb hc, if_neg (by omega), if_neg (by omega)]
  refine ⟨?_, read8_ram u _ hg, fun off ho => ?_⟩
  · rw [hu]; rfl
  · unfold State.ioHalf ioKey
    rw [hg _ (by omega) (by omega), hg _ (by omega) (by omega)]
    rfl

/-- A reset by the host gives everything the values of the reset record (R731, R800). -/
theorem hostReset_started (s : State) (clock : Nat) : Started (hostReset s clock) s.params.resetState clock :=
  start_started s.params _ _ s.romSize clock _ (fun _ hc => (List.mem_filter.mp hc).2) (fun _ hc => (List.mem_filter.mp hc).2) rfl

@[simp] theorem hostReset_params (s : State) (clock : Nat) : (hostReset s clock).params = s.params := rfl
@[simp] theorem hostReset_romSize (s : State) (clock : Nat) : (hostReset s clock).romSize = s.romSize := rfl
@[simp] theorem hostReset_host (s : State) (clock : Nat) : (hostReset s clock).host = s.host := rfl
@[simp] theorem hostReset_free (s : State) (clock : Nat) : (hostReset s clock).free = s.free := rfl
@[simp] theorem hostReset_phase (s : State) (clock : Nat) : (hostReset s clock).phase = .host := rfl

/-- What every step of the machine leaves alone: BIOS, ROM and the parameters. -/
structure KeepsBoot (s t : State) : Prop where
  romSize : t.romSize = s.romSize
  params : t.params = s.params
  boot : ∀ k, bootKey k → Memory.get t.mem k = Memory.get s.mem k

theorem KeepsBoot.refl (s : State) : KeepsBoot s s := ⟨rfl, rfl, fun _ _ => rfl⟩

theorem KeepsBoot.trans {s t u : State} (h : KeepsBoot s t) (g : KeepsBoot t u) : KeepsBoot s u :=
  ⟨g.romSize.trans h.romSize, g.params.trans h.params, fun k hk => (g.boot k hk).trans (h.boot k hk)⟩

theorem CpuEffect.keepsBoot {s t : State} (h : CpuEffect s t) : KeepsBoot s t := ⟨h.romSize, h.params, fun k hk => h.readOnly k (readOnly_bootKey hk)⟩

theorem BusEffect.keepsBoot {s t : State} (h : BusEffect s t) : KeepsBoot s t := h.cpu.keepsBoot

theorem KeepsBoot.of_eq {s t : State} (hm : t.mem = s.mem) (hr : t.romSize = s.romSize) (hp : t.params = s.params) : KeepsBoot s t :=
  ⟨hr, hp, fun k _ => by rw [hm]⟩

theorem hostStep_boot (s : State) : KeepsBoot s (hostStep s) := by
  have hb : ∀ (u : State) (b : Half), KeepsBoot u (beginFrame u b) := fun u b =>
    ⟨rfl, rfl, fun k hk => Memory.get_set_other _ _ (by unfold bootKey at hk; omega)⟩
  unfold hostStep
  split
  · exact hb s 0
  · rename_i rest _
    exact KeepsBoot.trans (t := { s with host := rest }) ⟨rfl, rfl, fun _ _ => rfl⟩ (hb _ _)
  · rename_i rest _
    exact KeepsBoot.trans (t := { s with host := rest }) ⟨rfl, rfl, fun _ _ => rfl⟩ (write8_effect _ _ _).keepsBoot
  · exact ⟨rfl, rfl, fun k hk => (hostReset_get _ _ k).trans (if_pos (by unfold bootKey at hk; omega))⟩

theorem dmaIf_boot (p : Prop) [Decidable p] (u : State) (t : Nat) : KeepsBoot u (if p then dmaTrigger u t else u) :=
  (BusEffect.ite (fun _ => dmaTrigger_effect u t) fun _ => BusEffect.refl u).keepsBoot

theorem beginRun_boot (u : State) : KeepsBoot u { u with left := 1232, phase := .run } := KeepsBoot.of_eq rfl rfl rfl

theorem updateVcount_boot (u : State) (n : Nat) : KeepsBoot u (updateVcount u n) := KeepsBoot.of_eq rfl rfl rfl

theorem beginLine_boot (s : State) : KeepsBoot s (beginLine s) := by
  have h1 : KeepsBoot s (if s.line = 0 then reloadAffineRefs s else s) := by
    split
    · exact KeepsBoot.of_eq rfl rfl rfl
    · exact KeepsBoot.refl s
  exact (((h1.trans (updateVcount_boot _ _)).trans (dmaIf_boot _ _ _)).trans (dmaIf_boot _ _ _)).trans (beginRun_boot _)

theorem endLine_boot (s : State) : KeepsBoot s (endLine s) := by
  unfold endLine
  simp only
  refine (haltedRest_effect s).keepsBoot.trans ?_
  generalize haltedRest s = u
  have h1 : KeepsBoot u (if u.line < 160 then renderScanline u u.line else u) := by
    split
    · exact KeepsBoot.of_eq rfl rfl rfl
    · exact KeepsBoot.refl u
  refine h1.trans ?_
  generalize (if u.line < 160 then renderScanline u u.line else u) = v
  have h2 : KeepsBoot v (advanceAffineRefs v) := KeepsBoot.of_eq rfl rfl rfl
  refine h2.trans ?_
  unfold nextLine
  split
  · exact KeepsBoot.of_eq rfl rfl rfl
  · exact KeepsBoot.of_eq rfl rfl rfl

theorem afterStep_boot (c : Nat) (u : State) : KeepsBoot u (afterStep c u) := by
  have h1 : KeepsBoot u { u with cycles := u.cycles + BitVec.ofNat 64 c } := KeepsBoot.of_eq rfl rfl rfl
  have h2 := h1.trans (timersUpdate_effect { u with cycles := u.cycles + BitVec.ofNat 64 c } c).keepsBoot
  have h3 : ∀ v : State, KeepsBoot v { v with left := v.left - c } := fun v => KeepsBoot.of_eq rfl rfl rfl
  exact h2.trans (h3 _)

theorem step_boot {s t : State} (h : step s = .next t) : KeepsBoot s t := by
  rcases step_cases h with ⟨_, rfl⟩ | ⟨_, rfl⟩ | ⟨_, _, _, rfl⟩ | ⟨_, _, _, u, hu, rfl⟩ | ⟨_, _, rfl⟩
  · exact hostStep_boot s
  · exact beginLine_boot s
  · exact (takeIrq_effect s).keepsBoot
  · refine (cpuStep_effect hu).keepsBoot.trans ?_
    exact afterStep_boot _ u
  · exact endLine_boot s

theorem takeIrq_eq (s : State) : takeIrq s = { s with
      regs := (takeIrq s).regs, r15 := 0x20#32, cpsr := (takeIrq s).cpsr, spsrIrq := s.cpsr } := by
  unfold takeIrq takeException
  rw [State.setRegIn_eq]
  rfl

theorem takeIrq_mode (s : State) : (takeIrq s).mode = .irq := by
  unfold State.mode
  rw [show (takeIrq s).cpsr.extractLsb' 0 5 = Mode.irq.bits from takeException_low5 s.cpsr .irq]
  rfl

theorem prefetch_even (s : State) (h : s.ia.toNat % (if s.thumb then 2 else 4) = 0) :
    (if s.thumb then (s.ia &&& ~~~1#32) + 4 else (s.ia &&& ~~~3#32) + 8) = s.r15 := by
  have e : s.ia + prefetchOffset s.thumb = s.r15 := by
    unfold State.ia; exact BitVec.sub_add_cancel _ _
  cases ht : s.thumb
  · rw [ht] at h e
    have : align4 s.ia = s.ia := by apply BitVec.eq_of_toNat_eq; rw [align4_toNat]; simp at h; omega
    rw [← e]; simp only [Bool.false_eq_true, if_false]
    show align4 s.ia + 8 = s.ia + 8
    rw [this]
  · rw [ht] at h e
    have : align2 s.ia = s.ia := by apply BitVec.eq_of_toNat_eq; rw [align2_toNat]; simp at h; omega
    rw [← e]; simp only [if_true]
    show align2 s.ia + 4 = s.ia + 4
    rw [this]

theorem keepsUser_host (s : State) (h : ¬ ∃ clock rest, s.host = .reset clock :: rest) : KeepsUser s (hostStep s) := by
  unfold hostStep
  split
  · exact KeepsUser.of_low5 rfl
  · exact KeepsUser.of_low5 rfl
  · rename_i rest hr
    exact KeepsUser.trans (t := { s with host := rest }) (KeepsUser.of_low5 rfl) (write8_effect _ _ _).keepsUser
  · rename_i clock rest hr
    exact absurd ⟨clock, rest, hr⟩ h

theorem keepsUser_line (s : State) : KeepsUser s (beginLine s) := by
  have h1 : KeepsUser s (if s.line = 0 then reloadAffineRefs s else s) := KeepsUser.ite (fun _ => KeepsUser.of_low5 rfl) fun _ => KeepsUser.refl s
  have h2 : ∀ (u : State) n, KeepsUser u (updateVcount u n) := fun u n => KeepsUser.of_low5 rfl
  have h3 : ∀ (u : State) (p : Prop) [Decidable p] n, KeepsUser u (if p then dmaTrigger u n else u) := fun u p _ n =>
    KeepsUser.ite (fun _ => (dmaTrigger_effect u n).keepsUser) fun _ => KeepsUser.refl u
  have h4 : ∀ u : State, KeepsUser u { u with left := 1232, phase := .run } := fun u => KeepsUser.of_low5 rfl
  exact (((h1.trans (h2 _ _)).trans (h3 _ _ _)).trans (h3 _ _ _)).trans (h4 _)

theorem keepsUser_end (s : State) : KeepsUser s (endLine s) := by
  have h1 := (haltedRest_effect s).keepsUser
  have h2 : ∀ u : State, KeepsUser u (if u.line < 160 then renderScanline u u.line else u) := fun u =>
    KeepsUser.ite (fun _ => KeepsUser.of_low5 rfl) fun _ => KeepsUser.refl u
  have h3 : ∀ u : State, KeepsUser u (advanceAffineRefs u) := fun u => KeepsUser.of_low5 rfl
  have h4 : ∀ u : State, KeepsUser u (nextLine u) := fun u => KeepsUser.ite (fun _ => KeepsUser.of_low5 rfl) fun _ => KeepsUser.of_low5 rfl
  exact ((h1.trans (h2 _)).trans (h3 _)).trans (h4 _)

theorem keepsUser_after (c : Nat) (u : State) : KeepsUser u (afterStep c u) := by
  have h1 : KeepsUser u { u with cycles := u.cycles + BitVec.ofNat 64 c } := KeepsUser.of_low5 rfl
  have h3 : ∀ v : State, KeepsUser v { v with left := v.left - c } := fun v => KeepsUser.of_low5 rfl
  exact (h1.trans (timersUpdate_effect _ c).keepsUser).trans (h3 _)

theorem afterStep_cpsr (c : Nat) (u : State) : (afterStep c u).cpsr = u.cpsr :=
  (timersUpdate_effect { u with cycles := u.cycles + BitVec.ofNat 64 c } c).cpsr

/-- The bits of the masks that DISPSTAT's flags are put together with. -/
theorem dispstatMasks : ∀ k : Fin 16, (0xFFF8#16).getLsbD k.val = decide (3 ≤ k.val) ∧ (1#16).getLsbD k.val = decide (k.val = 0)
    ∧ (2#16).getLsbD k.val = decide (k.val = 1) ∧ (4#16).getLsbD k.val = decide (k.val = 2) := by decide

theorem dispstatFlags_bit (d : Half) (a b c : Bool) (k : Nat) (hk : k < 16) : (withDispstatFlags d a b c).getLsbD k =
    if k = 0 then a else if k = 1 then b else if k = 2 then c else d.getLsbD k := by
  obtain ⟨m, m0, m1, m2⟩ := dispstatMasks ⟨k, hk⟩
  dsimp only at m m0 m1 m2
  have flag : ∀ (x : Bool) (w : Half), (if x then w else 0#16).getLsbD k = (x && w.getLsbD k) := fun x w => by cases x <;> simp
  unfold withDispstatFlags
  rw [BitVec.getLsbD_or, BitVec.getLsbD_or, BitVec.getLsbD_or, BitVec.getLsbD_and, flag, flag, flag, m, m0, m1, m2]
  split
  · rename_i h; simp [h]
  · split
    · rename_i h; simp [h]
    · split
      · rename_i h; simp [h]
      · rw [decide_eq_true (show 3 ≤ k by omega)]; simp [*]

theorem request_bit (b : Bool) (i k : Nat) (hi : i < 16) : (request b i).getLsbD k = decide (k = i ∧ b = true) := by
  unfold request
  cases b
  · simp
  · simp only [if_true, and_true]
    rw [BitVec.getLsbD_shiftLeft, show ((1#16).getLsbD (k - i)) = decide (k - i = 0) by
      rw [show (1#16) = BitVec.ofNat 16 1 from rfl, BitVec.getLsbD_ofNat]; cases h : k - i <;> simp [Nat.testBit_succ]]
    by_cases h : k = i
    · simp [h, hi]
    · simp [h]; omega

theorem vcountMatch_eq (s : State) (line : Nat) : vcountMatches s line = decide (line = s.dispstat.toNat / 2^8) := by
  unfold vcountMatches
  have := s.dispstat.isLt
  rw [BitVec.extractLsb'_toNat, Nat.shiftRight_eq_div_pow, Nat.mod_eq_of_lt (by omega)]
  rw [Bool.eq_iff_iff, beq_iff_eq, decide_eq_true_eq]
  exact eq_comm

theorem renderScanline_rest (s : State) (l : Nat) : renderScanline s l = { s with framebuffer := (renderScanline s l).framebuffer } := by
  unfold renderScanline
  generalize renderRow s l 240 0 s.framebuffer = fb
  rfl

theorem advance_refs (s : State) : advanceAffineRefs s = { s with
    refX2 := s.refX2 + (s.ioHalf 0x24).signExtend 32, refY2 := s.refY2 + (s.ioHalf 0x26).signExtend 32,
    refX3 := s.refX3 + (s.ioHalf 0x34).signExtend 32, refY3 := s.refY3 + (s.ioHalf 0x36).signExtend 32 } := rfl

/-- What a row of the picture reads as after it is drawn (R760). -/
theorem renderRow_get (s : State) (line n x : Nat) (fb : List (Nat × Half)) (k : Nat) :
    Store.get Framebuffer.unlisted (renderRow s line n x fb) k
      = if 240 * line + x ≤ k ∧ k < 240 * line + x + n then renderPixel s line (k - 240 * line) else Store.get Framebuffer.unlisted fb k := by
  induction n generalizing x fb with
  | zero => rw [if_neg (by omega)]; rfl
  | succ n ih =>
    unfold renderRow
    rw [ih]
    by_cases h : k = 240 * line + x
    · subst h
      rw [if_neg (by omega), if_pos (by omega)]
      unfold Framebuffer.set
      rw [Store.get_set_same, show 240 * line + x - 240 * line = x by omega]
    · unfold Framebuffer.set
      rw [Store.get_set_other _ _ h]
      by_cases h2 : 240 * line + x ≤ k ∧ k < 240 * line + x + (n + 1)
      · rw [if_pos h2, if_pos (by omega)]
      · rw [if_neg h2, if_neg (by omega)]

theorem bit_eq (w i : Nat) : bit w i = decide (w / 2^i % 2 = 1) := by
  unfold bit fld
  rw [show (2 : Nat)^1 = 2 from rfl]
  rfl

/-- Without effects the top pixel is shown (R791). -/
theorem compose_plain (s : State) (cand : List Pixel) (top : Pixel) (rest : List Pixel) (h : cand = top :: rest)
    (h0 : s.ppuReg 0x050 / 2^6 % 4 = 0) (hs : top.layer.isSemi = false) : compose s cand = top.colour := by
  subst h
  have hm : fld (s.ppuReg 0x050) 6 2 = 0 := h0
  unfold compose blend
  simp only [hm, hs]
  simp

/-- The candidates when no sprite and no background but perhaps BG2 is on. -/
theorem candidates_bg2 (s : State) (line x : Nat) (h12 : bit s.dispcnt 12 = false) (h0 : bit s.dispcnt 8 = false)
    (h1 : bit s.dispcnt 9 = false) (h3 : bit s.dispcnt 11 = false) :
    candidates s line x = [0, 1, 2, 3].filterMap (fun q => bgCandidate s line x q 2) ++ [{ layer := .backdrop, colour := s.palette 0 }] := by
  have ho : ∀ q, objCandidate s line x q = none := by intro q; unfold objCandidate; rw [h12]; rfl
  have hb : ∀ q n, n = 0 ∨ n = 1 ∨ n = 3 → bgCandidate s line x q n = none := by
    intro q n hn
    unfold bgCandidate
    rcases hn with rfl | rfl | rfl <;> simp only [h0, h1, h3, Nat.reduceAdd, Bool.false_eq_true, false_and, if_false]
  unfold candidates
  congr 1
  have : ∀ q, (objCandidate s line x q).toList ++ [0, 1, 2, 3].filterMap (bgCandidate s line x q) = (bgCandidate s line x q 2).toList := by
    intro q
    rw [ho]
    simp only [List.filterMap_cons, List.filterMap_nil, hb q 0 (by simp), hb q 1 (by simp), hb q 3 (by simp)]
    cases bgCandidate s line x q 2 <;> rfl
  simp only [this]
  simp only [List.flatMap_cons, List.flatMap_nil, List.filterMap_cons, List.filterMap_nil]
  cases bgCandidate s line x 0 2 <;> cases bgCandidate s line x 1 2 <;> cases bgCandidate s line x 2 2 <;>
    cases bgCandidate s line x 3 2 <;> rfl

/-- With BG2 on, its pixel is the one candidate above the backdrop. -/
theorem candidates_one (s : State) (line x : Nat) (c : Option Nat) (h2 : bit s.dispcnt 10 = true) (k : BgKind)
    (hk : bgKind (fld s.dispcnt 0 3) 2 = some k) (hc : bgPixel s k 2 x line = c) :
    [0, 1, 2, 3].filterMap (fun q => bgCandidate s line x q 2) = (c.map fun c => { layer := .bg 2, colour := c : Pixel }).toList := by
  have h : ∀ q, bgCandidate s line x q 2 = if bgPrio (s.bgcnt 2) = q then c.map fun c => { layer := .bg 2, colour := c : Pixel } else none := by
    intro q
    unfold bgCandidate
    simp only [h2, true_and, hk, hc, Nat.reduceAdd]
  have hp : bgPrio (s.bgcnt 2) < 4 := Nat.mod_lt _ (by decide)
  simp only [List.filterMap_cons, List.filterMap_nil, h]
  generalize bgPrio (s.bgcnt 2) = p at hp
  match p, hp with
  | 0, _ => cases c <;> rfl
  | 1, _ => cases c <;> rfl
  | 2, _ => cases c <;> rfl
  | 3, _ => cases c <;> rfl

theorem hostPixel_eq (c : Nat) : hostPixel c = BitVec.ofNat 16 (c % 32 * 2^11 + c / 2^5 % 32 * 2^6 + c / 2^9 % 2 * 2^5 + c / 2^10 % 32) := by
  unfold hostPixel red green blue fld
  rw [show c / 2^0 = c by simp, show (2 : Nat)^5 = 32 from rfl, show c / 2^9 % 2 = c / 32 % 32 / 16 by omega]

end Sys2Proof.Machine
end

