-- ==== Sys2Proof/Laws/Picture.lean ====
section
/-! SUPPORT. Laws/Picture.lean: what the PPU reads is what the bus reads, and what a background and a sprite show, in
the words of Safety.lean (spec/62_ppu.md). -/

namespace Sys2Proof.Machine

/-! ## Reads (R744) -/

theorem ofNat_region (r o : Nat) (hr : r < 16) (ho : o < 0x1000000) :
    regionOf (BitVec.ofNat 32 (r * 0x1000000 + o)) = r ∧ offsetOf (BitVec.ofNat 32 (r * 0x1000000 + o)) = o := by
  have e : busAddr (BitVec.ofNat 32 (r * 0x1000000 + o)) = r * 0x1000000 + o := by
    unfold busAddr; rw [BitVec.toNat_ofNat]; omega
  unfold regionOf offsetOf
  rw [e]
  exact ⟨by omega, by omega⟩

theorem read8_ofNat (s : State) (r o : Nat) (hr : r = 5 ∨ r = 6 ∨ r = 7) (ho : o < 0x1000000) :
    s.read8 (BitVec.ofNat 32 (r * 0x1000000 + o)) = Memory.get s.mem (r * 0x1000000 + if r = 6 then vramOffset o else o % 0x400) := by
  obtain ⟨h1, h2⟩ := ofNat_region r o (by omega) ho
  rw [read8_buffer s _ (by omega) (by omega) (fun h => absurd h (by omega))]
  unfold bufferKey
  rcases hr with rfl | rfl | rfl <;> simp only [h1, h2, Nat.reduceMul, Nat.reduceEqDiff, if_true, if_false, Option.map_some,
    Option.getD_some]

theorem read16_ofNat (s : State) (r o : Nat) (hr : r = 5 ∨ r = 7) (ho : o < 0x400) (he : o % 2 = 0) :
    (s.read16 (BitVec.ofNat 32 (r * 0x1000000 + o))).toNat
      = (Memory.get s.mem (r * 0x1000000 + o)).toNat + 256 * (Memory.get s.mem (r * 0x1000000 + o + 1)).toNat := by
  obtain ⟨h1, _⟩ := ofNat_region r o (by omega) (by omega)
  have ha : align2 (BitVec.ofNat 32 (r * 0x1000000 + o)) = BitVec.ofNat 32 (r * 0x1000000 + o) := by
    apply BitVec.eq_of_toNat_eq; rw [align2_toNat, BitVec.toNat_ofNat]; omega
  have hs : BitVec.ofNat 32 (r * 0x1000000 + o) + 1 = BitVec.ofNat 32 (r * 0x1000000 + (o + 1)) := by
    rw [← Nat.add_assoc, BitVec.ofNat_add _ 1]; rfl
  unfold State.read16
  rw [if_neg (by omega), ha, hs,
    read8_ofNat s r o (by omega) (by omega), read8_ofNat s r (o + 1) (by omega) (by omega),
    if_neg (by omega), if_neg (by omega), show o % 0x400 = o by omega, show (o + 1) % 0x400 = o + 1 by omega, BitVec.toNat_append,
    ← Nat.shiftLeft_add_eq_or_of_lt (BitVec.isLt _), Nat.shiftLeft_eq, Nat.add_assoc]
  omega

theorem vramByte_eq (s : State) (o : Nat) : vramByte s o = s.vram8 o := by
  unfold vramByte State.vram8
  rw [show 0x06000000 + o % 0x20000 = 6 * 0x1000000 + o % 0x20000 by rfl, read8_ofNat s 6 _ (by omega) (by omega), if_pos rfl]
  unfold vramOffset
  rw [Nat.mod_mod]

theorem vramHalf_eq (s : State) (o : Nat) : vramHalf s o = s.vram16 o := by
  unfold vramHalf State.vram16; rw [vramByte_eq, vramByte_eq]

theorem paletteHalf_eq (s : State) (i : Nat) (h : i < 512) : paletteHalf s i = s.palette i := by
  unfold paletteHalf State.palette
  rw [show 0x05000000 + 2 * i = 5 * 0x1000000 + 2 * i by rfl, read16_ofNat s 5 _ (by omega) (by omega) (by omega)]

theorem oamHalf_eq (s : State) (o : Nat) (h : o < 0x400) (he : o % 2 = 0) : oamHalf s o = s.oam16 o := by
  unfold oamHalf State.oam16
  rw [show 0x07000000 + o = 7 * 0x1000000 + o by rfl, read16_ofNat s 7 _ (by omega) h he]

theorem displayReg_eq (s : State) (off : Nat) (h : isStorage off = true) (he : off % 2 = 0) : displayReg s off = s.ioHalf off := by
  have hlt : off < 0x400 := by unfold isStorage at h; simp at h; omega
  obtain ⟨h1, h2⟩ := ofNat_region 4 off (by omega) (by omega)
  unfold displayReg
  rw [show 0x04000000 + off = 4 * 0x1000000 + off by rfl, read16_io s _ off h1 (by rw [align2_offset, h2]; omega) hlt,
    ioRead16_storage s off h]

theorem vramByte_lt (s : State) (o : Nat) : vramByte s o < 256 := BitVec.isLt _

theorem vramByte_lt512 (s : State) (b o : Nat) (h : b ≤ 256) : b + vramByte s o < 512 := by
  have := vramByte_lt s o; omega

theorem vramHalf_lt (s : State) (o : Nat) : vramHalf s o < 65536 := by
  have := vramByte_lt s (o / 2 * 2); have := vramByte_lt s (o / 2 * 2 + 1)
  unfold vramHalf; omega

/-! ## Backgrounds (R740 to R778) -/

theorem isStorage_low {off : Nat} (h : off < 0xB0) (h4 : off ≠ 4) (h6 : off ≠ 6) : isStorage off = true := by
  revert off
  decide +kernel

/-- A register of the display, as the PPU uses it. -/
theorem ppuReg_eq (s : State) (off : Nat) (h : off < 0xB0) (h4 : off ≠ 4) (h6 : off ≠ 6) (he : off % 2 = 0) :
    s.ppuReg off = (displayReg s off).toNat := by
  unfold State.ppuReg; rw [displayReg_eq s off (isStorage_low h h4 h6) he]

theorem bgcnt_eq (s : State) (n : Nat) (h : n < 4) : s.bgcnt n = (displayReg s (8 + 2 * n)).toNat :=
  ppuReg_eq s _ (by omega) (by omega) (by omega) (by omega)

/-- What a text background shows (R750 to R752). -/
theorem textPixel_shows (s : State) (n x line cnt size cbase sbase mx my e px py b i : Nat) (hn : n < 4)
    (hcnt : cnt = (displayReg s (8 + 2 * n)).toNat) (hsize : size = cnt / 2^14) (hcb : cbase = cnt / 2^2 % 4 * 0x4000)
    (hsb : sbase = cnt / 2^8 % 32 * 0x800)
    (hmx : mx = (x + (displayReg s (0x10 + 4 * n)).toNat % 512) % (if size = 1 ∨ size = 3 then 512 else 256))
    (hmy : my = (line + (displayReg s (0x12 + 4 * n)).toNat % 512) % (if size = 2 ∨ size = 3 then 512 else 256))
    (he : e = vramHalf s (sbase + (if size = 3 then mx / 256 + 2 * (my / 256) else if size = 2 then my / 256 else mx / 256) * 0x800
        + my % 256 / 8 * 64 + mx % 256 / 8 * 2))
    (hpx : px = if e / 2^10 % 2 = 1 then 7 - mx % 8 else mx % 8) (hpy : py = if e / 2^11 % 2 = 1 then 7 - my % 8 else my % 8) :
    (cnt / 2^7 % 2 = 0 → b = vramByte s (cbase + e % 2^10 * 32 + py * 4 + px / 2) → i = (if px % 2 = 1 then b / 16 else b % 16) →
        textPixel s n x line = shows i (paletteHalf s (e / 2^12 * 16 + i)))
    ∧ (cnt / 2^7 % 2 = 1 → i = vramByte s (cbase + e % 2^10 * 64 + py * 8 + px) →
        textPixel s n x line = shows i (paletteHalf s i)) := by
  have hc : s.bgcnt n = cnt := by rw [bgcnt_eq s n hn, hcnt]
  have hs4 : size < 4 := by have := (displayReg s (8 + 2 * n)).isLt; omega
  have hz : bgSize cnt = size := by unfold bgSize fld; omega
  have hcb' : bgCharBase cnt = cbase := by rw [hcb]; rfl
  have hsb' : bgScreenBase cnt = sbase := by rw [hsb]; rfl
  have hw : textWidth size = if size = 1 ∨ size = 3 then 512 else 256 := by unfold textWidth; split <;> split <;> omega
  have hh : textHeight size = if size = 2 ∨ size = 3 then 512 else 256 := by unfold textHeight; split <;> split <;> omega
  have hmx' : (x + s.ppuReg (0x010 + 4 * n) % 512) % textWidth size = mx := by
    rw [ppuReg_eq s _ (by omega) (by omega) (by omega) (by omega), hw, hmx]
  have hmy' : (line + s.ppuReg (0x012 + 4 * n) % 512) % textHeight size = my := by
    rw [ppuReg_eq s _ (by omega) (by omega) (by omega) (by omega), hh, hmy]
  have hmx5 : mx < 512 := by rw [hmx]; split <;> omega
  have hmy5 : my < 512 := by rw [hmy]; split <;> omega
  have hsc : screenBlock size mx my = if size = 3 then mx / 256 + 2 * (my / 256) else if size = 2 then my / 256 else mx / 256 := by
    have h4 : size = 0 ∨ size = 1 ∨ size = 2 ∨ size = 3 := by omega
    rcases h4 with h | h | h | h
    · have : mx < 256 := by rw [if_neg (by omega)] at hmx; omega
      rw [h, if_neg (by decide), if_neg (by decide)]; unfold screenBlock; simp only; omega
    all_goals rw [h]; rfl
  have he' : s.vram16 (sbase + screenBlock size mx my * 0x800 + my % 256 / 8 * 64 + mx % 256 / 8 * 2) = e := by
    rw [hsc, he, vramHalf_eq]
  have hpx' : flip8 (bit e 10) (mx % 8) = px := by rw [hpx, bit_eq]; unfold flip8; simp only [decide_eq_true_eq]
  have hpy' : flip8 (bit e 11) (my % 8) = py := by rw [hpy, bit_eq]; unfold flip8; simp only [decide_eq_true_eq]
  have hel : e < 65536 := by rw [he]; exact vramHalf_lt _ _
  have h12 : fld e 12 4 = e / 2^12 := by unfold fld; omega
  have h10 : fld e 0 10 = e % 2^10 := by unfold fld; simp
  have h8 : bgIs8bpp cnt = decide (cnt / 2^7 % 2 = 1) := bit_eq _ _
  unfold textPixel
  simp only [hc, hz, hmx', hmy', hsb', he', hpx', hpy', hcb', h12, h10, h8]
  refine ⟨fun h7 hb hi => ?_, fun h7 hi => ?_⟩
  · rw [if_neg (by rw [h7]; decide), ← vramByte_eq, ← hb]
    unfold nibble
    have hb' : b < 256 := by rw [hb]; exact vramByte_lt s _
    rw [← hi, ← paletteHalf_eq _ _ (by split at hi <;> omega)]
    rfl
  · rw [if_pos (by rw [h7]; decide), ← vramByte_eq, ← hi, ← paletteHalf_eq _ _ (by rw [hi]; exact Nat.lt_trans (vramByte_lt s _) (by decide))]
    rfl

theorem fld0 (v n : Nat) : fld v 0 n = v % 2^n := by unfold fld; simp

/-- An affine coordinate modulo 2^32 (R774). -/
theorem affine_coord (rx p : Word) (f : Word) (x : Nat) (h : f.toNat = (rx.toNat + x * p.toNat) % 2^32) :
    rx + BitVec.ofNat 32 x * p = f := by
  apply BitVec.eq_of_toNat_eq
  rw [h, BitVec.toNat_add, BitVec.toNat_mul, BitVec.toNat_ofNat, Nat.mod_mul_mod, Nat.add_mod_mod]

/-- What an affine background shows (R770, R774). -/
theorem affinePixel_shows (s : State) (n x cnt size cbase sbase : Nat) (rx ry fx fy : Word) (tx ty : Int) (side mx my i : Nat)
    (hn : n = 2 ∨ n = 3) (hcnt : cnt = (displayReg s (8 + 2 * n)).toNat) (hsize : size = cnt / 2^14)
    (hcb : cbase = cnt / 2^2 % 4 * 0x4000) (hsb : sbase = cnt / 2^8 % 32 * 0x800)
    (hrx : rx = if n = 2 then s.refX2 else s.refX3) (hry : ry = if n = 2 then s.refY2 else s.refY3)
    (hfx : fx.toNat = (rx.toNat + x * ((displayReg s (0x10 * n)).signExtend 32).toNat) % 2^32)
    (hfy : fy.toNat = (ry.toNat + x * ((displayReg s (0x10 * n + 2)).signExtend 32).toNat) % 2^32)
    (htx : tx = fx.toInt / 256) (hty : ty = fy.toInt / 256) (hside : side = 128 * 2^size)
    (hmx : (mx : Int) = tx % side) (hmy : (my : Int) = ty % side)
    (hi : i = vramByte s (cbase + vramByte s (sbase + my / 8 * (side / 8) + mx / 8) * 64 + my % 8 * 8 + mx % 8)) :
    affinePixel s n x = if cnt / 2^13 % 2 = 0 ∧ ¬ (0 ≤ tx ∧ tx < side ∧ 0 ≤ ty ∧ ty < side) then none
      else shows i (paletteHalf s i) := by
  have hc : s.bgcnt n = cnt := by rw [bgcnt_eq s n (by omega), hcnt]
  have hz : bgSize cnt = size := by
    have := (displayReg s (8 + 2 * n)).isLt; unfold bgSize fld; omega
  have hcb' : bgCharBase cnt = cbase := by rw [hcb]; rfl
  have hsb' : bgScreenBase cnt = sbase := by rw [hsb]; rfl
  have hab : affineBase n = 0x10 * n := by rcases hn with rfl | rfl <;> rfl
  have hp1 : s.affineParam (affineBase n) = (displayReg s (0x10 * n)).signExtend 32 := by
    rw [hab, displayReg_eq s _ (isStorage_low (by omega) (by omega) (by omega)) (by omega)]; rfl
  have hp2 : s.affineParam (affineBase n + 2) = (displayReg s (0x10 * n + 2)).signExtend 32 := by
    rw [hab, displayReg_eq s _ (isStorage_low (by omega) (by omega) (by omega)) (by omega)]; rfl
  have hshift : ∀ w : Word, (w.sshiftRight 8).toInt = w.toInt / 256 := by
    intro w; rw [BitVec.toInt_sshiftRight, Int.shiftRight_eq_div_pow]; rfl
  have hwr : (bgWraps cnt = false) ↔ cnt / 2^13 % 2 = 0 := by
    unfold bgWraps; rw [bit_eq, decide_eq_false_iff_not]; omega
  unfold affinePixel
  simp only [hc, hz, ← hrx, ← hry, hp1, hp2, affine_coord _ _ _ _ hfx, affine_coord _ _ _ _ hfy, hshift, ← htx, ← hty, ← hside, hwr]
  by_cases hin : 0 ≤ tx ∧ tx < side ∧ 0 ≤ ty ∧ ty < side
  · rw [if_neg (by omega), if_neg (fun h => h.2 hin), ← hmx, ← hmy, Int.toNat_natCast, Int.toNat_natCast, ← vramByte_eq, hsb', hcb', ← vramByte_eq, ← hi,
      ← paletteHalf_eq _ _ (by rw [hi]; exact Nat.lt_trans (vramByte_lt s _) (by decide))]
    rfl
  · by_cases hw : cnt / 2^13 % 2 = 0
    · rw [if_pos ⟨hw, by omega⟩, if_pos ⟨hw, hin⟩]
    · rw [if_neg (fun h => hw h.1), if_neg (fun h => hw h.1), ← hmx, ← hmy, Int.toNat_natCast, Int.toNat_natCast, ← vramByte_eq, hsb', hcb', ← vramByte_eq, ← hi,
      ← paletteHalf_eq _ _ (by rw [hi]; exact Nat.lt_trans (vramByte_lt s _) (by decide))]
      rfl

/-! ## Sprites (R780 to R784) -/

/-- The first answer in `0 … n − 1`. -/
theorem findSome_range {α : Type} (f : Nat → Option α) (a : α) : ∀ n,
    (List.range n).findSome? f = some a ↔ ∃ k, k < n ∧ f k = some a ∧ ∀ k', k' < k → f k' = none := by
  intro n
  induction n with
  | zero => simp
  | succ n ih =>
    rw [List.range_succ, List.findSome?_append]
    cases h : (List.range n).findSome? f with
    | some b =>
      rw [h] at ih
      rw [Option.some_or]
      constructor
      · intro hb
        obtain ⟨k, hk, h2⟩ := ih.1 hb
        exact ⟨k, by omega, h2⟩
      · rintro ⟨k, hk, h1, h2⟩
        apply ih.2
        by_cases hkn : k < n
        · exact ⟨k, hkn, h1, h2⟩
        · exfalso
          have hkn : k = n := by omega
          subst hkn
          rw [List.findSome?_eq_none_iff.2 (fun x hx => h2 x (List.mem_range.1 hx))] at h
          cases h
    | none =>
      rw [h] at ih
      rw [Option.none_or]
      have hn : ∀ k, k < n → f k = none := fun k hk => (List.findSome?_eq_none_iff.1 h) k (List.mem_range.2 hk)
      simp only [List.findSome?_cons, List.findSome?_nil]
      constructor
      · intro hb
        refine ⟨n, by omega, ?_, hn⟩
        cases hf : f n with
        | none => rw [hf] at hb; cases hb
        | some b => rw [hf] at hb; simpa using hb
      · rintro ⟨k, hk, h1, _⟩
        have : k = n := by
          by_cases hkn : k < n
          · rw [hn k hkn] at h1; cases h1
          · omega
        subst this
        rw [h1]

/-- The table of R781. -/
theorem spriteDims_mem (shape size w h : Nat) (hs : size < 4) :
    (shape, size, w, h) ∈ spriteSizes ↔ shape < 3 ∧ w = (spriteDims shape size).1 ∧ h = (spriteDims shape size).2 := by
  by_cases h3 : shape < 3
  · have : (shape = 0 ∨ shape = 1 ∨ shape = 2) ∧ (size = 0 ∨ size = 1 ∨ size = 2 ∨ size = 3) := by omega
    obtain ⟨rfl | rfl | rfl, rfl | rfl | rfl | rfl⟩ := this <;> simp [spriteSizes, spriteDims]
  · have : ∀ e ∈ spriteSizes, e.1 < 3 := by decide
    constructor
    · intro hm; exact absurd (this _ hm) h3
    · intro hm; exact absurd hm.1 h3

theorem spriteDims_le (shape size : Nat) : (spriteDims shape size).1 ≤ 64 ∧ (spriteDims shape size).2 ≤ 64 := by
  unfold spriteDims; split <;> decide

theorem oamHalf_lt (s : State) (o : Nat) : oamHalf s o < 65536 := BitVec.isLt _

theorem shows_iff (i p c : Nat) : opaqueColour i p = some c ↔ some c = shows i p := by
  unfold opaqueColour shows; exact ⟨Eq.symm, Eq.symm⟩

/-- What a sprite draws into a line buffer (R780 to R784). -/
theorem spriteCell_draws (s : State) (line q col k c : Nat) (semi : Bool) (hl : line < 160) (hc : col < 240) (hk : k < 128) :
    spriteCell s line q col k = some { colour := c, semi := semi } ↔
      SpriteDraws s (oamHalf s (8 * k)) (oamHalf s (8 * k + 2)) (oamHalf s (8 * k + 4)) line q col c semi := by
  have e0 := oamHalf_eq s (8 * k) (by omega) (by omega)
  have e1 := oamHalf_eq s (8 * k + 2) (by omega) (by omega)
  have e2 := oamHalf_eq s (8 * k + 4) (by omega) (by omega)
  have l0 := oamHalf_lt s (8 * k)
  have l1 := oamHalf_lt s (8 * k + 2)
  have l2 := oamHalf_lt s (8 * k + 4)
  generalize oamHalf s (8 * k) = a0 at *
  generalize oamHalf s (8 * k + 2) = a1 at *
  generalize oamHalf s (8 * k + 4) = a2 at *
  have hd : bit s.dispcnt 6 = (displayReg s 0).getLsbD 6 := by
    rw [show s.dispcnt = (displayReg s 0).toNat from ppuReg_eq s 0 (by omega) (by omega) (by omega) rfl, bit_eq,
      BitVec.getLsbD, Nat.testBit_eq_decide_div_mod_eq]
  have hsp : s.sprite k = {
      y := a0 % 256, x := a1 % 512, affine := decide (a0 / 2^8 % 2 = 1),
      disabled := !decide (a0 / 2^8 % 2 = 1) && decide (a0 / 2^9 % 2 = 1), gfx := a0 / 2^10 % 4,
      bpp8 := decide (a0 / 2^13 % 2 = 1), shape := a0 / 2^14, size := a1 / 2^14,
      hflip := !decide (a0 / 2^8 % 2 = 1) && decide (a1 / 2^12 % 2 = 1),
      vflip := !decide (a0 / 2^8 % 2 = 1) && decide (a1 / 2^13 % 2 = 1),
      tile := a2 % 2^10, prio := a2 / 2^10 % 4, bank := a2 / 2^12 } := by
    unfold State.sprite
    simp only [← e0, ← e1, ← e2, bit_eq, fld0]
    rw [show fld a0 10 2 = a0 / 2^10 % 4 from rfl, show fld a0 14 2 = a0 / 2^14 by unfold fld; omega,
      show fld a1 14 2 = a1 / 2^14 by unfold fld; omega, show fld a2 10 2 = a2 / 2^10 % 4 from rfl,
      show fld a2 12 4 = a2 / 2^12 by unfold fld; omega, show (2:Nat)^8 = 256 from rfl, show (2:Nat)^9 = 512 from rfl]
  obtain ⟨hw64, hh64⟩ := spriteDims_le (a0 / 2^14) (a1 / 2^14)
  have hmem := fun w h => spriteDims_mem (a0 / 2^14) (a1 / 2^14) w h (by omega)
  have hobj : ∀ r j, r < (spriteDims (a0 / 2^14) (a1 / 2^14)).2 → j < (spriteDims (a0 / 2^14) (a1 / 2^14)).1 → ∀ w h, w = (spriteDims (a0 / 2^14) (a1 / 2^14)).1 →
      h = (spriteDims (a0 / 2^14) (a1 / 2^14)).2 →
      (objPixel s (s.sprite k) j r = some c ↔ ∃ sx sy t i : Nat,
        sx = (if a0 / 2^8 % 2 = 0 ∧ a1 / 2^12 % 2 = 1 then w - 1 - j else j)
        ∧ sy = (if a0 / 2^8 % 2 = 0 ∧ a1 / 2^13 % 2 = 1 then h - 1 - r else r)
        ∧ (a0 / 2^13 % 2 = 0 → t = a2 % 2^10 + sy / 8 * (if (displayReg s 0).getLsbD 6 then w / 8 else 32) + sx / 8
          ∧ i = (vramByte s (0x10000 + t % 0x400 * 32 + sy % 8 * 4 + sx % 8 / 2)) / (if sx % 2 = 1 then 16 else 1) % 16
          ∧ some c = shows i (paletteHalf s (256 + a2 / 2^12 * 16 + i)))
        ∧ (a0 / 2^13 % 2 = 1 → t = a2 % 2^10 + sy / 8 * (if (displayReg s 0).getLsbD 6 then 2 * (w / 8) else 32) + 2 * (sx / 8)
          ∧ i = vramByte s (0x10000 + t % 0x400 * 32 + sy % 8 * 8 + sx % 8)
          ∧ some c = shows i (paletteHalf s (256 + i)))) := by
    intro r j _ _ w h hw hh
    have hf : ∀ b1 b2 : Nat, (!decide (b1 % 2 = 1) && decide (b2 % 2 = 1)) = decide (b1 % 2 = 0 ∧ b2 % 2 = 1) := by
      intro b1 b2; rw [← decide_not, Bool.decide_and]; congr 1; apply decide_eq_decide.2; omega
    rw [hsp]
    unfold objPixel
    simp only [hf, decide_eq_true_eq, ← hw, ← hh, hd]
    generalize (if a0 / 2^8 % 2 = 0 ∧ a1 / 2^12 % 2 = 1 then w - 1 - j else j) = sx
    generalize (if a0 / 2^8 % 2 = 0 ∧ a1 / 2^13 % 2 = 1 then h - 1 - r else r) = sy
    have hmi : ∀ (p : Bool) (a b c : Nat), (if p = true then a * b else a * c) = a * if p = true then b else c := by
      intro p a b c; cases p <;> rfl
    by_cases h13 : a0 / 2^13 % 2 = 1
    · rw [if_pos h13, show sy / 8 * 2 * (w / 8) = sy / 8 * (2 * (w / 8)) from Nat.mul_assoc .., hmi]
      constructor
      · intro h
        refine ⟨sx, sy, _, _, rfl, rfl, fun h0 => absurd h13 (by omega), fun _ => ⟨rfl, rfl, ?_⟩⟩
        rw [← shows_iff, paletteHalf_eq _ _ (vramByte_lt512 s _ _ (by decide)), vramByte_eq]
        exact h
      · rintro ⟨sx, sy, t, i, rfl, rfl, _, h1⟩
        obtain ⟨rfl, rfl, h⟩ := h1 h13
        rw [← shows_iff, paletteHalf_eq _ _ (vramByte_lt512 s _ _ (by decide)), vramByte_eq] at h
        exact h
    · rw [if_neg h13, hmi]
      have hn : ∀ b, b < 256 → nibble b sx = b / (if sx % 2 = 1 then 16 else 1) % 16 := by
        intro b hb; unfold nibble; split <;> omega
      constructor
      · intro h
        refine ⟨sx, sy, _, _, rfl, rfl, fun _ => ⟨rfl, rfl, ?_⟩, fun h0 => absurd h0 h13⟩
        rw [← shows_iff, paletteHalf_eq _ _ (by omega), ← hn _ (vramByte_lt _ _), vramByte_eq]
        exact h
      · rintro ⟨sx, sy, t, i, rfl, rfl, h1, _⟩
        obtain ⟨rfl, rfl, h⟩ := h1 (by omega)
        rw [← shows_iff, paletteHalf_eq _ _ (by omega), ← hn _ (vramByte_lt _ _), vramByte_eq] at h
        exact h
  unfold spriteCell
  simp only
  rw [hsp] at hobj
  rw [hsp]
  simp only
  have hskip : ∀ o : Sprite, o.skipped = false ↔ o.shape ≠ 3 ∧ o.disabled = false ∧ o.gfx < 2 := by
    intro o; unfold Sprite.skipped; simp [and_assoc]
  simp only [hskip]
  constructor
  · intro h
    split at h
    · rename_i hh
      obtain ⟨⟨hs3, hdis, hg⟩, hq, hr, hj⟩ := hh
      simp only [Option.map_eq_some_iff, ObjCell.mk.injEq] at h
      obtain ⟨c', ho, rfl, hsemi⟩ := h
      obtain ⟨sx, sy, t, i, hsx, hsy, h4, h8⟩ := (hobj _ _ hr hj _ _ rfl rfl).1 ho
      refine ⟨⟨?_, hg⟩, hq, by rw [← hsemi]; rfl, _, _, _, _, sx, sy, t, i, (hmem _ _).2 ⟨by omega, rfl, rfl⟩, hr, by omega, hj, by omega, hsx, hsy, h4, h8⟩
      intro h2
      simp at hdis
      omega
    · cases h
  · rintro ⟨⟨hd2, hg⟩, hq, hsemi, w, h, r, j, sx, sy, t, i, hm, hr, hline, hj, hcol, hsx, hsy, h4, h8⟩
    obtain ⟨hs3, hw, hh⟩ := (hmem _ _).1 hm
    have er : (line + 256 - a0 % 256) % 256 = r := by omega
    have ej : (col + 512 - a1 % 512) % 512 = j := by omega
    rw [er, ej, if_pos ⟨⟨by omega, by simp; omega, hg⟩, hq, by omega, by omega⟩]
    rw [(hobj r j (by omega) (by omega) w h hw hh).2 ⟨sx, sy, t, i, hsx, hsy, h4, h8⟩, hsemi]
    rfl

/-! ## The compositor (R788 to R796) -/

/-- The candidate at a place in the order of R788 below the backdrop's. -/
def candidateAt (s : State) (line x p : Nat) : Option Pixel :=
  if p % 8 = 0 then objCandidate s line x (p / 8) else bgCandidate s line x (p / 8) (p % 8 - 1)

/-- The places of sprites and backgrounds, in order. -/
def places : List Nat := [0, 1, 2, 3, 4, 8, 9, 10, 11, 12, 16, 17, 18, 19, 20, 24, 25, 26, 27, 28]

/-- The candidates of a pixel with their places. -/
def ranked (s : State) (line x : Nat) : List (Nat × Pixel) :=
  (places.filterMap fun p => (candidateAt s line x p).map (Prod.mk p)) ++ [(32, { layer := .backdrop, colour := s.palette 0 })]

theorem filterMap_toList {α β : Type} (f : α → Option β) (a : α) (l : List α) :
    (a :: l).filterMap f = (f a).toList ++ l.filterMap f := by
  rw [List.filterMap_cons]; cases f a <;> rfl

theorem ranked_candidates (s : State) (line x : Nat) : (ranked s line x).map Prod.snd = candidates s line x := by
  have h : ∀ p, Option.map Prod.snd ((candidateAt s line x p).map (Prod.mk p)) = candidateAt s line x p := by
    intro p; cases candidateAt s line x p <;> rfl
  unfold ranked candidates places
  rw [List.map_append, List.map_filterMap]
  simp only [h, filterMap_toList, List.filterMap_nil, List.flatMap_cons, List.flatMap_nil, List.append_nil, List.append_assoc,
    List.map_cons, List.map_nil]
  rfl

theorem ranked_sorted (s : State) (line x : Nat) : (ranked s line x).Pairwise fun a b => a.1 < b.1 := by
  unfold ranked
  refine List.pairwise_append.2 ⟨List.pairwise_filterMap.2 ?_, List.pairwise_singleton _ _, ?_⟩
  · refine List.Pairwise.imp ?_ (show places.Pairwise (· < ·) by decide)
    intro p q hpq a ha b hb
    obtain ⟨_, _, rfl⟩ := Option.map_eq_some_iff.1 ha
    obtain ⟨_, _, rfl⟩ := Option.map_eq_some_iff.1 hb
    exact hpq
  · intro a ha b hb
    obtain ⟨p, hp, h⟩ := List.mem_filterMap.1 ha
    obtain ⟨_, _, rfl⟩ := Option.map_eq_some_iff.1 h
    rw [List.mem_singleton.1 hb]
    exact (show ∀ p ∈ places, p < 32 by decide) p hp

/-- The table of R742. -/
theorem bgKind_legal (mode n : Nat) (hm : mode < 8) (hn : n < 4) (k : BgKind) :
    bgKind mode n = some k ↔ (mode, n, k) ∈ legalBackgrounds := by
  have h : ∀ (m : Fin 8) (n : Fin 4), bgKind m.val n.val = some k ↔ (m.val, n.val, k) ∈ legalBackgrounds := by
    cases k <;> decide
  exact h ⟨mode, hm⟩ ⟨n, hn⟩

/-- The ranked candidates are those of the statements. -/
theorem ranked_mem (s : State) (line x : Nat) (p : Nat) (l : Layer) (c : Nat) :
    (p, { layer := l, colour := c : Pixel }) ∈ ranked s line x ↔ Candidate s line x p l c := by
  have hd : s.dispcnt = (displayReg s 0).toNat := ppuReg_eq s 0 (by omega) (by omega) (by omega) rfl
  have hb : ∀ k, bit s.dispcnt k = (displayReg s 0).getLsbD k := by
    intro k; rw [hd, bit_eq, BitVec.getLsbD, Nat.testBit_eq_decide_div_mod_eq]
  have hpl : ∀ p, p ∈ places ↔ p < 32 ∧ p % 8 < 5 := by
    intro p
    constructor
    · revert p; decide
    · rintro ⟨h1, h2⟩; revert p; decide
  unfold ranked
  rw [List.mem_append, List.mem_filterMap, List.mem_singleton]
  constructor
  · rintro (⟨p', hp', h⟩ | h)
    · obtain ⟨px, h, he⟩ := Option.map_eq_some_iff.1 h
      injection he with e1 e2
      subst e1 e2
      obtain ⟨h32, h5⟩ := (hpl _).1 hp'
      unfold candidateAt at h
      split at h
      · unfold objCandidate at h
        split at h
        · rename_i h8 hon
          obtain ⟨o, ho, he⟩ := Option.map_eq_some_iff.1 h
          injection he with e1 e2
          subst e1 e2
          have := Candidate.obj (s := s) (line := line) (x := x) (p' / 8) o.colour o.semi (by omega) (by rw [← hb]; exact hon) ho
          rwa [show 8 * (p' / 8) = p' by omega] at this
        · cases h
      · unfold bgCandidate at h
        split at h
        · rename_i h8 hon
          split at h
          · rename_i k hk
            obtain ⟨c', hc, he⟩ := Option.map_eq_some_iff.1 h
            injection he with e1 e2
            subst e1 e2
            have := Candidate.bg (s := s) (line := line) (x := x) (p' % 8 - 1) c' k (by rw [← hb]; exact hon.1)
              ((bgKind_legal _ _ (by omega) (by omega) _).1 (by rw [← hd]; exact (by simpa [fld] using hk))) hc
            rw [← bgcnt_eq s _ (by omega)] at this
            have hq : s.bgcnt (p' % 8 - 1) % 4 = p' / 8 := by rw [← hon.2]; unfold bgPrio fld; simp
            rwa [hq, show 8 * (p' / 8) + 1 + (p' % 8 - 1) = p' by omega] at this
          · cases h
        · cases h
    · injection h with e1 e2
      injection e2 with e2 e3
      subst e1 e2 e3
      rw [← paletteHalf_eq s 0 (by omega)]
      exact .backdrop
  · intro h
    cases h with
    | obj q c semi hq on h =>
      refine .inl ⟨8 * q, (hpl _).2 (by omega), ?_⟩
      unfold candidateAt objCandidate
      rw [if_pos (by omega), show 8 * q / 8 = q by omega, hb, if_pos on, h]
      rfl
    | bg n c kind on legal h =>
      have hn : n < 4 := (show ∀ e ∈ legalBackgrounds, e.2.1 < 4 by decide) _ legal
      refine .inl ⟨8 * ((displayReg s (8 + 2 * n)).toNat % 4) + 1 + n, (hpl _).2 (by omega), ?_⟩
      unfold candidateAt bgCandidate
      rw [if_neg (by omega), show (8 * ((displayReg s (8 + 2 * n)).toNat % 4) + 1 + n) / 8 = (displayReg s (8 + 2 * n)).toNat % 4 by omega,
        show (8 * ((displayReg s (8 + 2 * n)).toNat % 4) + 1 + n) % 8 - 1 = n by omega, hb, bgcnt_eq s n hn,
        if_pos ⟨on, by unfold bgPrio fld; simp⟩,
        show bgKind (fld s.dispcnt 0 3) n = some kind by rw [hd]; unfold fld; simpa using (bgKind_legal _ _ (by omega) hn _).2 legal]
      simp only
      rw [h]
      rfl
    | backdrop => exact .inr (by rw [paletteHalf_eq s 0 (by omega)])

/-- The least element of a sorted list is its head, and the rest is what is greater. -/
theorem head_least {α : Type} (l : List (Nat × α)) (x : Nat × α) (hs : l.Pairwise fun a b => a.1 < b.1) (hx : x ∈ l)
    (hm : ∀ y ∈ l, x.1 ≤ y.1) : ∃ r, l = x :: r ∧ r.Pairwise (fun a b => a.1 < b.1) ∧ ∀ y, y ∈ r ↔ y ∈ l ∧ x.1 < y.1 := by
  cases l with
  | nil => cases hx
  | cons y r =>
    obtain ⟨h1, h2⟩ := List.pairwise_cons.1 hs
    have hxy : x = y := by
      rcases List.mem_cons.1 hx with h | h
      · exact h
      · have := h1 x h; have := hm y (List.mem_cons_self ..); omega
    subst hxy
    refine ⟨r, rfl, h2, fun z => ⟨fun hz => ⟨List.mem_cons_of_mem _ hz, h1 z hz⟩, fun hz => ?_⟩⟩
    rcases List.mem_cons.1 hz.1 with h | h
    · subst h; exact absurd hz.2 (by omega)
    · exact h

theorem bit_ppu (v : Half) (i : Nat) : bit v.toNat i = v.getLsbD i := by
  rw [bit_eq, BitVec.getLsbD, Nat.testBit_eq_decide_div_mod_eq]

theorem targetBit_eq (l : Layer) : l.targetBit = targetOf l := by cases l <;> rfl

theorem channels_of (r g b : Nat) (hr : r < 32) (hg : g < 32) (hb : b < 32) :
    channel (colourOf r g b) 0 = r ∧ channel (colourOf r g b) 1 = g ∧ channel (colourOf r g b) 2 = b := by
  unfold channel colourOf
  simp only [Nat.reduceMul, Nat.reducePow]
  omega

theorem channel_three {p : Nat → Prop} (h0 : p 0) (h1 : p 1) (h2 : p 2) : ∀ k, k < 3 → p k := by
  intro k hk
  match k with
  | 0 => exact h0
  | 1 => exact h1
  | 2 => exact h2

theorem channel_lt (c k : Nat) : channel c k < 32 := Nat.mod_lt _ (by decide)

theorem channel_map (f : Nat → Nat) (hf : ∀ t, t < 32 → f t < 32) (c : Nat) :
    ∀ k, k < 3 → channel (mapChannels f c) k = f (channel c k) := by
  have h := channels_of (f (red c)) (f (green c)) (f (blue c)) (hf _ (channel_lt c 0))
    (hf _ (channel_lt c 1)) (hf _ (channel_lt c 2))
  exact channel_three h.1 h.2.1 h.2.2

theorem channel_zip (f : Nat → Nat → Nat) (hf : ∀ t b, f t b < 32) (a b : Nat) :
    ∀ k, k < 3 → channel (zipChannels f a b) k = f (channel a k) (channel b k) := by
  have h := channels_of (f (red a) (red b)) (f (green a) (green b)) (f (blue a) (blue b)) (hf _ _) (hf _ _) (hf _ _)
  exact channel_three h.1 h.2.1 h.2.2

/-- The blend rule of R791, channel by channel. -/
theorem blend_channel (cnt alpha y : Half) (layer : Layer) (top : Nat) (below : Option (Layer × Nat)) : ∀ k, k < 3 →
    channel (blend cnt.toNat alpha.toNat y.toNat { layer := layer, colour := top } (below.map fun p => { layer := p.1, colour := p.2 })) k
      = blendedChannel cnt alpha y layer top below k := by
  intro k hk
  have hfirst : firstTarget cnt.toNat layer = cnt.getLsbD (targetOf layer) := by unfold firstTarget; rw [bit_ppu, targetBit_eq]
  have hsecond : ∀ l, secondTarget cnt.toNat l = cnt.getLsbD (8 + targetOf l) := by intro l; unfold secondTarget; rw [bit_ppu, targetBit_eq]
  have hmode : fld cnt.toNat 6 2 = cnt.toNat / 2^6 % 4 := rfl
  have hco : ∀ (v : Half) lo, blendCoefficient v.toNat lo = coefficient v lo := fun _ _ => rfl
  have hsemi : layer.isSemi = true ↔ layer = .obj true := by cases layer <;> simp [Layer.isSemi]
  have hc16 : ∀ (v : Half) lo, coefficient v lo ≤ 16 := fun _ _ => Nat.min_le_left ..
  have hplain : channel (if fld cnt.toNat 6 2 = 2 ∧ firstTarget cnt.toNat layer = true then mapChannels (brighten (blendCoefficient y.toNat 0)) top
      else if fld cnt.toNat 6 2 = 3 ∧ firstTarget cnt.toNat layer = true then mapChannels (darken (blendCoefficient y.toNat 0)) top else top) k
      = if cnt.toNat / 2^6 % 4 = 2 ∧ cnt.getLsbD (targetOf layer) = true then channel top k + (31 - channel top k) * coefficient y 0 / 16
        else if cnt.toNat / 2^6 % 4 = 3 ∧ cnt.getLsbD (targetOf layer) = true then channel top k - channel top k * coefficient y 0 / 16
        else channel top k := by
    simp only [hmode, hfirst, hco]
    split
    · rw [channel_map _ _ _ _ hk]
      · rfl
      · intro t ht
        have h1 : (31 - t) * coefficient y 0 ≤ (31 - t) * 16 := Nat.mul_le_mul_left _ (hc16 y 0)
        unfold brighten; omega
    · split
      · rw [channel_map _ _ _ _ hk]
        · rfl
        · intro t ht; unfold darken; omega
      · rfl
  unfold blend blendedChannel
  simp only [hmode, hfirst, hco, hsemi] at hplain ⊢
  cases below with
  | none => simp only [Option.map_none, Option.filter_none, ite_self]; exact hplain
  | some p =>
    obtain ⟨l, c⟩ := p
    simp only [Option.map_some, Option.filter_some, hsecond]
    by_cases h1 : (cnt.toNat / 2^6 % 4 = 1 ∧ cnt.getLsbD (targetOf layer) = true) ∨ layer = .obj true
    · by_cases h2 : cnt.getLsbD (8 + targetOf l) = true
      · simp only [h1, h2, if_true, true_and]
        rw [channel_zip _ _ _ _ _ hk]
        · rfl
        · intro t b; unfold alphaChannel; omega
      · simp only [h1, h2, if_true]; exact hplain
    · simp only [h1, if_false, false_and]; exact hplain

theorem renderPixel_rest (s : State) (ts : Vector Timer 4) (f : Half) (b : Bool) :
    renderPixel { s with timers := ts, if_ := f, halted := b } = renderPixel s := rfl

/-- The halted rest of a scanline changes nothing the renderer reads (R673, R675). -/
theorem haltedRest_eq (s : State) : haltedRest s =
    { s with timers := (haltedRest s).timers, if_ := (haltedRest s).if_, halted := (haltedRest s).halted } := by
  unfold haltedRest
  split
  · have h : (if 0 < s.left then timersUpdate s s.left.toNat else s)
        = { s with timers := (if 0 < s.left then timersUpdate s s.left.toNat else s).timers, if_ := (if 0 < s.left then timersUpdate s s.left.toNat else s).if_ } := by
      split
      · exact timersUpdate_rest s _
      · rfl
    generalize (if 0 < s.left then timersUpdate s s.left.toNat else s) = u at h ⊢
    simp only
    split <;> rw [h]
  · rfl

theorem renderRow_congr (s t : State) (h : renderPixel s = renderPixel t) (line n x : Nat) (fb : List (Nat × Half)) :
    renderRow s line n x fb = renderRow t line n x fb := by
  induction n generalizing x fb with
  | zero => rfl
  | succ n ih => unfold renderRow; rw [h, ih]

theorem host_channels (c d : Nat) (h : ∀ k, k < 3 → channel c k = channel d k) : hostPixel c = hostPixel d := by
  have h0 := h 0 (by decide)
  have h1 := h 1 (by decide)
  have h2 := h 2 (by decide)
  unfold channel at h0 h1 h2
  simp only [Nat.reduceMul, Nat.reducePow] at h0 h1 h2
  unfold hostPixel red green blue fld
  simp only [Nat.reducePow]
  rw [h0, h1, h2]

/-- A pixel is its first candidate blended with its second (R788, R791, R796). -/
theorem compose_blended (s : State) (line x place top out : Nat) (layer : Layer) (below : Option (Layer × Nat))
    (h : Candidate s line x place layer top) (hm : ∀ p l c, Candidate s line x p l c → place ≤ p) (hn : below = none → place = 32)
    (hb : ∀ l c, below = some (l, c) → ∃ p, place < p ∧ Candidate s line x p l c
        ∧ ∀ p' l' c', Candidate s line x p' l' c' → place < p' → p ≤ p')
    (ho : ∀ k, k < 3 → channel out k = blendedChannel (displayReg s 0x50) (displayReg s 0x52) (displayReg s 0x54) layer top below k) :
    renderPixel s line x = hostPixel out := by
  have mem := ranked_mem s line x
  obtain ⟨r, h1, h2, h3⟩ := head_least (ranked s line x) (place, { layer := layer, colour := top }) (ranked_sorted s line x) ((mem _ _ _).2 h)
    fun y hy => hm y.1 y.2.layer y.2.colour ((mem _ _ _).1 hy)
  have h4 : (r.map Prod.snd).head? = below.map fun p => { layer := p.1, colour := p.2 : Pixel } := by
    cases below with
    | none =>
      have hr : r = [] := by
        apply List.eq_nil_iff_forall_not_mem.2
        intro y hy
        obtain ⟨h5, h6⟩ := (h3 y).1 hy
        have h7 : y.1 ≤ 32 := by
          unfold ranked at h5
          rcases List.mem_append.1 h5 with h5 | h5
          · obtain ⟨p, hp, h8⟩ := List.mem_filterMap.1 h5
            obtain ⟨_, _, rfl⟩ := Option.map_eq_some_iff.1 h8
            have := (show ∀ p ∈ places, p < 32 by decide) p hp
            omega
          · exact Nat.le_of_eq (by rw [List.mem_singleton.1 h5])
        rw [hn rfl] at h6; omega
      rw [hr]; rfl
    | some p =>
      obtain ⟨q, hq, hc, hl⟩ := hb p.1 p.2 rfl
      obtain ⟨r', h5, _⟩ := head_least r (q, { layer := p.1, colour := p.2 }) h2 ((h3 _).2 ⟨(mem _ _ _).2 hc, hq⟩)
        fun y hy => hl y.1 y.2.layer y.2.colour ((mem _ _ _).1 ((h3 y).1 hy).1) ((h3 y).1 hy).2
      rw [h5]; rfl
  unfold renderPixel compose
  rw [← ranked_candidates, h1]
  simp only [List.map_cons]
  rw [h4, ppuReg_eq s 0x50 (by decide) (by decide) (by decide) rfl, ppuReg_eq s 0x52 (by decide) (by decide) (by decide) rfl,
    ppuReg_eq s 0x54 (by decide) (by decide) (by decide) rfl]
  apply host_channels
  intro k hk
  rw [ho k hk, blend_channel _ _ _ _ _ _ k hk]

end Sys2Proof.Machine
end

