-- ==== Sys2Proof/Laws/Rtc.lean ====
section
/-! SUPPORT. Laws/Rtc.lean: the real-time clock over its three lines (spec/61_devices.md R715 to R719): what one clocked
bit, a command byte, a data byte and a number of reading clocks do. -/

namespace Sys2Proof.Machine

/-- What one rising SCK edge does to the clock (R717), with the counter of free values. -/
def rtcEdge (r : Rtc) (k : Nat) (sio : Bool) : Rtc × Nat :=
  let t := rtcClock { State.reset with rtc := r, free := k } sio
  (t.rtc, t.free)

theorem rtcCommand_eq (s : State) (c : Byte) : ∃ r k, ∀ u : State, u.rtc = s.rtc → u.free = s.free →
    rtcCommand u c = { u with rtc := r, free := k } := by
  refine ⟨(rtcCommand s c).rtc, (rtcCommand s c).free, fun u hr hf => ?_⟩
  unfold rtcCommand
  simp only [hr, hf]
  split <;> (try split) <;> (cases u; cases hr; cases hf; rfl)

theorem rtcClock_eq (s : State) (b : Bool) :
    rtcClock s b = { s with rtc := (rtcEdge s.rtc s.free b).1, free := (rtcEdge s.rtc s.free b).2 } := by
  unfold rtcEdge rtcClock
  simp only
  split
  · split
    · obtain ⟨r, k, h⟩ := rtcCommand_eq { s with rtc := { s.rtc with command := (s.rtc.command <<< 1) ||| (if b then 1#8 else 0#8) } } ((s.rtc.command <<< 1) ||| (if b then 1#8 else 0#8))
      rw [h _ rfl rfl, h { State.reset with rtc := { s.rtc with command := (s.rtc.command <<< 1) ||| (if b then 1#8 else 0#8) }, free := s.free } rfl rfl]
    · rfl
  · split
    · rfl
    · split
      · split <;> rfl
      · rfl

theorem drivePins_eq (s : State) (v : Half) : drivePins s v = writeGpioData s v := by
  have h1 : align2 0x080000C4#32 = 0x080000C4#32 := by decide
  have h2 : regionOf 0x080000C4#32 = 8 := by decide
  have h3 : romOffset 0x080000C4#32 = 0xC4 := by decide
  have h4 : isRam 8 = false := by decide
  simp [drivePins, State.write16, write16With, h1, h2, h3, h4, writeGpio]

/-- The clock's lines as the port drives them when SCK and CS are outputs. -/
theorem drivePins_out (s : State) (v : Half) (hc : s.gpioCtrl.getLsbD 0 = true) (h0 : s.gpioDir.getLsbD 0 = true)
    (h2 : s.gpioDir.getLsbD 2 = true) : ∃ x y, (s.gpioDir.getLsbD 1 = true → y = v.getLsbD 1) ∧
      drivePins s v = rtcPins { s with gpioData := x } (v.getLsbD 0) y (v.getLsbD 2) := by
  refine ⟨(s.gpioData &&& ~~~s.gpioDir) ||| (v &&& s.gpioDir),
    ((s.gpioData &&& ~~~s.gpioDir) ||| (v &&& s.gpioDir)).getLsbD 1, fun h1 => by
      simp only [BitVec.getLsbD_or, BitVec.getLsbD_and, BitVec.getLsbD_not, h1]; simp, ?_⟩
  · rw [drivePins_eq]; unfold writeGpioData
    simp only [State.gpioVisible, hc, if_true]
    congr 1
    · simp only [BitVec.getLsbD_or, BitVec.getLsbD_and, BitVec.getLsbD_not, h0]; simp
    · simp only [BitVec.getLsbD_or, BitVec.getLsbD_and, BitVec.getLsbD_not, h2]; simp

/-- One bit clocked, with CS high already. -/
theorem rtcBit_eq (s : State) (b : Bool) (hc : s.gpioCtrl.getLsbD 0 = true) (h0 : s.gpioDir.getLsbD 0 = true)
    (h2 : s.gpioDir.getLsbD 2 = true) (hl : s.rtc.lastCs = true) :
    ∃ x y, (s.gpioDir.getLsbD 1 = true → y = b) ∧ rtcBit s b = { s with
      gpioData := x, free := (rtcEdge { s.rtc with lastSck := false } s.free y).2,
      rtc := { (rtcEdge { s.rtc with lastSck := false } s.free y).1 with lastSck := true, lastCs := true } } := by
  obtain ⟨x, y, -, e⟩ := drivePins_out s (if b then 6 else 4) hc h0 h2
  have e' : drivePins s (if b then 6 else 4) = { s with gpioData := x, rtc := { s.rtc with lastSck := false } } := by
    rw [e]
    have : ∀ y, rtcPins { s with gpioData := x } false y true = { s with gpioData := x, rtc := { s.rtc with lastSck := false } } := by
      intro y
      unfold rtcPins
      simp [hl]
    cases b <;> exact this y
  obtain ⟨x', y', h', e2⟩ := drivePins_out { s with gpioData := x, rtc := { s.rtc with lastSck := false } } (if b then 7 else 5) hc h0 h2
  refine ⟨x', y', fun h1 => ?_, ?_⟩
  · rw [h' h1]; cases b <;> rfl
  · unfold rtcBit
    rw [e', e2]
    have : ∀ y, rtcPins { s with gpioData := x', rtc := { s.rtc with lastSck := false } } true y true = { s with
        gpioData := x', free := (rtcEdge { s.rtc with lastSck := false } s.free y).2,
        rtc := { (rtcEdge { s.rtc with lastSck := false } s.free y).1 with lastSck := true, lastCs := true } } := by
      intro y
      unfold rtcPins
      simp [hl, rtcClock_eq]
    cases b <;> exact this y'

/-- The state of the clock and the counter after one bit (R717). -/
def rtcNext (p : Rtc × Nat) (b : Bool) : Rtc × Nat :=
  ({ (rtcEdge { p.1 with lastSck := false } p.2 b).1 with lastSck := true, lastCs := true },
    (rtcEdge { p.1 with lastSck := false } p.2 b).2)

/-- `n` bits clocked in with SIO an output: the port's data apart, what the clock's edges do one after the other. -/
theorem rtcBits_eq (bs : List Bool) : ∀ (s : State), s.gpioCtrl.getLsbD 0 = true → s.gpioDir = 7 → s.rtc.lastCs = true →
    ∃ x, bs.foldl rtcBit s = { s with
      gpioData := x,
      free := (bs.foldl rtcNext (s.rtc, s.free)).2,
      rtc := (bs.foldl rtcNext (s.rtc, s.free)).1 } := by
  induction bs with
  | nil => intro s _ _ _; exact ⟨s.gpioData, rfl⟩
  | cons b bs ih =>
    intro s hc hd hl
    obtain ⟨x, y, hy, e⟩ := rtcBit_eq s b hc (by rw [hd]; decide) (by rw [hd]; decide) hl
    obtain rfl := hy (by rw [hd]; decide)
    rw [List.foldl_cons, e]
    obtain ⟨x', e'⟩ := ih { s with gpioData := x, free := (rtcEdge { s.rtc with lastSck := false } s.free y).2, rtc := { (rtcEdge { s.rtc with lastSck := false } s.free y).1 with lastSck := true, lastCs := true } } hc hd rfl
    exact ⟨x', e'⟩

theorem rtcBegin_eq (s : State) (hc : s.gpioCtrl.getLsbD 0 = true) (hd : s.gpioDir = 7) :
    ∃ x, rtcBegin s = { s with gpioData := x, rtc := { rtcStart s.rtc with lastSck := false, lastCs := true } } := by
  obtain ⟨x, y, -, e⟩ := drivePins_out s 0 hc (by rw [hd]; decide) (by rw [hd]; decide)
  have e' : drivePins s 0 = { s with gpioData := x, rtc := { s.rtc with lastSck := false, lastCs := false, reading := false, writing := false } } := by
    rw [e]
    have : ∀ y, rtcPins { s with gpioData := x } false y false = { s with gpioData := x, rtc := { s.rtc with lastSck := false, lastCs := false, reading := false, writing := false } } := by
      intro y; unfold rtcPins; simp
    exact this y
  obtain ⟨x', y', -, e2⟩ := drivePins_out { s with gpioData := x, rtc := { s.rtc with lastSck := false, lastCs := false, reading := false, writing := false } } 4 hc (by rw [hd]; decide) (by rw [hd]; decide)
  refine ⟨x', ?_⟩
  unfold rtcBegin
  rw [e', e2]
  have : ∀ y, rtcPins { s with gpioData := x', rtc := { s.rtc with lastSck := false, lastCs := false, reading := false, writing := false } } false y true = { s with gpioData := x', rtc := { rtcStart s.rtc with lastSck := false, lastCs := true } } := by
    intro y; unfold rtcPins; simp [rtcStart]
  exact this y'

theorem rtcNext_command (r : Rtc) (k : Nat) (b : Bool) (i j : Fin 8) (h : r.haveCommand = false) (hi : r.bitIndex = i) (h7 : i ≠ 7) (hj : i + 1 = j) :
    rtcNext (r, k) b = ({ r with command := (r.command <<< 1) ||| (if b then 1#8 else 0#8), bitIndex := j, lastSck := true, lastCs := true }, k) := by
  have : byteDone i = false := by simp [byteDone, h7]
  simp [rtcNext, rtcEdge, rtcClock, h, hi, this, hj]

theorem rtcNext_last (r : Rtc) (k : Nat) (b : Bool) (h : r.haveCommand = false) (hi : r.bitIndex = 7) :
    rtcNext (r, k) b =
      let c := (r.command <<< 1) ||| (if b then 1#8 else 0#8)
      let u := rtcCommand { State.reset with rtc := { r with command := c, lastSck := false }, free := k } c
      ({ u.rtc with bitIndex := 0, haveCommand := true, lastSck := true, lastCs := true }, u.free) := by
  simp [rtcNext, rtcEdge, rtcClock, h, hi, byteDone]

theorem shiftedIn (c : Byte) : [7, 6, 5, 4, 3, 2, 1, 0].foldl (fun (x : Byte) i => (x <<< 1) ||| (if c.getLsbD i then 1#8 else 0#8)) 0#8 = c := by
  revert c; decide

theorem rtcCommand_bits (r : Rtc) (k : Nat) (c : Byte) (h : r.haveCommand = false) (h0 : r.bitIndex = 0) (hc : r.command = 0) :
    ([7, 6, 5, 4, 3, 2, 1, 0].map fun i => c.getLsbD i).foldl rtcNext (r, k) =
      let u := rtcCommand { State.reset with rtc := { r with command := c, bitIndex := 7, lastSck := false, lastCs := true }, free := k } c
      ({ u.rtc with bitIndex := 0, haveCommand := true, lastSck := true, lastCs := true }, u.free) := by
  have e := shiftedIn c
  simp only [List.foldl_cons, List.foldl_nil] at e
  simp only [List.map_cons, List.map_nil, List.foldl_cons, List.foldl_nil]
  rw [rtcNext_command r k _ 0 1 h h0 (by decide) rfl, rtcNext_command _ k _ 1 2 (by exact h) (by rfl) (by decide) rfl, rtcNext_command _ k _ 2 3 (by exact h) (by rfl) (by decide) rfl,
    rtcNext_command _ k _ 3 4 (by exact h) (by rfl) (by decide) rfl, rtcNext_command _ k _ 4 5 (by exact h) (by rfl) (by decide) rfl, rtcNext_command _ k _ 5 6 (by exact h) (by rfl) (by decide) rfl,
    rtcNext_command _ k _ 6 7 (by exact h) (by rfl) (by decide) rfl, rtcNext_last _ k _ (by exact h) (by rfl)]
  simp only [hc]
  rw [show (0 : Byte) = 0#8 from rfl, e]

/-- After a command byte: the clock's state is what the command makes of it. -/
theorem rtcSendCommand_eq (s : State) (c : Byte) (hc : s.gpioCtrl.getLsbD 0 = true) (hd : s.gpioDir = 7) :
    ∃ x, ∃ u : State, u = rtcCommand { State.reset with rtc := { rtcStart s.rtc with command := c, bitIndex := 7, lastSck := false, lastCs := true }, free := s.free } c ∧
      rtcSendCommand (rtcBegin s) c = { s with
        gpioData := x, free := u.free,
        rtc := { u.rtc with bitIndex := 0, haveCommand := true, lastSck := true, lastCs := true } } := by
  obtain ⟨x, e⟩ := rtcBegin_eq s hc hd
  have h := rtcBits_eq ([7, 6, 5, 4, 3, 2, 1, 0].map fun i => c.getLsbD i) (rtcBegin s) (by rw [e]; exact hc) (by rw [e]; exact hd) (by rw [e])
  obtain ⟨x', e'⟩ := h
  refine ⟨x', _, rfl, ?_⟩
  have hm : rtcSendCommand (rtcBegin s) c = ([7, 6, 5, 4, 3, 2, 1, 0].map fun i => c.getLsbD i).foldl rtcBit (rtcBegin s) := by
    rw [List.foldl_map]; rfl
  rw [hm, e']
  rw [e, rtcCommand_bits _ _ _ rfl rfl rfl]

theorem rtcCommand_other (s : State) (c : Byte)
    (h : c ∉ [0x60#8, 0x61#8, 0x62#8, 0x63#8, 0x64#8, 0x65#8, 0x66#8, 0x67#8]) : rtcCommand s c = s := by
  have hn : ∀ k : Nat, k < 256 → c ≠ BitVec.ofNat 8 k → c.toNat ≠ k := by
    intro k hk hc e
    exact hc (by rw [← e]; simp)
  simp only [List.mem_cons, List.not_mem_nil, or_false, not_or] at h
  obtain ⟨a0, a1, a2, a3, a4, a5, a6, a7⟩ := h
  have b0 := hn 0x60 (by decide) a0; have b1 := hn 0x61 (by decide) a1; have b2 := hn 0x62 (by decide) a2
  have b3 := hn 0x63 (by decide) a3; have b4 := hn 0x64 (by decide) a4; have b5 := hn 0x65 (by decide) a5
  have b6 := hn 0x66 (by decide) a6; have b7 := hn 0x67 (by decide) a7
  unfold rtcCommand
  split
  · omega
  · omega
  · omega
  · omega
  · rfl

theorem rtcNext_read (r : Rtc) (k : Nat) (b : Bool) (h : r.haveCommand = true) (hr : r.reading = true) :
    rtcNext (r, k) b = ({ r with
      sioOut := r.buffer[r.bufferPos].getLsbD r.bitIndex.val, bitIndex := r.bitIndex + 1,
      bufferPos := if byteDone r.bitIndex then nextPos r.bufferPos else r.bufferPos, lastSck := true, lastCs := true }, k) := by
  simp [rtcNext, rtcEdge, rtcClock, h, hr]

/-- A bit but the last of the first byte received. -/
theorem rtcNext_write (r : Rtc) (k : Nat) (b : Bool) (i j : Fin 8) (h : r.haveCommand = true) (hr : r.reading = false)
    (hw : r.writing = true) (hp : r.bufferPos = 0) (hi : r.bitIndex = i) (h7 : i ≠ 7) (hj : i + 1 = j) :
    ∃ r', rtcNext (r, k) b = (r', k) ∧ r'.haveCommand = true ∧ r'.reading = false ∧ r'.writing = true ∧ r'.bufferPos = 0
      ∧ r'.bitIndex = j ∧ r'.command = r.command ∧ r'.status = r.status
      ∧ r'.buffer[0] = setByteBit r.buffer[0] i.val b := by
  have : byteDone i = false := by simp [byteDone, h7]
  have e : rtcNext (r, k) b = ({ r with
      buffer := r.buffer.set r.bufferPos (setByteBit r.buffer[r.bufferPos] i.val b),
      bitIndex := i + 1, lastSck := true, lastCs := true }, k) := by
    simp [rtcNext, rtcEdge, rtcClock, h, hr, hw, hi, this]
  rw [e]
  exact ⟨_, rfl, h, hr, hw, hp, hj, rfl, rfl, by simp [hp]⟩

theorem rtcNext_store (r : Rtc) (k : Nat) (b : Bool) (h : r.haveCommand = true) (hr : r.reading = false) (hw : r.writing = true)
    (h7 : r.bitIndex = 7) :
    rtcNext (r, k) b = ({ rtcStoreByte { r with
      lastSck := false, buffer := r.buffer.set r.bufferPos (setByteBit r.buffer[r.bufferPos] r.bitIndex.val b) } r.bufferPos with
        bitIndex := 0, bufferPos := nextPos r.bufferPos, lastSck := true, lastCs := true }, k) := by
  simp [rtcNext, rtcEdge, rtcClock, h, hr, hw, h7, byteDone]

theorem setBits_all (v : Byte) : [0, 1, 2, 3, 4, 5, 6, 7].foldl (fun (x : Byte) i => setByteBit x i (v.getLsbD i)) 0#8 = v := by
  revert v; decide

/-- A data byte received first after a write command. -/
theorem rtcSendData_status (s : State) (v : Byte) (hc : s.gpioCtrl.getLsbD 0 = true) (hd : s.gpioDir = 7) (hl : s.rtc.lastCs = true)
    (h : s.rtc.haveCommand = true) (hr : s.rtc.reading = false) (hw : s.rtc.writing = true) (hi : s.rtc.bitIndex = 0)
    (hp : s.rtc.bufferPos = 0) (hb : s.rtc.buffer[0] = 0) :
    (rtcSendData s v).rtc.status = if s.rtc.command.toNat / 2 * 2 = 0x62 then v else s.rtc.status := by
  obtain ⟨x, e⟩ := rtcBits_eq ([0, 1, 2, 3, 4, 5, 6, 7].map fun i => v.getLsbD i) s hc hd hl
  have hm : rtcSendData s v = ([0, 1, 2, 3, 4, 5, 6, 7].map fun i => v.getLsbD i).foldl rtcBit s := by
    rw [List.foldl_map]; rfl
  have ev := setBits_all v
  rw [hm, e]
  simp only [List.map_cons, List.map_nil, List.foldl_cons, List.foldl_nil] at ev ⊢
  obtain ⟨r1, e1, h1, hr1, hw1, hp1, hi1, hc1, hs1, hb1⟩ := rtcNext_write s.rtc s.free (v.getLsbD 0) 0 1 h hr hw hp hi (by decide) rfl
  obtain ⟨r2, e2, h2, hr2, hw2, hp2, hi2, hc2, hs2, hb2⟩ := rtcNext_write r1 s.free (v.getLsbD 1) 1 2 h1 hr1 hw1 hp1 hi1 (by decide) rfl
  obtain ⟨r3, e3, h3, hr3, hw3, hp3, hi3, hc3, hs3, hb3⟩ := rtcNext_write r2 s.free (v.getLsbD 2) 2 3 h2 hr2 hw2 hp2 hi2 (by decide) rfl
  obtain ⟨r4, e4, h4, hr4, hw4, hp4, hi4, hc4, hs4, hb4⟩ := rtcNext_write r3 s.free (v.getLsbD 3) 3 4 h3 hr3 hw3 hp3 hi3 (by decide) rfl
  obtain ⟨r5, e5, h5, hr5, hw5, hp5, hi5, hc5, hs5, hb5⟩ := rtcNext_write r4 s.free (v.getLsbD 4) 4 5 h4 hr4 hw4 hp4 hi4 (by decide) rfl
  obtain ⟨r6, e6, h6, hr6, hw6, hp6, hi6, hc6, hs6, hb6⟩ := rtcNext_write r5 s.free (v.getLsbD 5) 5 6 h5 hr5 hw5 hp5 hi5 (by decide) rfl
  obtain ⟨r7, e7, h7, hr7, hw7, hp7, hi7, hc7, hs7, hb7⟩ := rtcNext_write r6 s.free (v.getLsbD 6) 6 7 h6 hr6 hw6 hp6 hi6 (by decide) rfl
  rw [e1, e2, e3, e4, e5, e6, e7, rtcNext_store r7 s.free _ h7 hr7 hw7 hi7]
  have hb0 : s.rtc.buffer[0] = 0#8 := hb
  have hb8 : setByteBit r7.buffer[0] 7 (v.getLsbD 7) = v := by
    rw [hb7, hb6, hb5, hb4, hb3, hb2, hb1, hb0]; exact ev
  have hcc : r7.command = s.rtc.command := by rw [hc7, hc6, hc5, hc4, hc3, hc2, hc1]
  have hss : r7.status = s.rtc.status := by rw [hs7, hs6, hs5, hs4, hs3, hs2, hs1]
  simp only [rtcStoreByte, hp7, hi7, hcc, true_and]
  split
  · refine Eq.trans ?_ hb8
    simp <;> rfl
  · exact hss

/-- Reading: after `k` clocks. -/
theorem rtcClocks_eq (s : State) (hc : s.gpioCtrl.getLsbD 0 = true) (hd : s.gpioDir = 5) (hl : s.rtc.lastCs = true)
    (h : s.rtc.haveCommand = true) (hr : s.rtc.reading = true) (hi : s.rtc.bitIndex = 0) (hp : s.rtc.bufferPos = 0) :
    ∀ k, k ≤ 64 → ∃ x r, rtcClocks k s = { s with gpioData := x, rtc := r } ∧ r.lastCs = true ∧ r.haveCommand = true
      ∧ r.reading = true ∧ r.bitIndex.val = k % 8 ∧ r.bufferPos.val = min (k / 8) 7 ∧ r.buffer = s.rtc.buffer
      ∧ ∀ j (hj : j < 64), k = j + 1 → r.sioOut = s.rtc.buffer[j / 8].getLsbD (j % 8) := by
  intro k
  induction k with
  | zero => intro _; exact ⟨s.gpioData, s.rtc, rfl, hl, h, hr, by rw [hi]; rfl, by rw [hp]; rfl, rfl, fun j _ e => by omega⟩
  | succ k ih =>
    intro hk
    obtain ⟨x, r, e, rl, rh, rr, ri, rp, rb, -⟩ := ih (by omega)
    obtain ⟨x', y, -, e2⟩ := rtcBit_eq (rtcClocks k s) false (by rw [e]; exact hc) (by rw [e]; simp only [hd]; decide) (by rw [e]; simp only [hd]; decide) (by rw [e]; exact rl)
    have en := rtcNext_read r s.free y rh rr
    simp only [rtcNext, Prod.mk.injEq] at en
    refine ⟨x', { r with
      sioOut := r.buffer[r.bufferPos].getLsbD r.bitIndex.val, bitIndex := r.bitIndex + 1,
      bufferPos := if byteDone r.bitIndex then nextPos r.bufferPos else r.bufferPos, lastSck := true, lastCs := true }, ?_, rfl, rh, rr, ?_, ?_, rb, ?_⟩
    · show rtcBit (rtcClocks k s) false = _
      rw [e2, e]
      simp only
      rw [en.2, en.1]
    · simp only [Fin.val_add, ri]
      show (k % 8 + 1) % 8 = _
      omega
    · simp only
      by_cases h7 : k % 8 = 7
      · have : r.bitIndex = 7 := Fin.ext (by rw [ri, h7]; rfl)
        simp only [this, byteDone, beq_self_eq_true, if_true, nextPos]
        split
        · rename_i h8; rw [h8] at rp; show 7 = _; omega
        · rename_i h8
          have : r.bufferPos.val ≠ 7 := fun hh => h8 (Fin.ext hh)
          show (r.bufferPos.val + 1) % 8 = _
          have := r.bufferPos.isLt
          omega
      · have : byteDone r.bitIndex = false := by
          simp only [byteDone, beq_eq_false_iff_ne]
          intro hh; rw [hh] at ri; exact h7 ri.symm
        simp only [this, Bool.false_eq_true, if_false]; omega
    · intro j hj ej
      obtain rfl : k = j := by omega
      simp only [rb, ri]
      have : r.bufferPos.val = k / 8 := by omega
      simp only [Fin.getElem_fin, this]

end Sys2Proof.Machine
end

