-- ==== Sys2Proof/Tests/Slice0.lean ====
section
/-! SUPPORT. Tests/Slice0.lean: the model's own tests. The words are written out from spec/30_encoding.md; the expected
results are the worked examples of the spec's rules (the rule stands before each test) and hand calculation from them. Last
come the witnesses: for each statement of Certificates/Slice0/Obligations.lean that has hypotheses, values that meet them. -/

namespace Sys2Proof.Tests

set_option Elab.async false

open Sys2Proof Sys2Proof.Machine

/-! ## Well-formedness: each check refuses a term -/

/-- R168: a multiply is no undefined word of row 5u, and bit 4 belongs to it. -/
theorem test_wf_undefMul : (Instr.undefMul .al 0x0000291).wf = false ∧ (Instr.undefMul .al 0x19101A2).wf = false
    ∧ (Instr.undefMul .al 0x19101B2).wf = true := by decide
/-- R168: with S, or with the bits of BX, MRS or MSR, it is no undefined comparison. -/
theorem test_wf_undefCompare : (Instr.undefCompare .al 0x1110002).wf = false ∧ (Instr.undefCompare .al 0x12FFF10).wf = false
    ∧ (Instr.undefCompare .al 0x10F0000).wf = false ∧ (Instr.undefCompare .al 0x129F000).wf = false
    ∧ (Instr.undefCompare .al 0x328F20F).wf = false ∧ (Instr.undefCompare .al 0x1010002).wf = true := by decide
/-- R168: bit 4 clear is a transfer. -/
theorem test_wf_undefTransfer : (Instr.undefTransfer .al 0x7910002).wf = false ∧ (Instr.undefTransfer .al 0x7910012).wf = true := by decide
/-- R163: post-indexed with W = 1 is the T form. -/
theorem test_wf_transfer : (Instr.ldr .al false true true 1 0 (.imm 4)).wf = false ∧ (Instr.str .al false true true 1 0 (.imm 4)).wf = false
    ∧ (Instr.ldrb .al false true true 1 0 (.imm 4)).wf = false ∧ (Instr.strb .al false true true 1 0 (.imm 4)).wf = false
    ∧ (Instr.ldr .al false true false 1 0 (.imm 4)).wf = true := by decide
/-- R373, R374: R15 in the list makes the exception return. -/
theorem test_wf_block : (Instr.ldmRet .al false true true 13 0x0001).wf = false ∧ (Instr.ldmUser .al false true false 0 0x8000).wf = false
    ∧ (Instr.ldmRet .al false true true 13 0x8001).wf = true := by decide

/-! ## Decoding: every constructor from a word written out from its encoding -/

/-- R153, R154, R169. -/
theorem test_decode_psr :
    decodeArm 0xF3A00001 = .armNever 0x3A00001
    ∧ decodeArm 0xE12FFF10 = .bx .al 0
    ∧ decodeArm 0xE14F0000 = .mrs .al true 0
    ∧ decodeArm 0xE129F000 = .msrReg .al false 9 0
    ∧ decodeArm 0xE328F20F = .msrImm .al false 8 2 0x0F := by decide

/-- R155 to R157. -/
theorem test_decode_multiply :
    decodeArm 0xE0000291 = .mul .al false 0 0 2 1
    ∧ decodeArm 0xE0203291 = .mla .al false 0 3 2 1
    ∧ decodeArm 0xE0810392 = .umull .al false 1 0 3 2
    ∧ decodeArm 0xE0A10392 = .umlal .al false 1 0 3 2
    ∧ decodeArm 0xE0C10392 = .smull .al false 1 0 3 2
    ∧ decodeArm 0xE0F10392 = .smlal .al true 1 0 3 2
    ∧ decodeArm 0xE1010092 = .swp .al 1 0 2
    ∧ decodeArm 0xE1410092 = .swpb .al 1 0 2 := by decide

/-- R158. -/
theorem test_decode_halfword :
    decodeArm 0xE19100B2 = .ldrhReg .al true true false 1 0 2
    ∧ decodeArm 0xE1D100B3 = .ldrhImm .al true true false 1 0 3
    ∧ decodeArm 0xE18100B2 = .strhReg .al true true false 1 0 2
    ∧ decodeArm 0xE16123B4 = .strhImm .al true false true 1 2 0x34
    ∧ decodeArm 0xE19100D2 = .ldrsbReg .al true true false 1 0 2
    ∧ decodeArm 0xE1D100D1 = .ldrsbImm .al true true false 1 0 1
    ∧ decodeArm 0xE19100F2 = .ldrshReg .al true true false 1 0 2
    ∧ decodeArm 0xE0D100F2 = .ldrshImm .al false true false 1 0 2 := by decide

/-- R168. -/
theorem test_decode_undefined :
    decodeArm 0xE19101B2 = .undefMul .al 0x19101B2
    ∧ decodeArm 0xE1010002 = .undefCompare .al 0x1010002
    ∧ decodeArm 0xE7910012 = .undefTransfer .al 0x7910012 := by decide

/-- R160 to R162. -/
theorem test_decode_data_processing :
    decodeArm 0xE0110002 = .and .al true 1 0 (.shiftImm 2 .lsl 0)
    ∧ decodeArm 0xE0210002 = .eor .al false 1 0 (.shiftImm 2 .lsl 0)
    ∧ decodeArm 0xE0510002 = .sub .al true 1 0 (.shiftImm 2 .lsl 0)
    ∧ decodeArm 0xE2610004 = .rsb .al false 1 0 (.imm 0 4)
    ∧ decodeArm 0xE0910312 = .add .al true 1 0 (.shiftReg 2 .lsl 3)
    ∧ decodeArm 0xE0A10002 = .adc .al false 1 0 (.shiftImm 2 .lsl 0)
    ∧ decodeArm 0xE0C10002 = .sbc .al false 1 0 (.shiftImm 2 .lsl 0)
    ∧ decodeArm 0xE0E10002 = .rsc .al false 1 0 (.shiftImm 2 .lsl 0)
    ∧ decodeArm 0xE1110002 = .tst .al 1 0 (.shiftImm 2 .lsl 0)
    ∧ decodeArm 0xE1310002 = .teq .al 1 0 (.shiftImm 2 .lsl 0)
    ∧ decodeArm 0xE1510002 = .cmp .al 1 0 (.shiftImm 2 .lsl 0)
    ∧ decodeArm 0xE1710002 = .cmn .al 1 0 (.shiftImm 2 .lsl 0)
    ∧ decodeArm 0xE1810002 = .orr .al false 1 0 (.shiftImm 2 .lsl 0)
    ∧ decodeArm 0xE1A00231 = .mov .al false 0 0 (.shiftReg 1 .lsr 2)
    ∧ decodeArm 0xE1C10002 = .bic .al false 1 0 (.shiftImm 2 .lsl 0)
    ∧ decodeArm 0xE1E00062 = .mvn .al false 0 0 (.shiftImm 2 .ror 0) := by decide

/-- R163, R164. -/
theorem test_decode_transfer :
    decodeArm 0xE4B10004 = .ldrt .al true 1 0 (.imm 4)
    ∧ decodeArm 0xE4A10004 = .strt .al true 1 0 (.imm 4)
    ∧ decodeArm 0xE4F10004 = .ldrbt .al true 1 0 (.imm 4)
    ∧ decodeArm 0xE4E10004 = .strbt .al true 1 0 (.imm 4)
    ∧ decodeArm 0xE7B10142 = .ldr .al true true true 1 0 (.reg 2 .asr 2)
    ∧ decodeArm 0xE4810004 = .str .al false true false 1 0 (.imm 4)
    ∧ decodeArm 0xE5D10FFF = .ldrb .al true true false 1 0 (.imm 0xFFF)
    ∧ decodeArm 0xE5610001 = .strb .al true false true 1 0 (.imm 1)
    ∧ decodeArm 0xE8FD8001 = .ldmRet .al false true true 13 0x8001
    ∧ decodeArm 0xE8D06000 = .ldmUser .al false true false 0 0x6000
    ∧ decodeArm 0xE8C06000 = .stmUser .al false true false 0 0x6000
    ∧ decodeArm 0xE8B00003 = .ldm .al false true true 0 3
    ∧ decodeArm 0xE92D4003 = .stm .al true false true 13 0x4003 := by decide

/-- R165 to R167. -/
theorem test_decode_branch_coprocessor :
    decodeArm 0x0AFFFFFE = .b .eq 0xFFFFFE
    ∧ decodeArm 0xEB000002 = .bl .al 2
    ∧ decodeArm 0xEF060000 = .swi .al 0x060000
    ∧ decodeArm 0xECB21305 = .ldc .al false true false true 2 1 3 5
    ∧ decodeArm 0xEDC21305 = .stc .al true true true false 2 1 3 5
    ∧ decodeArm 0xEE321345 = .cdp .al 3 2 1 3 2 5
    ∧ decodeArm 0xEE721355 = .mrc .al 3 2 1 3 2 5
    ∧ decodeArm 0xEE621355 = .mcr .al 3 2 1 3 2 5 := by decide

/-- R180 to R182. -/
theorem test_decode_thumb_shift_immediate :
    decodeThumb 0x0088 = .tLslImm 2 1 0
    ∧ decodeThumb 0x0808 = .tLsrImm 0 1 0
    ∧ decodeThumb 0x105A = .tAsrImm 1 3 2
    ∧ decodeThumb 0x1888 = .tAddReg 2 1 0
    ∧ decodeThumb 0x1A88 = .tSubReg 2 1 0
    ∧ decodeThumb 0x1DC8 = .tAddImm3 7 1 0
    ∧ decodeThumb 0x1E48 = .tSubImm3 1 1 0
    ∧ decodeThumb 0x20FF = .tMovImm8 0 0xFF
    ∧ decodeThumb 0x2905 = .tCmpImm8 1 5
    ∧ decodeThumb 0x3201 = .tAddImm8 2 1
    ∧ decodeThumb 0x3B10 = .tSubImm8 3 0x10 := by decide

/-- R183. -/
theorem test_decode_thumb_alu :
    decodeThumb 0x4008 = .tAnd 1 0
    ∧ decodeThumb 0x4048 = .tEor 1 0
    ∧ decodeThumb 0x4088 = .tLslReg 1 0
    ∧ decodeThumb 0x40C8 = .tLsrReg 1 0
    ∧ decodeThumb 0x4108 = .tAsrReg 1 0
    ∧ decodeThumb 0x4148 = .tAdc 1 0
    ∧ decodeThumb 0x4188 = .tSbc 1 0
    ∧ decodeThumb 0x41C8 = .tRorReg 1 0
    ∧ decodeThumb 0x4208 = .tTst 1 0
    ∧ decodeThumb 0x4248 = .tNeg 1 0
    ∧ decodeThumb 0x4288 = .tCmpReg 1 0
    ∧ decodeThumb 0x42C8 = .tCmn 1 0
    ∧ decodeThumb 0x4308 = .tOrr 1 0
    ∧ decodeThumb 0x4348 = .tMul 1 0
    ∧ decodeThumb 0x4388 = .tBic 1 0
    ∧ decodeThumb 0x43C8 = .tMvn 1 0 := by decide

/-- R184. -/
theorem test_decode_thumb_high :
    decodeThumb 0x4440 = .tAddHi 8 0
    ∧ decodeThumb 0x4548 = .tCmpHi 9 0
    ∧ decodeThumb 0x46F7 = .tMovHi 14 15
    ∧ decodeThumb 0x4770 = .tBx 14 0
    ∧ decodeThumb 0x4783 = .tBlxReg 0 3 := by decide

/-- R185 to R190. -/
theorem test_decode_thumb_transfer :
    decodeThumb 0x4801 = .tLdrPc 0 1
    ∧ decodeThumb 0x5088 = .tStrReg 2 1 0
    ∧ decodeThumb 0x5288 = .tStrhReg 2 1 0
    ∧ decodeThumb 0x5488 = .tStrbReg 2 1 0
    ∧ decodeThumb 0x5688 = .tLdsbReg 2 1 0
    ∧ decodeThumb 0x5888 = .tLdrReg 2 1 0
    ∧ decodeThumb 0x5A88 = .tLdrhReg 2 1 0
    ∧ decodeThumb 0x5C88 = .tLdrbReg 2 1 0
    ∧ decodeThumb 0x5E88 = .tLdshReg 2 1 0
    ∧ decodeThumb 0x6048 = .tStrImm 1 1 0
    ∧ decodeThumb 0x6848 = .tLdrImm 1 1 0
    ∧ decodeThumb 0x7048 = .tStrbImm 1 1 0
    ∧ decodeThumb 0x7848 = .tLdrbImm 1 1 0
    ∧ decodeThumb 0x8048 = .tStrhImm 1 1 0
    ∧ decodeThumb 0x8848 = .tLdrhImm 1 1 0
    ∧ decodeThumb 0x9001 = .tStrSp 0 1
    ∧ decodeThumb 0x9801 = .tLdrSp 0 1 := by decide

/-- R191 to R194. -/
theorem test_decode_thumb_stack :
    decodeThumb 0xA001 = .tAddPc 0 1
    ∧ decodeThumb 0xA902 = .tAddSp 1 2
    ∧ decodeThumb 0xB002 = .tIncSp 2
    ∧ decodeThumb 0xB082 = .tDecSp 2
    ∧ decodeThumb 0xB403 = .tPush false 3
    ∧ decodeThumb 0xB503 = .tPush true 3
    ∧ decodeThumb 0xBD03 = .tPop true 3
    ∧ decodeThumb 0xC006 = .tStmia 0 6
    ∧ decodeThumb 0xC806 = .tLdmia 0 6 := by decide

/-- R195. -/
theorem test_decode_thumb_conditional :
    decodeThumb 0xD0FE = .tBeq 0xFE
    ∧ decodeThumb 0xD1FE = .tBne 0xFE
    ∧ decodeThumb 0xD2FE = .tBcs 0xFE
    ∧ decodeThumb 0xD3FE = .tBcc 0xFE
    ∧ decodeThumb 0xD4FE = .tBmi 0xFE
    ∧ decodeThumb 0xD5FE = .tBpl 0xFE
    ∧ decodeThumb 0xD6FE = .tBvs 0xFE
    ∧ decodeThumb 0xD7FE = .tBvc 0xFE
    ∧ decodeThumb 0xD8FE = .tBhi 0xFE
    ∧ decodeThumb 0xD9FE = .tBls 0xFE
    ∧ decodeThumb 0xDAFE = .tBge 0xFE
    ∧ decodeThumb 0xDBFE = .tBlt 0xFE
    ∧ decodeThumb 0xDCFE = .tBgt 0xFE
    ∧ decodeThumb 0xDDFE = .tBle 0xFE := by decide

/-- R196 to R198. -/
theorem test_decode_thumb_branch :
    decodeThumb 0xDF06 = .tSwi 6
    ∧ decodeThumb 0xE7FE = .tB 0x7FE
    ∧ decodeThumb 0xE87E = .tBlxLow 0x07E
    ∧ decodeThumb 0xF7FF = .tBlHigh 0x7FF
    ∧ decodeThumb 0xF87E = .tBlLow 0x07E := by decide

/-- R199. -/
theorem test_decode_thumb_undefined :
    decodeThumb 0xDE01 = .tUndefCond 1
    ∧ decodeThumb 0xB100 = .tUndefB1 0
    ∧ decodeThumb 0xB3FF = .tUndefB2 0x1FF
    ∧ decodeThumb 0xB7FF = .tUndefB6 0x1FF
    ∧ decodeThumb 0xBBFF = .tUndefB8 0x3FF
    ∧ decodeThumb 0xBE00 = .tUndefBE 0 := by decide

/-- R89, R150: bytes are little-endian, the rest is answered, and a shortage of bytes is refused by name. -/
theorem test_decode_bytes : decode true [0x05, 0x21, 0xFF] = .ok (.tMovImm8 1 5, [0xFF]) ∧ decode false [0x1E, 0xFF, 0x2F] = .error .truncatedArm
    ∧ decode true [0x05] = .error .truncatedThumb := ⟨rfl, rfl, rfl⟩
/-- The same through the opcode table's numbering of bits. -/
theorem test_decode_table_word : decodeTableWord 32 0xE12FFF1E = some (.bx .al 14)
    ∧ decodeTableWord 16 0x4770 = some (.tBx 14 0) := by decide

/-! ## The shifter (R205 to R215) -/

/-- R206 to R209: a 5-bit amount of 0. -/
theorem test_shift_zero_amount :
    operand2 (State.reset.setReg 1 0x80000001#32) (.shiftImm 1 .lsr 0) = { value := 0, carry := true }
    ∧ operand2 (State.reset.setReg 1 0x80000001#32) (.shiftImm 1 .asr 0) = { value := 0xFFFFFFFF#32, carry := true }
    ∧ operand2 (State.reset.setReg 1 3#32) (.shiftImm 1 .ror 0) = { value := 1, carry := true } := by decide +kernel
/-- R210 to R213: an amount in a register, at 32 and above. -/
theorem test_shift_large_amount :
    operand2 ((State.reset.setReg 1 0xFFFFFFFF#32).setReg 2 33#32) (.shiftReg 1 .lsl 2) = { value := 0, carry := false }
    ∧ operand2 ((State.reset.setReg 1 0x80000000#32).setReg 2 32#32) (.shiftReg 1 .ror 2) = { value := 0x80000000#32, carry := true }
    ∧ operand2 ((State.reset.setReg 1 0x80000000#32).setReg 2 33#32) (.shiftReg 1 .asr 2) = { value := 0xFFFFFFFF#32, carry := true } := by
  decide +kernel

/-! ## One step: the worked examples of the rules -/

/-- The state whose next step runs the word `w`, with `f` applied to the state after reset first. -/
def placed (nbits w : Nat) (f : State → State) : State := (f State.reset).withFetchWord nbits w

/-- That step completes and `o` holds of the state after it. -/
def after (nbits w : Nat) (f : State → State) (o : State → Bool) : Bool :=
  match step (placed nbits w f) with
  | .next s => o s
  | _ => false

/-- That step stops with the fault `e`. -/
def stops (nbits w : Nat) (f : State → State) (e : Fault) : Bool :=
  match step (placed nbits w f) with
  | .fault e' => e' == e
  | _ => false

/-- R201. -/
theorem test_moveq_fails : after 32 0x03A00001 (fun s => s)
    (fun s => s.reg 0 == 0x0#32 && s.r15 == 0x800000c#32) = true := by decide +kernel
/-- R169. -/
theorem test_cond_never : after 32 0xF3A00001 (fun s => s)
    (fun s => s.reg 0 == 0x0#32 && s.r15 == 0x800000c#32) = true := by decide +kernel
/-- R241. -/
theorem test_bx_thumb : after 32 0xE12FFF10 (fun s => let s := s.setReg 0 0x3000101#32; s)
    (fun s => s.cpsr == 0x3f#32 && s.r15 == 0x3000104#32) = true := by decide +kernel
/-- R44. -/
theorem test_bx_unmapped : after 32 0xE12FFF10 (fun s => let s := s.setReg 0 0xa000001#32; s)
    (fun s => s.cpsr == 0x1f#32 && s.r15 == 0x800000c#32) = true := by decide +kernel
/-- R243. -/
theorem test_b_self : after 32 0xEAFFFFFE (fun s => s)
    (fun s => s.r15 == 0x8000008#32) = true := by decide +kernel
/-- R44. -/
theorem test_b_unmapped : after 32 0xEA3FFFFE (fun s => s)
    (fun s => s.r15 == 0x800000c#32) = true := by decide +kernel
/-- R244. -/
theorem test_bl : after 32 0xEB000002 (fun s => let s := { s with romSize := 0x1000 }; let s := { s with r15 := 0x8000010#32 + prefetchOffset s.thumb }; s)
    (fun s => s.reg 14 == 0x8000014#32 && s.r15 == 0x8000028#32) = true := by decide +kernel
/-- R250. -/
theorem test_mrs : after 32 0xE10F0000 (fun s => s)
    (fun s => s.reg 0 == 0x1f#32) = true := by decide +kernel
/-- R251. -/
theorem test_msr_reg_mode : after 32 0xE129F000 (fun s => let s := s.setReg 0 0x92#32; s)
    (fun s => s.cpsr == 0x92#32 && s.reg 13 == 0x3007fa0#32 && s.reg 14 == 0x0#32) = true := by decide +kernel
/-- R252. -/
theorem test_msr_imm_flags : after 32 0xE328F20F (fun s => s)
    (fun s => s.cpsr == 0xf000001f#32) = true := by decide +kernel
/-- R253. -/
theorem test_msr_user : after 32 0xE321F0D3 (fun s => let s := { s with cpsr := 0x10#32 }; s)
    (fun s => s.cpsr == 0x10#32) = true := by decide +kernel
/-- R161. -/
theorem test_movs_imm_rot : after 32 0xE3B004FF (fun s => s)
    (fun s => s.reg 0 == 0xff000000#32 && s.cpsr == 0xa000001f#32) = true := by decide +kernel
/-- R280. -/
theorem test_ands : after 32 0xE0110002 (fun s => let s := { s with cpsr := 0x2000001f#32 }; let s := s.setReg 1 0xf0f0f0f0#32; let s := s.setReg 2 0xff00ff0#32; s)
    (fun s => s.reg 0 == 0xf000f0#32 && s.cpsr == 0x2000001f#32) = true := by decide +kernel
/-- R281. -/
theorem test_eor : after 32 0xE0210002 (fun s => let s := s.setReg 1 0xffff0000#32; let s := s.setReg 2 0xffff00#32; s)
    (fun s => s.reg 0 == 0xff00ff00#32 && s.cpsr == 0x1f#32) = true := by decide +kernel
/-- R282. -/
theorem test_subs_pc_lr : after 32 0xE25EF004 (fun s => let s := { s with cpsr := 0x92#32 }; let s := s.setReg 14 0x8000104#32; let s := { s with spsrIrq := 0x1F#32 }; let s := { s with romSize := 0x1000 }; s)
    (fun s => s.cpsr == 0x1f#32 && s.r15 == 0x8000108#32) = true := by decide +kernel
/-- R222. -/
theorem test_subs : after 32 0xE0510002 (fun s => let s := s.setReg 1 0x80000000#32; let s := s.setReg 2 0x1#32; s)
    (fun s => s.reg 0 == 0x7fffffff#32 && s.cpsr == 0x3000001f#32) = true := by decide +kernel
/-- R283. -/
theorem test_rsb : after 32 0xE2610000 (fun s => let s := s.setReg 1 0x5#32; s)
    (fun s => s.reg 0 == 0xfffffffb#32) = true := by decide +kernel
/-- R284. -/
theorem test_add_pc : after 32 0xE28F0000 (fun s => let s := { s with romSize := 0x1000 }; let s := { s with r15 := 0x8000100#32 + prefetchOffset s.thumb }; s)
    (fun s => s.reg 0 == 0x8000108#32) = true := by decide +kernel
/-- R221. -/
theorem test_adds : after 32 0xE0910002 (fun s => let s := s.setReg 1 0x7fffffff#32; let s := s.setReg 2 0x1#32; s)
    (fun s => s.reg 0 == 0x80000000#32 && s.cpsr == 0x9000001f#32) = true := by decide +kernel
/-- R285. -/
theorem test_adc : after 32 0xE0A10002 (fun s => let s := { s with cpsr := 0x2000001f#32 }; let s := s.setReg 1 0x1#32; let s := s.setReg 2 0x2#32; s)
    (fun s => s.reg 0 == 0x4#32) = true := by decide +kernel
/-- R223. -/
theorem test_adcs : after 32 0xE0B10002 (fun s => let s := { s with cpsr := 0x2000001f#32 }; let s := s.setReg 1 0xffffffff#32; let s := s.setReg 2 0x0#32; s)
    (fun s => s.reg 0 == 0x0#32 && s.cpsr == 0x6000001f#32) = true := by decide +kernel
/-- R286. -/
theorem test_sbc : after 32 0xE0C10002 (fun s => let s := s.setReg 1 0x5#32; let s := s.setReg 2 0x3#32; s)
    (fun s => s.reg 0 == 0x1#32) = true := by decide +kernel
/-- R223. -/
theorem test_sbcs : after 32 0xE0D10002 (fun s => s)
    (fun s => s.reg 0 == 0xffffffff#32 && s.cpsr == 0x8000001f#32) = true := by decide +kernel
/-- R287. -/
theorem test_rsc : after 32 0xE0E10002 (fun s => let s := { s with cpsr := 0x2000001f#32 }; let s := s.setReg 1 0x3#32; let s := s.setReg 2 0x5#32; s)
    (fun s => s.reg 0 == 0x2#32) = true := by decide +kernel
/-- R288. -/
theorem test_tst : after 32 0xE1110002 (fun s => let s := s.setReg 1 0x10#32; let s := s.setReg 2 0x1#32; s)
    (fun s => s.cpsr == 0x4000001f#32 && s.reg 0 == 0x0#32) = true := by decide +kernel
/-- R289. -/
theorem test_teq : after 32 0xE1310002 (fun s => let s := s.setReg 1 0x7#32; let s := s.setReg 2 0x7#32; s)
    (fun s => s.cpsr == 0x4000001f#32) = true := by decide +kernel
/-- R290. -/
theorem test_cmp : after 32 0xE1510002 (fun s => let s := s.setReg 1 0x3#32; let s := s.setReg 2 0x5#32; s)
    (fun s => s.cpsr == 0x8000001f#32) = true := by decide +kernel
/-- R291. -/
theorem test_cmn : after 32 0xE1710002 (fun s => let s := s.setReg 1 0xffffffff#32; let s := s.setReg 2 0x1#32; s)
    (fun s => s.cpsr == 0x6000001f#32) = true := by decide +kernel
/-- R292. -/
theorem test_orr : after 32 0xE1810002 (fun s => let s := s.setReg 1 0xf0#32; let s := s.setReg 2 0xf#32; s)
    (fun s => s.reg 0 == 0xff#32) = true := by decide +kernel
/-- R294. -/
theorem test_bic : after 32 0xE1C10002 (fun s => let s := s.setReg 1 0xff#32; let s := s.setReg 2 0xf#32; s)
    (fun s => s.reg 0 == 0xf0#32) = true := by decide +kernel
/-- R295. -/
theorem test_mvn : after 32 0xE1E00002 (fun s => s)
    (fun s => s.reg 0 == 0xffffffff#32) = true := by decide +kernel
/-- R274. -/
theorem test_mov_pc_shift : after 32 0xE1A0021F (fun s => s)
    (fun s => s.reg 0 == 0x8000008#32) = true := by decide +kernel
/-- R311. -/
theorem test_mul : after 32 0xE0000291 (fun s => let s := s.setReg 1 0x7#32; let s := s.setReg 2 0x6#32; s)
    (fun s => s.reg 0 == 0x2a#32) = true := by decide +kernel
/-- R310. -/
theorem test_muls : after 32 0xE0100291 (fun s => let s := { s with cpsr := 0x3000001f#32 }; let s := s.setReg 1 0xffffffff#32; let s := s.setReg 2 0x1#32; s)
    (fun s => s.reg 0 == 0xffffffff#32 && s.cpsr == 0xb000001f#32) = true := by decide +kernel
/-- R312. -/
theorem test_mla : after 32 0xE0203291 (fun s => let s := s.setReg 1 0x7#32; let s := s.setReg 2 0x6#32; let s := s.setReg 3 0x64#32; s)
    (fun s => s.reg 0 == 0x8e#32) = true := by decide +kernel
/-- R313. -/
theorem test_umull : after 32 0xE0810392 (fun s => let s := s.setReg 2 0xffffffff#32; let s := s.setReg 3 0xffffffff#32; s)
    (fun s => s.reg 0 == 0x1#32 && s.reg 1 == 0xfffffffe#32) = true := by decide +kernel
/-- R314. -/
theorem test_umlal : after 32 0xE0A10392 (fun s => let s := s.setReg 2 0xffffffff#32; let s := s.setReg 3 0x2#32; let s := s.setReg 0 0x3#32; s)
    (fun s => s.reg 0 == 0x1#32 && s.reg 1 == 0x2#32) = true := by decide +kernel
/-- R315. -/
theorem test_smull : after 32 0xE0C10392 (fun s => let s := s.setReg 2 0xfffffffe#32; let s := s.setReg 3 0x3#32; s)
    (fun s => s.reg 0 == 0xfffffffa#32 && s.reg 1 == 0xffffffff#32) = true := by decide +kernel
/-- R316. -/
theorem test_smlal : after 32 0xE0E10392 (fun s => let s := s.setReg 2 0xfffffffe#32; let s := s.setReg 3 0x3#32; let s := s.setReg 0 0xa#32; s)
    (fun s => s.reg 0 == 0x4#32 && s.reg 1 == 0x0#32) = true := by decide +kernel
/-- R332. -/
theorem test_ldr_rotated : after 32 0xE5910004 (fun s => let s := s.setReg 1 0x3000001#32; let s := s.write32 0x3000004#32 0x44332211#32; s)
    (fun s => s.reg 0 == 0x11443322#32 && s.reg 1 == 0x3000001#32) = true := by decide +kernel
/-- R88. -/
theorem test_ldr_unmapped : after 32 0xE5910000 (fun s => let s := s.setReg 1 0xa000000#32; let s := s.setReg 0 0x5#32; s)
    (fun s => s.reg 0 == 0x0#32) = true := by decide +kernel
/-- R333. -/
theorem test_str_post : after 32 0xE4810004 (fun s => let s := s.setReg 0 0xdeadbeef#32; let s := s.setReg 1 0x2000000#32; s)
    (fun s => s.read32 0x2000000#32 == 0xdeadbeef#32 && s.reg 1 == 0x2000004#32) = true := by decide +kernel
/-- R333. -/
theorem test_str_pc : after 32 0xE581F000 (fun s => let s := { s with romSize := 0x1000 }; let s := { s with r15 := 0x8000010#32 + prefetchOffset s.thumb }; let s := s.setReg 1 0x3000000#32; s)
    (fun s => s.read32 0x3000000#32 == 0x8000018#32) = true := by decide +kernel
/-- R334. -/
theorem test_ldrb : after 32 0xE7D10002 (fun s => let s := s.setReg 1 0x2000000#32; let s := s.setReg 2 0x3#32; let s := s.write8 0x2000003#32 0x80#8; s)
    (fun s => s.reg 0 == 0x80#32) = true := by decide +kernel
/-- R335. -/
theorem test_strb_pre : after 32 0xE5610001 (fun s => let s := s.setReg 0 0x123456ab#32; let s := s.setReg 1 0x3000010#32; s)
    (fun s => s.read32 0x300000c#32 == 0xab000000#32 && s.reg 1 == 0x300000f#32) = true := by decide +kernel
/-- R336. -/
theorem test_ldrt : after 32 0xE4B10004 (fun s => let s := s.setReg 1 0x2000000#32; let s := s.write32 0x2000000#32 0x9#32; s)
    (fun s => s.reg 0 == 0x9#32 && s.reg 1 == 0x2000004#32) = true := by decide +kernel
/-- R337. -/
theorem test_strt : after 32 0xE4A10004 (fun s => let s := s.setReg 0 0x9#32; let s := s.setReg 1 0x2000000#32; s)
    (fun s => s.read32 0x2000000#32 == 0x9#32 && s.reg 1 == 0x2000004#32) = true := by decide +kernel
/-- R338. -/
theorem test_ldrbt : after 32 0xE4F10004 (fun s => let s := s.setReg 1 0x2000000#32; let s := s.write32 0x2000000#32 0x1ff#32; s)
    (fun s => s.reg 0 == 0xff#32 && s.reg 1 == 0x2000004#32) = true := by decide +kernel
/-- R339. -/
theorem test_strbt : after 32 0xE4E10004 (fun s => let s := s.setReg 0 0x1ff#32; let s := s.setReg 1 0x2000000#32; s)
    (fun s => s.read32 0x2000000#32 == 0xff#32 && s.reg 1 == 0x2000004#32) = true := by decide +kernel
/-- R341. -/
theorem test_ldrh_odd : after 32 0xE1D100B3 (fun s => let s := s.setReg 1 0x2000000#32; let s := s.write16 0x2000002#32 0xbeef#16; s)
    (fun s => s.reg 0 == 0xbeef#32) = true := by decide +kernel
/-- R342. -/
theorem test_strh_palette : after 32 0xE1C100B2 (fun s => let s := s.setReg 0 0x12345678#32; let s := s.setReg 1 0x5000000#32; s)
    (fun s => s.read32 0x5000000#32 == 0x56780000#32) = true := by decide +kernel
/-- R343. -/
theorem test_ldrsb : after 32 0xE19100D2 (fun s => let s := s.setReg 1 0x2000000#32; let s := s.setReg 2 0x1#32; let s := s.write8 0x2000001#32 0x80#8; s)
    (fun s => s.reg 0 == 0xffffff80#32) = true := by decide +kernel
/-- R344. -/
theorem test_ldrsh_post : after 32 0xE0D100F2 (fun s => let s := s.setReg 1 0x2000000#32; let s := s.write16 0x2000000#32 0x8001#16; s)
    (fun s => s.reg 0 == 0xffff8001#32 && s.reg 1 == 0x2000002#32) = true := by decide +kernel
/-- R341. -/
theorem test_ldrh_reg : after 32 0xE19100B2 (fun s => let s := s.setReg 1 0x2000000#32; let s := s.setReg 2 0x2#32; let s := s.write16 0x2000002#32 0xbeef#16; s)
    (fun s => s.reg 0 == 0xbeef#32) = true := by decide +kernel
/-- R342. -/
theorem test_strh_reg : after 32 0xE18100B2 (fun s => let s := s.setReg 1 0x2000000#32; let s := s.setReg 2 0x2#32; let s := s.setReg 0 0x1beef#32; s)
    (fun s => s.read32 0x2000000#32 == 0xbeef0000#32) = true := by decide +kernel
/-- R343. -/
theorem test_ldrsb_imm : after 32 0xE1D100D1 (fun s => let s := s.setReg 1 0x2000000#32; let s := s.write8 0x2000001#32 0x80#8; s)
    (fun s => s.reg 0 == 0xffffff80#32) = true := by decide +kernel
/-- R344. -/
theorem test_ldrsh_reg : after 32 0xE19100F2 (fun s => let s := s.setReg 1 0x2000000#32; let s := s.setReg 2 0x2#32; let s := s.write16 0x2000002#32 0x8000#16; s)
    (fun s => s.reg 0 == 0xffff8000#32) = true := by decide +kernel
/-- R360. -/
theorem test_swp : after 32 0xE1010092 (fun s => let s := s.setReg 1 0x3000000#32; let s := s.write32 0x3000000#32 0x1#32; let s := s.setReg 2 0x2#32; s)
    (fun s => s.reg 0 == 0x1#32 && s.read32 0x3000000#32 == 0x2#32) = true := by decide +kernel
/-- R361. -/
theorem test_swpb : after 32 0xE1410092 (fun s => let s := s.setReg 1 0x3000000#32; let s := s.write32 0x3000000#32 0x1122337f#32; let s := s.setReg 2 0x1ff#32; s)
    (fun s => s.reg 0 == 0x7f#32 && s.read32 0x3000000#32 == 0x112233ff#32) = true := by decide +kernel
/-- R371. -/
theorem test_ldm_pc : after 32 0xE8BD8003 (fun s => let s := { s with romSize := 0x1000 }; let s := s.write32 0x3007f00#32 0x1#32; let s := s.write32 0x3007f04#32 0x2#32; let s := s.write32 0x3007f08#32 0x8000200#32; s)
    (fun s => s.reg 0 == 0x1#32 && s.reg 1 == 0x2#32 && s.reg 13 == 0x3007f0c#32 && s.r15 == 0x8000208#32) = true := by decide +kernel
/-- R372. -/
theorem test_stmdb : after 32 0xE92D4003 (fun s => let s := s.setReg 13 0x3007f0c#32; let s := s.setReg 0 0x1#32; let s := s.setReg 1 0x2#32; let s := s.setReg 14 0x8000200#32; s)
    (fun s => s.read32 0x3007f00#32 == 0x1#32 && s.read32 0x3007f04#32 == 0x2#32 && s.read32 0x3007f08#32 == 0x8000200#32 && s.reg 13 == 0x3007f00#32) = true := by decide +kernel
/-- R373. -/
theorem test_ldm_return : after 32 0xE8FD8001 (fun s => let s := { s with romSize := 0x1000 }; let s := { s with cpsr := 0x92#32 }; let s := s.setReg 13 0x3007f98#32; let s := { s with spsrIrq := 0x3F#32 }; let s := s.write32 0x3007f98#32 0x11#32; let s := s.write32 0x3007f9c#32 0x8000101#32; s)
    (fun s => s.reg 0 == 0x11#32 && s.cpsr == 0x3f#32 && s.r15 == 0x8000104#32 && s.regIn .irq 13 == 0x03007FA0#32) = true := by decide +kernel
/-- R374. -/
theorem test_stm_user : after 32 0xE8C06000 (fun s => let s := s.setReg 14 0x8000040#32; let s := { s with cpsr := 0x92#32 }; let s := s.setReg 0 0x3000000#32; let s := s.setReg 13 0xaaaa#32; let s := s.setReg 14 0xbbbb#32; s)
    (fun s => s.read32 0x3000000#32 == 0x3007f00#32 && s.read32 0x3000004#32 == 0x8000040#32) = true := by decide +kernel
/-- R374. -/
theorem test_ldm_user : after 32 0xE8D06000 (fun s => let s := { s with cpsr := 0x92#32 }; let s := s.setReg 0 0x3000000#32; let s := s.write32 0x3000000#32 0x7#32; let s := s.write32 0x3000004#32 0x8#32; s)
    (fun s => s.regIn .usr 13 == 0x7#32 && s.regIn .usr 14 == 0x8#32 && s.reg 13 == 0x3007fa0#32) = true := by decide +kernel
/-- R372. -/
theorem test_stm_base_later : after 32 0xE8A10003 (fun s => let s := s.setReg 1 0x2000000#32; let s := s.setReg 0 0x7#32; s)
    (fun s => s.read32 0x2000000#32 == 0x7#32 && s.read32 0x2000004#32 == 0x2000008#32 && s.reg 1 == 0x2000008#32) = true := by decide +kernel
/-- R375. -/
theorem test_ldmib : after 32 0xE9900006 (fun s => let s := s.setReg 0 0x2000000#32; let s := s.write32 0x2000004#32 0x55#32; let s := s.write32 0x2000008#32 0x66#32; s)
    (fun s => s.reg 1 == 0x55#32 && s.reg 2 == 0x66#32 && s.reg 0 == 0x2000000#32) = true := by decide +kernel
/-- R405. -/
theorem test_div : after 32 0xEF060000 (fun s => let s := s.setReg 0 0xf4240#32; let s := s.setReg 1 0x7#32; s)
    (fun s => s.reg 0 == 0x22e09#32 && s.reg 1 == 0x1#32 && s.reg 3 == 0x22e09#32 && s.cpsr == 0x1f#32 && s.r15 == 0x800000c#32) = true := by decide +kernel
/-- R405. -/
theorem test_div_neg : after 32 0xEF060000 (fun s => let s := s.setReg 0 0xfffffff9#32; let s := s.setReg 1 0x2#32; s)
    (fun s => s.reg 0 == 0xfffffffd#32 && s.reg 1 == 0xffffffff#32 && s.reg 3 == 0x3#32) = true := by decide +kernel
/-- R406. -/
theorem test_sqrt : after 32 0xEF080000 (fun s => let s := s.setReg 0 0xffffffff#32; s)
    (fun s => s.reg 0 == 0xffff#32) = true := by decide +kernel
/-- R407. -/
theorem test_cpuset : after 32 0xEF0B0000 (fun s => let s := s.write16 0x2000000#32 0xabcd#16; let s := s.setReg 0 0x2000000#32; let s := s.setReg 1 0x2000100#32; let s := s.setReg 2 0x1000010#32; s)
    (fun s => s.read32 0x2000100#32 == 0xabcdabcd#32 && s.read32 0x200011c#32 == 0xabcdabcd#32 && s.read32 0x2000120#32 == 0x0#32 && s.reg 0 == 0x2000000#32) = true := by decide +kernel
/-- R409. -/
theorem test_checksum : after 32 0xEF0D0000 (fun s => s)
    (fun s => s.reg 0 == 0xbaae187f#32) = true := by decide +kernel
/-- R410. -/
theorem test_lz77 : after 32 0xEF110000 (fun s => let s := s.write32 0x2000000#32 0x1010#32; let s := s.write32 0x2000004#32 0x43424104#32; let s := s.write32 0x2000008#32 0x4804544#32; let s := s.setReg 0 0x2000000#32; let s := s.setReg 1 0x2000100#32; s)
    (fun s => s.read32 0x2000100#32 == 0x44434241#32 && s.read32 0x200010c#32 == 0x41454443#32 && s.reg 0 == 0x200000c#32 && s.reg 1 == 0x2000110#32) = true := by decide +kernel
/-- R412. -/
theorem test_rl : after 32 0xEF140000 (fun s => let s := s.write32 0x2000000#32 0x830#32; let s := s.write32 0x2000004#32 0x102aa82#32; let s := s.write16 0x2000008#32 0x302#16; let s := s.setReg 0 0x2000000#32; let s := s.setReg 1 0x2000100#32; s)
    (fun s => s.read32 0x2000100#32 == 0xaaaaaaaa#32 && s.read32 0x2000104#32 == 0x30201aa#32 && s.reg 0 == 0x200000a#32 && s.reg 1 == 0x2000108#32) = true := by decide +kernel
/-- R401. -/
theorem test_halt : after 32 0xEF020000 (fun s => s)
    (fun s => s.halted == true && s.r15 == 0x800000c#32 && s.cpsr == 0x1f#32) = true := by decide +kernel
/-- R393. -/
theorem test_swi_unknown : after 32 0xEF010000 (fun s => let s := s.setReg 0 0x7#32; s)
    (fun s => s.reg 0 == 0x7#32 && s.r15 == 0x800000c#32) = true := by decide +kernel
/-- R430. -/
theorem test_cdp : after 32 0xEE000000 (fun s => let s := s.setReg 0 0x7#32; s)
    (fun s => s.reg 0 == 0x7#32 && s.r15 == 0x800000c#32 && s.cpsr == 0x1f#32) = true := by decide +kernel
/-- R430. -/
theorem test_ldc : after 32 0xEC900000 (fun s => let s := s.setReg 0 0x7#32; s)
    (fun s => s.reg 0 == 0x7#32 && s.r15 == 0x800000c#32 && s.cpsr == 0x1f#32) = true := by decide +kernel
/-- R430. -/
theorem test_stc : after 32 0xEC800000 (fun s => let s := s.setReg 0 0x7#32; s)
    (fun s => s.reg 0 == 0x7#32 && s.r15 == 0x800000c#32 && s.cpsr == 0x1f#32) = true := by decide +kernel
/-- R430. -/
theorem test_mrc : after 32 0xEE100010 (fun s => let s := s.setReg 0 0x7#32; s)
    (fun s => s.reg 0 == 0x7#32 && s.r15 == 0x800000c#32 && s.cpsr == 0x1f#32) = true := by decide +kernel
/-- R430. -/
theorem test_mcr : after 32 0xEE000010 (fun s => let s := s.setReg 0 0x7#32; s)
    (fun s => s.reg 0 == 0x7#32 && s.r15 == 0x800000c#32 && s.cpsr == 0x1f#32) = true := by decide +kernel
/-- R441. -/
theorem test_thumb_lsl : after 16 0x0088 (fun s => let s := s.setReg 1 0xc0000001#32; s)
    (fun s => s.reg 0 == 0x4#32 && s.cpsr == 0x2000003f#32 && s.r15 == 0x8000006#32) = true := by decide +kernel
/-- R442. -/
theorem test_thumb_lsr : after 16 0x0808 (fun s => let s := s.setReg 1 0x80000000#32; s)
    (fun s => s.reg 0 == 0x0#32 && s.cpsr == 0x6000003f#32) = true := by decide +kernel
/-- R443. -/
theorem test_thumb_asr : after 16 0x105A (fun s => let s := s.setReg 3 0x80000001#32; s)
    (fun s => s.reg 2 == 0xc0000000#32 && s.cpsr == 0xa000003f#32) = true := by decide +kernel
/-- R445. -/
theorem test_thumb_add_reg : after 16 0x1888 (fun s => let s := s.setReg 1 0x7fffffff#32; let s := s.setReg 2 0x1#32; s)
    (fun s => s.reg 0 == 0x80000000#32 && s.cpsr == 0x9000003f#32) = true := by decide +kernel
/-- R446. -/
theorem test_thumb_sub_reg : after 16 0x1A88 (fun s => let s := s.setReg 1 0x5#32; let s := s.setReg 2 0x5#32; s)
    (fun s => s.reg 0 == 0x0#32 && s.cpsr == 0x6000003f#32) = true := by decide +kernel
/-- R447. -/
theorem test_thumb_add_imm3 : after 16 0x1DC8 (fun s => let s := s.setReg 1 0xffffffff#32; s)
    (fun s => s.reg 0 == 0x6#32 && s.cpsr == 0x2000003f#32) = true := by decide +kernel
/-- R448. -/
theorem test_thumb_sub_imm3 : after 16 0x1E48 (fun s => s)
    (fun s => s.reg 0 == 0xffffffff#32 && s.cpsr == 0x8000003f#32) = true := by decide +kernel
/-- R450. -/
theorem test_thumb_mov_imm8 : after 16 0x20FF (fun s => s)
    (fun s => s.reg 0 == 0xff#32 && s.cpsr == 0x3f#32) = true := by decide +kernel
/-- R451. -/
theorem test_thumb_cmp_imm8 : after 16 0x2905 (fun s => let s := s.setReg 1 0x5#32; s)
    (fun s => s.cpsr == 0x6000003f#32) = true := by decide +kernel
/-- R452. -/
theorem test_thumb_add_imm8 : after 16 0x3201 (fun s => let s := s.setReg 2 0x9#32; s)
    (fun s => s.reg 2 == 0xa#32 && s.cpsr == 0x3f#32) = true := by decide +kernel
/-- R453. -/
theorem test_thumb_sub_imm8 : after 16 0x3B10 (fun s => let s := s.setReg 3 0x10#32; s)
    (fun s => s.reg 3 == 0x0#32 && s.cpsr == 0x6000003f#32) = true := by decide +kernel
/-- R460. -/
theorem test_thumb_and : after 16 0x4008 (fun s => let s := s.setReg 0 0xff#32; let s := s.setReg 1 0xf#32; s)
    (fun s => s.reg 0 == 0xf#32) = true := by decide +kernel
/-- R461. -/
theorem test_thumb_eor : after 16 0x4048 (fun s => let s := s.setReg 0 0x5#32; let s := s.setReg 1 0x5#32; s)
    (fun s => s.reg 0 == 0x0#32 && s.cpsr == 0x4000003f#32) = true := by decide +kernel
/-- R462. -/
theorem test_thumb_lsl_reg : after 16 0x4088 (fun s => let s := s.setReg 0 0x1#32; let s := s.setReg 1 0x20#32; s)
    (fun s => s.reg 0 == 0x0#32 && s.cpsr == 0x6000003f#32) = true := by decide +kernel
/-- R463. -/
theorem test_thumb_lsr_reg : after 16 0x40C8 (fun s => let s := s.setReg 0 0x80000000#32; let s := s.setReg 1 0x20#32; s)
    (fun s => s.reg 0 == 0x0#32 && s.cpsr == 0x6000003f#32) = true := by decide +kernel
/-- R464. -/
theorem test_thumb_asr_reg : after 16 0x4108 (fun s => let s := s.setReg 0 0x80000000#32; let s := s.setReg 1 0x28#32; s)
    (fun s => s.reg 0 == 0xffffffff#32 && s.cpsr == 0xa000003f#32) = true := by decide +kernel
/-- R465. -/
theorem test_thumb_adc : after 16 0x4148 (fun s => let s := { s with cpsr := 0x2000003f#32 }; let s := s.setReg 0 0xffffffff#32; s)
    (fun s => s.reg 0 == 0x0#32 && s.cpsr == 0x6000003f#32) = true := by decide +kernel
/-- R466. -/
theorem test_thumb_sbc : after 16 0x4188 (fun s => let s := s.setReg 0 0x5#32; let s := s.setReg 1 0x3#32; s)
    (fun s => s.reg 0 == 0x1#32 && s.cpsr == 0x2000003f#32) = true := by decide +kernel
/-- R467. -/
theorem test_thumb_ror_reg : after 16 0x41C8 (fun s => let s := s.setReg 0 0x1#32; let s := s.setReg 1 0x1#32; s)
    (fun s => s.reg 0 == 0x80000000#32 && s.cpsr == 0xa000003f#32) = true := by decide +kernel
/-- R468. -/
theorem test_thumb_tst : after 16 0x4208 (fun s => let s := s.setReg 0 0xf0#32; let s := s.setReg 1 0xf#32; s)
    (fun s => s.cpsr == 0x4000003f#32 && s.reg 0 == 0xf0#32) = true := by decide +kernel
/-- R469. -/
theorem test_thumb_neg : after 16 0x4248 (fun s => let s := s.setReg 1 0x80000000#32; s)
    (fun s => s.reg 0 == 0x80000000#32 && s.cpsr == 0x9000003f#32) = true := by decide +kernel
/-- R470. -/
theorem test_thumb_cmp_reg : after 16 0x4288 (fun s => let s := s.setReg 0 0x3#32; let s := s.setReg 1 0x5#32; s)
    (fun s => s.cpsr == 0x8000003f#32) = true := by decide +kernel
/-- R471. -/
theorem test_thumb_cmn : after 16 0x42C8 (fun s => let s := s.setReg 0 0xffffffff#32; let s := s.setReg 1 0x1#32; s)
    (fun s => s.cpsr == 0x6000003f#32) = true := by decide +kernel
/-- R472. -/
theorem test_thumb_orr : after 16 0x4308 (fun s => let s := s.setReg 0 0xf0#32; let s := s.setReg 1 0xf#32; s)
    (fun s => s.reg 0 == 0xff#32) = true := by decide +kernel
/-- R473. -/
theorem test_thumb_mul : after 16 0x4348 (fun s => let s := s.setReg 0 0x6#32; let s := s.setReg 1 0x7#32; s)
    (fun s => s.reg 0 == 0x2a#32) = true := by decide +kernel
/-- R474. -/
theorem test_thumb_bic : after 16 0x4388 (fun s => let s := s.setReg 0 0xff#32; let s := s.setReg 1 0xf#32; s)
    (fun s => s.reg 0 == 0xf0#32) = true := by decide +kernel
/-- R475. -/
theorem test_thumb_mvn : after 16 0x43C8 (fun s => s)
    (fun s => s.reg 0 == 0xffffffff#32 && s.cpsr == 0x8000003f#32) = true := by decide +kernel
/-- R480. -/
theorem test_thumb_add_hi : after 16 0x4440 (fun s => let s := s.setReg 0 0x1#32; let s := s.setReg 8 0x2#32; s)
    (fun s => s.reg 0 == 0x3#32 && s.cpsr == 0x3f#32) = true := by decide +kernel
/-- R481. -/
theorem test_thumb_cmp_hi : after 16 0x4548 (fun s => let s := s.setReg 0 0x9#32; let s := s.setReg 9 0x9#32; s)
    (fun s => s.cpsr == 0x6000003f#32) = true := by decide +kernel
/-- R482. -/
theorem test_thumb_mov_pc_lr : after 16 0x46F7 (fun s => let s := { s with romSize := 0x1000 }; let s := s.setReg 14 0x8000125#32; s)
    (fun s => s.r15 == 0x8000128#32 && s.cpsr == 0x3f#32) = true := by decide +kernel
/-- R483. -/
theorem test_thumb_bx_lr : after 16 0x4770 (fun s => let s := { s with romSize := 0x1000 }; let s := s.setReg 14 0x8000100#32; s)
    (fun s => s.cpsr == 0x1f#32 && s.r15 == 0x8000108#32) = true := by decide +kernel
/-- R484. -/
theorem test_thumb_blx_reg : after 16 0x4780 (fun s => let s := { s with romSize := 0x1000 }; let s := { s with cpsr := 0x3f#32 }; let s := { s with r15 := 0x8000010#32 + prefetchOffset s.thumb }; let s := s.setReg 0 0x3000000#32; s)
    (fun s => s.reg 14 == 0x8000013#32 && s.cpsr == 0x1f#32 && s.r15 == 0x3000008#32) = true := by decide +kernel
/-- R490. -/
theorem test_thumb_add_pc : after 16 0xA001 (fun s => let s := { s with romSize := 0x1000 }; let s := { s with cpsr := 0x3f#32 }; let s := { s with r15 := 0x8000002#32 + prefetchOffset s.thumb }; s)
    (fun s => s.reg 0 == 0x8000008#32 && s.r15 == 0x8000008#32) = true := by decide +kernel
/-- R491. -/
theorem test_thumb_add_sp : after 16 0xA902 (fun s => s)
    (fun s => s.reg 1 == 0x3007f08#32) = true := by decide +kernel
/-- R495. -/
theorem test_thumb_inc_sp : after 16 0xB002 (fun s => let s := s.setReg 13 0x3007ef8#32; s)
    (fun s => s.reg 13 == 0x3007f00#32) = true := by decide +kernel
/-- R496. -/
theorem test_thumb_dec_sp : after 16 0xB082 (fun s => s)
    (fun s => s.reg 13 == 0x3007ef8#32) = true := by decide +kernel
/-- R501. -/
theorem test_thumb_ldr_pc : after 16 0x4801 (fun s => let s := { s with cpsr := 0x3f#32 }; let s := { s with r15 := 0x3000002#32 + prefetchOffset s.thumb }; let s := s.write32 0x3000008#32 0x12345678#32; s)
    (fun s => s.reg 0 == 0x12345678#32) = true := by decide +kernel
/-- R505. -/
theorem test_thumb_str_reg : after 16 0x5088 (fun s => let s := s.setReg 0 0x11223344#32; let s := s.setReg 1 0x3000000#32; let s := s.setReg 2 0x8#32; s)
    (fun s => s.read32 0x3000008#32 == 0x11223344#32) = true := by decide +kernel
/-- R506. -/
theorem test_thumb_strb_reg : after 16 0x5488 (fun s => let s := s.setReg 0 0x1ff#32; let s := s.setReg 1 0x3000000#32; let s := s.setReg 2 0x9#32; s)
    (fun s => s.read32 0x3000008#32 == 0xff00#32) = true := by decide +kernel
/-- R507. -/
theorem test_thumb_ldr_reg : after 16 0x5888 (fun s => let s := s.setReg 1 0x3000000#32; let s := s.setReg 2 0x2#32; let s := s.write32 0x3000000#32 0xaabbccdd#32; s)
    (fun s => s.reg 0 == 0xccddaabb#32) = true := by decide +kernel
/-- R508. -/
theorem test_thumb_ldrb_reg : after 16 0x5C88 (fun s => let s := s.setReg 1 0x3000000#32; let s := s.setReg 2 0x2#32; let s := s.write32 0x3000000#32 0xaa80ccdd#32; s)
    (fun s => s.reg 0 == 0x80#32) = true := by decide +kernel
/-- R510. -/
theorem test_thumb_strh_reg : after 16 0x5288 (fun s => let s := s.setReg 0 0x12345678#32; let s := s.setReg 1 0x3000000#32; let s := s.setReg 2 0x3#32; s)
    (fun s => s.read32 0x3000000#32 == 0x56780000#32) = true := by decide +kernel
/-- R511. -/
theorem test_thumb_ldrh_reg : after 16 0x5A88 (fun s => let s := s.setReg 1 0x3000000#32; let s := s.setReg 2 0x2#32; let s := s.write32 0x3000000#32 0xfffe0000#32; s)
    (fun s => s.reg 0 == 0xfffe#32) = true := by decide +kernel
/-- R512. -/
theorem test_thumb_ldsb_reg : after 16 0x5688 (fun s => let s := s.setReg 1 0x3000000#32; let s := s.setReg 2 0x1#32; let s := s.write8 0x3000001#32 0xfe#8; s)
    (fun s => s.reg 0 == 0xfffffffe#32) = true := by decide +kernel
/-- R513. -/
theorem test_thumb_ldsh_reg : after 16 0x5E88 (fun s => let s := s.setReg 1 0x3000000#32; let s := s.setReg 2 0x2#32; let s := s.write16 0x3000002#32 0x8000#16; s)
    (fun s => s.reg 0 == 0xffff8000#32) = true := by decide +kernel
/-- R515. -/
theorem test_thumb_str_imm : after 16 0x6048 (fun s => let s := s.setReg 0 0x7#32; let s := s.setReg 1 0x3000000#32; s)
    (fun s => s.read32 0x3000004#32 == 0x7#32) = true := by decide +kernel
/-- R516. -/
theorem test_thumb_ldr_imm : after 16 0x6848 (fun s => let s := s.setReg 1 0x3000000#32; let s := s.write32 0x3000004#32 0x7#32; s)
    (fun s => s.reg 0 == 0x7#32) = true := by decide +kernel
/-- R517. -/
theorem test_thumb_strb_imm : after 16 0x7048 (fun s => let s := s.setReg 0 0x12#32; let s := s.setReg 1 0x5000000#32; s)
    (fun s => s.read32 0x5000000#32 == 0x1212#32) = true := by decide +kernel
/-- R518. -/
theorem test_thumb_ldrb_imm : after 16 0x7848 (fun s => let s := s.setReg 1 0x3000000#32; let s := s.write8 0x3000001#32 0x87#8; s)
    (fun s => s.reg 0 == 0x87#32) = true := by decide +kernel
/-- R520. -/
theorem test_thumb_strh_imm : after 16 0x8048 (fun s => let s := s.setReg 0 0x7fff#32; let s := s.setReg 1 0x5000000#32; s)
    (fun s => s.read32 0x5000000#32 == 0x7fff0000#32) = true := by decide +kernel
/-- R521. -/
theorem test_thumb_ldrh_imm : after 16 0x8848 (fun s => let s := s.setReg 1 0x5000000#32; let s := s.write16 0x5000002#32 0x7fff#16; s)
    (fun s => s.reg 0 == 0x7fff#32) = true := by decide +kernel
/-- R523. -/
theorem test_thumb_str_sp : after 16 0x9001 (fun s => let s := s.setReg 0 0x7#32; s)
    (fun s => s.read32 0x3007f04#32 == 0x7#32) = true := by decide +kernel
/-- R524. -/
theorem test_thumb_ldr_sp : after 16 0x9801 (fun s => let s := s.write32 0x3007f04#32 0x7#32; s)
    (fun s => s.reg 0 == 0x7#32) = true := by decide +kernel
/-- R530. -/
theorem test_thumb_push : after 16 0xB503 (fun s => let s := s.setReg 0 0x1#32; let s := s.setReg 1 0x2#32; let s := s.setReg 14 0x8000011#32; s)
    (fun s => s.read32 0x3007ef4#32 == 0x1#32 && s.read32 0x3007ef8#32 == 0x2#32 && s.read32 0x3007efc#32 == 0x8000011#32 && s.reg 13 == 0x3007ef4#32) = true := by decide +kernel
/-- R531. -/
theorem test_thumb_pop : after 16 0xBD03 (fun s => let s := { s with romSize := 0x1000 }; let s := s.setReg 13 0x3007ef4#32; let s := s.write32 0x3007ef4#32 0x1#32; let s := s.write32 0x3007ef8#32 0x2#32; let s := s.write32 0x3007efc#32 0x8000011#32; s)
    (fun s => s.reg 0 == 0x1#32 && s.reg 1 == 0x2#32 && s.reg 13 == 0x3007f00#32 && s.r15 == 0x8000014#32) = true := by decide +kernel
/-- R535. -/
theorem test_thumb_stmia : after 16 0xC006 (fun s => let s := s.setReg 0 0x2000000#32; let s := s.setReg 1 0x5#32; let s := s.setReg 2 0x6#32; s)
    (fun s => s.read32 0x2000000#32 == 0x5#32 && s.read32 0x2000004#32 == 0x6#32 && s.reg 0 == 0x2000008#32) = true := by decide +kernel
/-- R536. -/
theorem test_thumb_ldmia : after 16 0xC806 (fun s => let s := s.setReg 0 0x2000000#32; let s := s.write32 0x2000000#32 0x5#32; let s := s.write32 0x2000004#32 0x6#32; s)
    (fun s => s.reg 1 == 0x5#32 && s.reg 2 == 0x6#32 && s.reg 0 == 0x2000008#32) = true := by decide +kernel
/-- R541. -/
theorem test_thumb_bne_taken : after 16 0xD101 (fun s => let s := { s with romSize := 0x1000 }; let s := { s with cpsr := 0x3f#32 }; let s := { s with r15 := 0x8000010#32 + prefetchOffset s.thumb }; s)
    (fun s => s.r15 == 0x800001a#32) = true := by decide +kernel
/-- R541. -/
theorem test_thumb_bne_not : after 16 0xD101 (fun s => let s := { s with romSize := 0x1000 }; let s := { s with cpsr := 0x4000003f#32 }; let s := { s with r15 := 0x8000010#32 + prefetchOffset s.thumb }; s)
    (fun s => s.r15 == 0x8000016#32) = true := by decide +kernel
/-- R551. -/
theorem test_thumb_swi_div : after 16 0xDF06 (fun s => let s := s.setReg 0 0x64#32; let s := s.setReg 1 0x7#32; s)
    (fun s => s.reg 0 == 0xe#32 && s.reg 1 == 0x2#32 && s.reg 3 == 0xe#32 && s.cpsr == 0x3f#32) = true := by decide +kernel
/-- R545. -/
theorem test_thumb_b_self : after 16 0xE7FE (fun s => let s := { s with romSize := 0x1000 }; let s := { s with cpsr := 0x3f#32 }; let s := { s with r15 := 0x8000020#32 + prefetchOffset s.thumb }; s)
    (fun s => s.r15 == 0x8000024#32) = true := by decide +kernel
/-- R552. -/
theorem test_thumb_bl_high : after 16 0xF7FF (fun s => s)
    (fun s => s.reg 14 == 0x7fff004#32) = true := by decide +kernel
/-- R553. -/
theorem test_thumb_bl_low : after 16 0xF87E (fun s => let s := { s with romSize := 0x1000 }; let s := { s with cpsr := 0x3f#32 }; let s := { s with r15 := 0x8000002#32 + prefetchOffset s.thumb }; let s := s.setReg 14 0x8000004#32; s)
    (fun s => s.reg 14 == 0x8000005#32 && s.r15 == 0x8000104#32 && s.cpsr == 0x3f#32) = true := by decide +kernel
/-- R554. -/
theorem test_thumb_blx_low : after 16 0xE87E (fun s => let s := { s with romSize := 0x1000 }; let s := { s with cpsr := 0x3f#32 }; let s := { s with r15 := 0x8000002#32 + prefetchOffset s.thumb }; let s := s.setReg 14 0x8000004#32; s)
    (fun s => s.reg 14 == 0x8000005#32 && s.r15 == 0x8000108#32 && s.cpsr == 0x1f#32) = true := by decide +kernel

/-- R541: each condition with flags that pass it, and with flags that do not. -/
theorem test_thumb_conditional_branches :
    after 16 0xD001 (fun s => let s := { s with cpsr := 0x4000003F#32 }; let s := { s with r15 := 0x08000004#32 }; { s with romSize := 0x1000 }) (fun s => s.r15 == 0x0800000A#32) = true
    ∧ after 16 0xD001 (fun s => let s := { s with cpsr := 0x0000003F#32 }; let s := { s with r15 := 0x08000004#32 }; { s with romSize := 0x1000 }) (fun s => s.r15 == 0x08000006#32) = true
    ∧ after 16 0xD101 (fun s => let s := { s with cpsr := 0x0000003F#32 }; let s := { s with r15 := 0x08000004#32 }; { s with romSize := 0x1000 }) (fun s => s.r15 == 0x0800000A#32) = true
    ∧ after 16 0xD101 (fun s => let s := { s with cpsr := 0x4000003F#32 }; let s := { s with r15 := 0x08000004#32 }; { s with romSize := 0x1000 }) (fun s => s.r15 == 0x08000006#32) = true
    ∧ after 16 0xD201 (fun s => let s := { s with cpsr := 0x2000003F#32 }; let s := { s with r15 := 0x08000004#32 }; { s with romSize := 0x1000 }) (fun s => s.r15 == 0x0800000A#32) = true
    ∧ after 16 0xD201 (fun s => let s := { s with cpsr := 0x0000003F#32 }; let s := { s with r15 := 0x08000004#32 }; { s with romSize := 0x1000 }) (fun s => s.r15 == 0x08000006#32) = true
    ∧ after 16 0xD301 (fun s => let s := { s with cpsr := 0x0000003F#32 }; let s := { s with r15 := 0x08000004#32 }; { s with romSize := 0x1000 }) (fun s => s.r15 == 0x0800000A#32) = true
    ∧ after 16 0xD301 (fun s => let s := { s with cpsr := 0x2000003F#32 }; let s := { s with r15 := 0x08000004#32 }; { s with romSize := 0x1000 }) (fun s => s.r15 == 0x08000006#32) = true
    ∧ after 16 0xD401 (fun s => let s := { s with cpsr := 0x8000003F#32 }; let s := { s with r15 := 0x08000004#32 }; { s with romSize := 0x1000 }) (fun s => s.r15 == 0x0800000A#32) = true
    ∧ after 16 0xD401 (fun s => let s := { s with cpsr := 0x0000003F#32 }; let s := { s with r15 := 0x08000004#32 }; { s with romSize := 0x1000 }) (fun s => s.r15 == 0x08000006#32) = true
    ∧ after 16 0xD501 (fun s => let s := { s with cpsr := 0x0000003F#32 }; let s := { s with r15 := 0x08000004#32 }; { s with romSize := 0x1000 }) (fun s => s.r15 == 0x0800000A#32) = true
    ∧ after 16 0xD501 (fun s => let s := { s with cpsr := 0x8000003F#32 }; let s := { s with r15 := 0x08000004#32 }; { s with romSize := 0x1000 }) (fun s => s.r15 == 0x08000006#32) = true
    ∧ after 16 0xD601 (fun s => let s := { s with cpsr := 0x1000003F#32 }; let s := { s with r15 := 0x08000004#32 }; { s with romSize := 0x1000 }) (fun s => s.r15 == 0x0800000A#32) = true
    ∧ after 16 0xD601 (fun s => let s := { s with cpsr := 0x0000003F#32 }; let s := { s with r15 := 0x08000004#32 }; { s with romSize := 0x1000 }) (fun s => s.r15 == 0x08000006#32) = true
    ∧ after 16 0xD701 (fun s => let s := { s with cpsr := 0x0000003F#32 }; let s := { s with r15 := 0x08000004#32 }; { s with romSize := 0x1000 }) (fun s => s.r15 == 0x0800000A#32) = true
    ∧ after 16 0xD701 (fun s => let s := { s with cpsr := 0x1000003F#32 }; let s := { s with r15 := 0x08000004#32 }; { s with romSize := 0x1000 }) (fun s => s.r15 == 0x08000006#32) = true
    ∧ after 16 0xD801 (fun s => let s := { s with cpsr := 0x2000003F#32 }; let s := { s with r15 := 0x08000004#32 }; { s with romSize := 0x1000 }) (fun s => s.r15 == 0x0800000A#32) = true
    ∧ after 16 0xD801 (fun s => let s := { s with cpsr := 0x6000003F#32 }; let s := { s with r15 := 0x08000004#32 }; { s with romSize := 0x1000 }) (fun s => s.r15 == 0x08000006#32) = true
    ∧ after 16 0xD901 (fun s => let s := { s with cpsr := 0x6000003F#32 }; let s := { s with r15 := 0x08000004#32 }; { s with romSize := 0x1000 }) (fun s => s.r15 == 0x0800000A#32) = true
    ∧ after 16 0xD901 (fun s => let s := { s with cpsr := 0x2000003F#32 }; let s := { s with r15 := 0x08000004#32 }; { s with romSize := 0x1000 }) (fun s => s.r15 == 0x08000006#32) = true
    ∧ after 16 0xDA01 (fun s => let s := { s with cpsr := 0x9000003F#32 }; let s := { s with r15 := 0x08000004#32 }; { s with romSize := 0x1000 }) (fun s => s.r15 == 0x0800000A#32) = true
    ∧ after 16 0xDA01 (fun s => let s := { s with cpsr := 0x8000003F#32 }; let s := { s with r15 := 0x08000004#32 }; { s with romSize := 0x1000 }) (fun s => s.r15 == 0x08000006#32) = true
    ∧ after 16 0xDB01 (fun s => let s := { s with cpsr := 0x1000003F#32 }; let s := { s with r15 := 0x08000004#32 }; { s with romSize := 0x1000 }) (fun s => s.r15 == 0x0800000A#32) = true
    ∧ after 16 0xDB01 (fun s => let s := { s with cpsr := 0x0000003F#32 }; let s := { s with r15 := 0x08000004#32 }; { s with romSize := 0x1000 }) (fun s => s.r15 == 0x08000006#32) = true
    ∧ after 16 0xDC01 (fun s => let s := { s with cpsr := 0x0000003F#32 }; let s := { s with r15 := 0x08000004#32 }; { s with romSize := 0x1000 }) (fun s => s.r15 == 0x0800000A#32) = true
    ∧ after 16 0xDC01 (fun s => let s := { s with cpsr := 0x4000003F#32 }; let s := { s with r15 := 0x08000004#32 }; { s with romSize := 0x1000 }) (fun s => s.r15 == 0x08000006#32) = true
    ∧ after 16 0xDD01 (fun s => let s := { s with cpsr := 0x4000003F#32 }; let s := { s with r15 := 0x08000004#32 }; { s with romSize := 0x1000 }) (fun s => s.r15 == 0x0800000A#32) = true
    ∧ after 16 0xDD01 (fun s => let s := { s with cpsr := 0x9000003F#32 }; let s := { s with r15 := 0x08000004#32 }; { s with romSize := 0x1000 }) (fun s => s.r15 == 0x08000006#32) = true := by decide +kernel

/-- R402 to R404, R408: the unnamed call, the waits, CpuFastSet. -/
theorem test_bios_waits : after 32 0xEF030000 (fun s => s) (fun s => s.halted && s.ime == 0#16) = true
    ∧ after 32 0xEF040000 (fun s => s) (fun s => s.halted && s.ime == 1#16) = true
    ∧ after 32 0xEF050000 (fun s => s) (fun s => s.halted && s.ime == 1#16) = true
    ∧ after 32 0xEF0C0000 (fun s => let s := s.write32 0x02000000#32 7#32; let s := s.setReg 0 0x02000000#32; let s := s.setReg 1 0x02000100#32; s.setReg 2 0x01000009#32)
      (fun s => s.read32 0x0200013C#32 == 7#32 && s.read32 0x02000140#32 == 0#32) = true := by decide +kernel
/-- R400: SoftReset goes on where the byte at 0x03007FFA says. -/
theorem test_bios_soft_reset : after 32 0xEF000000 (fun s => let s := s.write8 0x03007FFA#32 1#8; s.setReg 4 5#32)
    (fun s => s.r15 == 0x02000008#32 && s.reg 4 == 0#32 && s.read8 0x03007FFA#32 == 0#8 && s.cpsr == 0x1F#32) = true := by decide +kernel

/-- R620 to R623, R420: what stops the machine. -/
theorem test_stops :
    stops 32 0xE8900000 (fun s => s) (.unpredictableEncoding 0x08000000#32 (.ldm .al false true false 0 0)) = true
    ∧ stops 32 0xE5BF0004 (fun s => s) (.unpredictableEncoding 0x08000000#32 (.ldr .al true true true 15 0 (.imm 4))) = true
    ∧ stops 16 0xBC00 (fun s => s) (.unpredictableEncoding 0x08000000#32 (.tPop false 0)) = true
    ∧ stops 32 0xEF060000 (fun s => s) .biosDivideByZero = true
    ∧ stops 16 0xDE00 (fun s => s) (.undefinedEncoding 0x08000000#32 (.tUndefCond 0)) = true
    ∧ stops 32 0xE7F000F0 (fun s => s) (.undefinedEncoding 0x08000000#32 (.undefTransfer .al 0x7F000F0)) = true := by decide +kernel
/-- R420, R604: the other values of UNDEF_POLICY. -/
theorem test_undefined_policies :
    after 16 0xDE00 (fun s => { s with params := { s.params with undefPolicy := .nop } }) (fun s => s.r15 == 0x08000006#32) = true
    ∧ after 16 0xDE00 (fun s => { s with params := { s.params with undefPolicy := .undException } })
      (fun s => s.r15 == 0x0C#32 && s.cpsr == 0x9B#32 && s.spsrUnd == 0x3F#32 && s.reg 14 == 0x08000002#32) = true := by decide +kernel

/-! ## Steps of the machine -/

/-- R610: the example of the rule, in Thumb state. -/
theorem test_irq_entry : (match step { State.reset with phase := .run, left := 1, ime := 1, ie := 1, if_ := 1, r15 := 0x08000204#32, cpsr := 0x3F#32 } with
    | .next s => s.spsrIrq == 0x3F#32 && s.cpsr == 0x92#32 && s.reg 14 == 0x08000204#32 && s.r15 == 0x20#32 && s.cycles == 0#64
    | _ => false) = true := by decide +kernel
/-- R630, R631: the trampoline and a stray branch. -/
theorem test_bios_space : (match step { State.write32 State.reset 0x03007FFC#32 0x08000041#32 with phase := .run, left := 1, r15 := 0x20#32 } with
    | .next s => s.r15 == 0x08000048#32 && s.cycles == 1#64
    | _ => false) = true
    ∧ (match step { State.setReg State.reset 14 0x08000101#32 with phase := .run, left := 1, r15 := 0x108#32 } with
    | .next s => s.r15 == 0x08000104#32 && s.cpsr == 0x3F#32
    | _ => false) = true := by decide +kernel
/-- R701 to R704: an overflow reloads, requests and cascades. -/
theorem test_timers : (let s := timersUpdate { State.reset with timers := (State.reset.timers.set 0 { reload := 0xFFF0#16, counter := 0xFFFE#16, ctrl := 0x00C0#16, accumulator := 0 }).set 1 { reload := 5#16, counter := 0xFFFF#16, ctrl := 0x0084#16, accumulator := 0 } } 3
    (s.timer 0).counter == 0xFFF1#16 && (s.timer 1).counter == 5#16 && s.if_ == 8#16) = true := by decide +kernel
/-- R684: an immediate transfer of two words. -/
theorem test_dma : (let s := (((((State.reset.write32 0x02000000#32 1#32).write32 0x02000004#32 2#32).write32 0x040000D4#32 0x02000000#32).write32 0x040000D8#32 0x02000100#32).write32 0x040000DC#32 0xC4000002#32)
    s.read32 0x02000100#32 == 1#32 && s.read32 0x02000104#32 == 2#32 && (s.dmaChannel 3).ctrl == 0x4400#16 && s.if_ == 0x800#16) = true := by decide +kernel
/-- R722: a byte programmed and its sector erased. -/
theorem test_flash : (let w := fun (s : State) (a : Word) (v : Byte) => s.write8 a v
    let unlock := fun (s : State) (c : Byte) => w (w (w s 0x0E005555#32 0xAA#8) 0x0E002AAA#32 0x55#8) 0x0E005555#32 c
    let s := w (unlock State.reset 0xA0#8) 0x0E001234#32 0x42#8
    let t := w (w (w (unlock s 0x80#8) 0x0E005555#32 0xAA#8) 0x0E002AAA#32 0x55#8) 0x0E001000#32 0x30#8
    s.read8 0x0E001234#32 == 0x42#8 && t.read8 0x0E001234#32 == 0xFF#8 && (unlock s 0x90#8).read8 0x0E000000#32 == 0xC2#8) = true := by decide +kernel
/-- R791, R796: the channel formulas and the host's form of a colour. -/
theorem test_colours : alphaChannel 8 8 31 31 = 31 ∧ brighten 8 0 = 15 ∧ darken 16 31 = 0 ∧ hostPixel 0x7FFF = 0xFFFF#16
    ∧ hostPixel 0x001F = 0xF800#16 ∧ hostPixel 0x0200 = 0x0420#16 := by decide


/-! ## Witnesses: values that meet the hypotheses of the statements

One theorem for each statement of Obligations.lean that has hypotheses, with a part for each of its clauses. -/

/-- The state after reset in IRQ mode, with a saved status. -/

def irqState : State := { State.reset with cpsr := 0x92#32, spsrIrq := 0x3F#32 }

/-- Inside the CPU loop of a scanline, at an address of work RAM. -/

def runState : State := { State.reset with phase := .run, left := 1232, r15 := 0x02000008#32 }

/-- The same with an IRQ to take. -/

def irqDueState : State := { runState with ime := 1, ie := 1, if_ := 1 }

/-- At the end of a visible scanline. -/

def endState : State := { State.reset with phase := .run, left := 0 }

/-- A branch target that the guard refuses, and one that it does not (for every statement that uses Branches). -/

theorem witness_Refused : Refused State.reset 0x0A000000#32 ∧ ¬ Refused State.reset 0x02000000#32 := by
  unfold Refused; decide

theorem witness_LogicalOperations : State.reset.passes .al = true ∧ (0 : Reg) ≠ 15
    ∧ Bitwise (fun a b => a && b) (State.reset.reg 13) (operand2 State.reset (.imm 0 0xF0)).value 0x00#32
    ∧ Bitwise (fun a b => a != b) (State.reset.reg 13) (operand2 State.reset (.imm 0 0xF0)).value 0x03007FF0#32
    ∧ Bitwise (fun a b => a || b) (State.reset.reg 13) (operand2 State.reset (.imm 0 0xF0)).value 0x03007FF0#32
    ∧ Bitwise (fun a b => a && !b) (State.reset.reg 13) (operand2 State.reset (.imm 0 0xF0)).value 0x03007F00#32
    ∧ Bitwise (fun _ b => b) (State.reset.reg 13) (operand2 State.reset (.imm 0 0xF0)).value 0xF0#32
    ∧ Bitwise (fun _ b => !b) (State.reset.reg 13) (operand2 State.reset (.imm 0 0xF0)).value 0xFFFFFF0F#32 := by
  unfold Bitwise; decide +kernel

theorem witness_ArithmeticOperations : State.reset.passes .al = true ∧ (14 : Reg) ≠ 15 := by decide

theorem witness_Comparisons : State.reset.passes .al = true
    ∧ Bitwise (fun x y => x && y) (State.reset.reg 13) (operand2 State.reset (.imm 0 0xF0)).value 0#32
    ∧ Bitwise (fun x y => x != y) (State.reset.reg 13) (operand2 State.reset (.imm 0 0xF0)).value 0x03007FF0#32 := by
  unfold Bitwise; decide +kernel

theorem witness_Comparisons_order : State.reset.passes .al = true ∧ ∃ t, exec (.cmp .al 1 0 (.imm 0 5)) State.reset = .next t :=
  ⟨by decide, _, rfl⟩

/-- Without S; with S in a mode that has an SPSR; with S in one that has none. -/

theorem witness_AluResultToR15 : State.reset.passes .al = true ∧ irqState.passes .al = true
    ∧ irqState.spsrOf irqState.mode = some 0x3F#32 ∧ State.reset.spsrOf State.reset.mode = none := by decide

/-- The amounts at the ends of their ranges. -/

theorem witness_ShifterOperand : (0 : BitVec 5) = 0 ∧ (1#5).toNat = 1 ∧ (31#5).toNat = 31
    ∧ ((State.reset.setReg 2 0x101#32).reg 2).toNat % 256 = 1 ∧ ((State.reset.setReg 2 31#32).reg 2).toNat % 256 = 31
    ∧ ((State.reset.setReg 2 0x100#32).reg 2).toNat % 256 = 0 ∧ ((State.reset.setReg 2 32#32).reg 2).toNat % 256 = 32
    ∧ ((State.reset.setReg 2 0xFF#32).reg 2).toNat % 256 = 255 := by decide +kernel

theorem witness_Multiplies : State.reset.passes .al = true ∧ (0 : Reg) ≠ 15 ∧ (15 : Reg) = 15
    ∧ (0x3F010000#32).toNat = (State.reset.reg 13).toNat * (State.reset.reg 13).toNat % 2^32
    ∧ (0x42017F00#32).toNat = ((State.reset.reg 13).toNat * (State.reset.reg 13).toNat + (State.reset.reg 13).toNat) % 2^32 := by
  decide +kernel

/-- A state with all ones in R2 and 3 in R0. -/

def productState : State := (State.reset.setReg 2 0xFFFFFFFF#32).setReg 0 3#32

theorem witness_LongMultiplies : productState.passes .al = true ∧ (1 : Reg) ≠ 15 ∧ (0 : Reg) ≠ 15
    ∧ (0xFFFFFFFE00000001#64).toNat = (productState.reg 2).toNat * (productState.reg 2).toNat
    ∧ (0xFFFFFFFE00000004#64).toNat = ((productState.reg 2).toNat * (productState.reg 2).toNat + ((productState.reg 1).toNat * 2^32 + (productState.reg 0).toNat)) % 2^64
    ∧ (1#64).toInt = (productState.reg 2).toInt * (productState.reg 2).toInt
    ∧ ((4#64).toNat : Int) = ((productState.reg 2).toInt * (productState.reg 2).toInt + ((productState.reg 1).toNat * 2^32 + (productState.reg 0).toNat : Nat)) % 2^64 := by
  decide +kernel

theorem witness_LongMultiplyToR15 : productState.passes .al = true
    ∧ (0xFFFFFFFE00000001#64).toNat = (productState.reg 2).toNat * (productState.reg 2).toNat
    ∧ (0xFFFFFFFE#32 = (0xFFFFFFFE00000001#64).extractLsb' 32 32) ∧ (1#32 = (0xFFFFFFFE00000001#64).extractLsb' 0 32)
    ∧ ¬ Refused productState 1#32 ∧ Refused productState 0xFFFFFFFE#32 ∧ Refused productState 0x04000400#32 := by
  unfold Refused; decide +kernel

/-- A condition that passes and one that does not. -/
theorem witness_conditional : State.reset.passes .al = true ∧ State.reset.passes .eq = false := by decide

/-- Branches forward and back. -/
theorem witness_BranchesAndExchanges : State.reset.passes .al = true
    ∧ 0x0A000004#32 = State.reset.r15 + BitVec.ofInt 32 (4 * (0x7FFFFF#24).toInt)
    ∧ 0x06000008#32 = State.reset.r15 + BitVec.ofInt 32 (4 * (0x800000#24).toInt) := by decide +kernel

/-- A mode that has an SPSR, and one that has none; an immediate operand. -/
theorem witness_StatusTransfers : State.reset.passes .al = true ∧ irqState.passes .al = true
    ∧ irqState.spsrOf irqState.mode = some 0x3F#32 ∧ State.reset.spsrOf State.reset.mode = none
    ∧ ∀ k, k < 32 → (0xF0000000#32).getLsbD k = (0x0F#8).getLsbD ((k + 2 * (2#4).toNat) % 32) := by decide +kernel

/-- A cartridge of six bytes, with its GPIO visible. -/
def shortRom : State := { State.reset with romSize := 6, gpioCtrl := 1 }

/-- An address of each region; words and halfwords below, across and past the end of ROM; an unmapped byte, halfword and word. -/
theorem witness_MemoryReads : (regionOf 0xF2000001#32 ≠ 14 ∧ regionOf 0x08000005#32 ≠ 14 ∧ regionOf 0x0E000000#32 = 14)
    ∧ (State.reset.mapped 0x0A000000#32 = false ∧ ¬ GpioAnswers State.reset 0x0A000000#32)
    ∧ (State.reset.mapped 0x00004000#32 = false ∧ ¬ GpioAnswers State.reset 0x00004000#32)
    ∧ (shortRom.mapped 0x08000006#32 = false ∧ ¬ GpioAnswers shortRom 0x08000006#32) ∧ GpioAnswers shortRom 0x080000C9#32
    ∧ (shortRom.mapped (0x08000007#32 &&& 0xFFFFFFFE#32) = false ∧ ¬ GpioAnswers shortRom (0x08000007#32 &&& 0xFFFFFFFE#32))
    ∧ (shortRom.mapped (0x0800000B#32 &&& 0xFFFFFFFC#32) = false ∧ ¬ GpioAnswers shortRom (0x0800000B#32 &&& 0xFFFFFFFC#32))
    ∧ shortRom.mapped (0x08000007#32 &&& 0xFFFFFFFC#32) = true ∧ GpioAnswers shortRom (0x080000C9#32 &&& 0xFFFFFFFE#32) := by
  unfold GpioAnswers
  decide +kernel

/-- Two addresses of each mirror, at the ends of its range. -/

theorem witness_Mirrors : (0xF2000000#32).toNat % 2^28 = (0x02000000#32).toNat % 2^28
    ∧ (regionOf 0x0203FFFF#32 = 2 ∧ regionOf 0x02FFFFFF#32 = 2 ∧ (0x0203FFFF#32).toNat % 0x40000 = (0x02FFFFFF#32).toNat % 0x40000)
    ∧ (regionOf 0x01000000#32 = 1 ∧ regionOf 0x03FF8000#32 = 3 ∧ (0x01000000#32).toNat % 0x8000 = (0x03FF8000#32).toNat % 0x8000)
    ∧ (regionOf 0x05000000#32 = 5 ∧ regionOf 0x05FFFC00#32 = 5 ∧ (0x05000000#32).toNat % 0x400 = (0x05FFFC00#32).toNat % 0x400)
    ∧ (regionOf 0x070003FF#32 = 7 ∧ regionOf 0x07FFFFFF#32 = 7 ∧ (0x070003FF#32).toNat % 0x400 = (0x07FFFFFF#32).toNat % 0x400)
    ∧ (regionOf 0x06017FFF#32 = 6 ∧ regionOf 0x06FF7FFF#32 = 6 ∧ (0x06017FFF#32).toNat % 0x20000 = (0x06FF7FFF#32).toNat % 0x20000)
    ∧ (0x18000 ≤ (0x06018000#32).toNat % 0x20000 ∧ (0x06010000#32).toNat % 0x20000 = (0x06018000#32).toNat % 0x20000 - 0x8000)
    ∧ (regionOf 0x0E000000#32 = 14 ∧ regionOf 0x0EFE0000#32 = 14 ∧ (0x0E000000#32).toNat % 0x20000 = (0x0EFE0000#32).toNat % 0x20000)
    ∧ (0x18000 ≤ (0x0601FFFF#32).toNat % 0x20000 ∧ (0x06017FFF#32).toNat % 0x20000 = (0x0601FFFF#32).toNat % 0x20000 - 0x8000) := by
  decide

/-- The regions of each clause, and writes that are dropped. -/

theorem witness_MemoryWrites : isRam (regionOf 0x01000000#32) = true ∧ isRam (regionOf 0x07FFFFFF#32) = true
    ∧ dropsWrite (align4 0x00000000#32) = true ∧ dropsWrite (align2 0x04000400#32) = true ∧ dropsWrite (align4 0x080000CC#32) = true
    ∧ dropsWrite (align2 0x0E000000#32) = true ∧ regionOf 0x05000001#32 = 5 ∧ regionOf 0x06000001#32 = 6 ∧ regionOf 0x07000001#32 = 7
    ∧ (dropsWrite 0x0A000000#32 = true ∧ regionOf 0x0A000000#32 ≠ 14) := by decide

/-- Both offsets, and each of the cases: a writeback to R15, none, Rd = 15. -/

theorem witness_ArmLoads : State.reset.passes .al = true ∧ (4#32).toNat = (4#12).toNat
    ∧ 0x1803F8#32 = (operand2 State.reset (.shiftImm 13 .lsr 5)).value ∧ (0xFF#32).toNat = (0xFF#8).toNat
    ∧ ((15 : Reg) = 15 ∧ writesBack true true = true) ∧ ((15 : Reg) = 15 ∧ writesBack false false = true)
    ∧ ¬ ((1 : Reg) = 15 ∧ writesBack true true = true) ∧ ¬ ((15 : Reg) = 15 ∧ writesBack true false = true) := by decide +kernel

theorem witness_ArmStores : State.reset.passes .al = true ∧ (0xFFF#32).toNat = (0xFFF#12).toNat ∧ (0xFF#32).toNat = (0xFF#8).toNat
    ∧ ((15 : Reg) = 15 ∧ writesBack true true = true) ∧ ¬ ((1 : Reg) = 15 ∧ writesBack true true = true)
    ∧ isRam (regionOf (align4 0x03000003#32)) = true := by decide

theorem witness_Swap : State.reset.passes .al = true ∧ (0 : Reg) ≠ 15 ∧ (15 : Reg) = 15
    ∧ isRam (regionOf (align4 (State.reset.reg 13))) = true := by decide +kernel

/-- An empty list, a writeback to R15, a list without R15 and one with it; slots in RAM. -/

theorem witness_BlockTransfers : State.reset.passes .al = true ∧ (0#16 = 0#16 ∨ ((13 : Reg) = 15 ∧ true = true))
    ∧ ((3#16 = 0#16) ∨ ((15 : Reg) = 15 ∧ true = true)) ∧ ¬ (3#16 = 0#16 ∨ ((13 : Reg) = 15 ∧ true = true))
    ∧ (3#16).getLsbD 15 = false ∧ (0x8001#16).getLsbD 15 = true
    ∧ (∀ n : Reg, (0x8001#16).getLsbD n.val = true →
        isRam (regionOf (slotAddr (State.reset.reg 13) true false 0x8001#16 n.val)) = true) := by decide +kernel

theorem witness_ThumbShifts : (∃ i r, (ShiftTy.lsl = .lsl ∧ i = Instr.tLslImm 0 1 0 ∧ r = operand2 State.reset (.shiftImm (low 1) .lsl 0)))
    ∧ ∃ i r, (ShiftTy.ror = .ror ∧ i = Instr.tRorReg 1 0 ∧ r = operand2 State.reset (.shiftReg (low 0) .ror (low 1))) :=
  ⟨⟨_, _, rfl, rfl, rfl⟩, _, _, rfl, rfl, rfl⟩

theorem witness_ThumbArithmetic : (7#32).toNat = (7#3).toNat ∧ (0xFF#32).toNat = (0xFF#8).toNat := by decide

theorem witness_ThumbLogicalAndComparisons : Bitwise (fun a b => a && b) 5#32 3#32 1#32 ∧ Bitwise (fun a b => a != b) 5#32 3#32 6#32
    ∧ Bitwise (fun a b => a || b) 5#32 3#32 7#32 ∧ Bitwise (fun a b => a && !b) 5#32 3#32 4#32 ∧ Bitwise (fun _ b => !b) 5#32 3#32 0xFFFFFFFC#32
    ∧ ((State.reset.setReg 0 5#32).setReg 1 3#32).reg (low 0) = 5#32 ∧ ((State.reset.setReg 0 5#32).setReg 1 3#32).reg (low 1) = 3#32
    ∧ (15#32).toNat = (5#32).toNat * (3#32).toNat % 2^32 ∧ (0xFF#32).toNat = (0xFF#8).toNat
    ∧ Bitwise (fun a b => a && b) (State.reset.reg (low 0)) (State.reset.reg (low 1)) 0#32 := by
  unfold Bitwise; decide +kernel

theorem witness_ThumbHighAndAddresses : (0x3FC#32).toNat = 4 * (0xFF#8).toNat ∧ (0x1FC#32).toNat = 4 * (0x7F#7).toNat
    ∧ (8 : Reg) ≠ 15 ∧ (15 : Reg) = 15 := by decide

theorem witness_ThumbBlockTransfers :
    (∀ k, k < 16 → (0x4081#16).getLsbD k = if k < 8 then (0x81#8).getLsbD k else decide (k = 14) && true)
    ∧ (∀ k, k < 16 → (0x8081#16).getLsbD k = if k < 8 then (0x81#8).getLsbD k else decide (k = 15) && true)
    ∧ ∀ k, k < 16 → (0x0081#16).getLsbD k = (0x81#8).getLsbD k := by decide

/-- Both offsets negative; a condition that passes and one that does not. -/

theorem witness_ThumbBranches : 0x08000004#32 = State.reset.r15 + BitVec.ofInt 32 (2 * (0xFE#8).toInt)
    ∧ 0x08000004#32 = State.reset.r15 + BitVec.ofInt 32 (2 * (0x7FE#11).toInt)
    ∧ State.reset.passes .ne = true ∧ State.reset.passes .eq = false := by decide

/-- Each call by its number in an ARM word; Thumb carries it in its low byte. -/

theorem calls_arm (s : State) (n : BitVec 8) (h : s.params.swiField = .hi) (hp : s.passes .al = true) :
    Calls (.swi .al (n ++ 0#16)) s n.toNat := by
  refine Or.inl ⟨.al, n ++ 0#16, rfl, hp, ?_⟩
  rw [h]
  simp only [BitVec.toNat_append]
  rw [show (0#16).toNat = 0 from rfl, Nat.or_zero, Nat.shiftLeft_eq]
  omega

theorem calls_thumb (s : State) (n : BitVec 8) : Calls (.tSwi n) s n.toNat := Or.inr ⟨n, rfl, rfl⟩

theorem witness_SwiSimpleCalls : Calls (.swi .al 0x020000) State.reset 0x02 ∧ Calls (.tSwi 0x03) State.reset 0x03
    ∧ Calls (.tSwi 0x04) State.reset 0x04 ∧ Calls (.tSwi 0x05) State.reset 0x05 ∧ Calls (.tSwi 0x0D) State.reset 0x0D
    ∧ Calls (.tSwi 0xFF) State.reset 0xFF ∧ 0xFF ∉ [0x00, 0x02, 0x03, 0x04, 0x05, 0x06, 0x08, 0x0B, 0x0C, 0x0D, 0x11, 0x12, 0x14, 0x15] :=
  ⟨calls_arm State.reset 2#8 rfl rfl, calls_thumb _ 3#8, calls_thumb _ 4#8, calls_thumb _ 5#8, calls_thumb _ 0x0D#8,
    calls_thumb _ 0xFF#8, by decide⟩

/-- Minus seven by two: quotient minus three, remainder minus one. -/

theorem witness_SwiDivide : Calls (.tSwi 0x06) State.reset 0x06 ∧ (State.reset.reg 1).toInt = 0
    ∧ (let s := (State.reset.setReg 0 0xFFFFFFF9#32).setReg 1 2#32
      (s.reg 1).toInt ≠ 0 ∧ (-3) * (s.reg 1).toInt + (-1) = (s.reg 0).toInt ∧ (-1 : Int).natAbs < (s.reg 1).toInt.natAbs
        ∧ (0 < (-1 : Int) → 0 < (s.reg 0).toInt) ∧ ((-1 : Int) < 0 → (s.reg 0).toInt < 0)) :=
  ⟨calls_thumb _ 6#8, by decide +kernel, by decide +kernel⟩

theorem witness_SwiSquareRoot : Calls (.tSwi 0x08) State.reset 0x08 ∧ (0#32).toNat * (0#32).toNat ≤ (State.reset.reg 0).toNat
    ∧ (State.reset.reg 0).toNat < ((0#32).toNat + 1) * ((0#32).toNat + 1)
    ∧ (0xFFFF#32).toNat * (0xFFFF#32).toNat ≤ (0xFFFFFFFF#32).toNat ∧ (0xFFFFFFFF#32).toNat < ((0xFFFF#32).toNat + 1) * ((0xFFFF#32).toNat + 1) :=
  ⟨calls_thumb _ 8#8, by decide +kernel, by decide +kernel, by decide, by decide⟩

/-- The states between the units of a copy exist. -/

theorem witness_SwiCopies : Calls (.tSwi 0x0B) State.reset 0x0B ∧ Calls (.tSwi 0x0C) State.reset 0x0C
    ∧ (∃ m : Nat → State, m 0 = State.reset ∧ ∀ k, m (k + 1) = if false then (m k).write32 0 0 else
      (m k).write16 (State.reset.reg 1 + BitVec.ofNat 32 (2 * k)) ((m k).read16 (if false then State.reset.reg 0 else State.reset.reg 0 + BitVec.ofNat 32 (2 * k))))
    ∧ ∃ m : Nat → State, m 0 = State.reset ∧ ∀ k, m (k + 1) = (m k).write32 (State.reset.reg 1 + BitVec.ofNat 32 (4 * k))
      ((m k).read32 (if true then State.reset.reg 0 else State.reset.reg 0 + BitVec.ofNat 32 (4 * k))) :=
  ⟨calls_thumb _ 0x0B#8, calls_thumb _ 0x0C#8,
    ⟨fun k => Nat.rec State.reset (fun k s => s.write16 (State.reset.reg 1 + BitVec.ofNat 32 (2 * k)) (s.read16 (State.reset.reg 0 + BitVec.ofNat 32 (2 * k)))) k, rfl, fun _ => rfl⟩,
    ⟨fun k => Nat.rec State.reset (fun k s => s.write32 (State.reset.reg 1 + BitVec.ofNat 32 (4 * k)) (s.read32 (State.reset.reg 0))) k, rfl, fun _ => rfl⟩⟩

theorem witness_SwiDecompression : (Calls (.tSwi 0x11) State.reset 0x11 ∧ 0x11 ∈ [0x11, 0x12, 0x14, 0x15])
    ∧ (Calls (.tSwi 0x12) State.reset 0x12 ∧ 0x12 ∈ [0x11, 0x12, 0x14, 0x15])
    ∧ (Calls (.tSwi 0x14) State.reset 0x14 ∧ 0x14 ∈ [0x11, 0x12, 0x14, 0x15])
    ∧ (Calls (.tSwi 0x15) State.reset 0x15 ∧ 0x15 ∈ [0x11, 0x12, 0x14, 0x15]) :=
  ⟨⟨calls_thumb _ 0x11#8, by decide⟩, ⟨calls_thumb _ 0x12#8, by decide⟩, ⟨calls_thumb _ 0x14#8, by decide⟩, ⟨calls_thumb _ 0x15#8, by decide⟩⟩

theorem witness_SwiSoftReset : Calls (.tSwi 0x00) State.reset 0x00 := calls_thumb _ 0#8

theorem witness_SwiTakesNoException : Calls (.tSwi 0x06) (State.reset.setReg 1 1#32) 0x06 ∧ 0x06 ≠ 0x00 ∧ (State.reset.setReg 1 1#32).reg 1 ≠ 0
    ∧ Calls (.tSwi 0x01) State.reset 0x01 := ⟨calls_thumb _ 6#8, by decide, by decide +kernel, calls_thumb _ 1#8⟩

/-- Each value of the parameter, and both kinds of encoding. -/

theorem witness_UndefinedEncodings : State.reset.params.undefPolicy = .fault
    ∧ (State.reset.passes .al = true ∧ Instr.undefMul .al 0x19101B2 ∈ [Instr.undefMul .al 0x19101B2, .undefCompare .al 0x19101B2, .undefTransfer .al 0x19101B2])
    ∧ Instr.tUndefCond 1 ∈ [Instr.tUndefCond 1, .tUndefB1 1, .tUndefB2 0, .tUndefB6 0, .tUndefB8 0, .tUndefBE 0]
    ∧ ({ State.reset with params := { Params.default with undefPolicy := .nop } } : State).params.undefPolicy = .nop
    ∧ ({ State.reset with params := { Params.default with undefPolicy := .undException } } : State).params.undefPolicy = .undException := by decide

theorem witness_FailedCondition : (Instr.b .eq 0).condition = some .eq ∧ (Instr.tBeq 0).condition = some .eq ∧ State.reset.passes .eq = false := by
  decide

/-- `BX R14` in work RAM in ARM state, and in Thumb state; a ROM of one byte at its entry point. -/

def armCode : State := runState.write32 0x02000000#32 0xE12FFF1E#32

def thumbCode : State := State.write16 { runState with cpsr := 0x3F#32, r15 := 0x02000004#32 } 0x02000000#32 0x4770#16

def byteRom : State := { runState with r15 := 0x08000008#32, romSize := 1, mem := [(0x08000000, 7#8)] }

theorem witness_StepRunsDecodedInstruction :
    (CpuTurn armCode ∧ ¬ IrqDue armCode ∧ 0x4000 ≤ armCode.ia.toNat % 2^28 ∧ armCode.thumb = false
      ∧ ¬ (armCode.romSize < 4 ∧ armCode.ia &&& 0x0FFFFFFC#32 = 0x08000000#32)
      ∧ decode false ([0, 1, 2, 3].map (byteOf (armCode.read32 armCode.ia))) = .ok (.bx .al 14, [])
      ∧ ∃ u, exec (.bx .al 14) armCode = .next u)
    ∧ (CpuTurn thumbCode ∧ ¬ IrqDue thumbCode ∧ 0x4000 ≤ thumbCode.ia.toNat % 2^28 ∧ thumbCode.thumb = true
      ∧ decode true [loByte (thumbCode.read16 thumbCode.ia), hiByte (thumbCode.read16 thumbCode.ia)] = .ok (.tBx 14 0, [])
      ∧ ∃ u, exec (.tBx 14 0) thumbCode = .next u)
    ∧ CpuTurn byteRom ∧ ¬ IrqDue byteRom ∧ 0x4000 ≤ byteRom.ia.toNat % 2^28 ∧ byteRom.thumb = false
      ∧ (byteRom.romSize < 4 ∧ byteRom.ia &&& 0x0FFFFFFC#32 = 0x08000000#32)
      ∧ decode false ([0, 1, 2, 3].map (byteOf 0#32)) = .ok (.and .eq false 0 0 (.shiftImm 0 .lsl 0), [])
      ∧ ∃ u, exec (.and .eq false 0 0 (.shiftImm 0 .lsl 0)) byteRom = .next u := by
  unfold CpuTurn IrqDue
  exact ⟨⟨by decide +kernel, by decide +kernel, by decide +kernel, by decide +kernel, by decide +kernel, by rfl, _, rfl⟩,
    ⟨by decide +kernel, by decide +kernel, by decide +kernel, by decide +kernel, by rfl, _, rfl⟩,
    by decide +kernel, by decide +kernel, by decide +kernel, by decide +kernel, by decide +kernel, by rfl, _, rfl⟩

/-- A ROM of legal size, the largest BIOS, and a ROM too long; an address of each part of the memory that init fills. -/
theorem witness_ResetState : (∃ rom : List Byte, rom.length = 0x02000001) ∧ ([1#8, 2#8].length ≤ 0x02000000)
    ∧ (List.replicate 0x4000 1#8).length ≤ 0x4000 ∧ regionOf 0x00003FFF#32 = 0 ∧ regionOf 0x09FFFFFF#32 = 9
    ∧ (regionOf 0x080000C4#32 = 8 ∧ ¬ GpioAnswers State.reset 0x080000C4#32)
    ∧ (regionOf 0x0E000000#32 = 14 ∧ Params.default.resetState.flashId = false) := by
  unfold GpioAnswers
  exact ⟨⟨List.replicate 0x02000001 0#8, List.length_replicate ..⟩, by decide, Nat.le_of_eq (List.length_replicate ..), by decide, by decide, by decide, by decide⟩

theorem witness_DecodeEncodeRoundTrip : (Instr.ldr .al true true true 2 1 (.imm 4)).wf = true ∧ (Instr.tPush true 0xFF).wf = true
    ∧ 0xFFFFFFFF < 2^32 ∧ 0xFFFF < 2^16 := by decide

/-- Memory that lists nothing and every device as after reset, in the CPU loop, where a step completes. -/

theorem witness_StepKeepsInv : runState.Inv ∧ ∃ t, step runState = .next t := by
  refine ⟨?_, _, rfl⟩
  exact { memory := rfl, picture := rfl, mode := by decide, pc := by decide, irqs := by decide, vcount := by decide, lastVcount := by decide,
          line := by decide, budget := by decide, keys := by decide, gpioData := by decide, gpioDir := by decide, gpioCtrl := by decide,
          dma := by decide, timers := by decide,
          resetState := ⟨rfl, rfl, by decide, by decide, by decide, by decide, by decide, by decide, by decide, by decide, by decide,
            by decide, by decide⟩ }

theorem witness_ReadOnlyMemory : (∃ t, step runState = .next t) ∧ regionOf 0x00000000#32 = 0 ∧ regionOf 0x09FFFFFF#32 = 9
    ∧ (regionOf 0x080000C3#32 = 8 ∧ inGpioWindow (romOffset 0x080000C3#32) = false)
    ∧ (regionOf 0x080000CA#32 = 8 ∧ inGpioWindow (romOffset 0x080000CA#32) = false) := ⟨⟨_, rfl⟩, by decide⟩

theorem witness_UserModeLeft : ({ runState with cpsr := 0x10#32 } : State).cpsr.extractLsb' 0 5 = 0x10#5
    ∧ ∃ t, step { runState with cpsr := 0x10#32 } = .next t := ⟨by decide, _, rfl⟩

/-- The two kinds of address at the ends of their ranges. -/

theorem witness_BiosSpaceSteps : (CpuTurn { runState with r15 := 0x20#32 } ∧ ¬ IrqDue { runState with r15 := 0x20#32 }
      ∧ ({ runState with r15 := 0x20#32 } : State).ia.toNat % 2^28 = 0x18)
    ∧ (({ runState with r15 := 0x08#32 } : State).ia.toNat % 2^28 < 0x4000 ∧ ({ runState with r15 := 0x08#32 } : State).ia.toNat % 2^28 ≠ 0x18)
    ∧ (({ runState with r15 := 0x4004#32 } : State).ia.toNat % 2^28 < 0x4000 ∧ ({ runState with r15 := 0x4004#32 } : State).ia.toNat % 2^28 ≠ 0x18) := by
  unfold CpuTurn IrqDue; decide +kernel

theorem witness_IrqEntry : CpuTurn irqDueState ∧ IrqDue irqDueState ∧ validMode irqDueState.cpsr = true
    ∧ irqDueState.ia.toNat % (if irqDueState.thumb then 2 else 4) = 0 ∧ ¬ Refused irqDueState irqDueState.ia
    ∧ ∃ t, step irqDueState = .next t := by
  unfold CpuTurn IrqDue Refused
  exact ⟨by decide, by decide, by decide, by decide +kernel, by decide +kernel, _, rfl⟩

/-- An address of each register of the statement. -/
theorem witness_IoRegisters : (∀ p ∈ [(0x04000200#32, 0x200), (0x04000203#32, 0x202), (0x04000208#32, 0x208), (0x04000004#32, 0x004),
      (0x04000007#32, 0x006), (0x04000131#32, 0x130), (0x04000300#32, 0x300), (0x04000000#32, 0x000), (0x04000029#32, 0x028),
      (0x0400003E#32, 0x03E), (0x04000132#32, 0x132), (0x040003FF#32, 0x3FE)], regionOf p.1 = 4 ∧ p.2 = offsetOf (align2 p.1))
    ∧ (∀ off ∈ [0x000, 0x028, 0x03E, 0x0AE, 0x0E0, 0x132, 0x3FE], isStorage off = true)
    ∧ (∀ n : Fin 4, (∀ k : Fin 2, regionOf (BitVec.ofNat 32 (0x04000100 + 4 * n.val + 2 * k.val)) = 4
        ∧ 0x100 + 4 * n.val + 2 * k.val = offsetOf (align2 (BitVec.ofNat 32 (0x04000100 + 4 * n.val + 2 * k.val))))
      ∧ ∀ k : Fin 6, regionOf (BitVec.ofNat 32 (0x040000B0 + 12 * n.val + 2 * k.val)) = 4
        ∧ 0xB0 + 12 * n.val + 2 * k.val = offsetOf (align2 (BitVec.ofNat 32 (0x040000B0 + 12 * n.val + 2 * k.val))))
    ∧ ((State.reset.dmaChannel 0).ctrl.getLsbD 15 = false ∧ (0x9000#16).getLsbD 15 = true ∧ (0x9000#16).toNat / 2^12 % 4 ≠ 0
      ∧ ¬ ((State.reset.dmaChannel 0).ctrl.getLsbD 15 = false ∧ (0x7000#16).getLsbD 15 = true)) := by decide +kernel

/-- Both lanes of IF, a timer's counter, an ordinary register, and the two bytes at 0x300. -/
theorem witness_IoAccessWidths : (∀ p ∈ [(0x04000202#32, 0x202), (0x04000203#32, 0x203), (0x0400010C#32, 0x10C), (0x04000000#32, 0x000),
      (0x040003FF#32, 0x3FF), (0x04000300#32, 0x300), (0x04000301#32, 0x301)], regionOf p.1 = 4 ∧ p.2 = offsetOf p.1 ∧ p.2 < 0x400)
    ∧ (∀ off ∈ [0x202, 0x203], off ≠ 0x300 ∧ off ≠ 0x301 ∧ off / 2 = 0x202 / 2)
    ∧ (∀ n : Fin 4, 0x10C / 2 = (0x100 + 4 * n.val) / 2 ↔ n = 3) ∧ (State.reset.timer 3).reload = 0
    ∧ ∀ off ∈ [0x000, 0x3FF], off / 2 ≠ 0x202 / 2 ∧ ∀ n : Fin 4, off / 2 ≠ (0x100 + 4 * n.val) / 2 :=
  ⟨by decide +kernel, by decide, by decide, by decide, by decide⟩

/-- Timer 0 counts cycles and overflows; timer 1 counts its overflows. -/

theorem witness_TimersCount : TicksIn { State.reset with timers := (State.reset.timers.set 0 { reload := 0xFFF0#16, counter := 0xFFFE#16, ctrl := 0x0080#16, accumulator := 0 }).set 1 { reload := 5#16, counter := 0xFFFF#16, ctrl := 0x0084#16, accumulator := 0 } }
    18 fun n => if n = 0 then 18 else if n = 1 then 2 else 0 := by unfold TicksIn; decide +kernel

/-- Channel 3 after reset, where the count 0 is 0x10000 units, to one address; and channel 0 with one unit that moves. -/

theorem witness_DmaTransfer : (regionOf 0x040000DE#32 = 4 ∧ offsetOf (align2 0x040000DE#32) = 0xBA + 12 * (3 : Fin 4).val)
    ∧ offsetOf (align2 0x040000BA#32) = 0xBA + 12 * (0 : Fin 4).val
    ∧ (State.reset.dmaChannel 3).ctrl.getLsbD 15 = false ∧ (0x8040#16).getLsbD 15 = true ∧ (0x8040#16).toNat / 2^12 % 4 = 0
    ∧ (0x8040#16).toNat / 2^5 % 4 = 2 := by decide +kernel

/-- The states between the units of a transfer of halfwords to one address. -/

def unitStates : Nat → State
  | 0 => State.reset
  | k + 1 => (unitStates k).write16 (unitAddr 0x02000000#32 2 2 k) ((unitStates k).read16 (unitAddr 0 0 2 k))

/-- What it writes lies outside the I/O registers, and the states between its units exist. -/

theorem witness_DmaTransfer_units : (∀ k, k < 0x10000 → ¬ ReachesDma (unitAddr 0x02000000#32 2 2 k))
    ∧ (∀ k, k < 1 → ¬ ReachesDma (unitAddr 0x04000000#32 0 4 k))
    ∧ unitStates 0 = State.reset
    ∧ ∀ k, unitStates (k + 1) = (unitStates k).write16 (unitAddr 0x02000000#32 2 2 k) ((unitStates k).read16 (unitAddr 0 0 2 k)) := by
  unfold ReachesDma
  refine ⟨fun k _ => ?_, by decide, rfl, fun k => by rw [unitStates]⟩
  rw [show unitAddr 0x02000000#32 2 2 k = 0x02000000#32 &&& 0x0FFFFFFF#32 from rfl]
  decide

/-- Channel 0 armed for HBlank, repeating, with one halfword to move into the palette; the others at rest. -/
def hblankState : State := { State.reset with dma := State.reset.dma.set 0 { DmaChannel.reset with
  ctrl := 0xA200#16, dst := 0x05000000#32, internalDst := 0x05000000#32, internalCount := 1 } }

/-- The states around a turn: where no channel is armed they are all one, and an armed channel has a run. -/
theorem witness_DmaTriggers : State.reset.Inv ∧ (∀ n : Fin 4, ¬ Armed State.reset n 1) ∧ Armed hblankState 0 2
    ∧ (∀ n : Fin 4, n ≠ 0 → ¬ Armed hblankState n 2) ∧ ∃ t, RunsChannel 0 hblankState t := by
  refine ⟨{ memory := rfl, picture := rfl, mode := by decide, pc := by decide, irqs := by decide, vcount := by decide,
            lastVcount := by decide, line := by decide, budget := by decide, keys := by decide, gpioData := by decide,
            gpioDir := by decide, gpioCtrl := by decide, dma := by decide, timers := by decide,
            resetState := witness_StepKeepsInv.1.resetState }, ?_, ?_, ?_, _,
    hblankState.dmaChannel 0, 2, 0, 0, 1, fun k => if k = 0 then hblankState else
      hblankState.write16 (unitAddr 0x05000000#32 0 2 0) (hblankState.read16 (unitAddr 0 0 2 0)),
    rfl, by decide +kernel, by decide +kernel, by decide +kernel, by decide +kernel, rfl, fun k hk => ?_, rfl⟩
  · unfold Armed; decide +kernel
  · unfold Armed; decide +kernel
  · unfold Armed; decide +kernel
  · have : k = 0 := by omega
    subst this
    exact ⟨by unfold ReachesDma; decide +kernel, rfl⟩

theorem witness_ScanlineStart : ({ State.reset with phase := .lineStart } : State).phase = .lineStart ∧ State.reset.line = 0
    ∧ ({ State.reset with phase := .lineStart, line := 227 } : State).phase = .lineStart := by decide

/-- A halted CPU with time left and one without; a scanline that has used its budget; the first and last of each range. -/

theorem witness_ScanlineEnd : (endState.phase = .run ∧ endState.left ≤ 0) ∧ (({ endState with halted := true, left := 5 } : State).halted = true)
    ∧ ({ endState with line := 160 } : State).line = 160 ∧ ({ endState with line := 226 } : State).line < 227
    ∧ 227 ≤ ({ endState with line := 227 } : State).line := by decide

/-- The four corners of the screen, and a control register for each of the sizes and depths. -/
theorem witness_BackgroundPixels : (3 < 4 ∧ 239 < 240 ∧ 159 < 160) ∧ (0x0000#16).toNat / 2^14 = 0 ∧ (0xC080#16).toNat / 2^14 = 3
    ∧ (0x0000#16).toNat / 2^7 % 2 = 0 ∧ (0xC080#16).toNat / 2^7 % 2 = 1 ∧ (2 = 2 ∨ 2 = 3)
    ∧ ((-1 : Int) % (128 * 2^3 : Nat) = (1023 : Nat)) ∧ (0xFFFFFFFF#32).toInt / 256 = -1
    ∧ displayReg (State.reset.write16 0x0400000E#32 0xC080#16) (8 + 2 * 3) = 0xC080#16 := by decide +kernel

/-- OAM entry 0 with a solid tile, seen at column 0 of scanline 0. -/
def spriteState : State := State.write16 { State.reset with phase := .run, left := 0 } 0x06010000#32 0x1111#16

/-- After reset every entry is an 8 by 8 sprite at the corner; it draws where its tile is not transparent. -/
theorem witness_SpritePixels : (0 < 160 ∧ 239 < 240) ∧ spriteCell spriteState 0 0 0 127 = some { colour := 0, semi := false }
    ∧ SpriteDraws spriteState (oamHalf spriteState 1016) (oamHalf spriteState 1018) (oamHalf spriteState 1020) 0 0 0 0 false := by
  refine ⟨by decide, by decide +kernel, ⟨by decide +kernel, by decide +kernel, by decide +kernel,
    8, 8, 0, 0, 0, 0, 0, 1, by decide +kernel, by decide, by decide +kernel, by decide, by decide +kernel, by decide +kernel, by decide +kernel,
    fun _ => by decide +kernel, fun h => absurd h (by decide +kernel)⟩⟩

/-- The display off, and modes 3, 4 and 5 with BG2 alone; scanlines that end by their budget and with the CPU halted. -/
theorem witness_ScanlinePicture : (endState.phase = .run ∧ endState.left ≤ 0 ∧ endState.line < 160)
    ∧ step endState = .next (endLine endState)
    ∧ (({ endState with halted := true, left := 9, line := 159 } : State).halted = true ∧ ({ endState with halted := true, left := 9, line := 159 } : State).line < 160)
    ∧ (∃ t, step { endState with halted := true, left := 9, line := 159 } = .next t)
    ∧ (displayReg endState 0x50).toNat / 2^6 % 4 = 0 ∧ (displayReg endState 0).toNat / 2^8 % 32 = 0
    ∧ (∃ d, d = (displayReg (endState.write16 0x04000000#32 0x0403#16) 0).toNat ∧ d / 2^8 % 32 = 4 ∧ d % 8 = 3)
    ∧ (∃ d, d = (displayReg (endState.write16 0x04000000#32 0x0404#16) 0).toNat ∧ d / 2^8 % 32 = 4 ∧ d % 8 = 4)
    ∧ ∃ d, d = (displayReg (endState.write16 0x04000000#32 0x0405#16) 0).toNat ∧ d / 2^8 % 32 = 4 ∧ d % 8 = 5 :=
  ⟨by decide, rfl, by decide, ⟨_, rfl⟩, by decide +kernel, by decide +kernel, ⟨0x0403, by decide +kernel, by decide, by decide⟩,
    ⟨0x0404, by decide +kernel, by decide, by decide⟩, ⟨0x0405, by decide +kernel, by decide, by decide⟩⟩

/-- With every layer off the backdrop is the one candidate, so the first, with none below it. -/
theorem witness_ScanlinePicture_backdrop : Candidate endState 0 0 32 .backdrop (paletteHalf endState 0)
    ∧ (∀ p l c, Candidate endState 0 0 p l c → 32 ≤ p)
    ∧ ∀ k, k < 3 → channel (paletteHalf endState 0) k
      = blendedChannel (displayReg endState 0x50) (displayReg endState 0x52) (displayReg endState 0x54) .backdrop (paletteHalf endState 0) none k := by
  refine ⟨.backdrop, fun p l c h => ?_, by decide +kernel⟩
  have hoff : ∀ k : Fin 16, (displayReg endState 0).getLsbD k.val = false := by decide +kernel
  have hl : ∀ e ∈ legalBackgrounds, e.2.1 < 4 := by decide
  cases h with
  | obj q c semi hq on h => rw [show (displayReg endState 0).getLsbD 12 = false from hoff 12] at on; cases on
  | bg n c kind on legal h =>
    have hn : n < 4 := hl _ legal
    rw [hoff ⟨8 + n, by omega⟩] at on; cases on
  | backdrop => exact Nat.le_refl _

/-- Mode 3 with BG2 alone. -/
def mode3State : State := endState.write16 0x04000000#32 0x0403#16

/-- A bitmap pixel in mode 3 is the first candidate, the backdrop the one below it. -/
theorem witness_ScanlinePicture_above : Candidate mode3State 0 0 3 (.bg 2) (vramHalf mode3State 0)
    ∧ Candidate mode3State 0 0 32 .backdrop (paletteHalf mode3State 0)
    ∧ (∀ p l c, Candidate mode3State 0 0 p l c → p = 3 ∨ p = 32)
    ∧ ∀ k, k < 3 → channel 0 k = blendedChannel (displayReg mode3State 0x50) (displayReg mode3State 0x52) (displayReg mode3State 0x54)
      (.bg 2) (vramHalf mode3State 0) (some (.backdrop, paletteHalf mode3State 0)) k := by
  refine ⟨Candidate.bg 2 _ .bitmap3 (by decide +kernel) (by decide +kernel) (by decide +kernel), .backdrop, fun p l c h => ?_, by decide +kernel⟩
  have hoff : ∀ k : Fin 16, k.val ∉ [0, 1, 10] → (displayReg mode3State 0).getLsbD k.val = false := by decide +kernel
  have hl : ∀ e ∈ legalBackgrounds, e.2.1 < 4 := by decide
  cases h with
  | obj q c semi hq on h => rw [show (displayReg mode3State 0).getLsbD 12 = false from hoff 12 (by decide)] at on; cases on
  | bg n c kind on legal h =>
    by_cases h2 : n = 2
    · subst h2; exact .inl (by rw [show displayReg mode3State (8 + 2 * 2) = 0 by decide +kernel]; rfl)
    · have hn : n < 4 := hl _ legal
      rw [hoff ⟨8 + n, by omega⟩ (by simp; omega)] at on; cases on
  | backdrop => exact .inr rfl

theorem witness_CartridgeCommands : State.reset.flashState = .ready ∧ State.reset.flashId = false ∧ regionOf 0x0E000000#32 = 14
    ∧ regionOf 0x0E01FFFF#32 = 14 ∧ 0x00#8 ∉ [0x90#8, 0xF0#8, 0xA0#8, 0x80#8] ∧ State.reset.gpioCtrl.getLsbD 0 = false
    ∧ regionOf 0x080000C4#32 = 8 ∧ ({ State.reset with gpioCtrl := 1 } : State).gpioCtrl.getLsbD 0 = true := by decide

/-- R717, R718: the status byte 0x40 written by command 0x62. -/

theorem test_rtc_status : (rtcSendData (rtcSendCommand (rtcBegin { State.reset with gpioCtrl := 1, gpioDir := 7 }) 0x62#8)
    0x40#8).rtc.status = 0x40#8 := by decide +kernel

theorem witness_RealTimeClock : ({ State.reset with gpioCtrl := 1, gpioDir := 7 } : State).gpioCtrl.getLsbD 0 = true
    ∧ ({ State.reset with gpioCtrl := 1, gpioDir := 7 } : State).gpioDir = 7
    ∧ (rtcSendCommand (rtcBegin { State.reset with gpioCtrl := 1, gpioDir := 7 }) 0x63#8).rtc.reading = true := by decide +kernel

/-- R90: a word whose aligned address lies in a ROM of six bytes keeps its two bytes. R716, R86: a visible GPIO register answers
without a ROM. -/
theorem test_short_rom : State.read32 { State.reset with romSize := 6, mem := [(0x08000004, 1#8), (0x08000005, 2#8)] } 0x08000004#32
      = 0x201#32
    ∧ State.read16 { State.reset with gpioCtrl := 1, gpioDir := 5 } 0x080000C6#32 = 5 := by decide +kernel

/-- R803: the first fetch of a ROM of three bytes is an unmapped read: the word 0. -/
theorem test_first_fetch : State.fetchWord { State.reset with romSize := 3, mem := [(0x08000000, 1#8)] } = 0
    ∧ State.fetchWord { State.reset with romSize := 4, mem := [(0x08000000, 1#8)] } = 1 := by decide +kernel

/-- R731, R800: a reset takes the record that the machine was made with and keeps the ROM. -/
theorem test_reset_state : ∃ s, State.init { Params.default with resetState := { ResetState.default with ie := 0x15 } } [] [7#8] 9 = some s
    ∧ (hostReset { s with ie := 0, ime := 1 } 10).ie = 0x15#16 ∧ (hostReset { s with ie := 0, ime := 1 } 10).ime = 0#16
    ∧ (hostReset { s with ie := 0, ime := 1 } 10).rtc.baseTime = 10 ∧ (hostReset { s with ie := 0 } 10).read8 0x08000000#32 = 7#8 :=
  ⟨_, rfl, by decide +kernel, by decide +kernel, by decide +kernel, by decide +kernel⟩

theorem witness_HostOperations : State.reset.phase = .host
    ∧ ({ State.reset with host := [.stepFrame 1] } : State).host = .stepFrame 1 :: []
    ∧ ({ State.reset with host := [.writeMemory 0 0] } : State).host = .writeMemory 0 0 :: []
    ∧ ({ State.reset with host := [.reset 5] } : State).host = .reset 5 :: []
    ∧ isRam (regionOf 0x02000000#32) = true ∧ regionOf 0x00000000#32 = 0 ∧ (regionOf 0x0E000000#32 = 14 ∧ State.reset.flashId = false ∧ State.reset.params.resetState.flashId = false)
    ∧ (regionOf 0x080000C3#32 = 8 ∧ inGpioWindow (romOffset 0x080000C3#32) = false)
    ∧ sameByte State.reset.romSize 0x0207CF64#32 0x0203CF64#32 ∧ ¬ sameByte State.reset.romSize 0x0203CF65#32 0x0203CF64#32 := by
  unfold sameByte; decide +kernel

end Sys2Proof.Tests
end

section
/-! The state after `init` (R10, R70, R730, R800, R802): what the images make the bus read, and the values of the default
reset record. -/

namespace Sys2Proof.Machine

open Sys2Proof

/-! ## Bus reads of BIOS and ROM -/

/-- BIOS is 16 KiB; the rest of region 0 is unmapped (R82). -/
theorem bufferKey_bios (romSize : Nat) (a : Word) (h : regionOf a = 0) :
    bufferKey romSize a = if offsetOf a < 0x4000 then some (offsetOf a) else none := by
  unfold bufferKey
  simp only [h]

/-- Regions 8 and 9 hold ROM up to ROM_SIZE (R86). -/
theorem bufferKey_rom (romSize : Nat) (a : Word) (h : regionOf a = 8 ∨ regionOf a = 9) :
    bufferKey romSize a = if romOffset a < romSize then some (0x08000000 + romOffset a) else none := by
  unfold bufferKey
  rcases h with h | h <;> simp only [h]

theorem read8_bios (s : State) (a : Word) (h : regionOf a = 0) :
    s.read8 a = if offsetOf a < 0x4000 then Memory.get s.mem (offsetOf a) else 0 := by
  rw [read8_buffer s a (by omega) (by omega) (by omega), bufferKey_bios _ _ h]
  split <;> rfl

/-- A read of a plain buffer where no GPIO register answers (R86, R716). -/
theorem read8_notGpio (s : State) (a : Word) (h4 : regionOf a ≠ 4) (h14 : regionOf a ≠ 14) (hg : ¬ GpioAnswers s a) :
    s.read8 a = ((bufferKey s.romSize a).map (Memory.get s.mem)).getD 0 := by
  have hw : ¬ (regionOf a = 8 ∧ s.gpioVisible = true ∧ inGpioWindow (romOffset a) = true) := by
    simpa [GpioAnswers, State.gpioVisible, inGpioWindow] using hg
  unfold State.read8
  generalize regionOf a = r at h4 h14 hw
  simp only
  cases bufferKey s.romSize a <;> exact if_neg hw

theorem read8_rom (s : State) (a : Word) (h : regionOf a = 8 ∨ regionOf a = 9) (hg : ¬ GpioAnswers s a) :
    s.read8 a = if romOffset a < s.romSize then Memory.get s.mem (0x08000000 + romOffset a) else 0 := by
  rw [read8_notGpio s a (by omega) (by omega) hg, bufferKey_rom _ _ h]
  split <;> rfl

/-! ## The memory that `init` makes -/

/-- An image reads as 0 past its end. -/
theorem image_getD_pastEnd {image : List Byte} {n : Nat} (h : image.length ≤ n) : image.getD n 0 = 0 := by
  rw [List.getD_eq_getElem?_getD, List.getElem?_eq_none h, Option.getD_none]

/-- The cells of a BIOS image of legal size lie below RAM. -/
theorem imageCells_belowRam {bios : List Byte} (h : bios.length ≤ 0x4000) :
    ∀ c, c ∈ imageCells 0 bios → belowRam c = true := fun c hc => by
  have := imageCells_range hc
  unfold belowRam
  exact decide_eq_true (by omega)

/-- The cells of a ROM image lie above RAM. -/
theorem imageCells_aboveRam (rom : List Byte) : ∀ c, c ∈ imageCells 0x08000000 rom → aboveRam c = true := fun _ hc =>
  decide_eq_true (imageCells_range hc).1

/-- The memory of `init` (R730, R800). -/
def initMem (p : Params) (bios rom : List Byte) : List Host.Cell :=
  startMem (imageCells 0 bios) p.resetState.ram (imageCells 0x08000000 rom)

/-- `init` of images of legal size is the start of the machine with their memory. -/
theorem init_legal (p : Params) {bios rom : List Byte} (clock : Nat) (hr : rom.length ≤ 0x02000000)
    (hb : bios.length ≤ 0x4000) :
    State.init p bios rom clock = some (State.start p (initMem p bios rom) rom.length clock) :=
  if_pos ⟨hr, hb⟩

theorem init_romTooLong (p : Params) (bios : List Byte) {rom : List Byte} (clock : Nat) (h : 0x02000000 < rom.length) :
    State.init p bios rom clock = none :=
  if_neg fun ⟨hr, _⟩ => Nat.not_lt.mpr hr h

/-- Below RAM stands the BIOS image, followed by zeros (R10). -/
theorem initMem_get_bios (p : Params) {bios : List Byte} (rom : List Byte) (hb : bios.length ≤ 0x4000) {k : Nat}
    (hk : k < 0x4000) : Memory.get (initMem p bios rom) k = bios.getD k 0 := by
  unfold initMem
  rw [startMem_get _ _ _ _ (imageCells_belowRam hb) (imageCells_aboveRam rom), if_pos hk, imageCells_get 0 bios k (by omega)]
  by_cases h : k < bios.length
  · rw [if_pos (by omega)]; rfl
  · rw [if_neg (by omega), image_getD_pastEnd (by omega)]
    exact if_neg (by omega)

/-- From the ROM's first key on stands its image; no byte of it is lost, and flash, which no image lists, comes after. -/
theorem initMem_get_cartridge (p : Params) {bios rom : List Byte} (hb : bios.length ≤ 0x4000)
    (hr : rom.length ≤ 0x02000000) {k : Nat} (hk : 0x08000000 ≤ k) :
    Memory.get (initMem p bios rom) k =
      if k < 0x08000000 + rom.length then rom.getD (k - 0x08000000) 0 else Memory.unlisted k := by
  unfold initMem
  rw [startMem_get _ _ _ _ (imageCells_belowRam hb) (imageCells_aboveRam rom), if_neg (by omega), if_pos hk,
    imageCells_get _ rom k (by omega)]
  simp only [hk, true_and]

/-! ## What the bus reads after `init` -/

section
variable (p : Params) {bios rom : List Byte} (clock : Nat) (hb : bios.length ≤ 0x4000) (hr : rom.length ≤ 0x02000000)
include hb

/-- R70, R800: `init` gives everything the values of the reset record. -/
theorem init_started :
    Started (State.start p (initMem p bios rom) rom.length clock) p.resetState clock :=
  start_started p _ _ rom.length clock _ (imageCells_belowRam hb) (imageCells_aboveRam rom) rfl

/-- R10: BIOS reads its image, and 0 past its end. -/
theorem init_read8_bios (a : Word) (h : regionOf a = 0) :
    (State.start p (initMem p bios rom) rom.length clock).read8 a = bios.getD (offsetOf a) 0 := by
  rw [read8_bios _ a h]
  split
  · exact initMem_get_bios p rom hb ‹_›
  · rw [image_getD_pastEnd (by omega)]

include hr

/-- R730: regions 8 and 9 read the ROM image, and 0 past its end. -/
theorem init_read8_rom (a : Word) (h : regionOf a = 8 ∨ regionOf a = 9)
    (hg : ¬ GpioAnswers (State.start p (initMem p bios rom) rom.length clock) a) :
    (State.start p (initMem p bios rom) rom.length clock).read8 a = rom.getD (romOffset a) 0 := by
  rw [read8_rom _ a h hg]
  show (if romOffset a < rom.length then Memory.get (initMem p bios rom) (0x08000000 + romOffset a) else 0) = _
  split
  · rw [initMem_get_cartridge p hb hr (by omega), if_pos (by omega), Nat.add_sub_cancel_left]
  · rw [image_getD_pastEnd (by omega)]

/-- R70, R730: flash reads 0xFF. -/
theorem init_read8_flash (a : Word) (h : regionOf a = 14) (hid : p.resetState.flashId = false) :
    (State.start p (initMem p bios rom) rom.length clock).read8 a = 0xFF#8 := by
  rw [read8_flash _ a h, flashRead_array _ _ hid]
  show Memory.get (initMem p bios rom) (0x0E000000 + offsetOf a % 0x20000) = _
  rw [initMem_get_cartridge p hb hr (by omega), if_neg (by omega)]
  exact if_pos (by omega)

end

/-! ## The default reset record (R70) -/

/-- The default machine is that of `init` without a cartridge and without a BIOS image. -/
theorem init_default : State.init Params.default [] [] 0 = some State.reset := rfl

theorem reset_started : Started State.reset ResetState.default 0 :=
  init_started Params.default 0 (bios := []) (rom := []) (Nat.zero_le _)

theorem reset_read8_ram (a : Word) (h : isRam (regionOf a) = true) : State.reset.read8 a = 0 := by
  have hk := ramKey_isRamKey a h
  unfold isRamKey at hk
  rw [reset_started.ram a _ h (bufferKey_ram _ a h)]
  exact if_neg (by omega)

theorem reset_ioHalf (off : Nat) (h : off < 0x400) : State.reset.ioHalf off = 0 := by
  have hz : ∀ k, k < 0x0E000000 → Memory.get ResetState.default.ram k = 0 := fun k hk => if_neg (by omega)
  rw [reset_started.io off h, hz _ (by omega), hz _ (by omega)]
  rfl

theorem reset_regIn_low (n : Reg) (h : n.val < 13) : State.reset.regIn .sys n = 0 ∧ State.reset.regIn .fiq n = 0 := by
  revert n
  decide

theorem reset_regIn_lr (m : Mode) : State.reset.regIn m 14 = 0 := by cases m <;> rfl

theorem reset_spsrOf (m : Mode) : State.reset.spsrOf m = none ∨ State.reset.spsrOf m = some 0 := by
  cases m
  case usr | sys => exact .inl rfl
  all_goals exact .inr rfl

theorem reset_dmaChannel (n : Fin 4) : State.reset.dmaChannel n = DmaChannel.reset := Vector.getElem_replicate ..

theorem reset_timer (n : Fin 4) : State.reset.timer n = Timer.reset := Vector.getElem_replicate ..

/-- Settles O41: by the lemmas above on what `init` makes the bus read and on the fields of `State.reset`. -/
theorem resetState : Obligations.ResetState := by
  unfold Obligations.ResetState
  refine ⟨fun p bios rom clock => ⟨init_romTooLong p bios clock, fun hr hb =>
    ⟨_, init_legal p clock hr hb, init_started p clock hb, rfl, rfl, rfl, init_read8_bios p clock hb,
      init_read8_rom p clock hb hr, init_read8_flash p clock hb hr⟩⟩, init_default, ?_⟩
  rintro s rfl
  refine ⟨reset_regIn_low, rfl, rfl, rfl, rfl, rfl, rfl, reset_regIn_lr, rfl, rfl, rfl, reset_spsrOf, rfl, rfl,
    reset_read8_ram, reset_ioHalf, rfl, rfl, rfl, rfl, rfl, rfl, rfl, fun n => ?dma, fun n => ?timer, rfl, rfl, rfl, rfl, rfl, ?rest⟩
  case dma => rw [reset_dmaChannel]; exact ⟨rfl, rfl, rfl, rfl, rfl, rfl, rfl⟩
  case timer => rw [reset_timer]; exact ⟨rfl, rfl, rfl, rfl, rfl⟩
  case rest =>
    exact ⟨rfl, rfl, rfl, rfl, rfl, rfl, rfl, rfl, rfl, fun k => Vector.getElem_replicate .., rfl, rfl, rfl, rfl, rfl, rfl, rfl,
      rfl, rfl, rfl, rfl, fun _ _ => rfl, rfl⟩

end Sys2Proof.Machine
end

section
/-! The invariant (R43, R50, R112, R113, R641, R675, R683, R715): it holds at reset, and each of the five actions of the
schedule of R671 keeps it. -/

namespace Sys2Proof.Machine

/-! ## Reset -/

/-- The default reset record (R70) names a state of the invariant. -/
theorem ResetState.default_ok : ResetState.default.Ok where
  memory := rfl
  picture := rfl
  mode := by decide
  pc := by decide
  irqs := by decide
  vcount := by decide
  lastVcount := by decide
  keys := by decide
  gpioData := by decide
  gpioDir := by decide
  gpioCtrl := by decide
  dma n := by
    change (State.reset.dmaChannel n).onBus = true
    rw [reset_dmaChannel]
    decide
  timers n := by
    change (State.reset.timer n).accumulator < 1024
    rw [reset_timer]
    decide

/-- Settles O42: the default reset record is well formed, and a well-formed record starts a machine in the invariant. -/
theorem resetInv : Obligations.ResetInv := by
  unfold Obligations.ResetInv
  exact start_inv 0 0 ResetState.default_ok ResetState.default_ok.memory

/-! ## Steps -/

/-- The end of a scanline keeps the invariant (R671, R673 to R676). -/
theorem endLine_inv (s : State) (i : s.Inv) : (endLine s).Inv := by
  have rest : (haltedRest s).Inv := (haltedRest_effect s).inv i
  have drawn : (if (haltedRest s).line < 160 then renderScanline (haltedRest s) (haltedRest s).line
      else haltedRest s).Inv := by
    split
    · exact renderScanline_inv _ _ rest
    · exact rest
  exact nextLine_inv _ (advanceAffineRefs_inv _ drawn)

/-- Settles O43: a step is one of five actions of the schedule. The IRQ entry and the CPU step keep the invariant as they
have the effect of an instruction; the other three by their own lemmas. -/
theorem stepKeepsInv : Obligations.StepKeepsInv := by
  unfold Obligations.StepKeepsInv
  intro s t i h
  obtain ⟨-, rfl⟩ | ⟨-, rfl⟩ | ⟨-, -, -, rfl⟩ | ⟨-, -, -, u, hcpu, rfl⟩ | ⟨-, -, rfl⟩ := step_cases h
  · exact hostStep_inv s i
  · exact beginLine_inv s i
  · exact (takeIrq_effect s).inv i
  · exact afterStep_inv _ u ((cpuStep_effect hcpu).inv i)
  · exact endLine_inv s i

end Sys2Proof.Machine
end

section
/-! Memory (spec/20_memory.md R80 to R96): what no step changes, the reads, the mirrors and the writes of the bus outside the
I/O registers. -/

namespace Sys2Proof.Machine

/-! ## Read-only memory (R82, R85, R86) -/

/-- Settles O44: every step leaves BIOS and ROM in the store as they are (`step_boot`), and a read of regions 0, 8 and 9
outside the GPIO window answers from there (`read8_boot`). -/
theorem readOnlyMemory : Obligations.ReadOnlyMemory := by
  unfold Obligations.ReadOnlyMemory
  intro s t h
  obtain ⟨romSize, params, boot⟩ := step_boot h
  exact ⟨romSize, params, fun a ha => read8_boot a romSize boot ha⟩

/-! ## Reads (R87 to R92) -/

theorem gpioAnswers_iff (s : State) (a : Word) :
    GpioAnswers s a ↔ regionOf a = 8 ∧ s.gpioVisible = true ∧ inGpioWindow (romOffset a) = true := by
  simp [GpioAnswers, State.gpioVisible, inGpioWindow]

/-- Flash answers only bytes (R87). -/
theorem wideRead_flash (s : State) {a : Word} (h : regionOf a = 14) : s.read16 a = 0 ∧ s.read32 a = 0 :=
  ⟨if_pos h, if_pos h⟩

/-- Settles O11: by the bits of the wider reads and of the rotation, and the reads of unmapped addresses. -/
theorem memoryReads : Obligations.MemoryReads := by
  unfold Obligations.MemoryReads
  simp only [gpioAnswers_iff]
  intro s a
  exact ⟨fun h14 => ⟨read16_bit s a h14, read32_bit s a h14⟩, wideRead_flash s, ror_bit _ _, read8_unmapped s a,
    read16_unmapped s a, read32_unmapped s a⟩

/-! ## Mirrors (R80 to R84, R87) -/

/-- A byte read looks at the bus address alone: the top four address bits are ignored (R81). -/
theorem read8_congr_busAddr (s : State) {a b : Word} (h : busAddr a = busAddr b) : s.read8 a = s.read8 b := by
  have region : regionOf a = regionOf b := congrArg (· / 2^24) h
  have offset : offsetOf a = offsetOf b := congrArg (· % 2^24) h
  have rom : romOffset a = romOffset b := congrArg (· - 0x08000000) h
  have key : bufferKey s.romSize a = bufferKey s.romSize b := by unfold bufferKey; rw [region, offset, rom]
  unfold State.read8
  rw [region, offset, rom, key]

/-- Flash repeats every 128 KiB (R87). -/
theorem flash_mirror (s : State) {a b : Word} (ha : regionOf a = 14) (hb : regionOf b = 14)
    (h : a.toNat % 0x20000 = b.toNat % 0x20000) : s.read8 a = s.read8 b ∧ ∀ x, s.write8 a x = s.write8 b x := by
  have offset : ∀ c : Word, offsetOf c % 0x20000 = c.toNat % 0x20000 := fun c => by rw [offsetOf_eq]; omega
  refine ⟨?_, fun x => ?_⟩
  · rw [read8_flash s a ha, read8_flash s b hb, offset, offset, h]
  · rw [write8_flash s a x ha, write8_flash s b x hb, offset, offset, h]

/-- The bus address agrees with the address modulo every size that divides 2^28. -/
theorem busAddr_mod (a : Word) {size : Nat} (h : size ∣ 2^28) : busAddr a % size = a.toNat % size :=
  Nat.mod_mod_of_dvd _ h

theorem ramKey_ewram_mirror {a b : Word} (ha : regionOf a = 2) (hb : regionOf b = 2)
    (h : a.toNat % 0x40000 = b.toNat % 0x40000) : ramKey (busAddr a) = ramKey (busAddr b) := by
  rw [ramKey_ewram _ ha, ramKey_ewram _ hb, busAddr_mod a (by decide), busAddr_mod b (by decide), h]

theorem ramKey_iwram_mirror {a b : Word} (ha : regionOf a = 1 ∨ regionOf a = 3) (hb : regionOf b = 1 ∨ regionOf b = 3)
    (h : a.toNat % 0x8000 = b.toNat % 0x8000) : ramKey (busAddr a) = ramKey (busAddr b) := by
  rw [ramKey_iwram _ ha, ramKey_iwram _ hb, busAddr_mod a (by decide), busAddr_mod b (by decide), h]

theorem ramKey_small_mirror {a b : Word} (ha : regionOf a = 5 ∨ regionOf a = 7) (hb : regionOf b = regionOf a)
    (h : a.toNat % 0x400 = b.toNat % 0x400) : ramKey (busAddr a) = ramKey (busAddr b) := by
  have region : busAddr b / 2^24 = busAddr a / 2^24 := hb
  rw [ramKey_small _ ha, ramKey_small _ (region ▸ ha), region, busAddr_mod a (by decide), busAddr_mod b (by decide), h]

/-- VRAM repeats every 128 KiB, and the last 32 KiB of them repeat the 32 KiB at 0x10000 (R84). -/
theorem ramKey_vram_mirror {a b : Word} (ha : regionOf a = 6) (hb : regionOf b = 6)
    (h : a.toNat % 0x20000 = b.toNat % 0x20000
      ∨ (0x18000 ≤ a.toNat % 0x20000 ∧ b.toNat % 0x20000 = a.toNat % 0x20000 - 0x8000)) :
    ramKey (busAddr a) = ramKey (busAddr b) := by
  have keyA := ramKey_vram _ ha
  have keyB := ramKey_vram _ hb
  rw [busAddr_mod _ (by decide)] at keyA keyB
  generalize ramKey (busAddr a) = k at keyA ⊢
  generalize ramKey (busAddr b) = l at keyB ⊢
  omega

/-- Settles O12: two RAM addresses read alike where they have one key in the store (`read8_mirror`), and the keys repeat with
the size of the buffer. -/
theorem mirrors : Obligations.Mirrors := by
  unfold Obligations.Mirrors
  intro s a b
  have iwram : ∀ {r}, r = 1 ∨ r = 3 → isRam r = true := by rintro _ (rfl | rfl) <;> rfl
  have small : ∀ {r}, r = 5 ∨ r = 7 → isRam r = true := by rintro _ (rfl | rfl) <;> rfl
  have ram : ∀ {r r'}, r = r' → isRam r' = true → isRam r = true := fun h hr => h ▸ hr
  exact ⟨read8_congr_busAddr s,
    fun ha hb h => read8_mirror s a b (ram ha rfl) (ram hb rfl) (ramKey_ewram_mirror ha hb h),
    fun ha hb h => read8_mirror s a b (iwram ha) (iwram hb) (ramKey_iwram_mirror ha hb h),
    fun ha hb h => read8_mirror s a b (small ha) (ram hb (small ha)) (ramKey_small_mirror ha hb h),
    fun ha hb h => read8_mirror s a b (ram ha rfl) (ram hb rfl) (ramKey_vram_mirror ha hb (.inl h)),
    fun ha hb hl h => read8_mirror s a b (ram ha rfl) (ram hb rfl) (ramKey_vram_mirror ha hb (.inr ⟨hl, h⟩)),
    flash_mirror s⟩

/-! ## Writes (R91, R94) -/

/-- Settles O13: by what a write of each width stores, what it leaves alone, and which writes are dropped. -/
theorem memoryWrites : Obligations.MemoryWrites := by
  unfold Obligations.MemoryWrites
  intro s a v h x
  exact ⟨write32_stored s a v, write16_stored s a h, write8_stored s a x,
    fun h4 h8 => ⟨write32_mem s a v h4 h8, write16_mem s a h h4 h8⟩, write32_drops s a v, write16_drops s a h⟩

end Sys2Proof.Machine
end

section
/-! The I/O registers (spec/20_memory.md R105 to R120) as halfword, byte and word accesses see them. -/

namespace Sys2Proof.Machine

/-! ## Interrupt and display registers (R110, R111) -/

/-- DISPSTAT after a write: the three status flags stay (R111). -/
theorem dispstatWritten_bit (v d : Half) (k : Nat) (hk : k < 16) :
    ((v &&& 0xFFF8#16) ||| (d &&& 0x0007#16)).getLsbD k = if k < 3 then d.getLsbD k else v.getLsbD k := by
  have masks : (0xFFF8#16).getLsbD k = !decide (k < 3) ∧ (0x0007#16).getLsbD k = decide (k < 3) := by
    revert k; decide
  rw [BitVec.getLsbD_or, BitVec.getLsbD_and, BitVec.getLsbD_and, masks.1, masks.2]
  by_cases h : k < 3 <;> simp [h]

/-- A 1 written to a bit of IF acknowledges its request (R110). -/
theorem ackIrq_bit (f v : Half) (k : Nat) : (f &&& ~~~v).getLsbD k = (f.getLsbD k && !v.getLsbD k) := by
  by_cases hk : k < 16
  · simp [hk]
  · rw [BitVec.getLsbD_of_ge _ _ (by omega), BitVec.getLsbD_of_ge f _ (by omega), Bool.false_and]

/-! ## POSTFLG and HALTCNT (R117, R118) -/

theorem append_maskLow (h l : Byte) : (h ++ l) &&& 0x00FF#16 = 0#8 ++ l := by
  apply BitVec.eq_of_getLsbD_eq
  intro k hk
  have mask : (0x00FF#16).getLsbD k = decide (k < 8) := by revert k; decide
  rw [BitVec.getLsbD_and, append_bit, append_bit, mask]
  by_cases h8 : k < 8 <;> simp [h8]

/-- POSTFLG reads its byte, HALTCNT above it reads 0 (R117, R118). -/
theorem ioRead16_postflg (s : State) : ioRead16 s 0x300 = 0#8 ++ Memory.get s.mem (ioKey 0x300) :=
  append_maskLow _ _

theorem ioWrite16_postflg (s : State) (v : Half) :
    ioWrite16 rising s 0x300 v = { s with mem := Memory.set s.mem (ioKey 0x300) (loByte v), halted := true } := rfl

theorem loByte_append (h l : Byte) : loByte (h ++ l) = l := BitVec.extractLsb'_append_eq_right
theorem hiByte_append (h l : Byte) : hiByte (h ++ l) = h := BitVec.extractLsb'_append_eq_left

/-- A byte read in the I/O region is a lane of its register (R106). -/
theorem read8_io (s : State) (a : Word) (h4 : regionOf a = 4) (hlt : offsetOf a < 0x400) :
    s.read8 a = if offsetOf a % 2 = 0 then loByte (ioRead16 s (offsetOf a / 2 * 2))
      else hiByte (ioRead16 s (offsetOf a / 2 * 2)) := by
  unfold State.read8
  simp only [h4, if_pos hlt]

theorem read8_postflg_self (s : State) (a : Word) (h4 : regionOf a = 4) (ho : offsetOf a = 0x300) :
    s.read8 a = Memory.get s.mem (ioKey 0x300) := by
  rw [read8_io s a h4 (by omega), ho, if_pos rfl, ioRead16_postflg, loByte_append]

/-- HALTCNT reads 0 (R118). -/
theorem read8_haltcnt (s : State) (a : Word) (h4 : regionOf a = 4) (ho : offsetOf a = 0x301) : s.read8 a = 0 := by
  rw [read8_io s a h4 (by omega), ho, if_neg (by decide), ioRead16_postflg, hiByte_append]
  rfl

/-! ## The timers (R115) -/

/-- A write to TMnCNT_H stores it; a rising enable reloads the counter (R115, R706). -/
theorem writeTimerControl_eq (s : State) (n : Fin 4) (v : Half) : writeTimerControl s n v =
    s.setTimer n (if (s.timer n).ctrl.getLsbD 7 = false ∧ v.getLsbD 7 = true
      then { s.timer n with ctrl := v, counter := (s.timer n).reload, accumulator := 0 }
      else { s.timer n with ctrl := v }) :=
  (apply_ite (s.setTimer n) _ _ _).symm

/-! ## The DMA channels (R114, R683) -/

theorem setDma_self (s : State) (n : Fin 4) (d : DmaChannel) : (s.setDma n d).dmaChannel n = d :=
  Vector.getElem_set_self n.isLt

theorem setDma_setDma (s : State) (n : Fin 4) (d e : DmaChannel) : (s.setDma n d).setDma n e = s.setDma n e := by
  unfold State.setDma
  rw [Vector.set_set]

/-- Everything a channel latches when its enable bit rises (R682, R683). -/
theorem latch_eq (d : DmaChannel) (n : Fin 4) : d.latch n = { d with
    internalSrc := d.src &&& 0x0FFFFFFF#32, internalDst := d.dst &&& 0x0FFFFFFF#32,
    internalCount := BitVec.ofNat 17 (if d.count.toNat ≠ 0 then d.count.toNat else if n = 3 then 0x10000 else 0x4000) } := by
  unfold DmaChannel.latch
  rw [effCount_eq]
  rfl

/-- The start timing as a number (R681). -/
theorem timing_eq (d : DmaChannel) : d.timing = d.ctrl.toNat / 2^12 % 4 := by
  obtain ⟨-, -, timing⟩ := dmaFields d
  exact timing

section
variable (s : State) (n : Fin 4)

/-- A rising enable by the CPU or the host, which left the channel `d`, latches it, and runs it when its timing is immediate
(R114). -/
theorem rising_setDma (d : DmaChannel) : rising n (s.setDma n d) = if d.timing = 0
    then dmaRunWith (dmaRise 3 [n]) n (s.setDma n (d.latch n)) else s.setDma n (d.latch n) := by
  show dmaRise 4 [] n _ = _
  rw [dmaRise, if_neg List.not_mem_nil]
  simp only
  rw [setDma_self, setDma_setDma, setDma_self]
  rfl

/-- A write to DMAnCNT_H (R114). -/
theorem writeDmaControl (v : Half) : writeDmaReg rising s n 10 v =
    if (s.dmaChannel n).ctrl.getLsbD 15 = false ∧ v.getLsbD 15 = true
      then rising n (s.setDma n { s.dmaChannel n with ctrl := v }) else s.setDma n { s.dmaChannel n with ctrl := v } := rfl

end

/-! ## Plain storage (R120, R772) -/

/-- A word of plain storage. -/
theorem read32_storage (s : State) (a : Word) (off : Nat) (h4 : regionOf a = 4) (ho : off = offsetOf (align4 a))
    (lo : isStorage off = true) (hi : isStorage (off + 2) = true) : s.read32 a = s.ioWord off := by
  obtain ⟨al0, al2, r0, r2, ho2, -⟩ := io_halves a h4
  have hlt : off + 2 < 0x400 := by unfold isStorage at hi; simp at hi; omega
  rw [read32_io s a h4, read16_io s _ off r0 (by rw [al0, ho]) (by omega),
    read16_io s _ (off + 2) r2 (by rw [al2, ho2, ho]) hlt, ioRead16_storage s _ lo, ioRead16_storage s _ hi]
  rfl

/-- A write to plain storage stores the halfword, and reloads the reference point it belongs to, if any. -/
theorem ioWrite16_storage_eq (s : State) (off : Nat) (v : Half) (u : State) (hu : u = s.setIoHalf off v)
    (h : isStorage off = true) : ioWrite16 rising s off v = { u with
      refX2 := if off / 4 = 0x28 / 4 then refValue (u.ioWord 0x28) else s.refX2,
      refY2 := if off / 4 = 0x2C / 4 then refValue (u.ioWord 0x2C) else s.refY2,
      refX3 := if off / 4 = 0x38 / 4 then refValue (u.ioWord 0x38) else s.refX3,
      refY3 := if off / 4 = 0x3C / 4 then refValue (u.ioWord 0x3C) else s.refY3 } := by
  rw [ioWrite16_storage s off v h]
  by_cases hr : isRefReg off = true
  · rw [if_pos hr, writeRefHalf_eq s off v u hu hr]
  · have hoff : off / 4 ≠ 0x28 / 4 ∧ off / 4 ≠ 0x2C / 4 ∧ off / 4 ≠ 0x38 / 4 ∧ off / 4 ≠ 0x3C / 4 := by
      unfold isRefReg at hr; simp at hr; omega
    obtain ⟨x2, y2, x3, y3⟩ := hoff
    rw [if_neg hr, if_neg x2, if_neg y2, if_neg x3, if_neg y3, hu]
    rfl

/-! ## Halfword accesses -/

section
variable (s : State) (a : Word) (v : Half) (h4 : regionOf a = 4)
include h4

/-- A halfword access is that of the register at its even offset (R106, R107). -/
theorem access16_io {off : Nat} (ho : off = offsetOf (align2 a)) (hlt : off < 0x400) :
    s.read16 a = ioRead16 s off ∧ s.write16 a v = ioWrite16 rising s off v :=
  ⟨read16_io s a off h4 ho hlt, write16_io s a v off h4 ho hlt⟩

/-- A register of timer `n`, at byte `b` of its four (R115). -/
theorem access16_timer {n : Fin 4} {b : Nat} (hb : b = 0 ∨ b = 2) (ho : 0x100 + 4 * n.val + b = offsetOf (align2 a)) :
    s.read16 a = (if b = 0 then (s.timer n).counter else (s.timer n).ctrl)
    ∧ s.write16 a v = if b = 0 then writeTimerReload s n v else writeTimerControl s n v := by
  have := n.isLt
  rw [← ioRead16_timer s n b hb, ← ioWrite16_timer s n b v hb]
  exact access16_io s a v h4 ho (by omega)

/-- A register of DMA channel `n`, at byte `b` of its twelve (R114). -/
theorem access16_dma {n : Fin 4} {b : Nat} (hb : b < 12) (ho : 0xB0 + 12 * n.val + b = offsetOf (align2 a)) :
    s.read16 a = readDmaReg (s.dmaChannel n) b ∧ s.write16 a v = writeDmaReg rising s n b v := by
  have := n.isLt
  rw [← ioRead16_dma s n b hb, ← ioWrite16_dma s n b v hb]
  exact access16_io s a v h4 ho (by omega)

/-- POSTFLG takes the low byte, and the write of HALTCNT beside it halts (R117, R118). -/
theorem write16_postflg (ho : 0x300 = offsetOf (align2 a)) : ∃ t, s.write16 a v = t
    ∧ t = { s with mem := t.mem, halted := true } ∧ t.read16 a = v &&& 0x00FF#16
    ∧ ∀ b, regionOf b ≠ 4 ∨ offsetOf b ≠ 0x300 → t.read8 b = s.read8 b := by
  refine ⟨_, (write16_io s a v 0x300 h4 ho (by decide)).trans (ioWrite16_postflg s v), rfl, ?_,
    read8_postflg s (loByte v) true⟩
  rw [read16_io _ a 0x300 h4 ho (by decide), ioRead16_postflg, Memory.get_set_same,
    ← append_maskLow (hiByte v), halves_append]

/-- A halfword of plain storage is read back, no other byte changes, and a half of BG2X to BG3Y reloads its reference point
(R120, R771, R772). -/
theorem write16_storage {off : Nat} (ho : off = offsetOf (align2 a)) (h : isStorage off = true) : ∃ t, s.write16 a v = t
    ∧ t = { s with mem := t.mem, refX2 := t.refX2, refY2 := t.refY2, refX3 := t.refX3, refY3 := t.refY3 }
    ∧ t.read16 a = v ∧ (∀ b, regionOf b ≠ 4 ∨ offsetOf (align2 b) ≠ off → t.read8 b = s.read8 b)
    ∧ t.refX2 = (if off / 4 = 0x28 / 4 then ((t.read32 0x04000028#32).extractLsb' 0 28).signExtend 32 else s.refX2)
    ∧ t.refY2 = (if off / 4 = 0x2C / 4 then ((t.read32 0x0400002C#32).extractLsb' 0 28).signExtend 32 else s.refY2)
    ∧ t.refX3 = (if off / 4 = 0x38 / 4 then ((t.read32 0x04000038#32).extractLsb' 0 28).signExtend 32 else s.refX3)
    ∧ t.refY3 = (if off / 4 = 0x3C / 4 then ((t.read32 0x0400003C#32).extractLsb' 0 28).signExtend 32 else s.refY3) := by
  have hlt : off < 0x400 := by unfold isStorage at h; simp at h; omega
  have heven : off % 2 = 0 := by rw [ho, align2_offset]; omega
  refine ⟨_, (write16_io s a v off h4 ho hlt).trans (ioWrite16_storage_eq s off v _ rfl h), rfl, ?read, fun b hb => ?other,
    ?_, ?_, ?_, ?_⟩
  case read =>
    rw [read16_io _ a off h4 ho hlt, ioRead16_storage _ _ h]
    exact setIoHalf_half s off v
  case other =>
    rw [align2_offset] at hb
    exact read8_ioBytes off heven rfl hlt (setIoHalf_get s off v) b hb
  all_goals rw [read32_storage _ _ _ (by decide) rfl (by decide) (by decide)]; rfl

/-- DMAnCNT_H: a write that does not raise the enable bit stores its value, one that does starts the channel (R114). -/
theorem access16_dmaControl {n : Fin 4} (ho : 0xBA + 12 * n.val = offsetOf (align2 a)) :
    s.read16 a = (s.dmaChannel n).ctrl
    ∧ (¬ ((s.dmaChannel n).ctrl.getLsbD 15 = false ∧ v.getLsbD 15 = true) →
        s.write16 a v = s.setDma n { s.dmaChannel n with ctrl := v })
    ∧ ((s.dmaChannel n).ctrl.getLsbD 15 = false → v.getLsbD 15 = true →
        s.write16 a v = rising n (s.setDma n { s.dmaChannel n with ctrl := v })) := by
  obtain ⟨hr, hw⟩ := access16_dma s a v h4 (n := n) (b := 10) (by decide) (by omega)
  rw [writeDmaControl] at hw
  exact ⟨hr, fun h => hw.trans (if_neg h), fun h0 h1 => hw.trans (if_pos ⟨h0, h1⟩)⟩

end

/-- Settles O48: each register by the access lemma of its unit. -/
theorem ioRegisters : Obligations.IoRegisters := by
  unfold Obligations.IoRegisters
  intro s a off v h4 ho
  refine ⟨?ie, ?irqFlags, ?ime, ?dispstat, ?vcount, ?keyinput, ?postflg, fun n => ⟨?reload, ?timerControl⟩, ?dma,
    write16_storage s a v h4 ho⟩
  case ie | ime | vcount | keyinput => rintro rfl; exact access16_io s a v h4 ho (by decide)
  case irqFlags =>
    rintro rfl
    obtain ⟨hr, hw⟩ := access16_io s a v h4 ho (by decide)
    exact ⟨hr, _, hw, ackIrq_bit s.if_ v⟩
  case dispstat =>
    rintro rfl
    obtain ⟨hr, hw⟩ := access16_io s a v h4 ho (by decide)
    exact ⟨hr, _, hw, dispstatWritten_bit v s.dispstat⟩
  case postflg => rintro rfl; exact write16_postflg s a v h4 ho
  case reload => rintro rfl; exact access16_timer s a v h4 (b := 0) (.inl rfl) ho
  case timerControl =>
    intro h
    obtain ⟨hr, hw⟩ := access16_timer s a v h4 (n := n) (b := 2) (.inr rfl) (by omega)
    refine ⟨hr, ?_⟩
    rintro _ rfl
    exact hw.trans (writeTimerControl_eq s n v)
  case dma =>
    rintro n _ rfl
    refine ⟨fun h => access16_dma s a v h4 (b := 0) (by decide) (by omega),
      fun h => access16_dma s a v h4 (b := 2) (by decide) (by omega),
      fun h => access16_dma s a v h4 (b := 4) (by decide) (by omega),
      fun h => access16_dma s a v h4 (b := 6) (by decide) (by omega),
      fun h => access16_dma s a v h4 (b := 8) (by decide) (by omega), fun h => ?_⟩
    obtain ⟨hr, hsame, hrise⟩ := access16_dmaControl s a v h4 (n := n) (by omega)
    refine ⟨hr, hsame, fun h0 h1 ht => ?_⟩
    have later : ({ s.dmaChannel n with ctrl := v } : DmaChannel).timing ≠ 0 := by rwa [timing_eq]
    rw [hrise h0 h1, rising_setDma, if_neg later, latch_eq]
    rfl

/-! ## Byte and word accesses (R106, R107, R117, R118) -/

/-- A byte written in the I/O region goes into its lane of the register's stored value (R107). -/
theorem write8_io (s : State) (a : Word) (x : Byte) (h4 : regionOf a = 4) (hlt : offsetOf a < 0x400)
    (hne : offsetOf a ≠ 0x300) {old : Half} (hold : old = ioStored16 s (offsetOf a / 2 * 2)) :
    s.write8 a x = ioWrite16 rising s (offsetOf a / 2 * 2)
      (if offsetOf a % 2 = 0 then old.extractLsb' 8 8 ++ x else x ++ old.extractLsb' 0 8) := by
  subst hold
  unfold State.write8 write8With
  simp only [h4, if_pos hlt]
  exact if_neg hne

/-- The other lane of a byte written to IF is 0, so that it acknowledges nothing (R107). -/
theorem ioStored16_if (s : State) : ioStored16 s 0x202 = 0 := rfl

/-- A byte written to a timer's counter merges with its reload (R107, R115). -/
theorem ioStored16_timer (s : State) (n : Fin 4) : ioStored16 s (0x100 + 4 * n.val) = (s.timer n).reload := by
  have := n.isLt
  unfold ioStored16
  rw [if_neg (by omega), if_pos (by omega)]
  exact congrArg (fun m => (s.timer m).reload) (timerIndex n 0 (by decide))

/-- Every other register merges with what it reads as. -/
theorem ioStored16_other (s : State) (off : Nat) (hIf : off ≠ 0x202) (hTimer : ∀ n : Fin 4, off ≠ 0x100 + 4 * n.val) :
    ioStored16 s off = ioRead16 s off := by
  unfold ioStored16
  rw [if_neg hIf, if_neg]
  rintro ⟨h1, h2, h3⟩
  exact hTimer ⟨(off - 0x100) / 4, by omega⟩ (show off = 0x100 + 4 * ((off - 0x100) / 4) by omega)

/-- POSTFLG is a byte of its own (R117). -/
theorem write8_postflg (s : State) (a : Word) (x : Byte) (h4 : regionOf a = 4) (ho : offsetOf a = 0x300) :
    s.write8 a x = { s with mem := Memory.set s.mem (ioKey 0x300) x } := by
  unfold State.write8 write8With
  simp only [h4, ho]
  rfl

/-- A byte written to HALTCNT halts; POSTFLG beside it is stored again as it is (R118). -/
theorem write8_haltcnt (s : State) (a : Word) (x : Byte) (h4 : regionOf a = 4) (ho : offsetOf a = 0x301) :
    s.write8 a x = { s with mem := Memory.set s.mem (ioKey 0x300) (Memory.get s.mem (ioKey 0x300)), halted := true } := by
  rw [write8_io s a x h4 (by omega) (by omega) rfl, ho]
  show ioWrite16 rising s 0x300 (x ++ loByte (ioRead16 s 0x300)) = _
  rw [ioWrite16_postflg, loByte_append, ioRead16_postflg, loByte_append]

/-- A byte of POSTFLG stored again as it is changes no byte that is read. -/
theorem sameBytes_postflg (s : State) (y : Bool) : SameBytes s
    { s with mem := Memory.set s.mem (ioKey 0x300) (Memory.get s.mem (ioKey 0x300)), halted := y } := by
  intro b
  by_cases hb : regionOf b = 4 ∧ offsetOf b = 0x300
  · rw [read8_postflg_self _ b hb.1 hb.2, read8_postflg_self s b hb.1 hb.2, Memory.get_set_same]
  · exact read8_postflg s _ y b (Decidable.not_and_iff_not_or_not.mp hb)

/-- Settles O49: by the lemmas above on what each byte write stores, and the words by their halves. -/
theorem ioAccessWidths : Obligations.IoAccessWidths := by
  unfold Obligations.IoAccessWidths
  rintro s a v x _ old h4 rfl hlt
  refine ⟨read32_io s a h4, write32_io s a v h4, fun h0 _ hIf hTimer hOther => ?lane, fun h => ?postflg,
    fun h => ?haltcnt⟩
  case lane =>
    have stored : old = ioStored16 s (offsetOf a / 2 * 2) := by
      by_cases isIf : offsetOf a / 2 = 0x202 / 2
      · rw [hIf isIf, isIf, ioStored16_if]
      by_cases isTimer : ∃ n : Fin 4, offsetOf a / 2 = (0x100 + 4 * n.val) / 2
      · obtain ⟨n, hn⟩ := isTimer
        rw [hTimer n hn, show offsetOf a / 2 * 2 = 0x100 + 4 * n.val by omega, ioStored16_timer]
      · have noTimer : ∀ n : Fin 4, offsetOf a / 2 ≠ (0x100 + 4 * n.val) / 2 := fun n hn => isTimer ⟨n, hn⟩
        rw [hOther isIf noTimer, read16_io s a _ h4 (align2_offset a).symm (by omega), ioStored16_other s _ (by omega)]
        intro n
        have := noTimer n
        omega
    rw [write8_io s a x h4 hlt h0 stored, write16_io s a _ _ h4 (align2_offset a).symm (by omega)]
  case postflg =>
    refine ⟨_, write8_postflg s a x h4 h, rfl, ?_, read8_postflg s x s.halted⟩
    rw [read8_postflg_self _ a h4 h, Memory.get_set_same]
  case haltcnt =>
    exact ⟨_, write8_haltcnt s a x h4 h, rfl, sameBytes_postflg s true, read8_haltcnt _ a h4 h⟩

end Sys2Proof.Machine
end

section
/-! An immediate DMA transfer (spec/61_devices.md R682 to R685, R688, R689), which a store to DMAnCNT_H runs inside itself. -/

namespace Sys2Proof.Machine

/-- The addresses of a transfer depend on bits 27:0 of its start alone (R683). -/
theorem unitAddr_mask28 (a : Word) (mode size k : Nat) : unitAddr (mask28 a) mode size k = unitAddr a mode size k := by
  have idem : mask28 a &&& 0x0FFFFFFF#32 = mask28 a := by
    rw [mask28, BitVec.and_assoc, BitVec.and_self]
  unfold unitAddr
  split
  · rw [idem]; rfl
  · exact idem
  · rw [idem]; rfl

/-- The count a channel latches fits its 17 bits (R682). -/
theorem dmaCount_toNat (n : Fin 4) (c : Half) {count : Nat}
    (h : count = if c.toNat ≠ 0 then c.toNat else if n = 3 then 0x10000 else 0x4000) :
    (BitVec.ofNat 17 count).toNat = count := by
  have := c.isLt
  rw [BitVec.toNat_ofNat]
  refine Nat.mod_eq_of_lt ?_
  rw [h]
  split
  · omega
  · split <;> decide

/-- Settles O51: the write raises the enable bit, the channel latches and runs, and the run is the one of `RunsChannel` from
the latched copies. -/
theorem dmaTransfer : Obligations.DmaTransfer := by
  unfold Obligations.DmaTransfer
  rintro s n a v _ e u count smode dmode m h4 ho rfl hoff hon himm hu hsm hdm hcount he hm0 hm hdst
  have latched : e = ({ s.dmaChannel n with ctrl := v } : DmaChannel).latch n := by rw [he, latch_eq, hcount]
  have start : m 0 = s.setDma n e := hm0
  have channel : (m 0).dmaChannel n = e := by rw [start, setDma_self]
  have immediate : ({ s.dmaChannel n with ctrl := v } : DmaChannel).timing = 0 := by rwa [timing_eq]
  have runs : s.write16 a v = dmaRunWith (dmaRise 3 [n]) n (m 0) := by
    obtain ⟨-, -, rise⟩ := access16_dmaControl s a v h4 ho.symm
    rw [rise hoff hon, rising_setDma, if_pos immediate, start, latched]
  have ctrl : e.ctrl = v := by rw [he]
  have count_e : e.internalCount.toNat = count := by rw [he]; exact dmaCount_toNat n _ hcount
  have dst_e : e.dst = (s.dmaChannel n).dst := by rw [he]
  have reload : BitVec.ofNat 17 (if e.count.toNat ≠ 0 then e.count.toNat else if n = 3 then 0x10000 else 0x4000)
      = e.internalCount := by rw [he, hcount]
  have srcAddr : ∀ k, unitAddr e.internalSrc smode u k = unitAddr (s.dmaChannel n).src smode u k := fun k => by
    rw [he]; exact unitAddr_mask28 _ _ _ _
  have dstAddr : ∀ k, unitAddr e.internalDst dmode u k = unitAddr (s.dmaChannel n).dst dmode u k := fun k => by
    rw [he]; exact unitAddr_mask28 _ _ _ _
  have set_set : ∀ x, (m 0).dma.set n x = s.dma.set n x := fun x => by rw [hm0]; exact Vector.set_set ..
  have onBus : ((m 0).dmaChannel n).onBus = true := by rw [channel, latched]; exact latch_onBus _ n
  refine runs.trans <| dmaRunWith_runs _ onBus ⟨e, u, smode, dmode, count, m, channel.symm,
    by rw [ctrl, hu], by rw [ctrl, hsm], by rw [ctrl, hdm], count_e.symm, rfl, fun k hk => ?unit, ?done⟩
  case unit =>
    rw [ctrl, srcAddr, dstAddr]
    exact ⟨hdst k hk, hm k⟩
  case done =>
    rw [set_set, ctrl, srcAddr, dstAddr]
    by_cases repeats : v.getLsbD 9 = true
    · simp only [repeats, true_and, if_true, dst_e, reload]
    · simp only [repeats, Bool.false_eq_true, false_and, if_false]

end Sys2Proof.Machine
end

section
/-! Operand 2 (spec/40_arm_common.md R205 to R215, spec/30_encoding.md R161): the value and the carry of every form, bit by
bit. -/

namespace Sys2Proof.Machine

/-! ## Amounts from 1 to 31, where the immediate and the register forms agree -/

theorem shiftRegister_eq_shiftImmediate (ty : ShiftTy) (v : Word) {n : Nat} (c : Bool) (h0 : 0 < n) (h32 : n < 32) :
    shiftRegister ty v n c = shiftImmediate ty v n c := by
  have hne : n ≠ 0 := by omega
  cases ty <;> simp [shiftRegister, shiftImmediate, hne, h32, Nat.mod_eq_of_lt h32]

theorem shiftImmediate_pos {n : Nat} (v : Word) (c : Bool) (h0 : 0 < n) :
    shiftImmediate .lsl v n c = ⟨v <<< n, v.getLsbD (32 - n)⟩
    ∧ shiftImmediate .lsr v n c = ⟨v >>> n, v.getLsbD (n - 1)⟩
    ∧ shiftImmediate .asr v n c = ⟨v.sshiftRight n, v.getLsbD (n - 1)⟩
    ∧ shiftImmediate .ror v n c = ⟨ror v n, v.getLsbD (n - 1)⟩ := by
  have hne : n ≠ 0 := by omega
  simp only [shiftImmediate, if_neg hne, and_self]

/-- Both spellings of an amount from 1 to 31 shift alike. -/
theorem operand2_amount (s : State) (rm rs : Reg) (op2 : ShiftTy → Op2) {n : Nat} (h0 : 0 < n) (h32 : n < 32)
    (h : (∃ a : BitVec 5, a.toNat = n ∧ op2 = fun ty => .shiftImm rm ty a)
      ∨ ((s.reg rs).toNat % 256 = n ∧ op2 = fun ty => .shiftReg rm ty rs)) (ty : ShiftTy) :
    operand2 s (op2 ty) = shiftImmediate ty (s.reg rm) n s.flagC := by
  obtain ⟨a, rfl, rfl⟩ | ⟨hn, rfl⟩ := h
  · rfl
  · rw [← shiftRegister_eq_shiftImmediate ty (s.reg rm) s.flagC h0 h32, ← hn]
    rfl

/-! ## The amounts with a meaning of their own -/

/-- RRX (R209). -/
theorem rrx_bit (v : Word) (c : Bool) (k : Nat) :
    (setBit (v >>> 1) 31 c).getLsbD k = if k = 31 then c else v.getLsbD (k + 1) := by
  rw [setBit_getLsbD _ _ _ _ (by decide), lsr_bit]

/-- LSL, LSR and ASR by 32 or more: every bit is shifted out, and for LSL and LSR only 32 itself leaves one in the carry (R210
to R212). -/
theorem shiftRegister_large (v : Word) {n : Nat} (c : Bool) (h : 32 ≤ n) :
    shiftRegister .lsl v n c = ⟨0, decide (n = 32) && v.getLsbD 0⟩
    ∧ shiftRegister .lsr v n c = ⟨0, decide (n = 32) && v.getLsbD 31⟩
    ∧ shiftRegister .asr v n c = ⟨signWord v, v.getLsbD 31⟩ := by
  by_cases h32 : n = 32
  · subst h32
    exact ⟨rfl, rfl, rfl⟩
  · simp [shiftRegister, h32, show n ≠ 0 by omega, show ¬ n < 32 by omega]

/-- ROR by any amount but 0 is the rotation by it; the carry is the last bit moved round, bit 31 of the result (R213). -/
theorem shiftRegister_ror (v : Word) {n : Nat} (c : Bool) (h : 0 < n) :
    ShiftsTo (shiftRegister .ror v n c) (fun k => v.getLsbD ((k + n) % 32)) (v.getLsbD ((n + 31) % 32)) := by
  have hne : n ≠ 0 := by omega
  by_cases hmod : n % 32 = 0
  · simp only [shiftRegister, if_neg hne, if_pos hmod]
    exact ⟨fun k hk => congrArg v.getLsbD (by omega), congrArg v.getLsbD (by omega)⟩
  · simp only [shiftRegister, if_neg hne, if_neg hmod]
    exact ⟨fun k hk => (ror_bit v _ k hk).trans (congrArg v.getLsbD (Nat.add_mod_mod ..)), congrArg v.getLsbD (by omega)⟩

/-! ## The forms of operand 2 -/

/-- The rotated immediate: with a rotation the carry is bit 31 of the value (R161, R215). -/
theorem operand2_imm (s : State) (rotate : BitVec 4) (imm8 : BitVec 8) :
    ShiftsTo (operand2 s (.imm rotate imm8)) (fun k => imm8.getLsbD ((k + 2 * rotate.toNat) % 32))
      (if rotate = 0 then s.flagC else imm8.getLsbD ((31 + 2 * rotate.toNat) % 32)) :=
  ⟨fun k hk => rotatedImm_bit imm8 _ k hk, by rw [operand2, rotatedImm, rotatedImm_bit imm8 _ 31 (by decide)]⟩

/-- Settles O5: by the value of each shift at an amount of 0, at 1 to 31, and at 32 or more, and the bits of those values. -/
theorem shifterOperand : Obligations.ShifterOperand := by
  unfold Obligations.ShifterOperand
  rintro s rm rs v rfl
  refine ⟨operand2_imm s, ?immZero, ?inRange, ?register⟩
  case immZero =>
    rintro n rfl
    exact ⟨⟨fun _ _ => rfl, rfl⟩, ⟨fun _ _ => BitVec.getLsbD_zero, rfl⟩, ⟨signWord_bit _, rfl⟩,
      ⟨fun k _ => rrx_bit _ _ k, rfl⟩⟩
  case inRange =>
    intro op2 n h0 h32 hop
    obtain ⟨lsl, lsr, asr, ror⟩ := shiftImmediate_pos (s.reg rm) s.flagC h0
    simp only [operand2_amount s rm rs op2 h0 h32 hop, lsl, lsr, asr, ror]
    exact ⟨⟨lsl_bit _ n, rfl⟩, ⟨fun k _ => lsr_bit _ n k, rfl⟩, ⟨asr_bit _ n, rfl⟩, ⟨ror_bit _ n, rfl⟩⟩
  case register =>
    intro n hn
    have amount : ∀ ty, operand2 s (.shiftReg rm ty rs) = shiftRegister ty (s.reg rm) n s.flagC := fun ty => by rw [hn]; rfl
    simp only [amount]
    refine ⟨?zero, fun large => ?large⟩
    case zero => rintro rfl ty; exact ⟨fun _ _ => rfl, rfl⟩
    case large =>
      obtain ⟨lsl, lsr, asr⟩ := shiftRegister_large (s.reg rm) s.flagC large
      rw [lsl, lsr, asr]
      exact ⟨⟨fun _ _ => BitVec.getLsbD_zero, rfl⟩, ⟨fun _ _ => BitVec.getLsbD_zero, rfl⟩, ⟨signWord_bit _, rfl⟩,
        shiftRegister_ror _ _ (by omega)⟩

end Sys2Proof.Machine
end

section
/-! A step that runs an instruction (spec/40_arm_common.md R230, R231): outside the BIOS the fetched word's instruction is
executed and its cost counted. -/

namespace Sys2Proof.Machine

theorem inBiosSpace_eq_false {a : Word} (h : 0x4000 ≤ a.toNat % 2^28) : inBiosSpace a = false :=
  decide_eq_false (Nat.not_lt.mpr h)

theorem cpuStep_outsideBios {s : State} (h : 0x4000 ≤ s.ia.toNat % 2^28) :
    cpuStep s = exec (decodeWord s.thumb s.fetchWord) s := by
  simp only [cpuStep, inBiosSpace_eq_false h, Bool.false_eq_true, if_false]

theorem stepCost_outsideBios {s : State} (h : 0x4000 ≤ s.ia.toNat % 2^28) :
    s.stepCost = cycleCost s.params (costKey s.thumb s.fetchWord) := by
  simp only [State.stepCost, inBiosSpace_eq_false h, Bool.false_eq_true, if_false]

/-- In the CPU's turn a stop of the CPU step is a stop of the step. -/
theorem step_fault_of {s : State} {f : Fault} (h : CpuTurn s) (hi : ¬ IrqDue s) (hf : cpuStep s = .fault f) :
    step s = .fault f := by
  rw [step_cpu h hi, runStep, hf]

/-- Settles O38: the fetched word is the number of the bytes (`fetchWord_eq`), so the CPU step executes `i` and costs what
the bytes' number does. -/
theorem stepRunsDecodedInstruction : Obligations.StepRunsDecodedInstruction := by
  unfold Obligations.StepRunsDecodedInstruction
  intro s word bytes i turn noIrq outside hword hbytes hdecode
  rw [← fetchArm_eq] at hword
  obtain ⟨number, instr⟩ := fetchWord_eq s bytes i (hword ▸ hbytes) hdecode
  have run : cpuStep s = exec i s := by rw [cpuStep_outsideBios outside, instr]
  have cost : s.stepCost = cycleCost s.params (costKey s.thumb (bytes.foldr (fun b n => b.toNat + 256 * n) 0)) := by
    rw [stepCost_outsideBios outside, number]
  exact ⟨fun f hf => step_fault_of turn noIrq (run.trans hf), fun u hu => cost ▸ accounts_of turn noIrq (run.trans hu)⟩

end Sys2Proof.Machine
end

section
/-! Branches, the status registers and User mode (spec/41_arm_branch_psr.md, spec/60_exceptions.md R661, R662): B, BL, BX and
BLX by the shared endings, MRS and MSR by what `writePsr` does to each register, and the steps that leave User mode. -/

namespace Sys2Proof.Machine

/-! ## The ways out of User mode (R253, R400, R604, R610, R661, R662) -/

/-- A BIOS-space step keeps User mode (R630, R631). -/
theorem biosSpaceStep_user (s : State) : KeepsUser s (biosSpaceStep s) :=
  KeepsUser.ite (fun _ => KeepsUser.branchTo s _) fun _ => KeepsUser.branchExchange s _

/-- A CPU step keeps User mode, takes the Undefined exception, or is the SoftReset call. -/
theorem cpuStep_user_cases {s u : State} (h : cpuStep s = .next u) :
    KeepsUser s u
    ∨ (s.params.undefPolicy = .undException ∧ u.cpsr.extractLsb' 0 5 = 0x1B#5)
    ∨ (u.cpsr = 0x0000001F#32 ∧ Calls (decodeWord s.thumb s.fetchWord) s 0x00) := by
  unfold cpuStep at h
  split at h
  case isTrue => cases h; exact .inl (biosSpaceStep_user s)
  case isFalse =>
    by_cases undef : s.params.undefPolicy = .undException ∧ u.cpsr.extractLsb' 0 5 = 0x1B#5
    · exact .inr (.inl undef)
    by_cases reset : Calls (decodeWord s.thumb s.fetchWord) s 0x00
    · have soft : biosCall 0 s = .next u := (exec_of_calls reset).symm.trans h
      obtain rfl : biosSoftReset s = u := Host.Outcome.next.inj soft
      exact .inr (.inr ⟨rfl, reset⟩)
    · exact .inl (exec_user undef reset h)

/-- The host's reset gives CPSR the value of the reset record (R731). -/
theorem hostStep_cpsr_of_reset {s : State} {clock : Nat} {rest : List HostCmd} (h : s.host = .reset clock :: rest) :
    (hostStep s).cpsr = s.params.resetState.cpsr := by
  unfold hostStep
  rw [h]
  rfl

/-- Settles O45: a step is one of five actions of the schedule. The two ends of a scanline keep User mode, the other three do
but for the exceptions stated. -/
theorem userModeLeft : Obligations.UserModeLeft := by
  unfold Obligations.UserModeLeft
  intro s t user h
  obtain ⟨host, rfl⟩ | ⟨-, rfl⟩ | ⟨-, -, due, rfl⟩ | ⟨run, -, -, u, cpu, rfl⟩ | ⟨-, -, rfl⟩ := step_cases h
  case inl =>
    by_cases reset : ∃ clock rest, s.host = .reset clock :: rest
    · obtain ⟨clock, rest, queue⟩ := reset
      exact .inr (.inr (.inr (.inr ⟨hostStep_cpsr_of_reset queue, host, clock, rest, queue⟩)))
    · exact .inl (keepsUser_host s reset user)
  case inr.inl => exact .inl (keepsUser_line s user)
  case inr.inr.inl =>
    exact .inr (.inl ⟨(irqDue_iff s).mpr due, takeException_enters s .irq _ _ (by decide) (by decide)⟩)
  case inr.inr.inr.inl =>
    rw [afterStep_cpsr]
    obtain keeps | undef | ⟨cpsr, call⟩ := cpuStep_user_cases cpu
    · exact .inl (keeps user)
    · exact .inr (.inr (.inl undef))
    · exact .inr (.inr (.inr (.inl ⟨cpsr, run, call⟩)))
  case inr.inr.inr.inr => exact .inl (keepsUser_end s user)

/-! ## Branches and exchanges (R241, R243, R244, R483, R484) -/

/-- The target of B and BL: R15 reads as the prefetched address (R243). -/
theorem armBranchTarget_eq (s : State) (offset24 : BitVec 24) :
    s.reg 15 + armBranchOffset offset24 = s.r15 + BitVec.ofInt 32 (4 * offset24.toInt) := by
  rw [State.reg_r15, armOffset_eq]

/-- Settles O9: each of the five ends in `jump` or `jumpExchange`. -/
theorem branchesAndExchanges : Obligations.BranchesAndExchanges := by
  unfold Obligations.BranchesAndExchanges
  rintro s c rm sbz offset24 _ rfl
  rw [← armBranchTarget_eq]
  refine ⟨fun passes => ⟨?b, ?bl, ?bx⟩, ?tBx, ?tBlx⟩
  case b => exact branches_of_jump (passing passes rfl (by rfl))
  case bl => exact branches_of_jump (passing passes rfl (by rfl))
  case bx => exact exchanges_of (passing passes rfl (by rfl))
  case tBx => exact exchanges_of rfl
  case tBlx => exact exchanges_of rfl

/-! ## MRS (R250) -/

theorem psrValue_of {s : State} {ps : Bool} {v : Word} (cpsr : ps = false → v = s.cpsr)
    (spsr : ps = true → ∀ w, s.spsrOf s.mode = some w → v = w)
    (noSpsr : ps = true → s.spsrOf s.mode = none → v = s.cpsr) :
    v = psrValue s ps := by
  unfold psrValue
  cases ps with
  | false => exact cpsr rfl
  | true =>
    cases saved : s.spsrOf s.mode with
    | some w => exact spsr rfl w saved
    | none => exact noSpsr rfl saved

theorem exec_mrs {s : State} {c : Cond} (passes : s.passes c = true) (ps : Bool) (rd : Reg) :
    exec (.mrs c ps rd) s = finishWrite s s rd (psrValue s ps) :=
  passing passes rfl (by rfl)

/-! ## MSR (R251 to R253) -/

theorem cpsrMask_bit (s : State) (fields : BitVec 4) {k : Nat} (hk : k < 32) :
    (cpsrMask s fields).getLsbD k = (fields.getLsbD (k / 8) && (decide (24 ≤ k) || decide (s.mode ≠ .usr))) := by
  have flagsByte : (0xFF000000#32).getLsbD k = decide (24 ≤ k) := by
    have all : ∀ j : Fin 32, (0xFF000000#32).getLsbD j.val = decide (24 ≤ j.val) := by decide
    exact all ⟨k, hk⟩
  unfold cpsrMask
  by_cases user : s.mode = .usr
  · rw [if_pos user, BitVec.getLsbD_and, psrMask_bit fields k hk, flagsByte]
    simp [user]
  · rw [if_neg user, psrMask_bit fields k hk]
    simp [user]

/-- `SetCPSR` takes every bit above the mode field (R50). -/
theorem State.setCpsr_bit (s : State) (v : Word) {k : Nat} (hk : 5 ≤ k) :
    (s.setCpsr v).cpsr.getLsbD k = v.getLsbD k := by
  unfold State.setCpsr
  split
  · rfl
  · exact setLow5_getLsbD v _ k hk

/-- `SetCPSR` takes the mode field only if it is valid (R50). -/
theorem State.setCpsr_low5 (s : State) (v : Word) :
    (s.setCpsr v).cpsr.extractLsb' 0 5 = if validMode v then v.extractLsb' 0 5 else s.cpsr.extractLsb' 0 5 := by
  unfold State.setCpsr validMode
  cases Mode.ofBits (v.extractLsb' 0 5) with
  | some m => rfl
  | none => exact setLow5_low5 v _

/-- The word that MSR hands to `SetCPSR` (R253). -/
def msrCpsr (s : State) (fields : BitVec 4) (v : Word) : Word := mergeBits s.cpsr v (cpsrMask s fields)

theorem msrCpsr_bit (s : State) (fields : BitVec 4) (v : Word) {k : Nat} (hk : k < 32) :
    (msrCpsr s fields v).getLsbD k = if fields.getLsbD (k / 8) && (decide (24 ≤ k) || decide (s.mode ≠ .usr))
      then v.getLsbD k else s.cpsr.getLsbD k := by
  rw [msrCpsr, mergeBits_bit _ _ _ k hk, cpsrMask_bit s fields hk]

/-- The mode field is merged as a whole. -/
theorem msrCpsr_low5 (s : State) (fields : BitVec 4) (v : Word) :
    (msrCpsr s fields v).extractLsb' 0 5 =
      if fields.getLsbD 0 = true ∧ s.mode ≠ .usr then v.extractLsb' 0 5 else s.cpsr.extractLsb' 0 5 := by
  rw [← apply_ite (BitVec.extractLsb' 0 5)]
  refine extractLsb'_congr fun k _ hk => ?_
  have control : decide (24 ≤ k) = false := decide_eq_false (by omega)
  rw [msrCpsr_bit s fields v (by omega), show k / 8 = 0 by omega, control, Bool.false_or, apply_ite (BitVec.getLsbD · k)]
  simp only [Bool.and_eq_true, decide_eq_true_eq]

/-- What MSR leaves in the mode field: in User mode, without the control field or for an invalid mode the old one. -/
theorem setCpsr_msrCpsr_low5 (s : State) (fields : BitVec 4) (v : Word) :
    (s.setCpsr (msrCpsr s fields v)).cpsr.extractLsb' 0 5 =
      if fields.getLsbD 0 = true ∧ s.mode ≠ .usr ∧ validMode v = true then v.extractLsb' 0 5
      else s.cpsr.extractLsb' 0 5 := by
  have merged := msrCpsr_low5 s fields v
  rw [State.setCpsr_low5]
  by_cases written : fields.getLsbD 0 = true ∧ s.mode ≠ .usr
  · rw [if_pos written] at merged
    have valid : validMode (msrCpsr s fields v) = validMode v := by rw [validMode, merged, validMode]
    obtain ⟨field, privileged⟩ := written
    rw [valid, merged]
    simp only [field, privileged, ne_eq, not_false_eq_true, true_and]
  · rw [if_neg written] at merged
    rw [merged, ite_self, if_neg fun ⟨field, privileged, _⟩ => written ⟨field, privileged⟩]

/-! ### The advance after a write of CPSR (R48) -/

theorem advanceRebased_eq (s u : State) : advanceRebased s u = { u with r15 := (advanceRebased s u).r15 } := by
  unfold advanceRebased; split <;> rfl

theorem advanceRebased_cpsr (s u : State) : (advanceRebased s u).cpsr = u.cpsr := by rw [advanceRebased_eq]

theorem advanceRebased_thumb (s u : State) : (advanceRebased s u).thumb = u.thumb :=
  congrArg (BitVec.getLsbD · 5) (advanceRebased_cpsr s u)

theorem advanceRebased_r15_of_sameT {s u : State} (h : (advanceRebased s u).thumb = s.thumb) :
    (advanceRebased s u).r15 = u.r15 + instrWidth s.thumb := by
  rw [advanceRebased_thumb] at h
  rw [advanceRebased, if_pos h, ← h]; rfl

theorem advanceRebased_r15_of_newT {s u : State} (h : (advanceRebased s u).thumb ≠ s.thumb) :
    (advanceRebased s u).r15 = s.ia + 4 + prefetchOffset (advanceRebased s u).thumb := by
  rw [advanceRebased_thumb] at h ⊢
  rw [advanceRebased, if_neg h]

/-! ### The register written -/

theorem writePsr_cpsr_eq (s : State) (fields : BitVec 4) (v : Word) :
    writePsr s false fields v = advanceRebased s (s.setCpsr (msrCpsr s fields v)) := rfl

/-- MSR to CPSR changes CPSR and R15 alone. -/
theorem writePsr_cpsr_rest (s : State) (fields : BitVec 4) (v : Word) :
    writePsr s false fields v =
      { s with cpsr := (writePsr s false fields v).cpsr, r15 := (writePsr s false fields v).r15 } := by
  rw [writePsr_cpsr_eq, advanceRebased_eq, State.setCpsr_eq]

/-- Without a change of the T bit MSR advances like any other instruction. -/
theorem writePsr_r15_of_sameT {s : State} {fields : BitVec 4} {v : Word}
    (h : (writePsr s false fields v).thumb = s.thumb) :
    (writePsr s false fields v).r15 = s.r15 + instrWidth s.thumb := by
  rw [writePsr_cpsr_eq] at h ⊢
  rw [advanceRebased_r15_of_sameT h, State.setCpsr_r15]

theorem writePsr_spsr {s : State} {old : Word} (h : s.spsrOf s.mode = some old) (fields : BitVec 4) (v : Word) :
    writePsr s true fields v =
      { s.setSpsrOf s.mode (mergeBits old v (psrMask fields)) with r15 := s.r15 + instrWidth s.thumb } := by
  rw [← setSpsr_advance]
  unfold writePsr
  rw [h]
  rfl

theorem writePsr_noSpsr {s : State} (h : s.spsrOf s.mode = none) (fields : BitVec 4) (v : Word) :
    writePsr s true fields v = s.advance := by
  unfold writePsr
  rw [h]
  rfl

/-- Both forms of MSR write their operand. -/
theorem exec_msr {s : State} {c : Cond} (passes : s.passes c = true) {i : Instr} {pd : Bool} {fields rotate : BitVec 4}
    {imm8 : BitVec 8} {rm : Reg} {v : Word}
    (h : (i = .msrReg c pd fields rm ∧ v = s.reg rm)
      ∨ (i = .msrImm c pd fields rotate imm8 ∧ ∀ k, k < 32 → v.getLsbD k = imm8.getLsbD ((k + 2 * rotate.toNat) % 32))) :
    exec i s = .next (writePsr s pd fields v) := by
  obtain ⟨rfl, rfl⟩ | ⟨rfl, bits⟩ := h
  · exact passing passes rfl (by rfl)
  · have operand : v = rotatedImm rotate imm8 :=
      BitVec.eq_of_getLsbD_eq fun k hk => by rw [bits k hk, rotatedImm, rotatedImm_bit imm8 _ k hk]
    rw [operand]
    exact passing passes rfl (by rfl)

/-- Settles O10: MRS ends in `finishWrite` with the status word it reads; MSR is `writePsr`, whose three cases are the lemmas
above. -/
theorem statusTransfers : Obligations.StatusTransfers := by
  unfold Obligations.StatusTransfers
  intro s c passes
  refine ⟨fun ps rd v cpsr spsr noSpsr => ?mrs, fun i pd fields rotate imm8 rm v operand => ?msr⟩
  case mrs =>
    obtain rfl := psrValue_of cpsr spsr noSpsr
    refine ⟨fun general => writesResult_write general (exec_mrs passes ps rd), ?_⟩
    rintro rfl
    exact branches_of_jump (exec_mrs passes ps 15)
  case msr =>
    have run := exec_msr passes operand
    refine ⟨_, run, ?cpsr, ?spsr, ?noSpsr⟩
    case cpsr =>
      rintro rfl
      refine ⟨fun k h5 hk => ?bits, ?mode, fun sameT => ?advance, fun newT => ?rebase, writePsr_cpsr_rest s fields v⟩
      case bits => rw [writePsr_cpsr_eq, advanceRebased_cpsr, State.setCpsr_bit s _ h5, msrCpsr_bit s fields v hk]
      case mode => rw [writePsr_cpsr_eq, advanceRebased_cpsr, setCpsr_msrCpsr_low5]
      case advance => exact writePsr_r15_of_sameT sameT
      case rebase => exact advanceRebased_r15_of_newT newT
    case spsr =>
      rintro rfl old saved
      exact ⟨_, fun k hk => by rw [mergeBits_bit _ _ _ k hk, psrMask_bit fields k hk], writePsr_spsr saved fields v⟩
    case noSpsr =>
      rintro rfl absent
      exact run.trans (congrArg _ (writePsr_noSpsr absent fields v))

end Sys2Proof.Machine
end

section
/-! ARM data processing (spec/42_arm_data_processing.md R270 to R295): every instruction ends in `finishAlu` or in
`finishCompare`, so each statement follows from the result and the flags that the instruction hands to that ending. -/

namespace Sys2Proof.Machine

/-! ## The bits of the logical results -/

theorem bitwise_and (a b : Word) : Bitwise (fun x y => x && y) a b (a &&& b) := fun _ _ => BitVec.getLsbD_and

theorem bitwise_xor (a b : Word) : Bitwise (fun x y => x != y) a b (a ^^^ b) := fun _ _ => BitVec.getLsbD_xor

theorem bitwise_or (a b : Word) : Bitwise (fun x y => x || y) a b (a ||| b) := fun _ _ => BitVec.getLsbD_or

theorem bitwise_andNot (a b : Word) : Bitwise (fun x y => x && !y) a b (a &&& ~~~b) := fun k hk => by
  rw [BitVec.getLsbD_and, BitVec.getLsbD_not, decide_eq_true hk, Bool.true_and]

theorem bitwise_notRight (a b : Word) : Bitwise (fun _ y => !y) a b (~~~b) := fun k hk => by
  rw [BitVec.getLsbD_not, decide_eq_true hk, Bool.true_and]

/-! ## What each instruction hands to its ending (R271) -/

theorem logicalFlags_eq (s : State) (v : Word) (carry : Bool) :
    logicalFlags s v carry = resultFlags v carry s.flagV := nzFlags_eq v carry s.flagV

section
variable {s : State} {c : Cond} (passes : s.passes c = true) (sBit : Bool) (rn rd : Reg) (sbz : BitVec 4) (op2 : Op2)
include passes

theorem exec_and : exec (.and c sBit rn rd op2) s = finishAlu s sBit rd (s.reg rn &&& (operand2 s op2).value)
    (logicalFlags s (s.reg rn &&& (operand2 s op2).value) (operand2 s op2).carry) := passing passes rfl (by rfl)

theorem exec_eor : exec (.eor c sBit rn rd op2) s = finishAlu s sBit rd (s.reg rn ^^^ (operand2 s op2).value)
    (logicalFlags s (s.reg rn ^^^ (operand2 s op2).value) (operand2 s op2).carry) := passing passes rfl (by rfl)

theorem exec_orr : exec (.orr c sBit rn rd op2) s = finishAlu s sBit rd (s.reg rn ||| (operand2 s op2).value)
    (logicalFlags s (s.reg rn ||| (operand2 s op2).value) (operand2 s op2).carry) := passing passes rfl (by rfl)

theorem exec_bic : exec (.bic c sBit rn rd op2) s = finishAlu s sBit rd (s.reg rn &&& ~~~(operand2 s op2).value)
    (logicalFlags s (s.reg rn &&& ~~~(operand2 s op2).value) (operand2 s op2).carry) := passing passes rfl (by rfl)

theorem exec_mov : exec (.mov c sBit sbz rd op2) s = finishAlu s sBit rd (operand2 s op2).value
    (logicalFlags s (operand2 s op2).value (operand2 s op2).carry) := passing passes rfl (by rfl)

theorem exec_mvn : exec (.mvn c sBit sbz rd op2) s = finishAlu s sBit rd (~~~(operand2 s op2).value)
    (logicalFlags s (~~~(operand2 s op2).value) (operand2 s op2).carry) := passing passes rfl (by rfl)

theorem exec_add : exec (.add c sBit rn rd op2) s =
    finishAlu s sBit rd (exactSum (s.reg rn) (operand2 s op2).value false)
      (flagsOfSum (s.reg rn) (operand2 s op2).value false) := by
  rw [← add_eq, ← addFlags_eq]
  exact passing passes rfl (by rfl)

theorem exec_adc : exec (.adc c sBit rn rd op2) s =
    finishAlu s sBit rd (exactSum (s.reg rn) (operand2 s op2).value s.flagC)
      (flagsOfSum (s.reg rn) (operand2 s op2).value s.flagC) := by
  rw [← adcResult_eq, ← adcFlags_eq]
  exact passing passes rfl (by rfl)

theorem exec_sub : exec (.sub c sBit rn rd op2) s =
    finishAlu s sBit rd (exactDiff (s.reg rn) (operand2 s op2).value false)
      (flagsOfDiff (s.reg rn) (operand2 s op2).value false) := by
  rw [← sub_eq, ← subFlags_eq]
  exact passing passes rfl (by rfl)

theorem exec_sbc : exec (.sbc c sBit rn rd op2) s =
    finishAlu s sBit rd (exactDiff (s.reg rn) (operand2 s op2).value (!s.flagC))
      (flagsOfDiff (s.reg rn) (operand2 s op2).value (!s.flagC)) := by
  rw [← sbcResult_eq, ← sbcFlags_eq]
  exact passing passes rfl (by rfl)

theorem exec_rsb : exec (.rsb c sBit rn rd op2) s =
    finishAlu s sBit rd (exactDiff (operand2 s op2).value (s.reg rn) false)
      (flagsOfDiff (operand2 s op2).value (s.reg rn) false) := by
  rw [← sub_eq, ← subFlags_eq]
  exact passing passes rfl (by rfl)

theorem exec_rsc : exec (.rsc c sBit rn rd op2) s =
    finishAlu s sBit rd (exactDiff (operand2 s op2).value (s.reg rn) (!s.flagC))
      (flagsOfDiff (operand2 s op2).value (s.reg rn) (!s.flagC)) := by
  rw [← sbcResult_eq, ← sbcFlags_eq]
  exact passing passes rfl (by rfl)

theorem exec_tst : exec (.tst c rn sbz op2) s = finishCompare s
    (logicalFlags s (s.reg rn &&& (operand2 s op2).value) (operand2 s op2).carry) := passing passes rfl (by rfl)

theorem exec_teq : exec (.teq c rn sbz op2) s = finishCompare s
    (logicalFlags s (s.reg rn ^^^ (operand2 s op2).value) (operand2 s op2).carry) := passing passes rfl (by rfl)

theorem exec_cmp : exec (.cmp c rn sbz op2) s =
    finishCompare s (flagsOfDiff (s.reg rn) (operand2 s op2).value false) := by
  rw [← subFlags_eq]
  exact passing passes rfl (by rfl)

theorem exec_cmn : exec (.cmn c rn sbz op2) s =
    finishCompare s (flagsOfSum (s.reg rn) (operand2 s op2).value false) := by
  rw [← addFlags_eq]
  exact passing passes rfl (by rfl)

end

/-! ## Results to R0 to R14 -/

/-- A logical instruction writes every `v` that has the bits of its result `w`. -/
theorem writesResult_logical {i : Instr} {s : State} {rd : Reg} {sBit carry : Bool} {f : Bool → Bool → Bool}
    {a b v w : Word} (general : rd ≠ 15) (run : exec i s = finishAlu s sBit rd w (logicalFlags s w carry)) (result : Bitwise f a b w)
    (bits : Bitwise f a b v) : WritesResult i s rd v sBit (resultFlags v carry s.flagV) := by
  obtain rfl := eq_of_bitwise bits result
  rw [logicalFlags_eq] at run
  exact writesResult_alu general run

/-- Settles O1: the result of each instruction has the bits stated, and a word is its bits. -/
theorem logicalOperations : Obligations.LogicalOperations := by
  unfold Obligations.LogicalOperations
  rintro s c sBit rn rd sbz op2 passes general v _ rfl
  exact ⟨writesResult_logical general (exec_and passes ..) (bitwise_and _ _),
    writesResult_logical general (exec_eor passes ..) (bitwise_xor _ _),
    writesResult_logical general (exec_orr passes ..) (bitwise_or _ _),
    writesResult_logical general (exec_bic passes ..) (bitwise_andNot _ _),
    writesResult_logical general (exec_mov passes ..) (fun _ _ => rfl),
    writesResult_logical general (exec_mvn passes ..) (bitwise_notRight _ _)⟩

/-- Settles O2: each instruction hands the exact result and its flags to `finishAlu`. -/
theorem arithmeticOperations : Obligations.ArithmeticOperations := by
  unfold Obligations.ArithmeticOperations
  rintro s c sBit rn rd op2 passes general _ _ rfl rfl
  exact ⟨writesResult_alu general (exec_add passes ..), writesResult_alu general (exec_adc passes ..),
    writesResult_alu general (exec_sub passes ..), writesResult_alu general (exec_sbc passes ..),
    writesResult_alu general (exec_rsb passes ..), writesResult_alu general (exec_rsc passes ..)⟩

/-! ## Comparisons -/

/-- A logical comparison writes the flags of every `v` that has the bits of its result `w`. -/
theorem writesFlags_logical {i : Instr} {s : State} {carry : Bool} {f : Bool → Bool → Bool} {a b v w : Word}
    (run : exec i s = finishCompare s (logicalFlags s w carry)) (result : Bitwise f a b w) (bits : Bitwise f a b v) :
    WritesFlags i s (resultFlags v carry s.flagV) := by
  obtain rfl := eq_of_bitwise bits result
  rw [logicalFlags_eq] at run
  exact writesFlags_of run

theorem not_eq_true_iff_of {p : Bool} {P Q : Prop} (h : p = true ↔ P) (hQ : ¬ P ↔ Q) : (!p) = true ↔ Q := by
  rw [Bool.not_eq_true', ← Bool.not_eq_true, h, hQ]

/-- The conditions of R201 under the flags of an exact difference decide the order of its operands: EQ, CS and GE by
`diff_decides`, HI and GT as these without equality, and the other five as their negations. -/
theorem passes_of_flagsOfDiff {t : State} {a b : Word} (flags : t.nzcv = flagsOfDiff a b false) :
    (t.passes .eq = true ↔ a = b) ∧ (t.passes .ne = true ↔ a ≠ b)
    ∧ (t.passes .cs = true ↔ b.toNat ≤ a.toNat) ∧ (t.passes .cc = true ↔ a.toNat < b.toNat)
    ∧ (t.passes .hi = true ↔ b.toNat < a.toNat) ∧ (t.passes .ls = true ↔ a.toNat ≤ b.toNat)
    ∧ (t.passes .ge = true ↔ b.toInt ≤ a.toInt) ∧ (t.passes .lt = true ↔ a.toInt < b.toInt)
    ∧ (t.passes .gt = true ↔ b.toInt < a.toInt) ∧ (t.passes .le = true ↔ a.toInt ≤ b.toInt) := by
  obtain ⟨zero, cs, signs⟩ := diff_decides a b t.nzcv flags
  have eq : t.passes .eq = true ↔ a = b := zero
  have ne : t.passes .ne = true ↔ a ≠ b := not_eq_true_iff_of eq Iff.rfl
  have ge : t.passes .ge = true ↔ b.toInt ≤ a.toInt := beq_iff_eq.trans signs
  have hi : t.passes .hi = true ↔ b.toNat < a.toNat := by
    have both : t.passes .hi = true ↔ b.toNat ≤ a.toNat ∧ a ≠ b := (Bool.and_eq_true_iff ..).trans (and_congr cs ne)
    rw [both, ne_eq, ← BitVec.toNat_inj]
    omega
  have gt : t.passes .gt = true ↔ b.toInt < a.toInt := by
    have both : t.passes .gt = true ↔ a ≠ b ∧ b.toInt ≤ a.toInt := (Bool.and_eq_true_iff ..).trans (and_congr ne ge)
    rw [both, ne_eq, ← BitVec.toInt_inj]
    omega
  have ls : t.passes .ls = !t.passes .hi := by simp only [State.passes, condHolds, Bool.not_and, Bool.not_not]
  have le : t.passes .le = !t.passes .gt := by simp only [State.passes, condHolds, Bool.not_and, Bool.not_not, bne]
  rw [ls, le]
  exact ⟨eq, ne, cs, not_eq_true_iff_of cs Nat.not_le, hi, not_eq_true_iff_of hi Nat.not_lt, ge,
    not_eq_true_iff_of ge Int.not_le, gt, not_eq_true_iff_of gt Int.not_lt⟩

/-- Settles O3: the four end in `finishCompare`, and the flags that CMP writes are those of the exact difference. -/
theorem comparisons : Obligations.Comparisons := by
  unfold Obligations.Comparisons
  rintro s c rn sbz op2 passes _ _ v rfl rfl
  have cmp : WritesFlags (.cmp c rn sbz op2) s (flagsOfDiff (s.reg rn) (operand2 s op2).value false) :=
    writesFlags_of (exec_cmp passes ..)
  refine ⟨writesFlags_logical (exec_tst passes ..) (bitwise_and _ _),
    writesFlags_logical (exec_teq passes ..) (bitwise_xor _ _), cmp, writesFlags_of (exec_cmn passes ..),
    fun t run => ?order⟩
  case order =>
    obtain ⟨t', run', flags, -, -⟩ := cmp
    obtain rfl : t' = t := Host.Outcome.next.inj (run'.symm.trans run)
    exact passes_of_flagsOfDiff flags

/-! ## Results to R15 (R272, R273) -/

theorem State.restoreCpsr_of_spsr {s : State} {w : Word} (saved : s.spsrOf s.mode = some w) :
    s.restoreCpsr = s.setCpsr w := by
  unfold State.restoreCpsr
  rw [saved]

theorem State.restoreCpsr_of_noSpsr {s : State} (absent : s.spsrOf s.mode = none) : s.restoreCpsr = s := by
  unfold State.restoreCpsr
  rw [absent]

/-- The state in which a result is branched to, from what R272 says of it with and without S. -/
theorem eq_restored_of {s u : State} {sBit : Bool} (plain : sBit = false → u = s)
    (spsr : sBit = true → ∀ w, s.spsrOf s.mode = some w → u = s.setCpsr w)
    (noSpsr : sBit = true → s.spsrOf s.mode = none → u = s) : u = if sBit then s.restoreCpsr else s := by
  cases sBit with
  | false => exact plain rfl
  | true =>
    cases saved : s.spsrOf s.mode with
    | some w => exact (spsr rfl w saved).trans (State.restoreCpsr_of_spsr saved).symm
    | none => exact (noSpsr rfl saved).trans (State.restoreCpsr_of_noSpsr saved).symm

theorem branches_of_finishAlu {i : Instr} {s : State} {sBit : Bool} {v : Word} {f : Nzcv}
    (run : exec i s = finishAlu s sBit 15 v f) : Branches i s (if sBit then s.restoreCpsr else s) v :=
  branches_of_jump (run.trans (if_pos rfl))

/-- Settles O4: with R15 as the destination `finishAlu` is a branch to the result in the restored state. -/
theorem aluResultToR15 : Obligations.AluResultToR15 := by
  unfold Obligations.AluResultToR15
  rintro s u c sBit rn sbz op2 passes plain spsr noSpsr _ _ rfl rfl
  obtain rfl := eq_restored_of plain spsr noSpsr
  exact ⟨branches_of_finishAlu (exec_and passes ..), branches_of_finishAlu (exec_eor passes ..),
    branches_of_finishAlu (exec_orr passes ..), branches_of_finishAlu (exec_bic passes ..),
    branches_of_finishAlu (exec_mov passes ..), branches_of_finishAlu (exec_mvn passes ..),
    branches_of_finishAlu (exec_add passes ..), branches_of_finishAlu (exec_adc passes ..),
    branches_of_finishAlu (exec_sub passes ..), branches_of_finishAlu (exec_sbc passes ..),
    branches_of_finishAlu (exec_rsb passes ..), branches_of_finishAlu (exec_rsc passes ..)⟩

end Sys2Proof.Machine
end

section
/-! Multiplies (spec/43_arm_multiply.md R310 to R316): MUL and MLA end in `finishWrite`, the long multiplies in `finishLong`,
each with the product that its statement gives as a number. -/

namespace Sys2Proof.Machine

/-! ## MUL and MLA (R311, R312) -/

theorem finishMul_eq (s : State) (sBit : Bool) (rd : Reg) (v : Word) :
    finishMul s sBit rd v = finishWrite s (s.setFlagsIf sBit (resultFlags v s.flagC s.flagV)) rd v := by
  rw [finishMul, nzOnly, nzFlags_eq]

theorem eq_mul_of_toNat {a b v : Word} (h : v.toNat = a.toNat * b.toNat % 2^32) : v = a * b :=
  BitVec.eq_of_toNat_eq (h.trans (BitVec.toNat_mul a b).symm)

theorem eq_mul_add_of_toNat {a b c v : Word} (h : v.toNat = (a.toNat * b.toNat + c.toNat) % 2^32) : v = a * b + c :=
  BitVec.eq_of_toNat_eq (by rw [h, BitVec.toNat_add, BitVec.toNat_mul, Nat.mod_add_mod])

section
variable {s : State} {c : Cond} (passes : s.passes c = true) (sBit : Bool)
include passes

theorem exec_mul (rd rs rm : Reg) (sbz : BitVec 4) {v : Word}
    (product : v.toNat = (s.reg rm).toNat * (s.reg rs).toNat % 2^32) :
    exec (.mul c sBit rd sbz rs rm) s = finishWrite s (s.setFlagsIf sBit (resultFlags v s.flagC s.flagV)) rd v := by
  rw [← finishMul_eq, eq_mul_of_toNat product]
  exact passing passes rfl (by rfl)

theorem exec_mla (rd rn rs rm : Reg) {v : Word}
    (sum : v.toNat = ((s.reg rm).toNat * (s.reg rs).toNat + (s.reg rn).toNat) % 2^32) :
    exec (.mla c sBit rd rn rs rm) s = finishWrite s (s.setFlagsIf sBit (resultFlags v s.flagC s.flagV)) rd v := by
  rw [← finishMul_eq, eq_mul_add_of_toNat sum]
  exact passing passes rfl (by rfl)

end

/-- Settles O6: both end in `finishWrite`, which writes the register or, for R15, branches. -/
theorem multiplies : Obligations.Multiplies := by
  unfold Obligations.Multiplies
  intro s c sBit rd rn rs rm sbz passes v w product sum
  have mul := exec_mul passes sBit rd rs rm sbz product
  have mla := exec_mla passes sBit rd rn rs rm sum
  refine ⟨fun general => ⟨writesResult_write general mul, writesResult_write general mla⟩, ?toR15⟩
  case toR15 =>
    rintro rfl
    exact ⟨branches_of_jump mul, branches_of_jump mla⟩

/-! ## The long multiplies (R313 to R316) -/

section
variable {s : State} {c : Cond} (passes : s.passes c = true) (sBit : Bool) (rdHi rdLo rs rm : Reg) {p : BitVec 64}
include passes

theorem exec_umull (product : p.toNat = (s.reg rm).toNat * (s.reg rs).toNat) :
    exec (.umull c sBit rdHi rdLo rs rm) s = finishLong s sBit rdHi rdLo p := by
  rw [umull_eq _ _ p product]
  exact passing passes rfl (by rfl)

theorem exec_umlal (sum : p.toNat =
      ((s.reg rm).toNat * (s.reg rs).toNat + ((s.reg rdHi).toNat * 2^32 + (s.reg rdLo).toNat)) % 2^64) :
    exec (.umlal c sBit rdHi rdLo rs rm) s = finishLong s sBit rdHi rdLo p := by
  rw [← accumulator_toNat] at sum
  rw [umlal_eq _ _ _ p sum]
  exact passing passes rfl (by rfl)

theorem exec_smull (product : p.toInt = (s.reg rm).toInt * (s.reg rs).toInt) :
    exec (.smull c sBit rdHi rdLo rs rm) s = finishLong s sBit rdHi rdLo p := by
  rw [smull_eq _ _ p product]
  exact passing passes rfl (by rfl)

theorem exec_smlal (sum : (p.toNat : Int) = ((s.reg rm).toInt * (s.reg rs).toInt
      + ((s.reg rdHi).toNat * 2^32 + (s.reg rdLo).toNat : Nat)) % 2^64) :
    exec (.smlal c sBit rdHi rdLo rs rm) s = finishLong s sBit rdHi rdLo p := by
  rw [← accumulator_toNat] at sum
  rw [smlal_eq _ _ _ p sum]
  exact passing passes rfl (by rfl)

end

/-- Settles O7: each hands the product stated to `finishLong`, which writes its two halves. -/
theorem longMultiplies : Obligations.LongMultiplies := by
  unfold Obligations.LongMultiplies
  rintro s c sBit rdHi rdLo rs rm passes generalHi generalLo p _ rfl
  exact ⟨fun product => writesLong_of generalHi generalLo (exec_umull passes _ _ _ _ _ product),
    fun sum => writesLong_of generalHi generalLo (exec_umlal passes _ _ _ _ _ sum),
    fun product => writesLong_of generalHi generalLo (exec_smull passes _ _ _ _ _ product),
    fun sum => writesLong_of generalHi generalLo (exec_smlal passes _ _ _ _ _ sum)⟩

/-! ## A half to R15 (U4) -/

section
variable (s : State) (sBit : Bool) (p : BitVec 64)

theorem finishLong_hi15 {rdLo : Reg} (general : rdLo ≠ 15) :
    finishLong s sBit 15 rdLo p = jump s ((s.setFlagsIf sBit (productFlags p s.flagC s.flagV)).setReg rdLo
      (p.extractLsb' 0 32)) (p.extractLsb' 32 32) := by
  rw [← longFlags_eq]
  exact if_neg general

/-- RdHi is written after the branch to RdLo; writing it before comes to the same. -/
theorem finishLong_lo15 {rdHi : Reg} (general : rdHi ≠ 15) :
    finishLong s sBit rdHi 15 p = jump s ((s.setFlagsIf sBit (productFlags p s.flagC s.flagV)).setReg rdHi
      (p.extractLsb' 32 32)) (p.extractLsb' 0 32) := by
  rw [← longFlags_eq, jump, ← branchTo_setReg, finishLong, if_pos rfl, if_neg general]

theorem finishLong_both15 :
    finishLong s sBit 15 15 p = if s.pcRefused (p.extractLsb' 0 32) then .next s.advance
      else jump s (s.setFlagsIf sBit (productFlags p s.flagC s.flagV)) (p.extractLsb' 32 32) := by
  rw [← longFlags_eq]
  rfl

end

/-- Settles O8: each hands the product stated to `finishLong`, whose three cases with R15 are the lemmas above. -/
theorem longMultiplyToR15 : Obligations.LongMultiplyToR15 := by
  unfold Obligations.LongMultiplyToR15
  rintro s _ i c sBit rdHi rdLo rs rm p _ _ _ passes rfl instr rfl rfl rfl
  have run : exec i s = finishLong s sBit rdHi rdLo p := by
    obtain ⟨rfl, product⟩ | ⟨rfl, sum⟩ | ⟨rfl, product⟩ | ⟨rfl, sum⟩ := instr
    · exact exec_umull passes _ _ _ _ _ product
    · exact exec_umlal passes _ _ _ _ _ sum
    · exact exec_smull passes _ _ _ _ _ product
    · exact exec_smlal passes _ _ _ _ _ sum
  refine ⟨?hi, ?lo, ?both⟩
  case hi =>
    rintro rfl general
    exact branches_of_jump (run.trans (finishLong_hi15 s sBit p general))
  case lo =>
    rintro rfl general
    exact branches_of_jump (run.trans (finishLong_lo15 s sBit p general))
  case both =>
    rintro rfl rfl
    rw [finishLong_both15] at run
    refine ⟨fun refused => ?_, fun allowed => branches_of_jump (run.trans (if_neg ?_))⟩
    · exact run.trans (if_pos ((pcRefused_iff s _).mpr refused))
    · rwa [pcRefused_iff]

end Sys2Proof.Machine
end

section
/-! ARM single and halfword transfers and swaps (spec/44_arm_load_store.md R330 to R361): every load ends in `execLoad`, every
store in `execStore` and every swap in `finishWrite`, so each statement follows from the address and the access that the
instruction hands to that ending. -/

namespace Sys2Proof.Machine

/-! ## Loads (R332 to R344) -/

/-- Settles O14: each load is `execLoad` of its offset and its read, and `loads_of` says what that does. -/
theorem armLoads : Obligations.ArmLoads := by
  unfold Obligations.ArmLoads
  intro s c p u w rn rd rm off imm8 offset half passes immediate register halfOffset
  obtain rfl := offsetValue_eq s off offset immediate register
  obtain rfl := zext8_eq half imm8 halfOffset
  refine ⟨?ldr, ?ldrb, ?ldrt, ?ldrbt, ?ldrhReg, ?ldrhImm, ?ldrsbReg, ?ldrsbImm, ?ldrshReg, ?ldrshImm⟩
  all_goals exact loads_of (passing passes rfl (by rfl))

/-! ## Stores (R333 to R342) -/

section
variable {i : Instr} {s : State} {p u w : Bool} {rn : Reg} {offset : Word}

theorem stores_word {v : Word} (run : exec i s = execStore i s p u w rn offset fun a => s.write32 a v) :
    Stores i s p u w rn offset (fun a => s.write32 a v)
      (fun t a => StoredAligned s t 4 (align4 a) fun k => v.extractLsb' (8 * k) 8) :=
  stores_of (fun a => write32_effect s a v) (fun a => write32_stored s a v) (fun _ _ _ => StoredAligned.congr) run

/-- The low half of `v` is stored. -/
theorem stores_half {v : Word} (run : exec i s = execStore i s p u w rn offset fun a => s.write16 a (v.extractLsb' 0 16)) :
    Stores i s p u w rn offset (fun a => s.write16 a (v.extractLsb' 0 16))
      (fun t a => StoredAligned s t 2 (align2 a) fun k => v.extractLsb' (8 * k) 8) :=
  stores_of (fun a => write16_effect s a _) (fun a => write16_half s a v) (fun _ _ _ => StoredAligned.congr) run

theorem stores_byte {x : Byte} (run : exec i s = execStore i s p u w rn offset fun a => s.write8 a x) :
    Stores i s p u w rn offset (fun a => s.write8 a x) (fun t a => StoredByte s t a x) :=
  stores_of (fun a => write8_effect s a x) (fun a => write8_stored s a x) (fun _ _ _ => StoredByte.congr) run

end

/-- Settles O15: each store is `execStore` of its offset and its bus write, a word, the low half or the low byte of Rd. -/
theorem armStores : Obligations.ArmStores := by
  unfold Obligations.ArmStores
  rintro s c p u w rn rd rm off imm8 offset half _ passes rfl immediate register halfOffset
  obtain rfl := offsetValue_eq s off offset immediate register
  obtain rfl := zext8_eq half imm8 halfOffset
  refine ⟨?str, ?strb, ?strt, ?strbt, ?strhReg, ?strhImm⟩
  case str | strt => exact stores_word (passing passes rfl (by rfl))
  case strb | strbt => exact stores_byte (passing passes rfl (by rfl))
  case strhReg | strhImm => exact stores_half (passing passes rfl (by rfl))

/-! ## Swaps (R360, R361) -/

section
variable {s : State} {c : Cond} (passes : s.passes c = true) (rn rd rm : Reg)
include passes

theorem exec_swp : exec (.swp c rn rd rm) s =
    finishWrite s (s.write32 (s.reg rn) (s.reg rm)) rd (s.readRot (s.reg rn)) := passing passes rfl (by rfl)

theorem exec_swpb : exec (.swpb c rn rd rm) s =
    finishWrite s (s.write8 (s.reg rn) ((s.reg rm).extractLsb' 0 8)) rd ((s.read8 (s.reg rn)).zeroExtend 32) :=
  passing passes rfl (by rfl)

end

/-- Settles O16: both end in `finishWrite` after their bus write, which writes Rd or, for R15, branches; the guard of that
branch decides on the state before the write. -/
theorem swap : Obligations.Swap := by
  unfold Obligations.Swap
  rintro s c rn rd rm _ _ passes rfl rfl
  have swp := exec_swp passes rn rd rm
  have swpb := exec_swpb passes rn rd rm
  refine ⟨fun general => ⟨?word, ?byte⟩, ?toR15⟩
  case word =>
    exact swap_of (write32_effect s _ _) general swp fun _ => StoredAligned.congr (write32_stored s _ _)
  case byte =>
    exact swap_of (write8_effect s _ _) general swpb fun _ => StoredByte.congr (write8_stored s _ _)
  case toR15 =>
    rintro rfl
    exact ⟨branches_of_jump swp, branches_of_jump swpb⟩

end Sys2Proof.Machine
end

section
/-! ARM block transfers (spec/45_arm_block_transfer.md R370 to R374): the three loads are `execLdmWith` and the two stores
`execStmWith`, each with its own register bank and, for the return from exception, with CPSR restored after the loads. -/

namespace Sys2Proof.Machine

section
variable {s : State} {c : Cond} (passes : s.passes c = true) (p u w : Bool) (rn : Reg) (list : BitVec 16)
include passes

/-! ## Loads (R371, R373, R374) -/

theorem exec_ldm : exec (.ldm c p u w rn list) s =
    execLdmWith (.ldm c p u w rn list) s s.mode false p u w rn list := passing passes rfl (by rfl)

theorem exec_ldmRet : exec (.ldmRet c p u w rn list) s =
    execLdmWith (.ldmRet c p u w rn list) s s.mode true p u w rn list := passing passes rfl (by rfl)

theorem exec_ldmUser : exec (.ldmUser c p u w rn list) s =
    execLdmWith (.ldmUser c p u w rn list) s .usr false p u w rn list := passing passes rfl (by rfl)

/-! ## Stores (R372, R374) -/

theorem exec_stm : exec (.stm c p u w rn list) s =
    execStmWith (.stm c p u w rn list) s s.mode p u w rn list := passing passes rfl (by rfl)

theorem exec_stmUser : exec (.stmUser c p u w rn list) s =
    execStmWith (.stmUser c p u w rn list) s .usr p u w rn list := passing passes rfl (by rfl)

end

/-- Settles O17: each of the three is `execLdmWith` of its bank, and `blockLoads_of` says what that loads, writes back and
branches to. -/
theorem blockLoadForms : Obligations.BlockLoadForms := by
  unfold Obligations.BlockLoadForms
  intro s c p u w rn list passes
  refine ⟨?ldm, ?ldmRet, ?ldmUser⟩
  case ldm => exact blockLoads_of (exec_ldm passes p u w rn list)
  case ldmRet => exact blockLoads_of (exec_ldmRet passes p u w rn list)
  case ldmUser => exact blockLoads_of (exec_ldmUser passes p u w rn list)

/-- Settles O18: both are `execStmWith` of their bank, and `blockStores_of` says what that writes, to memory and to the
base. -/
theorem blockStoreForms : Obligations.BlockStoreForms := by
  unfold Obligations.BlockStoreForms
  intro s c p u w rn list passes
  refine ⟨?stm, ?stmUser⟩
  case stm => exact blockStores_of (exec_stm passes p u w rn list)
  case stmUser => exact blockStores_of (exec_stmUser passes p u w rn list)

end Sys2Proof.Machine
end

section
/-! System calls, coprocessor instructions and undefined encodings (spec/46_arm_swi_coproc_undef.md, spec/60_exceptions.md
R604, R620): an SWI is `biosCall` of its number in both instruction sets (`exec_of_calls`), a coprocessor instruction only
advances the pc, and an undefined encoding is `undefinedInstr`. -/

namespace Sys2Proof.Machine

/-! ## Frames of several writes -/

/-- A frame leaves the mode as it is: the mode field lies in the control bits. -/
theorem RegisterFrame.mode {ns : List Reg} {s t : State} (frame : RegisterFrame ns s t) : t.mode = s.mode :=
  State.mode_congr (extractLsb'_congr fun k _ hk => frame.control k (by omega))

theorem RegisterFrame.refl (ns : List Reg) (s : State) : RegisterFrame ns s s :=
  ⟨fun _ _ => rfl, fun _ _ => rfl, SameBeyondCpu.refl s, fun _ => rfl⟩

/-- One more write to a register that the frame names. -/
theorem RegisterFrame.setReg {ns : List Reg} {s t : State} (frame : RegisterFrame ns s t) {n : Reg} (v : Word)
    (named : n ∈ ns) : RegisterFrame ns s (t.setReg n v) where
  cells j hj := by
    refine (State.setRegIn_cell t t.mode n v j ?_).trans (frame.cells j hj)
    rw [frame.mode]
    exact hj n named
  control k hk := by rw [State.setReg_cpsr]; exact frame.control k hk
  beyond := frame.beyond.setReg n v
  bytes := (frame.beyond.setReg n v).bytes

theorem RegisterFrame.advance {ns : List Reg} {s t : State} (frame : RegisterFrame ns s t) : RegisterFrame ns s t.advance :=
  ⟨frame.cells, frame.control, frame.beyond.advance, frame.beyond.advance.bytes⟩

/-! ## Halt, the waits, the checksum and unrecognised numbers (R393, R401 to R404, R409) -/

/-- A number that names no function (R393). -/
theorem biosCall_unrecognised {n : Nat} (s : State)
    (unknown : n ∉ [0x00, 0x02, 0x03, 0x04, 0x05, 0x06, 0x08, 0x0B, 0x0C, 0x0D, 0x11, 0x12, 0x14, 0x15]) :
    biosCall n s = .next s.advance := by
  unfold biosCall
  split
  case h_15 => rfl
  all_goals exact absurd (by decide) unknown

/-- Settles O28: the named calls are `biosCall` of their numbers, and every number without a name falls to its last arm. -/
theorem swiSimpleCalls : Obligations.SwiSimpleCalls := by
  unfold Obligations.SwiSimpleCalls
  intro s i n call
  have run : exec i s = biosCall n s := exec_of_calls call
  refine ⟨?halt, ?wait, ?checksum, fun unknown => run.trans (biosCall_unrecognised s unknown)⟩
  case halt => rintro (rfl | rfl) <;> exact run
  case wait => rintro (rfl | rfl) <;> exact run
  case checksum =>
    rintro rfl
    exact writesResult_of (b := false) (by decide) run

/-! ## Div (R405, R622, U12) -/

theorem biosCall_div_zero {s : State} (zero : (s.reg 1).toInt = 0) : biosCall 0x06 s = .fault .biosDivideByZero := by
  have stop : biosDiv s = .fault .biosDivideByZero := if_pos zero
  simp only [biosCall, stop]

/-- The state that Div leaves for the quotient `q` and the remainder `r`, before the advance. -/
def divided (s : State) (q r : Int) : State :=
  ((s.setReg 0 (BitVec.ofInt 32 q)).setReg 1 (BitVec.ofInt 32 r)).setReg 3 (BitVec.ofNat 32 q.natAbs)

/-- The quotient and the remainder of a truncating division are those of Div: they are unique. -/
theorem biosCall_div {s : State} {q r : Int} (nonzero : (s.reg 1).toInt ≠ 0)
    (division : q * (s.reg 1).toInt + r = (s.reg 0).toInt) (small : r.natAbs < (s.reg 1).toInt.natAbs)
    (pos : 0 < r → 0 < (s.reg 0).toInt) (neg : r < 0 → (s.reg 0).toInt < 0) :
    biosCall 0x06 s = .next (divided s q r).advance := by
  have quotient : (s.reg 0).toInt.tdiv (s.reg 1).toInt = q := tdiv_unique _ _ q r nonzero division small pos neg
  have remainder : (s.reg 0).toInt - q * (s.reg 1).toInt = r := by omega
  have done : biosDiv s = .next (divided s q r) := by
    simp only [biosDiv, if_neg nonzero, quotient, remainder, divided]
  simp only [biosCall, done]

theorem divided_frame (s : State) (q r : Int) : RegisterFrame [0, 1, 3] s (divided s q r) :=
  (((RegisterFrame.refl _ s).setReg _ (by decide)).setReg _ (by decide)).setReg _ (by decide)

theorem divided_cpsr (s : State) (q r : Int) : (divided s q r).cpsr = s.cpsr := by simp [divided]

theorem divided_advance_r15 (s : State) (q r : Int) : (divided s q r).advance.r15 = s.r15 + instrWidth s.thumb := by
  simp [divided]

/-- Settles O29: the truncated quotient and its remainder are the only ones that meet the statement's conditions, and Div
writes three registers. -/
theorem swiDivide : Obligations.SwiDivide := by
  unfold Obligations.SwiDivide
  intro s i call
  have run : exec i s = biosCall 0x06 s := exec_of_calls call
  refine ⟨fun zero => run.trans (biosCall_div_zero zero), fun q r nonzero division small pos neg => ?divides⟩
  case divides =>
    obtain ⟨quotient, remainder, absolute⟩ :=
      reg_setReg3 s (BitVec.ofInt 32 q) (BitVec.ofInt 32 r) (BitVec.ofNat 32 q.natAbs)
    exact ⟨_, run.trans (biosCall_div nonzero division small pos neg),
      (reg_advance _ _ (by decide)).trans quotient, (reg_advance _ _ (by decide)).trans remainder,
      (reg_advance _ _ (by decide)).trans absolute, divided_advance_r15 s q r,
      nzcv_congr (divided_cpsr s q r), (divided_frame s q r).advance⟩

/-! ## Sqrt (R406) -/

/-- `isqrt` is the floor of the square root of a 32-bit number. -/
theorem isqrt_spec {n : Nat} (h : n < 2^32) : isqrt n * isqrt n ≤ n ∧ n < (isqrt n + 1) * (isqrt n + 1) :=
  isqrtFrom_spec 16 n 0 (Nat.zero_le n) (by omega)

/-- Settles O30: there is one floor of a square root. -/
theorem swiSquareRoot : Obligations.SwiSquareRoot := by
  unfold Obligations.SwiSquareRoot
  intro s i v call below above
  obtain ⟨rootBelow, rootAbove⟩ := isqrt_spec (s.reg 0).isLt
  have root : isqrt (s.reg 0).toNat = v.toNat := sqrt_unique _ _ _ rootBelow rootAbove below above
  refine writesResult_of (b := false) (by decide) ((exec_of_calls call).trans ?_)
  show Host.Outcome.next (biosSqrt s).advance = _
  rw [biosSqrt, root, BitVec.ofNat_toNat, BitVec.setWidth_eq]
  rfl

/-! ## CpuSet and CpuFastSet (R407, R408) -/

/-- `n` units copied are the `n`th state of the sequence of single copies. -/
theorem copyUnits_eq (word fixed : Bool) (n : Nat) (src dst : Word) (m : Nat → State)
    (unit : ∀ k, m (k + 1) = if word
      then (m k).write32 (dst + BitVec.ofNat 32 (4 * k))
        ((m k).read32 (if fixed then src else src + BitVec.ofNat 32 (4 * k)))
      else (m k).write16 (dst + BitVec.ofNat 32 (2 * k))
        ((m k).read16 (if fixed then src else src + BitVec.ofNat 32 (2 * k)))) :
    copyUnits word fixed n (m 0) src dst = m n := by
  simpa using copyUnits_seq word fixed src dst m n 0 unit

/-- A call that is a copy ends in the last state `t` of the copy, whose registers are those of the call. -/
theorem copies_of {i : Instr} {s t : State} {word fixed : Bool} {n : Nat} {src dst : Word}
    (run : exec i s = .next (copyUnits word fixed n s src dst).advance) (copied : copyUnits word fixed n s src dst = t) :
    exec i s = .next { t with r15 := s.r15 + instrWidth s.thumb } ∧ t.regs = s.regs ∧ t.cpsr = s.cpsr := by
  have effect : BusEffect s t := copied ▸ copyUnits_effect word fixed n s src dst
  refine ⟨?_, effect.regs, effect.cpsr⟩
  rw [run, copied, State.advance, effect.r15, State.thumb, effect.cpsr, ← State.thumb]

/-- Settles O31: both calls are `copyUnits`, which walks the sequence `m` unit by unit. -/
theorem swiCopies : Obligations.SwiCopies := by
  unfold Obligations.SwiCopies
  rintro s i _ _ _ m rfl rfl rfl rfl
  exact ⟨fun call unit => copies_of (exec_of_calls call) (copyUnits_eq _ _ _ _ _ m unit),
    fun call unit => copies_of (exec_of_calls call) (copyUnits_eq true _ _ _ _ m unit)⟩

/-! ## LZ77 and run-length decompression (R410 to R413, U13) -/

/-- Where the decompressors of R410 and R412 begin: after the header, with no output. -/
def unpackStart (s : State) : Unpack := { p := s.reg 0 + 4, out := [], len := 0, free := s.free }

/-- The LZ77 loop run for the whole output answers what the format says (R410). -/
theorem lzLoop_unpacks (s : State) (size : Nat) :
    LzOut s size 0 0 (s.reg 0 + 4) [] (lzLoop s size size (unpackStart s)).p (lzLoop s size size (unpackStart s)).out.reverse
    ∧ (lzLoop s size size (unpackStart s)).out.reverse.length = size := by
  obtain ⟨unpacks, length⟩ := lzLoop_spec s size size 0 (unpackStart s) rfl (Nat.sub_le ..)
  exact ⟨unpacks, List.length_reverse.trans (length (Nat.zero_le _))⟩

/-- The run-length loop run for the whole output answers what the format says (R412). -/
theorem rlLoop_unpacks (s : State) (size : Nat) :
    RlOut s size (s.reg 0 + 4) [] (rlLoop s size size (unpackStart s)).p (rlLoop s size size (unpackStart s)).out.reverse
    ∧ (rlLoop s size size (unpackStart s)).out.reverse.length = size := by
  obtain ⟨unpacks, length, -⟩ := rlLoop_spec s size size (unpackStart s) rfl (Nat.sub_le ..)
  exact ⟨unpacks, List.length_reverse.trans (length (Nat.zero_le _))⟩

/-- The part that the four calls share (R410 to R413): the output of `d` is written at R1, R0 ends after the input and R1 after
the output. -/
theorem unpacks_of {i : Instr} {s : State} {d : Unpack} {size : Nat} {halves : Bool}
    (run : exec i s = .next (finishUnpack s d size halves).advance) :
    ∃ t u : State, exec i s = .next t ∧ t.reg 0 = d.p
      ∧ WrittenOut { s with free := d.free } u (s.reg 1) d.out.reverse halves
      ∧ t = { u with regs := t.regs, r15 := t.r15 } ∧ t.reg 1 = s.reg 1 + BitVec.ofNat 32 size
      ∧ t.r15 = s.r15 + instrWidth s.thumb ∧ t.cpsr = s.cpsr ∧ SameCellsBut [0, 1] s t := by
  obtain ⟨rest, pc, cpsr, input, output, cells⟩ := finishUnpack_facts s d size halves _ _ rfl rfl
  exact ⟨_, _, run, input, writtenOut _ _ _ _, rest, output, pc, cpsr, cells⟩

/-- Settles O32: each of the four calls is the loop of its format followed by `finishUnpack` of its width. -/
theorem swiDecompression : Obligations.SwiDecompression := by
  unfold Obligations.SwiDecompression
  rintro s i n size _ _ call number rfl rfl header
  obtain rfl : size = unpackSize s (s.reg 0) := header
  have run : exec i s = biosCall n s := exec_of_calls call
  simp only [List.mem_cons, List.not_mem_nil, or_false] at number
  obtain rfl | rfl | rfl | rfl := number
  case inl | inr.inl =>
    obtain ⟨unpacked, length⟩ := lzLoop_unpacks s (unpackSize s (s.reg 0))
    obtain ⟨t, u, next, input, written, rest⟩ := unpacks_of run
    exact ⟨t, u, _, _, next, length, fun _ => input ▸ unpacked, fun other => absurd other (by decide), written, rest⟩
  case inr.inr.inl | inr.inr.inr =>
    obtain ⟨unpacked, length⟩ := rlLoop_unpacks s (unpackSize s (s.reg 0))
    obtain ⟨t, u, next, input, written, rest⟩ := unpacks_of run
    exact ⟨t, u, _, _, next, length, fun other => absurd other (by decide), fun _ => input ▸ unpacked, written, rest⟩

/-! ## SoftReset (R400) -/

/-- The state of SoftReset after its clear of IWRAM. -/
def softResetCleared (s : State) : State := clearWords 0x80 s 0x03007E00#32

theorem softResetCleared_spec (s : State) : softResetCleared s = { s with mem := (softResetCleared s).mem }
    ∧ StoresBytes s (softResetCleared s) 0x03007E00#32 0x200 fun _ => 0 := by
  unfold softResetCleared
  exact clearWords_spec 0x80 s 0x03007E00#32 (by decide) (by decide) (by decide)

/-- SoftReset field by field: memory from the clear, the cells from the presets. -/
theorem biosSoftReset_eq (s : State) : biosSoftReset s = { s with
    mem := (softResetCleared s).mem, regs := (softResetRegs (softResetCleared s)).regs,
    r15 := softResetEntry (s.read8 0x03007FFA#32) + 8, cpsr := 0x0000001F#32, spsrSvc := 0, spsrIrq := 0 } := by
  have mem := (softResetCleared_spec s).1
  unfold softResetCleared at mem ⊢
  unfold biosSoftReset
  generalize clearWords 0x80 s 0x03007E00#32 = u at mem ⊢
  rw [softResetRegs_eq, mem]

/-- After the clear SoftReset touches the CPU only. -/
theorem biosSoftReset_bytes (s : State) : SameBytes (softResetCleared s) (biosSoftReset s) := by
  refine sameBytes_cpu ?_
  rw [biosSoftReset_eq, (softResetCleared_spec s).1]

theorem biosSoftReset_r15 (s : State) :
    (biosSoftReset s).r15 = if s.read8 0x03007FFA#32 = 0 then 0x08000008#32 else 0x02000008#32 := by
  rw [biosSoftReset_eq, softResetEntry]
  split <;> rfl

theorem biosSoftReset_regs (s : State) : (biosSoftReset s).regs = (softResetRegs (softResetCleared s)).regs := by
  rw [biosSoftReset_eq]

theorem State.regIn_cell (s : State) {m : Mode} {n : Reg} {j : Fin 30} (cell : phys m n = some j) :
    s.regIn m n = s.regs[j.val] := by
  unfold State.regIn
  rw [cell]
  rfl

/-- A register that SoftReset presets reads as the value of its cell. -/
theorem biosSoftReset_preset (s : State) {m : Mode} {n : Reg} {j : Fin 30} {v : Word} (cell : phys m n = some j)
    (value : (softResetRegs (softResetCleared s)).regs[j.val] = v) : (biosSoftReset s).regIn m n = v := by
  rw [State.regIn_cell _ cell, ← value]
  simp only [biosSoftReset_regs]

/-- A register whose cell SoftReset leaves alone. -/
theorem biosSoftReset_kept (s : State) {m : Mode} {n : Reg} {j : Fin 30} (cell : phys m n = some j)
    (other : 15 ≤ j.val ∧ j.val ≤ 21 ∨ 26 ≤ j.val) : (biosSoftReset s).regIn m n = s.regIn m n := by
  rw [softReset_kept (softResetCleared s) _ (fun _ _ => by rw [biosSoftReset_regs]) m n j cell other,
    State.regIn_cell _ cell, State.regIn_cell _ cell, (softResetCleared_spec s).1]

/-- Settles O33: what SoftReset writes is read off the register cells, its clear of IWRAM and its entry point. -/
theorem swiSoftReset : Obligations.SwiSoftReset := by
  unfold Obligations.SwiSoftReset
  intro s i call
  obtain ⟨cleared, kept⟩ := (softResetCleared_spec s).2
  have bytes := biosSoftReset_bytes s
  refine ⟨biosSoftReset s, exec_of_calls call, by rw [biosSoftReset_eq], biosSoftReset_r15 s, ?low,
    biosSoftReset_preset s rfl (softResetRegs_cell _ 13 (by decide)),
    biosSoftReset_preset s rfl (softResetRegs_cell _ 14 (by decide)),
    biosSoftReset_preset s rfl (softResetRegs_cell _ 24 (by decide)),
    biosSoftReset_preset s rfl (softResetRegs_cell _ 25 (by decide)),
    biosSoftReset_preset s rfl (softResetRegs_cell _ 22 (by decide)),
    biosSoftReset_preset s rfl (softResetRegs_cell _ 23 (by decide)), ?fiq, ?abtUnd,
    fun k hk b hb => (bytes b).trans (cleared k hk b hb), fun b hb => (bytes b).trans (kept b hb)⟩
  case low =>
    intro n hn
    obtain ⟨j, cell, hj⟩ := phys_sys_lt n hn
    exact biosSoftReset_preset s cell ((softResetRegs_cell _ j.val j.isLt).trans (if_pos hj))
  case fiq =>
    intro n hn
    obtain r15 | ⟨j, cell, hj⟩ := phys_fiq_mid n hn
    · exact .inr r15
    · exact .inl (biosSoftReset_kept s cell (.inl hj))
  case abtUnd =>
    rintro n (rfl | rfl) <;>
      exact ⟨biosSoftReset_kept s rfl (.inr (by decide)), biosSoftReset_kept s rfl (.inr (by decide))⟩

/-! ## An SWI takes no exception (R391, R392) -/

theorem Quiet.refl (s : State) : Quiet s s := Quiet.of_bus (BusEffect.refl s)

theorem divided_quiet (s : State) (q r : Int) : Quiet s (divided s q r) :=
  (((Quiet.refl s).setReg 0 _ (.inl rfl)).setReg 1 _ (.inr (.inl rfl))).setReg 3 _ (.inr (.inr rfl))

/-- Every call but SoftReset, and Div of a divisor that is not zero, ends in the advance of a state that keeps CPSR, the SPSRs,
R15 and every register but R0, R1 and R3. -/
theorem biosCall_quiet {n : Nat} {s : State} (notReset : n ≠ 0x00) (divisor : n = 0x06 → s.reg 1 ≠ 0) :
    ∃ u, biosCall n s = .next u.advance ∧ Quiet s u := by
  unfold biosCall
  split
  case h_1 => exact absurd rfl notReset
  case h_2 | h_3 => exact ⟨_, rfl, .of_bus (.halted s true)⟩
  case h_4 | h_5 => exact ⟨_, rfl, .of_bus ((BusEffect.ime s 1).trans (.halted _ true))⟩
  case h_6 =>
    have nonzero : (s.reg 1).toInt ≠ 0 := fun zero => divisor rfl ((toInt_zero _).mp zero)
    have done : biosDiv s = .next (divided s _ _) := if_neg nonzero
    rw [done]
    exact ⟨_, rfl, divided_quiet s _ _⟩
  case h_7 | h_10 => exact ⟨_, rfl, (Quiet.refl s).setReg 0 _ (.inl rfl)⟩
  case h_8 | h_9 => exact ⟨_, rfl, .of_bus (copyUnits_effect ..)⟩
  case h_11 | h_12 | h_13 | h_14 => exact ⟨_, rfl, .finishUnpack ..⟩
  case h_15 => exact ⟨_, rfl, .refl s⟩

/-- Settles O34: every call but SoftReset is quiet, and a quiet state after its advance has what the statement says. -/
theorem swiTakesNoException : Obligations.SwiTakesNoException := by
  unfold Obligations.SwiTakesNoException
  intro s i n call notReset divisor
  obtain ⟨u, run, quiet⟩ := biosCall_quiet notReset divisor
  exact quiet.done ((exec_of_calls call).trans run)

/-! ## Coprocessor instructions (R430 to R434) -/

/-- An ignored instruction only advances the pc, whether its condition passes or not. -/
theorem conditionally_ignored (c : Cond) (s : State) : conditionally c s ignored = .next s.advance := ite_self _

/-- Settles O35: the five are conditional instructions that are ignored. -/
theorem coprocessorIgnored : Obligations.CoprocessorIgnored := by
  unfold Obligations.CoprocessorIgnored
  intro s c p u n w rn rd crd cp opc crn crm offset8 o1 o2
  have skipped := conditionally_ignored c s
  exact ⟨skipped, skipped, skipped, skipped, skipped⟩

/-! ## Undefined encodings (R420, R604, R620) -/

theorem exec_undefArm {i : Instr} {s : State} {c : Cond} {bits : BitVec 28} (passes : s.passes c = true)
    (undef : i ∈ [.undefMul c bits, .undefCompare c bits, .undefTransfer c bits]) : exec i s = undefinedInstr i s := by
  simp only [List.mem_cons, List.not_mem_nil, or_false] at undef
  obtain rfl | rfl | rfl := undef <;> exact passing passes rfl (by rfl)

theorem exec_undefThumb {i : Instr} {s : State} {b8 : BitVec 8} {b9 : BitVec 9} {b10 : BitVec 10}
    (undef : i ∈ [.tUndefCond b8, .tUndefB1 b8, .tUndefB2 b9, .tUndefB6 b9, .tUndefB8 b10, .tUndefBE b9]) :
    exec i s = undefinedInstr i s := by
  simp only [List.mem_cons, List.not_mem_nil, or_false] at undef
  obtain rfl | rfl | rfl | rfl | rfl | rfl := undef <;> rfl

section
variable (i : Instr) {s : State}

theorem undefinedInstr_fault (policy : s.params.undefPolicy = .fault) :
    undefinedInstr i s = .fault (.undefinedEncoding s.ia i) := by
  simp only [undefinedInstr, policy]

theorem undefinedInstr_nop (policy : s.params.undefPolicy = .nop) : undefinedInstr i s = .next s.advance := by
  simp only [undefinedInstr, policy]

theorem undefinedInstr_exception (policy : s.params.undefPolicy = .undException) :
    undefinedInstr i s = .next (takeException s .und 0x04#32 (s.ia + instrWidth s.thumb)) := by
  simp only [undefinedInstr, policy]

end

/-- Settles O36: every undefined encoding is `undefinedInstr`, whose three policies are the lemmas above. -/
theorem undefinedEncodings : Obligations.UndefinedEncodings := by
  unfold Obligations.UndefinedEncodings
  intro s i c b28 b8 b9 b10 encoding
  have run : exec i s = undefinedInstr i s :=
    encoding.elim (fun ⟨passes, undef⟩ => exec_undefArm passes undef) exec_undefThumb
  refine ⟨fun policy => run.trans (undefinedInstr_fault i policy),
    fun policy => run.trans (undefinedInstr_nop i policy), fun policy => ?exception⟩
  case exception =>
    exact ⟨_, run.trans (undefinedInstr_exception i policy), takeException_enters s .und _ _ (by decide) (by decide)⟩

end Sys2Proof.Machine
end

section
/-! Thumb arithmetic and logic (spec/47_thumb_alu.md): an instruction of formats 1 to 4 ends in `finishThumb`, which writes a
low register and the flags, or in `finishThumbFlags`, which writes the flags only; those of formats 5, 12 and 13 write no
flag. -/

namespace Sys2Proof.Machine

theorem writesResult_thumb {i : Instr} {s : State} {rd : LowReg} {v w : Word} {f g : Nzcv}
    (run : exec i s = finishThumb s rd w g) (result : v = w) (flags : g = f) : WritesResult i s (low rd) v true f := by
  subst result flags
  exact writesResult_of (low_ne_r15 rd) run

/-! ## The shifts (R441 to R443, R462 to R464, R467) -/

theorem writesResult_thumbShift {i : Instr} {s : State} {rd : LowReg} {r : Shifted}
    (run : exec i s = finishThumbShift s rd r) :
    WritesResult i s (low rd) r.value true (resultFlags r.value r.carry s.flagV) :=
  writesResult_thumb run rfl (logicalFlags_eq s r.value r.carry)

/-- Settles O19: each of the seven hands `finishThumbShift` the operand 2 that the statement names. -/
theorem thumbShifts : Obligations.ThumbShifts := by
  unfold Obligations.ThumbShifts
  rintro s n rs rd ty i r
    (⟨rfl, rfl, rfl⟩ | ⟨rfl, rfl, rfl⟩ | ⟨rfl, rfl, rfl⟩ | ⟨rfl, rfl, rfl⟩ |
      ⟨rfl, rfl, rfl⟩ | ⟨rfl, rfl, rfl⟩ | ⟨rfl, rfl, rfl⟩)
  all_goals exact writesResult_thumbShift (by rfl)

/-! ## Sums and differences (R445 to R448, R452, R453, R465, R466, R469) -/

/-- Settles O20: each hands `finishThumb` the exact result and its flags. -/
theorem thumbArithmetic : Obligations.ThumbArithmetic := by
  unfold Obligations.ThumbArithmetic
  rintro s rn rs rd imm3 imm8 x y three eight _ _ _ _ rfl rfl rfl rfl
  obtain rfl := zext_eq x imm3 three
  obtain rfl := zext_eq y imm8 eight
  refine ⟨?addReg, ?subReg, ?addImm3, ?subImm3, ?addImm8, ?subImm8, ?adc, ?sbc, ?neg⟩
  case addReg | addImm3 | addImm8 => exact writesResult_thumb (by rfl) (add_eq _ _).symm (addFlags_eq _ _)
  case subReg | subImm3 | subImm8 | neg => exact writesResult_thumb (by rfl) (sub_eq _ _).symm (subFlags_eq _ _)
  case adc => exact writesResult_thumb (by rfl) (adcResult_eq _ _ _).symm (adcFlags_eq _ _ _)
  case sbc => exact writesResult_thumb (by rfl) (sbcResult_eq _ _ _).symm (sbcFlags_eq _ _ _)

/-! ## Logic, products and comparisons (R450, R451, R460, R461, R468, R470 to R475, R481) -/

theorem nzOnly_eq (s : State) (v : Word) : nzOnly s v = resultFlags v s.flagC s.flagV := nzFlags_eq v s.flagC s.flagV

/-- The logical operations: the bits stated are the result's. -/
theorem writesResult_thumbLogical {i : Instr} {s : State} {rd : LowReg} {f : Bool → Bool → Bool} {a b v w : Word}
    (run : exec i s = finishThumb s rd w (nzOnly s w)) (result : Bitwise f a b w) (bits : Bitwise f a b v) :
    WritesResult i s (low rd) v true (resultFlags v s.flagC s.flagV) := by
  obtain rfl := eq_of_bitwise bits result
  exact writesResult_thumb run rfl (nzOnly_eq s v)

/-- Settles O21: each result has the bits, or is the number, that the statement gives; the comparisons end in
`finishThumbFlags`. -/
theorem thumbLogicalAndComparisons : Obligations.ThumbLogicalAndComparisons := by
  unfold Obligations.ThumbLogicalAndComparisons
  refine ⟨?results, ?flags⟩
  case results =>
    rintro s rs rd imm8 v _ rfl
    refine ⟨writesResult_thumbLogical (by rfl) (bitwise_and _ _), writesResult_thumbLogical (by rfl) (bitwise_xor _ _),
      writesResult_thumbLogical (by rfl) (bitwise_or _ _), writesResult_thumbLogical (by rfl) (bitwise_andNot _ _),
      writesResult_thumbLogical (by rfl) (bitwise_notRight _ _), fun product => ?mul, fun immediate => ?mov⟩
    case mul =>
      obtain rfl := eq_mul_of_toNat product
      exact writesResult_thumb (by rfl) rfl (nzOnly_eq s _)
    case mov =>
      obtain rfl := zext8_eq v imm8 immediate
      exact writesResult_thumb (by rfl) rfl (nzOnly_eq s _)
  case flags =>
    intro s rs rd hs hd imm8 x v immediate
    obtain rfl := zext8_eq x imm8 immediate
    refine ⟨?cmpImm, ?cmp, ?cmn, ?cmpHi, fun bits => ?tst⟩
    case cmpImm | cmp | cmpHi =>
      rw [← subFlags_eq]
      exact writesFlags_of (by rfl)
    case cmn =>
      rw [← addFlags_eq]
      exact writesFlags_of (by rfl)
    case tst =>
      obtain rfl := eq_of_bitwise bits (bitwise_and _ _)
      rw [← nzOnly_eq]
      exact writesFlags_of (by rfl)

/-! ## High registers and addresses (R480, R482, R490, R491, R495, R496) -/

/-- An instruction that ends in `finishWrite` and has no other effect writes its register and no flag. -/
theorem writesResult_finishWrite {i : Instr} {s : State} {rd : Reg} {v : Word} (general : rd ≠ 15)
    (run : exec i s = finishWrite s s rd v) : WritesResult i s rd v false s.nzcv :=
  writesResult_write (b := false) general run

/-- Settles O22: ADD and MOV of high registers end in `finishWrite`, the four additions write their sum without flags. -/
theorem thumbHighAndAddresses : Obligations.ThumbHighAndAddresses := by
  unfold Obligations.ThumbHighAndAddresses
  intro s hs hd rd word8 sword7 x y words stack
  obtain rfl := shl_eq 8 2 x word8 words
  obtain rfl := shl_eq 7 2 y sword7 stack
  refine ⟨fun general => ⟨?add, ?mov⟩, ?toR15, ?addPc, ?addSp, ?incSp, ?decSp⟩
  case add =>
    rw [← add_eq]
    exact writesResult_finishWrite general (by rfl)
  case mov => exact writesResult_finishWrite general (by rfl)
  case toR15 =>
    rintro rfl
    rw [← add_eq]
    exact ⟨branches_of_jump (by rfl), branches_of_jump (by rfl)⟩
  case addPc =>
    rw [← align_eq]
    exact writesPlain_of (low_ne_r15 rd) (by rfl)
  case addSp => exact writesPlain_of (low_ne_r15 rd) (by rfl)
  case incSp | decSp => exact writesPlain_of (by decide) (by rfl)

end Sys2Proof.Machine
end

section
/-! Thumb loads and stores (spec/48_thumb_load_store.md): a load writes what it reads to a low register, a store is one bus
write, and PUSH, POP, STMIA and LDMIA are block transfers (`execStmWith`, `execLdmWith`) of their register lists. -/

namespace Sys2Proof.Machine

/-! ## Addresses -/

theorem wordOffset_eq (word8 : BitVec 8) : BitVec.ofNat 32 (4 * word8.toNat) = zext8 word8 <<< 2 :=
  ofNat_shl 8 2 _ word8 rfl (by omega)

section
variable (s : State) (offset5 : BitVec 5) (rb : LowReg)

theorem wordAddr_eq : s.reg (low rb) + BitVec.ofNat 32 (4 * offset5.toNat) = immOffsetAddr s offset5 2 rb := by
  rw [immOffsetAddr, ofNat_shl 5 2 (4 * offset5.toNat) offset5 rfl (by omega)]

theorem halfAddr_eq : s.reg (low rb) + BitVec.ofNat 32 (2 * offset5.toNat) = immOffsetAddr s offset5 1 rb := by
  rw [immOffsetAddr, ofNat_shl 5 1 (2 * offset5.toNat) offset5 rfl (by omega)]

theorem byteAddr_eq : s.reg (low rb) + BitVec.ofNat 32 offset5.toNat = immOffsetAddr s offset5 0 rb := by
  rw [immOffsetAddr, ofNat_shl 5 0 offset5.toNat offset5 (Nat.one_mul _).symm (by omega)]

end

/-! ## Loads (R501, R507, R508, R511 to R513, R516, R518, R521, R524) -/

theorem writesResult_thumbLoad {i : Instr} {s : State} {rd : LowReg} {v : Word} (run : exec i s = finishThumbLoad s rd v) :
    WritesResult i s (low rd) v false s.nzcv :=
  writesPlain_of (low_ne_r15 rd) run

/-- Settles O23: each load hands `finishThumbLoad` what it reads at its address. -/
theorem thumbLoads : Obligations.ThumbLoads := by
  unfold Obligations.ThumbLoads
  rintro s ro rb rd offset5 word8 _ _ rfl rfl _ rfl
  rw [← align_eq, wordOffset_eq, wordAddr_eq, byteAddr_eq, halfAddr_eq]
  refine ⟨?ldrPc, ?ldrSp, ?ldrReg, ?ldrbReg, ?ldrhReg, ?ldsbReg, ?ldshReg, ?ldrImm, ?ldrbImm, ?ldrhImm⟩
  all_goals exact writesResult_thumbLoad (by rfl)

/-! ## Stores (R505, R506, R510, R515, R517, R520, R523) -/

/-- Settles O24: each store is one bus write of a word, the low half or the low byte of Rd. -/
theorem thumbStores : Obligations.ThumbStores := by
  unfold Obligations.ThumbStores
  rintro s ro rb rd offset5 word8 _ _ _ rfl rfl rfl _ rfl
  rw [wordOffset_eq, wordAddr_eq, byteAddr_eq, halfAddr_eq]
  refine ⟨?strReg, ?strImm, ?strSp, ?strhReg, ?strhImm, ?strbReg, ?strbImm⟩
  case strReg | strImm | strSp => exact storesWord_of (by rfl)
  case strhReg | strhImm => exact storesHalf_of (by rfl)
  case strbReg | strbImm => exact storesByte_of (by rfl)

/-! ## Block transfers (R530, R531, R535, R536, U10) -/

/-- Only an empty list stops a block transfer whose base is not R15. -/
theorem blockStops_general {rb : Reg} (general : rb ≠ 15) (w : Bool) (regs : List Reg) :
    blockStops w rb regs = regs.isEmpty := by
  rw [blockStops, beq_eq_false_iff_ne.mpr general, Bool.false_and, Bool.or_false]

section
variable (s : State) (extra : Bool) (list : BitVec 8) (rb : LowReg) {push pop regs : BitVec 16}

theorem exec_tStmia (lowList : lowListRegs list = listRegs regs) : exec (.tStmia rb list) s =
    execStmWith (.tStmia rb list) s s.mode false true true (low rb) regs := by
  show execTStmia rb list s = _
  simp only [execTStmia, execStmWith, lowList, blockStops_general (low_ne_r15 rb)]
  rfl

theorem exec_tLdmia (lowList : lowListRegs list = listRegs regs) (noPc : (15 : Reg) ∉ listRegs regs) :
    exec (.tLdmia rb list) s = execLdmWith (.tLdmia rb list) s s.mode false false true true (low rb) regs := by
  show execTLdmia rb list s = _
  have noBranch : loadedPc s (withAddrs (blockStart (s.reg (low rb)) false true (listRegs regs)) (listRegs regs)) = none := by
    rw [slots_eq, loadedPc_eq, if_neg noPc]
  simp only [execTLdmia, execLdmWith, lowList, blockStops_general (low_ne_r15 rb), noBranch]
  rfl

/-- SP is not in the list of a PUSH, so every register is stored as it is. -/
theorem exec_tPush (pushed : pushRegs extra 14 list = listRegs push) (noSp : (13 : Reg) ∉ listRegs push) :
    exec (.tPush extra list) s = execStmWith (.tPush extra list) s s.mode true false true 13 push := by
  show execTPush extra list s = _
  have asIs : ∀ n ∈ listRegs push,
      stmValue s s.mode true 13 (listRegs push) (blockFinal (s.reg 13) false (listRegs push)) n = s.reg n := fun n mem =>
    if_neg fun ⟨isSp, _⟩ => noSp (isSp ▸ mem)
  simp only [execTPush, execStmWith, pushed, blockStops_general (show (13 : Reg) ≠ 15 by decide),
    foldl_storeRegs_congr _ _ _ _ _ asIs]
  rfl

/-- SP is not in the list of a POP, so it does not matter that SP is written after the loads. -/
theorem exec_tPop (popped : pushRegs extra 15 list = listRegs pop) (noSp : (13 : Reg) ∉ listRegs pop) :
    exec (.tPop extra list) s = execLdmWith (.tPop extra list) s s.mode false false true true 13 pop := by
  show execTPop extra list s = _
  have spLast (v : Word) : (loadRegs s s.mode (withAddrs (s.reg 13) (listRegs pop)) s).setReg 13 v
      = loadRegs s s.mode (withAddrs (s.reg 13) (listRegs pop)) (s.setReg 13 v) := by
    rw [State.setReg, loadRegs_mode, ← loadRegs_comm]
    · rfl
    · have slots := slots_eq (s.reg 13) false true pop
      simp only [blockStart] at slots
      rw [slots]
      intro t mem
      obtain ⟨n, named, rfl⟩ := List.mem_map.mp mem
      exact fun isSp => noSp (isSp ▸ named)
  simp only [execTPop, execLdmWith, popped, blockStops_general (show (13 : Reg) ≠ 15 by decide), spLast]
  rfl

end

/-- A register whose bit is clear is not in the list. -/
theorem not_mem_listRegs {list : BitVec 16} {n : Reg} (clear : list.getLsbD n.val = false) : n ∉ listRegs list := by
  rw [mem_listRegs, clear]
  exact Bool.false_ne_true

/-- Settles O25: the four are the block transfers of their lists. -/
theorem thumbBlockTransfers : Obligations.ThumbBlockTransfers := by
  unfold Obligations.ThumbBlockTransfers
  intro s extra list rb push pop regs pushBits popBits regBits
  have pushed := pushRegs_eq extra 14 list push (.inl rfl) pushBits
  have popped := pushRegs_eq extra 15 list pop (.inr rfl) popBits
  have lowList := lowListRegs_eq list regs regBits
  have pushNoSp : (13 : Reg) ∉ listRegs push := not_mem_listRegs (pushBits 13 (by decide))
  have popNoSp : (13 : Reg) ∉ listRegs pop := not_mem_listRegs (popBits 13 (by decide))
  have noPc : (15 : Reg) ∉ listRegs regs :=
    not_mem_listRegs ((regBits 15 (by decide)).trans (BitVec.getLsbD_of_ge list 15 (by decide)))
  exact ⟨blockStores_of (exec_tPush s extra list pushed pushNoSp), blockLoads_of (exec_tPop s extra list popped popNoSp),
    blockStores_of (exec_tStmia s list rb lowList), blockLoads_of (exec_tLdmia s list rb lowList noPc)⟩

end Sys2Proof.Machine
end

section
/-! Thumb branches (spec/49_thumb_branch.md): B and the conditional branches end in `jump`, the halves of the long branch in
a register write, `jump` and `jumpExchange`. -/

namespace Sys2Proof.Machine

/-- Settles O26: the fourteen are one conditional jump, and B is an unconditional one. -/
theorem thumbBranches : Obligations.ThumbBranches := by
  unfold Obligations.ThumbBranches
  rintro s soffset8 offset11 i c _ _ rfl rfl pair
  have run : exec i s = thumbCondBranch c soffset8 s := by
    simp only [List.mem_cons, List.not_mem_nil, or_false, Prod.mk.injEq] at pair
    obtain ⟨rfl, rfl⟩ | ⟨rfl, rfl⟩ | ⟨rfl, rfl⟩ | ⟨rfl, rfl⟩ | ⟨rfl, rfl⟩ | ⟨rfl, rfl⟩ |
      ⟨rfl, rfl⟩ | ⟨rfl, rfl⟩ |
      ⟨rfl, rfl⟩ | ⟨rfl, rfl⟩ | ⟨rfl, rfl⟩ | ⟨rfl, rfl⟩ | ⟨rfl, rfl⟩ | ⟨rfl, rfl⟩ := pair <;> rfl
  rw [← condOffset_eq, ← thumbOffset_eq]
  refine ⟨fun passes => branches_of_jump (passing passes run (by rfl)), fun fails => ?notTaken, branches_of_jump (by rfl)⟩
  case notTaken =>
    rw [OnlyAdvances, run]
    exact if_neg (by rw [fails]; decide)

/-- Settles O27: the first half writes R14, the second jumps, and BLX goes to a target whose bit 0 is clear. -/
theorem thumbLongBranch : Obligations.ThumbLongBranch := by
  unfold Obligations.ThumbLongBranch
  rintro s offset11 _ _ rfl rfl
  have target : s.reg 14 + BitVec.ofNat 32 (2 * offset11.toNat) = longBranchTarget s offset11 := by
    rw [longBranchTarget, ofNat_shl 11 1 (2 * offset11.toNat) offset11 rfl (by omega)]
  rw [target, ← thumbHigh_eq, ← align_eq]
  exact ⟨writesPlain_of (by decide) (by rfl), branches_of_jump (by rfl), exchanges_of (by rfl)⟩

end Sys2Proof.Machine
end

section
/-! IRQ entry and return (spec/60_exceptions.md R610, R612) and the steps in BIOS space (R630, R631). -/

namespace Sys2Proof.Machine

/-! ## IRQ entry and the return from it -/

theorem State.setCpsr_of_validMode (s : State) {v : Word} (valid : validMode v = true) :
    s.setCpsr v = { s with cpsr := v } := by
  obtain ⟨m, hm⟩ := Option.isSome_iff_exists.mp valid
  simp only [State.setCpsr, hm]

section
variable (s : State)

theorem takeIrq_enters : EntersException s (takeIrq s) .irq 0x18#32 (s.ia + 4) :=
  takeException_enters s .irq _ _ (by decide) (by decide)

/-- The link: R14 of IRQ mode, which is the mode entered. -/
theorem takeIrq_reg14 : (takeIrq s).reg 14 = s.ia + 4 := by
  rw [State.reg, takeIrq_mode]
  exact (takeIrq_enters s).linked

/-- The return restores the whole CPSR that the entry saved. -/
theorem takeIrq_restoreCpsr (valid : validMode s.cpsr = true) :
    (takeIrq s).restoreCpsr = { takeIrq s with cpsr := s.cpsr } := by
  have saved : (takeIrq s).spsrOf (takeIrq s).mode = some s.cpsr := by
    rw [takeIrq_mode]
    exact (takeIrq_enters s).saved
  rw [State.restoreCpsr_of_spsr saved, State.setCpsr_of_validMode _ valid]

/-- SUBS PC, R14, #4 (R272). -/
theorem exec_return {t : State} (link : t.reg 14 = s.ia + 4) :
    exec (.sub .al true 14 15 (.imm 0 4)) t = jump t t.restoreCpsr s.ia := by
  have target : t.reg 14 - (operand2 t (.imm 0 4)).value = s.ia := by
    rw [link]
    exact BitVec.add_sub_cancel s.ia 4#32
  show jump t t.restoreCpsr (t.reg 14 - (operand2 t (.imm 0 4)).value) = _
  rw [target]

/-- The return resumes at the interrupted instruction, whose address the prefetch offset leads back to. -/
theorem takeIrq_return (valid : validMode s.cpsr = true) (aligned : s.ia.toNat % (if s.thumb then 2 else 4) = 0)
    (fetchable : ¬ Refused s s.ia) : exec (.sub .al true 14 15 (.imm 0 4)) (takeIrq s)
      = .next { s with regs := (takeIrq s).regs, spsrIrq := s.cpsr } := by
  have accepted : (takeIrq s).pcRefused s.ia = false := by
    have same : (takeIrq s).pcRefused s.ia = s.pcRefused s.ia := by rw [takeIrq_eq]; rfl
    rw [same, Bool.eq_false_iff]
    exact mt (pcRefused_iff s s.ia).mp fetchable
  have resumed : ({ takeIrq s with cpsr := s.cpsr } : State).branchTo s.ia
      = { s with regs := (takeIrq s).regs, spsrIrq := s.cpsr } := by
    calc ({ takeIrq s with cpsr := s.cpsr } : State).branchTo s.ia
      _ = { s with
            regs := (takeIrq s).regs, spsrIrq := s.cpsr,
            r15 := if s.thumb then (s.ia &&& ~~~1#32) + 4 else (s.ia &&& ~~~3#32) + 8 } := by rw [takeIrq_eq]; rfl
      _ = { s with regs := (takeIrq s).regs, spsrIrq := s.cpsr } := by rw [prefetch_even s aligned]
  rw [exec_return s (takeIrq_reg14 s), takeIrq_restoreCpsr s valid, jump, accepted, if_neg Bool.false_ne_true, resumed]

end

/-- Settles O46: the step is `takeIrq`, which enters the exception, and SUBS PC, R14, #4 undoes it but for R14_irq, cell 23. -/
theorem irqEntry : Obligations.IrqEntry := by
  unfold Obligations.IrqEntry
  intro s turn due
  refine ⟨takeIrq s, step_irq turn due, takeIrq_enters s,
    fun valid aligned fetchable => ⟨?resumes, fun j notLink => ?cells⟩⟩
  case resumes => exact takeIrq_return s valid aligned fetchable
  case cells =>
    refine (takeIrq_enters s).otherCells j fun link => notLink ?_
    exact (Option.some.inj link).symm

/-! ## BIOS-space steps (R630, R631) -/

section
variable {s : State}

theorem cpuStep_inBios (inBios : s.ia.toNat % 2^28 < 0x4000) : cpuStep s = .next (biosSpaceStep s) :=
  if_pos (decide_eq_true inBios)

theorem biosSpaceStep_trampoline (h : s.ia.toNat % 2^28 = 0x18) :
    biosSpaceStep s = s.branchTo (s.read32 0x03007FFC#32) := if_pos h

theorem biosSpaceStep_stray (h : s.ia.toNat % 2^28 ≠ 0x18) : biosSpaceStep s = s.branchExchange (s.reg 14) := if_neg h

end

/-- What an exchange does to the state: T from bit 0 of the target, the pc, and no other bit of CPSR. -/
theorem branchExchange_spec (s : State) (v : Word) :
    s.branchExchange v = { s with cpsr := (s.branchExchange v).cpsr, r15 := (s.branchExchange v).r15 }
    ∧ (s.branchExchange v).thumb = v.getLsbD 0
    ∧ (∀ k, k ≠ 5 → (s.branchExchange v).cpsr.getLsbD k = s.cpsr.getLsbD k)
    ∧ (s.branchExchange v).r15 = (v &&& 0xFFFFFFFE#32) + (if v.getLsbD 0 then 4 else 8) := by
  have bits (k : Nat) : (s.branchExchange v).cpsr.getLsbD k = if k = 5 then v.getLsbD 0 else s.cpsr.getLsbD k :=
    setBit_getLsbD s.cpsr 5 _ k (by decide)
  exact ⟨rfl, bits 5, fun k other => (bits k).trans (if_neg other), rfl⟩

/-- Settles O47: in BIOS space the CPU step is `biosSpaceStep`, accounted for as every CPU step. -/
theorem biosSpaceSteps : Obligations.BiosSpaceSteps := by
  unfold Obligations.BiosSpaceSteps
  intro s h turn noIrq
  refine ⟨fun trampoline handler => ?jump, fun inBios stray => ?stray⟩
  case jump =>
    subst handler
    have run := cpuStep_inBios (s := s) (by rw [trampoline]; decide)
    rw [biosSpaceStep_trampoline trampoline] at run
    exact accounts_of turn noIrq run
  case stray =>
    have run := cpuStep_inBios inBios
    rw [biosSpaceStep_stray stray] at run
    exact ⟨_, accounts_of turn noIrq run, branchExchange_spec s (s.reg 14)⟩

end Sys2Proof.Machine
end

section
/-! The timers in closed form (spec/61_devices.md R701 to R707) and the two ends of a scanline (R671 to R676). -/

namespace Sys2Proof.Machine

/-! ## The timers -/

/-- Settles O50: the ticks of `timersUpdate_ticked` are the ones given, which `TicksIn` determines. -/
theorem timersCount : Obligations.TimersCount := by
  unfold Obligations.TimersCount
  intro s c ticks given
  obtain ⟨N, ticked, counted, accumulators⟩ := timersUpdate_ticked s c
  obtain rfl : N = ticks := counted.unique given
  refine ⟨_, _, timersUpdate_rest s c, fun n => ?timer, ticked.requests⟩
  case timer =>
    have timer := ticked.timers n
    rw [accumulators n] at timer
    exact timer

/-! ## The start of a scanline (R644 to R647, R675, R687, R772) -/

theorem step_lineStart {s : State} (h : s.phase = .lineStart) : step s = .next (beginLine s) := by
  simp only [step, machineStep, h]

section
variable (s : State)

/-- The state at the start of a scanline before its DMA trigger. -/
def lineEntered : State := updateVcount (if s.line = 0 then reloadAffineRefs s else s) s.line

/-- At most one of the two triggers is due. -/
theorem beginLine_eq : beginLine s =
    { (if s.line < 160 then dmaTrigger (lineEntered s) 2
       else if s.line = 160 then dmaTrigger (lineEntered s) 1 else lineEntered s) with left := 1232, phase := .run } := by
  by_cases visible : s.line < 160
  · simp only [beginLine, if_pos visible, if_neg (show ¬ s.line = 160 by omega)]
    rfl
  · simp only [beginLine, if_neg visible]
    rfl

theorem lineEntered_zero (h : s.line = 0) : lineEntered s = updateVcount (reloadAffineRefs s) s.line :=
  congrArg (updateVcount · s.line) (if_pos h)

theorem lineEntered_other (h : s.line ≠ 0) : lineEntered s = updateVcount s s.line :=
  congrArg (updateVcount · s.line) (if_neg h)

theorem lineEntered_rest : lineEntered s = { s with
    vcount := BitVec.ofNat 8 s.line, lastVcount := BitVec.ofNat 8 s.line,
    dispstat := withDispstatFlags s.dispstat (decide (160 ≤ s.line)) false (vcountMatches s s.line),
    if_ := s.if_ ||| vcountRequests s s.line,
    refX2 := (lineEntered s).refX2, refY2 := (lineEntered s).refY2, refX3 := (lineEntered s).refX3,
    refY3 := (lineEntered s).refY3 } := by
  by_cases first : s.line = 0
  · rw [lineEntered_zero s first]; rfl
  · rw [lineEntered_other s first]; rfl

theorem lineEntered_dispstat (k : Nat) (hk : k < 16) : (lineEntered s).dispstat.getLsbD k =
    if k = 0 then decide (160 ≤ s.line) else if k = 1 then false
    else if k = 2 then decide (s.line = s.dispstat.toNat / 2^8) else s.dispstat.getLsbD k := by
  rw [lineEntered_rest, ← vcountMatch_eq]
  exact dispstatFlags_bit s.dispstat _ _ _ k hk

theorem vcountRequests_bit (k : Nat) : (vcountRequests s s.line).getLsbD k =
    (decide (k = 0 ∧ s.line = 160 ∧ s.lastVcount.toNat ≠ 160 ∧ s.dispstat.getLsbD 3 = true)
      || decide (k = 1 ∧ s.line < 160 ∧ s.dispstat.getLsbD 4 = true)
      || decide (k = 2 ∧ s.line = s.dispstat.toNat / 2^8 ∧ s.dispstat.getLsbD 5 = true)) := by
  have last : (s.lastVcount != 160#8) = decide (s.lastVcount.toNat ≠ 160) := by
    rw [bne, Bool.beq_eq_decide_eq, ← decide_not, decide_eq_decide]
    exact not_congr BitVec.toNat_inj.symm
  rw [vcountRequests, BitVec.getLsbD_or, BitVec.getLsbD_or, request_bit _ _ _ (by decide), request_bit _ _ _ (by decide),
    request_bit _ _ _ (by decide), last, vcountMatch_eq]
  simp only [Bool.and_eq_true, decide_eq_true_eq, and_assoc]

theorem lineEntered_requests (k : Nat) : (lineEntered s).if_.getLsbD k = (s.if_.getLsbD k
    || decide (k = 0 ∧ s.line = 160 ∧ s.lastVcount.toNat ≠ 160 ∧ s.dispstat.getLsbD 3 = true)
    || decide (k = 1 ∧ s.line < 160 ∧ s.dispstat.getLsbD 4 = true)
    || decide (k = 2 ∧ s.line = s.dispstat.toNat / 2^8 ∧ s.dispstat.getLsbD 5 = true)) := by
  have bits : (lineEntered s).if_.getLsbD k = (s.if_.getLsbD k || (vcountRequests s s.line).getLsbD k) := by
    rw [lineEntered_rest]
    exact BitVec.getLsbD_or
  rw [bits, vcountRequests_bit, Bool.or_assoc, Bool.or_assoc, Bool.or_assoc]

end

/-- Settles O53: the state before the trigger is `lineEntered`. -/
theorem scanlineStart : Obligations.ScanlineStart := by
  unfold Obligations.ScanlineStart
  intro s phase
  refine ⟨lineEntered s, ?step, ?rest, lineEntered_dispstat s, lineEntered_requests s,
    fun other => ?kept, fun first => ?reloaded⟩
  case step => rw [step_lineStart phase, beginLine_eq]
  case rest => rw [lineEntered_rest]
  case kept => rw [lineEntered_other s other]; exact ⟨rfl, rfl, rfl, rfl⟩
  case reloaded => rw [lineEntered_zero s first]; exact ⟨rfl, rfl, rfl, rfl⟩

/-! ## The end of a scanline (R651, R671 to R676, R773) -/

theorem step_lineEnd {s : State} (phase : s.phase = .run) (done : s.halted = true ∨ s.left ≤ 0) :
    step s = .next (endLine s) := by
  have notRunning : s.running = false := by
    rcases done with halted | spent
    · rw [State.running, halted]; rfl
    · rw [State.running, decide_eq_false (by omega), Bool.and_false]
  simp only [step, machineStep, phase, notRunning, Bool.false_eq_true, if_false]

/-- A halted CPU spends the rest of the budget, and wakes exactly when an enabled request is pending. -/
theorem haltedRest_wakes {s m : State} (hm : m = if s.halted = true ∧ 0 < s.left then timersUpdate s s.left.toNat else s) :
    haltedRest s = { m with halted := s.halted && !m.pending } := by
  have same : m.halted = s.halted := by
    subst hm
    split
    · rw [timersUpdate_rest]
    · rfl
  cases halted : s.halted with
  | false =>
    have : m = s := by rw [hm, halted, if_neg (fun h => Bool.false_ne_true h.1)]
    subst this
    rw [haltedRest, halted, if_neg Bool.false_ne_true, Bool.false_and, ← halted]
  | true =>
    have : haltedRest s = if m.pending then { m with halted := false } else m := by
      rw [haltedRest, halted, if_pos rfl, hm]
      simp only [halted, true_and]
    rw [this]
    rw [halted] at same
    cases m.pending with
    | false => rw [if_neg Bool.false_ne_true, Bool.not_false, Bool.and_self, ← same]
    | true => rfl

/-- Drawing a row, the advance of the reference points and the next line, in one state. -/
theorem endLine_eq {s u : State} (h : haltedRest s = u) : endLine s = { u with
    framebuffer := if u.line < 160 then (renderScanline u u.line).framebuffer else u.framebuffer,
    refX2 := u.refX2 + (u.ioHalf 0x24).signExtend 32, refY2 := u.refY2 + (u.ioHalf 0x26).signExtend 32,
    refX3 := u.refX3 + (u.ioHalf 0x34).signExtend 32, refY3 := u.refY3 + (u.ioHalf 0x36).signExtend 32,
    frameCount := if u.line < 227 then u.frameCount else u.frameCount + 1,
    phase := if u.line < 227 then .lineStart else .host, line := if u.line < 227 then u.line + 1 else 0 } := by
  rw [endLine, h]
  have drawn : (if u.line < 160 then renderScanline u u.line else u) = { u with
      framebuffer := if u.line < 160 then (renderScanline u u.line).framebuffer else u.framebuffer } := by
    split
    · exact renderScanline_rest u u.line
    · rfl
  simp only [drawn, advance_refs, nextLine]
  by_cases more : u.line < 227
  · simp only [if_pos more]
    rfl
  · simp only [if_neg more]
    rfl

/-- Settles O54: `endLine` of a state whose halted rest is `m`, awake or not. -/
theorem scanlineEnd : Obligations.ScanlineEnd := by
  unfold Obligations.ScanlineEnd
  intro s m phase done hm
  have wakes := haltedRest_wakes hm
  have rest : m = { s with timers := m.timers, if_ := m.if_ } := by
    subst hm
    split
    · exact timersUpdate_rest s _
    · rfl
  have line : m.line = s.line := by rw [rest]
  have ended := endLine_eq wakes
  simp only [line] at ended
  refine ⟨endLine s, step_lineEnd phase done, ?rest, ?wakes, fun hidden => ?hidden,
    ?x2, ?y2, ?x3, ?y3, fun more => ?next, fun last => ?last⟩
  case rest => rw [ended]
  case wakes =>
    have pending : m.pending = true ↔ m.ime.getLsbD 0 = true ∧ m.ie &&& m.if_ ≠ 0#16 := by
      rw [State.pending, Bool.and_eq_true, bne_iff_ne]
    rw [ended, ← pending, Bool.not_eq_true]
    simp only [Bool.and_eq_true, Bool.not_eq_true']
  case hidden => rw [ended]; simp only [if_neg (Nat.not_lt.mpr hidden)]; rw [rest]
  case x2 | y2 | x3 | y3 => rw [ended, rest]; rfl
  case next => rw [ended, rest]; simp only [if_pos more]; trivial
  case last => rw [ended, rest]; simp only [if_neg (Nat.not_lt.mpr last)]; trivial

end Sys2Proof.Machine
end

section
/-! A DMA trigger (spec/61_devices.md R687): the four channels take their turns, channel 0 first. -/

namespace Sys2Proof.Machine

/-- The turn of a channel: an armed one runs, and any other is left alone. -/
theorem dmaTriggerOne_of {s t : State} {timing : Nat} {n : Fin 4} (inv : s.Inv)
    (armed : Armed s n timing → RunsChannel n s t) (idle : ¬ Armed s n timing → t = s) : dmaTriggerOne timing s n = t := by
  have due : ((s.dmaChannel n).enabled = true ∧ (s.dmaChannel n).timing = timing) ↔ Armed s n timing := by
    rw [timing_eq]; rfl
  rw [dmaTriggerOne]
  by_cases h : Armed s n timing
  · rw [if_pos (due.mpr h)]
    exact dmaRunWith_runs _ (inv.dma n) (armed h)
  · rw [if_neg (mt due.mp h), idle h]

/-- Settles O52: each turn leads from one state of the sequence to the next, and keeps the invariant that the next needs. -/
theorem dmaTriggers : Obligations.DmaTriggers := by
  unfold Obligations.DmaTriggers
  rintro s timing u inv _ rfl armed idle
  have turn (n : Fin 4) (here : (u n.castSucc).Inv) :
      dmaTriggerOne timing (u n.castSucc) n = u n.succ ∧ (u n.succ).Inv := by
    have moved := dmaTriggerOne_of here (armed n) (idle n)
    exact ⟨moved, moved ▸ (dmaTriggerOne_effect timing _ n).inv here⟩
  obtain ⟨first, inv1⟩ : dmaTriggerOne timing (u 0) 0 = u 1 ∧ (u 1).Inv := turn 0 inv
  obtain ⟨second, inv2⟩ : dmaTriggerOne timing (u 1) 1 = u 2 ∧ (u 2).Inv := turn 1 inv1
  obtain ⟨third, inv3⟩ : dmaTriggerOne timing (u 2) 2 = u 3 ∧ (u 3).Inv := turn 2 inv2
  have fourth : dmaTriggerOne timing (u 3) 3 = u 4 := (turn 3 inv3).1
  rw [dmaTrigger, first, second, third, fourth]

end Sys2Proof.Machine
end

section
/-! The cartridge (spec/61_devices.md R716, R721, R722): the flash commands, each of which starts and ends in the ready state,
and the GPIO registers. -/

namespace Sys2Proof.Machine

/-! ## The flash commands -/

section
variable {s : State} (ready : s.flashState = .ready)
include ready

theorem flashWrite_program (o : Nat) (v : Byte) :
    flashWrite { s with flashState := .program } o v = { s with mem := Memory.set s.mem (flashKey o) v } := by
  simp only [flashWrite, ← ready]

theorem flashWrite_identify : flashWrite { s with flashState := .got55 } 0x5555 0x90#8 = { s with flashId := true } := by
  simp only [flashWrite, and_self, if_true, ← ready]

theorem flashWrite_leave : flashWrite { s with flashState := .got55 } 0x5555 0xF0#8 = { s with flashId := false } := by
  simp only [flashWrite, show (0xF0#8 : Byte) ≠ 0x90#8 by decide, and_false, and_self, if_false, if_true, ← ready]

theorem flashWrite_wrong {v : Byte} (wrong : v ∉ [0x90#8, 0xF0#8, 0xA0#8, 0x80#8]) :
    flashWrite { s with flashState := .got55 } 0x5555 v = s := by
  simp only [List.mem_cons, List.not_mem_nil, or_false, not_or] at wrong
  obtain ⟨h90, hF0, hA0, h80⟩ := wrong
  simp only [flashWrite, h90, hF0, hA0, h80, and_false, if_false, ← ready]

theorem flashWrite_eraseSector (o : Nat) : flashWrite { s with flashState := .erase55 } o 0x30#8
    = { s with mem := flashErase (o / 0x1000 * 0x1000) 0x1000 s.mem } := by
  simp only [flashWrite, show (0x30#8 : Byte) ≠ 0x10#8 by decide, and_false, if_false, if_true, ← ready]

theorem flashWrite_eraseChip : flashWrite { s with flashState := .erase55 } 0x5555 0x10#8
    = { s with mem := flashErase 0 0x20000 s.mem } := by
  simp only [flashWrite, and_self, if_true, ← ready]

end

/-! ## Reads of the flash array -/

/-- Outside identification a flash byte reads as it is stored. -/
theorem read8_flashArray (s : State) (b : Word) (flash : regionOf b = 14) (array : s.flashId = false) :
    s.read8 b = Memory.get s.mem (flashKey (offsetOf b % 0x20000)) := by
  rw [read8_flash s b flash, flashRead_array s _ array]

theorem read8_programmed (s : State) (o : Nat) (v : Byte) (b : Word) (flash : regionOf b = 14) (array : s.flashId = false) :
    ({ s with mem := Memory.set s.mem (flashKey o) v } : State).read8 b
      = if offsetOf b % 0x20000 = o then v else s.read8 b := by
  rw [read8_flashArray _ b flash (by exact array), read8_flashArray s b flash array, Memory.get_set]
  simp only [flashKey, Nat.add_left_cancel_iff]

theorem read8_erased (s : State) (o n : Nat) (b : Word) (flash : regionOf b = 14) (array : s.flashId = false) :
    ({ s with mem := flashErase o n s.mem } : State).read8 b
      = if o ≤ offsetOf b % 0x20000 ∧ offsetOf b % 0x20000 < o + n then 0xFF#8 else s.read8 b := by
  rw [read8_flashArray _ b flash (by exact array), read8_flashArray s b flash array, flashErase_get]

/-! ## The GPIO registers -/

theorem write16_gpio (s : State) (a : Word) (v : Half) {r : Nat} (at_r : regionOf (align2 a) = 8 ∧ romOffset (align2 a) = r) :
    s.write16 a v = writeGpio s r v := by
  obtain ⟨rom, rfl⟩ := at_r
  rw [State.write16, write16With]
  simp [rom, isRam]

theorem gpioDriven_bit (data dir v : Half) (k : Nat) (hk : k < 16) :
    ((data &&& ~~~dir) ||| (v &&& dir)).getLsbD k = if dir.getLsbD k then v.getLsbD k else data.getLsbD k := by
  rw [BitVec.getLsbD_or, BitVec.getLsbD_and, BitVec.getLsbD_and, BitVec.getLsbD_not, decide_eq_true hk]
  cases dir.getLsbD k <;> simp

/-- A hidden port drives its output bits and the clock does not see them. -/
theorem writeGpioData_hidden (s : State) (v : Half) (hidden : s.gpioCtrl.getLsbD 0 = false) :
    writeGpioData s v = { s with gpioData := (s.gpioData &&& ~~~s.gpioDir) ||| (v &&& s.gpioDir) } :=
  if_neg (by simp only [State.gpioVisible, hidden, Bool.false_eq_true, not_false_eq_true])

/-- An input bit reads what the clock drives, which is SIO only. -/
theorem readGpio_data_bit (s : State) (k : Nat) (hk : k < 16) : (readGpio s 0xC4).getLsbD k =
    if s.gpioDir.getLsbD k then s.gpioData.getLsbD k else decide (k = 1) && s.rtc.sioOut := by
  have sio : (if s.rtc.sioOut then 2#16 else 0#16).getLsbD k = (decide (k = 1) && s.rtc.sioOut) := by
    have one : (2#16).getLsbD k = decide (k = 1) := shift_bit 1 k (by decide)
    cases s.rtc.sioOut <;> simp [one]
  show ((s.gpioData &&& s.gpioDir) ||| ((if s.rtc.sioOut then 2#16 else 0#16) &&& ~~~s.gpioDir)).getLsbD k = _
  rw [BitVec.getLsbD_or, BitVec.getLsbD_and, BitVec.getLsbD_and, BitVec.getLsbD_not, decide_eq_true hk, sio]
  cases s.gpioDir.getLsbD k <;> simp

/-- Settles O58: the commands by what the flash does at their last write, the registers by the lemmas above. -/
theorem cartridgeCommands : Obligations.CartridgeCommands := by
  unfold Obligations.CartridgeCommands
  intro s a v h cmd erase ready flash hcmd herase
  have command (c : Byte) : cmd c = flashWrite { s with flashState := .got55 } 0x5555 c := by
    rw [hcmd, flash_command s c ready]
  have erasing (b : Word) (c : Byte) (flash : regionOf b = 14) :
      erase b c = flashWrite { s with flashState := .erase55 } (offsetOf b % 0x20000) c := by
    rw [herase, hcmd, flash_erase s b c ready flash]
  have program : (cmd 0xA0#8).write8 a v = { s with mem := Memory.set s.mem (flashKey (offsetOf a % 0x20000)) v } := by
    rw [write8_flash _ a v flash, command]
    exact flashWrite_program ready _ v
  have sector := (erasing a 0x30#8 flash).trans (flashWrite_eraseSector ready _)
  have chip : erase 0x0E005555#32 0x10#8 = { s with mem := flashErase 0 0x20000 s.mem } :=
    (erasing 0x0E005555#32 0x10#8 (by decide)).trans (flashWrite_eraseChip ready)
  have identify := (command 0x90#8).trans (flashWrite_identify ready)
  refine ⟨⟨_, program, fun b hb array => ?programmed⟩, identify,
    (command 0xF0#8).trans (flashWrite_leave ready), ?maker, ?device,
    ⟨_, sector, fun b hb array => ?sector⟩, ⟨_, chip, fun b hb array => ?chip⟩,
    fun wrong => (command v).trans (flashWrite_wrong ready wrong),
    write16_gpio s _ h (r := 0xC8) (by decide), write16_gpio s _ h (r := 0xC6) (by decide),
    fun hidden => ?data, fun hidden b hb => ?hidden,
    fun visible => ⟨?dir, ?ctrl, fun k hk => ?pins⟩⟩
  case programmed => rw [program, read8_programmed s _ v b hb array]
  case maker => rw [identify]; rfl
  case device => rw [identify]; rfl
  case sector =>
    rw [sector, read8_erased s _ _ b hb array]
    exact ite_congr (propext (by omega)) (fun _ => rfl) (fun _ => rfl)
  case chip =>
    rw [chip, read8_erased s _ _ b hb array, if_pos ⟨Nat.zero_le _, Nat.mod_lt _ (by decide)⟩]
  case data =>
    exact ⟨_, (write16_gpio s _ h (r := 0xC4) (by decide)).trans (writeGpioData_hidden s h hidden),
      fun k hk => gpioDriven_bit s.gpioData s.gpioDir h k hk⟩
  case hidden =>
    exact read8_rom s b (.inl hb) fun answers => by rw [answers.2.1] at hidden; cases hidden
  case dir => rw [read16_gpio s _ visible (.inr (.inl rfl)), show romOffset 0x080000C6#32 = 0xC6 by decide]; rfl
  case ctrl => rw [read16_gpio s _ visible (.inr (.inr rfl)), show romOffset 0x080000C8#32 = 0xC8 by decide]; rfl
  case pins => rw [read16_gpio s _ visible (.inl rfl), show romOffset 0x080000C4#32 = 0xC4 by decide, readGpio_data_bit s k hk]

end Sys2Proof.Machine
end

section
/-! A transaction with the real-time clock (spec/61_devices.md R716 to R719): what a command leaves in the clock, what the
bytes of date and time are, and the bits read. -/

namespace Sys2Proof.Machine

/-! ## Commands (R718) -/

/-- What command `c` makes of a clock `r` that neither reads nor writes, the buffer apart. -/
structure CommandDone (r t : Rtc) (c : Byte) : Prop where
  command : t.command = r.command
  bufferPos : t.bufferPos = r.bufferPos
  reading : t.reading = true ↔ c = 0x63#8 ∨ c = 0x65#8 ∨ c = 0x67#8
  writing : t.writing = true ↔ c = 0x62#8 ∨ c = 0x64#8 ∨ c = 0x66#8
  status : t.status = if c = 0x60#8 ∨ c = 0x61#8 then 0 else r.status

theorem rtcCommand_done (s : State) (c : Byte) (notReading : s.rtc.reading = false) (notWriting : s.rtc.writing = false) :
    CommandDone s.rtc (rtcCommand s c).rtc c := by
  by_cases known : c ∈ [0x60#8, 0x61#8, 0x62#8, 0x63#8, 0x64#8, 0x65#8, 0x66#8, 0x67#8]
  · simp only [List.mem_cons, List.not_mem_nil, or_false] at known
    obtain rfl | rfl | rfl | rfl | rfl | rfl | rfl | rfl := known <;>
      constructor <;> simp [rtcCommand, notReading, notWriting]
  · rw [rtcCommand_other s c known]
    simp only [List.mem_cons, List.not_mem_nil, or_false, not_or] at known
    constructor <;> simp [notReading, notWriting, known]

/-- A write command leaves the buffer as it is. -/
theorem rtcCommand_write_buffer (s : State) {c : Byte} (write : c = 0x62#8 ∨ c = 0x64#8 ∨ c = 0x66#8) :
    (rtcCommand s c).rtc.buffer = s.rtc.buffer := by
  obtain rfl | rfl | rfl := write <;> rfl

/-! ## Date and time (R719) -/

theorem bcd_in {n lo hi : Nat} (least : lo ≤ n) (most : n ≤ hi) (digits : hi ≤ 99) : BcdIn (bcd n) lo hi :=
  ⟨n, least, most, by rw [bcd, Nat.mod_eq_of_lt (show n / 10 < 10 by omega)]⟩

/-- Each field lies in its range, whatever the host's clock shows. -/
theorem rtcField_in (k i : Nat) : BcdIn (rtcField k i) (rtcRange i).1 ((rtcRange i).1 + (rtcRange i).2 - 1) := by
  have range : 0 < (rtcRange i).2 ∧ (rtcRange i).1 + (rtcRange i).2 ≤ 100 := by
    unfold rtcRange
    split <;> decide
  have raw := Nat.mod_lt (Config.rtcRaw k i) range.1
  exact bcd_in (by omega) (by omega) (by omega)

theorem loadDateTime_fields (b : Vector Byte 8) (k : Nat) : (loadDateTime b k)[0] = rtcField k 0
    ∧ (loadDateTime b k)[1] = rtcField k 1 ∧ (loadDateTime b k)[2] = rtcField k 2 ∧ (loadDateTime b k)[3] = rtcField k 3
    ∧ (loadDateTime b k)[4] = rtcField k 4 ∧ (loadDateTime b k)[5] = rtcField k 5
    ∧ (loadDateTime b k)[6] = rtcField k 6 := by
  simp [loadDateTime]

theorem loadTime_fields (b : Vector Byte 8) (k : Nat) : (loadTime b k)[0] = rtcField k 4
    ∧ (loadTime b k)[1] = rtcField k 5 ∧ (loadTime b k)[2] = rtcField k 6 := by
  simp [loadTime]

theorem loadDateTime_in (b : Vector Byte 8) (k : Nat) : BcdIn (loadDateTime b k)[0] 0 99 ∧ BcdIn (loadDateTime b k)[1] 1 12
    ∧ BcdIn (loadDateTime b k)[2] 1 31 ∧ BcdIn (loadDateTime b k)[3] 0 6 ∧ BcdIn (loadDateTime b k)[4] 0 23
    ∧ BcdIn (loadDateTime b k)[5] 0 59 ∧ BcdIn (loadDateTime b k)[6] 0 59 := by
  obtain ⟨year, month, day, weekday, hour, minute, second⟩ := loadDateTime_fields b k
  rw [year, month, day, weekday, hour, minute, second]
  exact ⟨rtcField_in k 0, rtcField_in k 1, rtcField_in k 2, rtcField_in k 3, rtcField_in k 4, rtcField_in k 5,
    rtcField_in k 6⟩

theorem loadTime_in (b : Vector Byte 8) (k : Nat) :
    BcdIn (loadTime b k)[0] 0 23 ∧ BcdIn (loadTime b k)[1] 0 59 ∧ BcdIn (loadTime b k)[2] 0 59 := by
  obtain ⟨hour, minute, second⟩ := loadTime_fields b k
  rw [hour, minute, second]
  exact ⟨rtcField_in k 4, rtcField_in k 5, rtcField_in k 6⟩

/-! ## The transaction -/

/-- The clock when a transaction's command byte is complete (R717). -/
def commandReceived (r : Rtc) (c : Byte) : Rtc :=
  { rtcStart r with command := c, bitIndex := 7, lastSck := false, lastCs := true }

/-- SIO as an input of a visible port reads what the clock puts out. -/
theorem read16_sio {s : State} (visible : s.gpioCtrl.getLsbD 0 = true) (input : s.gpioDir.getLsbD 1 = false) :
    (s.read16 0x080000C4#32).getLsbD 1 = s.rtc.sioOut := by
  rw [read16_gpio s _ visible (.inl rfl), show romOffset 0x080000C4#32 = 0xC4 by decide, readGpio_data_bit s 1 (by decide),
    input, if_neg Bool.false_ne_true, decide_eq_true rfl, Bool.true_and]

/-- The bits read come out on SIO, once the program has made it an input. -/
theorem rtcClocks_reads {t : State} (visible : t.gpioCtrl.getLsbD 0 = true) (selected : t.rtc.lastCs = true)
    (command : t.rtc.haveCommand = true) (reading : t.rtc.reading = true) (bit0 : t.rtc.bitIndex = 0)
    (byte0 : t.rtc.bufferPos = 0) (k : Fin 64) :
    ((rtcClocks (k.val + 1) (t.write16 0x080000C6#32 5)).read16 0x080000C4#32).getLsbD 1
      = t.rtc.buffer[k.val / 8].getLsbD (k.val % 8) := by
  have input : t.write16 0x080000C6#32 5 = { t with gpioDir := 5 } := write16_gpio t _ 5 (r := 0xC6) (by decide)
  obtain ⟨x, r, clocked, -, -, -, -, -, -, out⟩ := rtcClocks_eq { t with gpioDir := 5 } visible rfl selected command reading
    bit0 byte0 (k.val + 1) (by omega)
  rw [input, clocked]
  exact (read16_sio (by exact visible) (show (5#16).getLsbD 1 = false by decide)).trans (out k.val k.isLt rfl)

/-- Settles O59: after its eight bits the command is `rtcCommand` of a clock just started. -/
theorem realTimeClock : Obligations.RealTimeClock := by
  unfold Obligations.RealTimeClock
  intro s t u c v visible outputs ht hu
  obtain ⟨x, w, hw, sent⟩ := rtcSendCommand_eq s c visible outputs
  have done : CommandDone (commandReceived s.rtc c) w.rtc c := by
    rw [hw]
    exact rtcCommand_done { State.reset with rtc := commandReceived s.rtc c, free := s.free } c rfl rfl
  rw [← ht] at sent
  have clock : t.rtc = { w.rtc with bitIndex := 0, haveCommand := true, lastSck := true, lastCs := true } := by rw [sent]
  have command : t.rtc.command = c := by rw [clock]; exact done.command
  have byte0 : t.rtc.bufferPos = 0 := by rw [clock]; exact done.bufferPos
  have reading : t.rtc.reading = true ↔ c = 0x63#8 ∨ c = 0x65#8 ∨ c = 0x67#8 := by rw [clock]; exact done.reading
  have writing : t.rtc.writing = true ↔ c = 0x62#8 ∨ c = 0x64#8 ∨ c = 0x66#8 := by rw [clock]; exact done.writing
  have status : t.rtc.status = if c = 0x60#8 ∨ c = 0x61#8 then 0 else s.rtc.status := by rw [clock]; exact done.status
  have port : t.gpioCtrl = s.gpioCtrl ∧ t.gpioDir = s.gpioDir := by rw [sent]; exact ⟨rfl, rfl⟩
  have dataByte (write : c = 0x62#8 ∨ c = 0x64#8 ∨ c = 0x66#8) :
      (rtcSendData t v).rtc.status = if c.toNat / 2 * 2 = 0x62 then v else t.rtc.status := by
    have notReading : t.rtc.reading = false := by
      rw [Bool.eq_false_iff, ne_eq, reading]
      obtain rfl | rfl | rfl := write <;> decide
    have cleared : t.rtc.buffer[0] = 0 := by
      have buffer : t.rtc.buffer = Vector.replicate 8 0 := by
        rw [clock, hw]
        exact rtcCommand_write_buffer _ write
      rw [buffer]; rfl
    rw [rtcSendData_status t v (port.1 ▸ visible) (port.2.trans outputs) (by rw [clock]) (by rw [clock]) notReading
      (writing.mpr write) (by rw [clock]) byte0 cleared, command]
  refine ⟨?rest, command, ?received, ?bit0, byte0, reading, writing, status, ?readStatus, ?readDate, ?readTime, ?writeStatus,
    ?writeOther, fun reads k => ?bits⟩
  case rest => rw [sent]
  case received => rw [clock]
  case bit0 => rw [clock]
  case readStatus => rintro rfl; rw [clock, hw]; exact Vector.getElem_set_self _
  case readDate => rintro rfl; rw [clock, hw]; exact loadDateTime_in _ _
  case readTime => rintro rfl; rw [clock, hw]; exact loadTime_in _ _
  case writeStatus => rintro rfl; exact dataByte (.inl rfl)
  case writeOther =>
    intro write
    rw [dataByte (.inr write), status]
    obtain rfl | rfl := write <;> rfl
  case bits =>
    subst hu
    exact rtcClocks_reads (port.1 ▸ visible) (by rw [clock]) (by rw [clock]) reads (by rw [clock]) byte0 k

end Sys2Proof.Machine
end

section
/-! The host between two frames (spec/61_devices.md R731 to R736, spec/70_reset_and_hazards.md R800): a frame started, a byte
written, a reset. -/

namespace Sys2Proof.Machine

theorem step_host {s : State} (phase : s.phase = .host) : step s = .next (hostStep s) := by
  simp only [step, machineStep, phase]

/-! ## A frame started (R733) -/

/-- The keys of a button mask: ten active-low bits. -/
theorem keysPressed_bit (b : Half) (k : Nat) (hk : k < 16) :
    (~~~b &&& 0x03FF#16).getLsbD k = (decide (k < 10) && !b.getLsbD k) := by
  have ten : (0x03FF#16).getLsbD k = decide (k < 10) := by
    have mask : ∀ k : Fin 16, (0x03FF#16).getLsbD k.val = decide (k.val < 10) := by decide
    exact mask ⟨k, hk⟩
  rw [BitVec.getLsbD_and, BitVec.getLsbD_not, decide_eq_true hk, Bool.true_and, ten, Bool.and_comm]

/-- Outside the I/O region the keys, the driver's place and the host's queue are not read. -/
theorem read8_keys (s : State) (keys : Half) (h : List HostCmd) (p : Phase) (l : Nat) (a : Word) (notIo : regionOf a ≠ 4) :
    State.read8 { s with keyinput := keys, host := h, phase := p, line := l } a = s.read8 a := by
  unfold State.read8
  split
  · exact absurd ‹_› notIo
  · rfl
  · rfl

section
variable (s : State) (rest : List HostCmd) (b : Half)

/-- What a frame's start stores in work RAM is one byte (R733). -/
theorem beginFrame_read8 (a : Word) : (beginFrame { s with host := rest } b).read8 a =
    if bufferKey s.romSize a = some 0x0203CF64 then loByte b
    else State.read8 { s with keyinput := ~~~b &&& 0x03FF#16, host := rest, phase := .lineStart, line := 0 } a :=
  read8_setByte { s with keyinput := ~~~b &&& 0x03FF#16, host := rest, phase := .lineStart, line := 0 } 0x0203CF64 (loByte b) a
    (.inl (by decide))

theorem beginFrame_read8_mask {a : Word} (same : sameByte s.romSize a 0x0203CF64#32) :
    (beginFrame { s with host := rest } b).read8 a = b.extractLsb' 0 8 :=
  (beginFrame_read8 s rest b a).trans (if_pos same)

theorem beginFrame_read8_other {a : Word} (notIo : regionOf a ≠ 4) (other : ¬ sameByte s.romSize a 0x0203CF64#32) :
    (beginFrame { s with host := rest } b).read8 a = s.read8 a :=
  ((beginFrame_read8 s rest b a).trans (if_neg other)).trans (read8_keys s _ rest _ _ a notIo)

end

/-! ## A reset (R731, R800) -/

theorem hostReset_read8_boot (s : State) (clock : Nat) (a : Word)
    (boot : regionOf a = 0 ∨ regionOf a = 9 ∨ (regionOf a = 8 ∧ inGpioWindow (romOffset a) = false)) :
    (hostReset s clock).read8 a = s.read8 a :=
  read8_boot a rfl (fun k hk => (hostReset_get s clock k).trans (if_pos (hk.imp id And.left))) boot

theorem hostReset_read8_flash (s : State) (clock : Nat) (a : Word) (flash : regionOf a = 14) (before : s.flashId = false)
    (after : s.params.resetState.flashId = false) : (hostReset s clock).read8 a = s.read8 a := by
  rw [read8_flashArray _ a flash (by exact after), read8_flashArray s a flash before, hostReset_get]
  exact if_pos (.inr (by unfold flashKey; omega))

/-- Settles O60: each is `hostStep` of its command. -/
theorem hostOperations : Obligations.HostOperations := by
  unfold Obligations.HostOperations
  intro s rest phase
  have run := step_host phase
  refine ⟨fun b queued => ?frame, fun a v queued => ?write, fun clock queued => ?reset⟩ <;>
    simp only [hostStep, queued] at run
  case frame =>
    exact ⟨_, run, rfl, keysPressed_bit b, fun _ same => beginFrame_read8_mask s rest b same,
      fun _ notIo other => beginFrame_read8_other s rest b notIo other⟩
  case write => exact run
  case reset =>
    refine ⟨_, run, hostReset_started _ clock, rfl, rfl, rfl, rfl, fun a kept => ?kept⟩
    refine Eq.trans ?_ (read8_driver s a rest s.phase s.line)
    obtain bios | rom | gpio | ⟨flash, before, after⟩ := kept
    · exact hostReset_read8_boot _ clock a (.inl bios)
    · exact hostReset_read8_boot _ clock a (.inr (.inl rom))
    · exact hostReset_read8_boot _ clock a (.inr (.inr gpio))
    · exact hostReset_read8_flash _ clock a flash before after

end Sys2Proof.Machine
end

section
/-! What a background and the sprites show, and the picture of a visible scanline (spec/62_ppu.md). -/

namespace Sys2Proof.Machine

/-! ## Backgrounds and sprites (R740 to R784) -/

theorem bitmapPage_eq (s : State) : s.bitmapPage = (displayReg s 0).toNat / 2^4 % 2 * 0xA000 := by
  have control : s.dispcnt = (displayReg s 0).toNat := ppuReg_eq s 0 (by decide) (by decide) (by decide) rfl
  rw [State.bitmapPage, control]
  rfl

/-- Modes 3, 4 and 5 in the words of the bus (R776 to R778). -/
theorem bitmap3Pixel_shows (s : State) (x line : Nat) :
    bitmap3Pixel s x line = some (vramHalf s ((line * 240 + x) * 2)) := by
  rw [bitmap3Pixel, vramHalf_eq]

theorem bitmap4Pixel_shows {s : State} {x line page i : Nat} (hpage : page = (displayReg s 0).toNat / 2^4 % 2 * 0xA000)
    (hi : i = vramByte s (page + line * 240 + x)) : bitmap4Pixel s x line = shows i (paletteHalf s i) := by
  have low : i < 512 := by rw [hi]; exact Nat.lt_trans (vramByte_lt s _) (by decide)
  rw [bitmap4Pixel, bitmapPage_eq, ← hpage, ← vramByte_eq, ← hi, paletteHalf_eq s i low]
  rfl

theorem bitmap5Pixel_shows {s : State} {x line page : Nat} (hpage : page = (displayReg s 0).toNat / 2^4 % 2 * 0xA000) :
    bitmap5Pixel s x line = if x < 160 ∧ line < 128 then some (vramHalf s (page + (line * 160 + x) * 2)) else none := by
  rw [bitmap5Pixel, bitmapPage_eq, ← hpage, vramHalf_eq]

/-- Settles O55: each kind of background by the law of its pixel. -/
theorem backgroundPixels : Obligations.BackgroundPixels := by
  unfold Obligations.BackgroundPixels
  intro s n x line cnt size cbase sbase hn _ _ hcnt hsize hcb hsb
  refine ⟨?text, ?affine, bitmap3Pixel_shows s x line, ?bitmaps⟩
  case text =>
    intro mx my e px py b i hmx hmy he hpx hpy
    exact textPixel_shows s n x line cnt size cbase sbase mx my e px py b i hn hcnt hsize hcb hsb hmx hmy he hpx hpy
  case affine =>
    intro rx ry fx fy tx ty side mx my i layer hrx hry hfx hfy htx hty hside hmx hmy hi
    exact affinePixel_shows s n x cnt size cbase sbase rx ry fx fy tx ty side mx my i layer hcnt hsize hcb hsb hrx hry
      hfx hfy htx hty hside hmx hmy hi
  case bitmaps =>
    intro page i hpage
    exact ⟨bitmap4Pixel_shows hpage, bitmap5Pixel_shows hpage⟩

/-- A sprite that writes no cell draws nothing, and the other way round (R784). -/
theorem spriteCell_none {s : State} {line q col k : Nat} (hl : line < 160) (hc : col < 240) (hk : k < 128) :
    spriteCell s line q col k = none ↔ ∀ c semi,
      ¬ SpriteDraws s (oamHalf s (8 * k)) (oamHalf s (8 * k + 2)) (oamHalf s (8 * k + 4)) line q col c semi := by
  constructor
  · intro empty c semi drawn
    rw [(spriteCell_draws s line q col k c semi hl hc hk).2 drawn] at empty
    cases empty
  · intro never
    cases cell : spriteCell s line q col k with
    | none => rfl
    | some o => exact absurd ((spriteCell_draws s line q col k o.colour o.semi hl hc hk).1 cell) (never _ _)

/-- Settles O56: a line buffer's cell is the first answer among the sprites (R784). -/
theorem spritePixels : Obligations.SpritePixels := by
  unfold Obligations.SpritePixels
  intro s line q col draws hl hc hdraws c semi
  have cell : ∀ k, k < 128 → (spriteCell s line q col k = some ⟨c, semi⟩ ↔ draws k c semi) := fun k hk =>
    (spriteCell_draws s line q col k c semi hl hc hk).trans (hdraws k c semi).symm
  have empty : ∀ k, k < 128 → (spriteCell s line q col k = none ↔ ∀ c semi, ¬ draws k c semi) := fun k hk => by
    simp only [hdraws, spriteCell_none hl hc hk]
  rw [objCell, findSome_range]
  constructor
  · rintro ⟨k, hk, drawn, before⟩
    exact ⟨k, hk, (cell k hk).1 drawn, fun k' hk' => (empty k' (by omega)).1 (before k' hk')⟩
  · rintro ⟨k, hk, drawn, before⟩
    exact ⟨k, hk, (cell k hk).2 drawn, fun k' hk' => (empty k' (by omega)).2 (before k' hk')⟩

/-! ## A visible scanline (R760, R788 to R796) -/

/-- The end of a visible scanline draws its row, as the state before the halted rest shows it (R675, R760). -/
theorem endLine_framebuffer {s : State} (visible : s.line < 160) :
    (endLine s).framebuffer = renderRow s s.line 240 0 s.framebuffer := by
  have rest := haltedRest_eq s
  have line : (haltedRest s).line = s.line := by rw [rest]
  have before : (haltedRest s).framebuffer = s.framebuffer := by rw [rest]
  have pixel : renderPixel (haltedRest s) = renderPixel s := by rw [rest, renderPixel_rest]
  rw [endLine_eq rfl]
  simp only [line, if_pos visible, renderScanline, before]
  exact renderRow_congr _ _ pixel _ _ _ _

/-- A pixel whose candidates are a background's, where it shows one, and the backdrop, no effect on. -/
theorem renderPixel_plain {s : State} {line x n : Nat} {c : Option Nat} (effect : s.ppuReg 0x050 / 2^6 % 4 = 0)
    (only : candidates s line x = (c.map fun c => { layer := .bg n, colour := c : Pixel }).toList
      ++ [{ layer := .backdrop, colour := s.palette 0 }]) :
    renderPixel s line x = hostPixel (c.getD (s.palette 0)) := by
  rw [renderPixel]
  cases c with
  | none => exact congrArg hostPixel (compose_plain s _ _ _ only effect rfl)
  | some c => exact congrArg hostPixel (compose_plain s _ _ _ only effect rfl)

/-- The layer bits of DISPCNT (R740). -/
theorem layerBit {s : State} {enabled : Nat} (henabled : enabled = (displayReg s 0).toNat / 2^8 % 32) {k : Nat} (hk : k < 5) :
    bit s.dispcnt (8 + k) = decide (enabled / 2^k % 2 = 1) := by
  have control : s.dispcnt = (displayReg s 0).toNat := ppuReg_eq s 0 (by decide) (by decide) (by decide) rfl
  rw [control, bit_eq, decide_eq_decide, henabled]
  match k, hk with
  | 0, _ | 1, _ | 2, _ | 3, _ | 4, _ => simp only [Nat.reducePow, Nat.reduceAdd]; omega

/-- With every layer off a pixel is the backdrop. -/
theorem renderPixel_backdrop {s : State} {line x : Nat} (effect : s.ppuReg 0x050 / 2^6 % 4 = 0)
    (off : (displayReg s 0).toNat / 2^8 % 32 = 0) : renderPixel s line x = hostPixel (s.palette 0) := by
  have bits : ∀ k, k < 5 → bit s.dispcnt (8 + k) = false := fun k hk => by
    rw [layerBit off.symm hk, Nat.zero_div]; rfl
  have dark : ∀ q, bgCandidate s line x q 2 = none := fun q => by
    rw [bgCandidate, bits 2 (by decide)]; rfl
  refine renderPixel_plain (n := 2) (c := none) effect ?_
  rw [candidates_bg2 s line x (bits 4 (by decide)) (bits 0 (by decide)) (bits 1 (by decide)) (bits 3 (by decide))]
  simp only [dark, List.filterMap_cons, List.filterMap_nil, Option.map_none, Option.toList_none]

/-- With BG2 alone a pixel is BG2's, or the backdrop where that shows nothing. -/
theorem renderPixel_bg2 {s : State} {line x : Nat} {kind : BgKind} {c : Option Nat} (effect : s.ppuReg 0x050 / 2^6 % 4 = 0)
    (on : (displayReg s 0).toNat / 2^8 % 32 = 4) (legal : bgKind ((displayReg s 0).toNat % 8) 2 = some kind)
    (shown : bgPixel s kind 2 x line = c) : renderPixel s line x = hostPixel (c.getD (s.palette 0)) := by
  have bits : ∀ k, k < 5 → bit s.dispcnt (8 + k) = decide (4 / 2^k % 2 = 1) := fun k hk => layerBit on.symm hk
  have control : s.dispcnt = (displayReg s 0).toNat := ppuReg_eq s 0 (by decide) (by decide) (by decide) rfl
  refine renderPixel_plain (n := 2) effect ?_
  rw [candidates_bg2 s line x (bits 4 (by decide)) (bits 0 (by decide)) (bits 1 (by decide)) (bits 3 (by decide)),
    candidates_one s line x c (bits 2 (by decide)) kind (by rw [control, fld0]; exact legal) shown]

/-- A transparent colour gives way to the one of index 0. -/
theorem shows_getD (f : Nat → Nat) (i : Nat) : (shows i (f i)).getD (f 0) = f i := by
  unfold shows
  split
  case isTrue clear => rw [clear]; rfl
  case isFalse => rfl

/-- Settles O57: the row drawn, its pixels composed, and the layers taken one at a time. -/
theorem scanlinePicture : Obligations.ScanlinePicture := by
  unfold Obligations.ScanlinePicture
  intro s t host phase done visible stepped hhost
  obtain rfl : endLine s = t := by
    rw [step_lineEnd phase done] at stepped; injection stepped
  obtain rfl : host = hostPixel := funext fun c => (hhost c).trans (hostPixel_eq c).symm
  have drawn : ∀ x, x < 240 → Framebuffer.get (endLine s).framebuffer s.line x = renderPixel s s.line x := fun x hx => by
    rw [Framebuffer.get, endLine_framebuffer visible, renderRow_get, if_pos (by omega), Nat.add_sub_cancel_left]
  refine ⟨fun k outside => ?_, fun x place top layer below out hx first least alone second blended => ?_,
    fun x enabled mode hx plain henabled hmode => ?_⟩
  · rw [endLine_framebuffer visible, renderRow_get, if_neg (by omega)]
  · rw [drawn x hx, compose_blended s s.line x place top out layer below first least alone second blended]
  · have effect : s.ppuReg 0x050 / 2^6 % 4 = 0 := by
      rw [ppuReg_eq s 0x50 (by decide) (by decide) (by decide) rfl]; exact plain
    have backdrop := paletteHalf_eq s 0 (by decide)
    rw [drawn x hx, backdrop]
    subst henabled hmode
    refine ⟨renderPixel_backdrop effect, fun on mode3 => ?_, fun page hpage => ⟨fun on mode4 => ?_, fun on mode5 => ?_⟩⟩
    · rw [renderPixel_bg2 (kind := .bitmap3) effect on (by rw [mode3]; rfl) (bitmap3Pixel_shows s x s.line), Option.getD_some]
    · rw [renderPixel_bg2 (kind := .bitmap4) effect on (by rw [mode4]; rfl) (bitmap4Pixel_shows hpage rfl), ← backdrop,
        shows_getD]
    · rw [renderPixel_bg2 (kind := .bitmap5) effect on (by rw [mode5]; rfl) (bitmap5Pixel_shows hpage)]
      split <;> rfl

end Sys2Proof.Machine
end

section
/-! The fields of a word. Every encoding is a list of fields from bit 0 up, and a number is the one made of them exactly when
`fld` reads each of them back (`packFields_eq_iff`): the encoder packs fields and the decoder reads them, so this one fact
carries both directions of the round trip. -/

namespace Sys2Proof

/-- The number with the given fields, a width and a value each, from bit 0 up. -/
def packFields : List (Nat × Nat) → Nat
  | [] => 0
  | (n, v) :: l => v + 2^n * packFields l

/-- From bit `lo` up, `w` has the fields of the list and nothing above them. -/
def HasFields (w : Nat) : Nat → List (Nat × Nat) → Prop
  | lo, [] => w < 2^lo
  | lo, (n, v) :: l => fld w lo n = v ∧ HasFields w (lo + n) l

theorem fld_one (w i : Nat) : fld w i 1 = 0 ∨ fld w i 1 = 1 := Nat.mod_two_eq_zero_or_one _

@[simp] theorem bit_toNat (w i : Nat) : (bit w i).toNat = fld w i 1 := by
  rcases fld_one w i with h | h <;> rw [bit, h] <;> rfl

@[simp] theorem regAt_val (w lo : Nat) : (regAt w lo).val = fld w lo 4 := Nat.mod_mod _ _

@[simp] theorem lowAt_val (w lo : Nat) : (lowAt w lo).val = fld w lo 3 := Nat.mod_mod _ _

@[simp] theorem bvAt_toNat (w lo n : Nat) : (bvAt w lo n).toNat = fld w lo n := Nat.mod_mod _ _

@[simp] theorem toNat_beq_one (b : Bool) : (b.toNat == 1) = b := by cases b <;> rfl

theorem bit_eq_iff {w i : Nat} {b : Bool} : bit w i = b ↔ fld w i 1 = b.toNat := by
  rw [← bit_toNat]
  cases b <;> cases bit w i <;> decide

theorem regAt_eq_iff {w lo : Nat} {r : Reg} : regAt w lo = r ↔ fld w lo 4 = r.val := by
  rw [← regAt_val, Fin.val_inj]

theorem lowAt_eq_iff {w lo : Nat} {r : LowReg} : lowAt w lo = r ↔ fld w lo 3 = r.val := by
  rw [← lowAt_val, Fin.val_inj]

theorem bvAt_eq_iff {w lo n : Nat} {v : BitVec n} : bvAt w lo n = v ↔ fld w lo n = v.toNat := by
  rw [← bvAt_toNat, BitVec.toNat_inj]

theorem packFields_eq_iff {l : List (Nat × Nat)} (fits : ∀ p ∈ l, p.2 < 2^p.1) (w lo : Nat) :
    packFields l = w / 2^lo ↔ HasFields w lo l := by
  induction l generalizing lo with
  | nil =>
    have positive := Nat.two_pow_pos lo
    rw [packFields, HasFields, eq_comm, Nat.div_eq_zero_iff]
    omega
  | cons p l ih =>
    obtain ⟨n, v⟩ := p
    obtain ⟨fit, fits⟩ := List.forall_mem_cons.mp fits
    rw [packFields, HasFields, ← ih fits, Nat.pow_add, ← Nat.div_div_eq_div_mul, fld, and_comm, eq_comm (a := packFields l),
      Nat.div_mod_unique (Nat.two_pow_pos _), and_iff_left fit]

theorem eq_iff_hasFields {l : List (Nat × Nat)} {x w : Nat} (packed : packFields l = x) (fits : ∀ p ∈ l, p.2 < 2^p.1) :
    x = w ↔ HasFields w 0 l := by
  rw [← packFields_eq_iff fits, packed, Nat.pow_zero, Nat.div_one]

/-- A field inside a field that is known. -/
theorem fld_within {w lo n v : Nat} (field : fld w lo n = v) {i k : Nat} (inside : lo ≤ i ∧ i + k ≤ lo + n) :
    fld w i k = v / 2^(i - lo) % 2^k := by
  obtain ⟨j, rfl⟩ := Nat.exists_eq_add_of_le inside.1
  subst field
  obtain ⟨m, rfl⟩ : ∃ m, n = j + m := Nat.exists_eq_add_of_le (by omega)
  simp only [fld, Nat.add_sub_cancel_left, Nat.pow_add]
  rw [Nat.mod_mul_right_div_self, Nat.mod_mod_of_dvd _ (Nat.pow_dvd_pow 2 (by omega)), Nat.div_div_eq_div_mul]

/-- Two adjacent fields are one. -/
theorem fld_append (w lo m n : Nat) : fld w lo (m + n) = fld w lo m + 2^m * fld w (lo + m) n := by
  simp only [fld, Nat.pow_add, ← Nat.div_div_eq_div_mul, Nat.mod_mul]

theorem fld_lt (w lo n : Nat) : fld w lo n < 2^n := Nat.mod_lt _ (Nat.two_pow_pos _)

theorem fld_fld {w n i k : Nat} (inside : i + k ≤ n) : fld (fld w 0 n) i k = fld w i k :=
  (fld_within (w := w) (lo := 0) (n := n) rfl (by omega)).symm

/-- A field is not `v` when `v` has another value in a part of it. -/
theorem fld_ne {w lo n v i k u : Nat} (field : fld w i k = u) (inside : lo ≤ i ∧ i + k ≤ lo + n)
    (differs : v / 2^(i - lo) % 2^k ≠ u) : fld w lo n ≠ v :=
  fun h => differs ((fld_within h inside).symm.trans field)

/-- `i` is a well-formed instruction of the instruction set `thumb`, and `w` is its word. -/
def IsInstrOf (thumb : Bool) (w : Nat) (i : Instr) : Prop := i.wf = true ∧ i.isThumb = thumb ∧ encodeWord i = w

end Sys2Proof
end

section
/-! Thumb halfwords (spec/30_encoding.md section 5): what each encoding's halfword is made of, then both directions of the
round trip. Each family of instructions has one `_eq_iff`, which both directions use: a halfword is its encoding exactly when
its fields are the operands and the leading code. -/

namespace Sys2Proof

theorem encodeThumb3_eq_iff {k code a : Nat} {rs rd : LowReg} (fits : a < 2^k) (aligned : 2^(6 + k) ∣ code)
    (short : code / 2^(6 + k) < 2^(10 - k)) (w : Nat) : encodeThumb3 code a rs.val rd.val = w ↔
      HasFields w 0 [(3, rd.val), (3, rs.val), (k, a), (10 - k, code / 2^(6 + k))] := by
  obtain ⟨op, rfl⟩ := aligned
  rw [Nat.mul_div_cancel_left _ (Nat.two_pow_pos _)] at short ⊢
  refine eq_iff_hasFields ?_ ?_
  · simp only [packFields, encodeThumb3, Nat.pow_add, Nat.mul_assoc, Nat.mul_zero, Nat.add_zero]
    omega
  · simp [rd.isLt, rs.isLt, fits, short]


theorem encodeThumb8_eq_iff {code : Nat} {rd : LowReg} {imm8 : BitVec 8} (aligned : 2^11 ∣ code) (short : code / 2^11 < 2^5)
    (w : Nat) : encodeThumb8 code rd.val imm8.toNat = w ↔
      HasFields w 0 [(8, imm8.toNat), (3, rd.val), (5, code / 2^11)] := by
  refine eq_iff_hasFields ?_ ?_
  · simp only [packFields, encodeThumb8]; omega
  · simp [rd.isLt, imm8.isLt]; omega

theorem encodeThumbHi_eq_iff {code : Nat} {rs rd : Reg} (aligned : 2^8 ∣ code) (short : code / 2^8 < 2^8) (w : Nat) :
    encodeThumbHi code rs rd = w ↔
      HasFields w 0 [(3, rd.val % 2^3), (4, rs.val), (1, rd.val / 2^3), (8, code / 2^8)] := by
  refine eq_iff_hasFields ?_ ?_
  · simp only [packFields, encodeThumbHi]; omega
  · simp [rs.isLt]; omega

/-- A halfword of a leading code and one field of `k` bits. -/
theorem code_add_eq_iff {k code : Nat} {v : BitVec k} (aligned : 2^k ∣ code) (short : code / 2^k < 2^(16 - k)) (w : Nat) :
    code + v.toNat = w ↔ HasFields w 0 [(k, v.toNat), (16 - k, code / 2^k)] := by
  obtain ⟨op, rfl⟩ := aligned
  rw [Nat.mul_div_cancel_left _ (Nat.two_pow_pos _)] at short ⊢
  refine eq_iff_hasFields ?_ ?_
  · simp only [packFields, Nat.mul_zero, Nat.add_zero]; omega
  · simp [v.isLt, short]

theorem code_add_flag_eq_iff {code : Nat} {flag : Bool} {list : BitVec 8} (aligned : 2^9 ∣ code) (short : code / 2^9 < 2^7)
    (w : Nat) : code + flag.toNat * 2^8 + list.toNat = w ↔
      HasFields w 0 [(8, list.toNat), (1, flag.toNat), (7, code / 2^9)] := by
  refine eq_iff_hasFields ?_ ?_
  · simp only [packFields]; omega
  · simp [list.isLt, flag.toNat_lt]; omega

theorem code_add_reg_eq_iff {code : Nat} {rs : Reg} {sbz : BitVec 3} (aligned : 2^7 ∣ code) (short : code / 2^7 < 2^9)
    (w : Nat) : code + rs.val * 2^3 + sbz.toNat = w ↔
      HasFields w 0 [(3, sbz.toNat), (4, rs.val), (9, code / 2^7)] := by
  refine eq_iff_hasFields ?_ ?_
  · simp only [packFields]; omega
  · simp [sbz.isLt, rs.isLt]; omega

theorem highReg_eq {w : Nat} {rd : Reg} (low : fld w 0 3 = rd.val % 2^3) (high : fld w 7 1 = rd.val / 2^3) :
    Fin.ofNat 16 (fld w 7 1 * 8 + fld w 0 3) = rd := by
  rw [low, high]; ext; simp; omega

theorem decodeThumb_encodeWord {i : Instr} {w : Nat} (thumb : i.isThumb = true) (word : encodeWord i = w) :
    decodeThumb w = i ∧ w < 2^16 := by
  cases i with
  | tLslImm n rs rd | tLsrImm n rs rd | tAsrImm n rs rd =>
    obtain ⟨hrd, hrs, hn, hop, hw⟩ := (encodeThumb3_eq_iff (k := 5) n.isLt (by decide) (by decide) w).1 word
    exact ⟨by simp [decodeThumb, decodeThumbShift, fld_within hop, lowAt_eq_iff, bvAt_eq_iff, hrd, hrs, hn], hw⟩
  | tAddReg rn rs rd | tSubReg rn rs rd =>
    obtain ⟨hrd, hrs, hrn, hop, hw⟩ := (encodeThumb3_eq_iff (k := 3) rn.isLt (by decide) (by decide) w).1 word
    exact ⟨by simp [decodeThumb, decodeThumbShift, fld_within hop, lowAt_eq_iff, hrd, hrs, hrn], hw⟩
  | tAddImm3 n rs rd | tSubImm3 n rs rd =>
    obtain ⟨hrd, hrs, hn, hop, hw⟩ := (encodeThumb3_eq_iff (k := 3) n.isLt (by decide) (by decide) w).1 word
    exact ⟨by simp [decodeThumb, decodeThumbShift, fld_within hop, lowAt_eq_iff, bvAt_eq_iff, hrd, hrs, hn], hw⟩
  | tMovImm8 rd n | tCmpImm8 rd n | tAddImm8 rd n | tSubImm8 rd n =>
    obtain ⟨hn, hrd, hop, hw⟩ := (encodeThumb8_eq_iff (by decide) (by decide) w).1 word
    exact ⟨by simp [decodeThumb, decodeThumbImm8, fld_within hop, lowAt_eq_iff, bvAt_eq_iff, hrd, hn], hw⟩
  | tAnd rs rd | tEor rs rd | tLslReg rs rd | tLsrReg rs rd | tAsrReg rs rd | tAdc rs rd | tSbc rs rd | tRorReg rs rd
  | tTst rs rd | tNeg rs rd | tCmpReg rs rd | tCmn rs rd | tOrr rs rd | tMul rs rd | tBic rs rd | tMvn rs rd =>
    obtain ⟨hrd, hrs, halu, hop, hw⟩ := (encodeThumb3_eq_iff (k := 4) (by decide) (by decide) (by decide) w).1 word
    exact ⟨by simp [decodeThumb, decodeThumbAlu, fld_within hop, halu, lowAt_eq_iff, hrd, hrs], hw⟩
  | tAddHi rs rd | tCmpHi rs rd | tMovHi rs rd =>
    obtain ⟨hlow, hrs, hhigh, hop, hw⟩ := (encodeThumbHi_eq_iff (by decide) (by decide) w).1 word
    have format : decodeThumb w = decodeThumbHigh w := by simp [decodeThumb, fld_within hop]
    refine ⟨format.trans ?_, hw⟩
    rw [decodeThumbHigh, highReg_eq hlow hhigh]
    simp [fld_within hop, regAt_eq_iff, hrs]
  | tBx rs sbz | tBlxReg rs sbz =>
    obtain ⟨hsbz, hrs, hop, hw⟩ := (code_add_reg_eq_iff (by decide) (by decide) w).1 word
    exact ⟨by simp [decodeThumb, decodeThumbHigh, bit, fld_within hop, regAt_eq_iff, bvAt_eq_iff, hrs, hsbz], hw⟩
  | tLdrPc rd n =>
    obtain ⟨hn, hrd, hop, hw⟩ := (encodeThumb8_eq_iff (by decide) (by decide) w).1 word
    refine ⟨?_, hw⟩
    rcases fld_one w 10 with low | low
    all_goals simp [decodeThumb, fld_append w 10 1 1, low, fld_within hop, lowAt_eq_iff, bvAt_eq_iff, hrd, hn]
  | tStrSp rd n | tLdrSp rd n | tAddPc rd n | tAddSp rd n | tStmia rd n | tLdmia rd n =>
    obtain ⟨hn, hrd, hop, hw⟩ := (encodeThumb8_eq_iff (by decide) (by decide) w).1 word
    exact ⟨by simp [decodeThumb, bit, fld_within hop, lowAt_eq_iff, bvAt_eq_iff, hrd, hn], hw⟩
  | tStrReg ro rb rd | tStrbReg ro rb rd | tLdrReg ro rb rd | tLdrbReg ro rb rd | tStrhReg ro rb rd | tLdrhReg ro rb rd
  | tLdsbReg ro rb rd | tLdshReg ro rb rd =>
    obtain ⟨hrd, hrb, hro, hop, hw⟩ := (encodeThumb3_eq_iff (k := 3) ro.isLt (by decide) (by decide) w).1 word
    exact ⟨by simp [decodeThumb, decodeThumbRegOffset, fld_within hop, lowAt_eq_iff, hrd, hrb, hro], hw⟩
  | tStrImm n rb rd | tLdrImm n rb rd | tStrbImm n rb rd | tLdrbImm n rb rd | tStrhImm n rb rd | tLdrhImm n rb rd =>
    obtain ⟨hrd, hrb, hn, hop, hw⟩ := (encodeThumb3_eq_iff (k := 5) n.isLt (by decide) (by decide) w).1 word
    exact ⟨by simp [decodeThumb, decodeThumbImmOffset, bit, fld_within hop, lowAt_eq_iff, bvAt_eq_iff, hrd, hrb, hn], hw⟩
  | tPush flag list | tPop flag list =>
    obtain ⟨hlist, hflag, hop, hw⟩ := (code_add_flag_eq_iff (by decide) (by decide) w).1 word
    have kind : fld w 8 4 = flag.toNat + 2 * fld w 9 3 := hflag ▸ fld_append w 8 1 3
    refine ⟨?_, hw⟩
    cases flag
    all_goals simp [decodeThumb, decodeThumbMisc, kind, fld_within hop, bvAt_eq_iff, hlist]
  | tIncSp v | tDecSp v | tUndefB1 v =>
    obtain ⟨hv, hop, hw⟩ := (code_add_eq_iff (by decide) (by decide) w).1 word
    exact ⟨by simp [decodeThumb, decodeThumbMisc, bit, fld_within hop, bvAt_eq_iff, hv], hw⟩
  | tUndefB2 v | tUndefB6 v | tUndefBE v =>
    obtain ⟨hv, hop, hw⟩ := (code_add_eq_iff (by decide) (by decide) w).1 word
    refine ⟨?_, hw⟩
    rcases fld_one w 8 with low | low
    all_goals simp [decodeThumb, decodeThumbMisc, fld_append w 8 1 3, low, fld_within hop, bvAt_eq_iff, hv]
  | tUndefB8 v =>
    obtain ⟨hv, hop, hw⟩ := (code_add_eq_iff (by decide) (by decide) w).1 word
    refine ⟨?_, hw⟩
    rcases fld_one w 8 with low | low <;> rcases fld_one w 9 with high | high
    all_goals
      simp [decodeThumb, decodeThumbMisc, fld_append w 8 1 3, fld_append w 9 1 2, low, high, fld_within hop, bvAt_eq_iff, hv]
  | tBeq v | tBne v | tBcs v | tBcc v | tBmi v | tBpl v | tBvs v | tBvc v | tBhi v | tBls v | tBge v | tBlt v | tBgt v
  | tBle v | tUndefCond v | tSwi v =>
    obtain ⟨hv, hop, hw⟩ := (code_add_eq_iff (by decide) (by decide) w).1 word
    exact ⟨by simp [decodeThumb, decodeThumbCond, fld_within hop, bvAt_eq_iff, hv], hw⟩
  | tB v | tBlxLow v | tBlHigh v | tBlLow v =>
    obtain ⟨hv, hop, hw⟩ := (code_add_eq_iff (by decide) (by decide) w).1 word
    exact ⟨by simp [decodeThumb, bit, fld_within hop, bvAt_eq_iff, hv], hw⟩
  | _ => cases thumb

/-! ## Every halfword is the encoding of what it decodes to

At each leaf of the decoder the operands are fields of the halfword by definition; what is left to show is that the tests passed
on the way fix the leading code. -/

section
variable {w : Nat} (short : w < 2^16)
include short

theorem isInstrOf_decodeThumbShift (format : fld w 13 3 = 0) : IsInstrOf true w (decodeThumbShift w) := by
  unfold decodeThumbShift
  split
  case h_4 =>
    split
    all_goals
      refine ⟨rfl, rfl, (encodeThumb3_eq_iff (k := 3) (by omega) (by decide) (by decide) w).2 ?_⟩
      simp [HasFields, fld] at *
      omega
  all_goals
    refine ⟨rfl, rfl, (encodeThumb3_eq_iff (k := 5) (by omega) (by decide) (by decide) w).2 ?_⟩
    simp [HasFields, fld] at *
    omega

theorem isInstrOf_decodeThumbImm8 (format : fld w 13 3 = 1) : IsInstrOf true w (decodeThumbImm8 w) := by
  unfold decodeThumbImm8
  split
  all_goals
    refine ⟨rfl, rfl, (encodeThumb8_eq_iff (by decide) (by decide) w).2 ?_⟩
    simp [HasFields, fld] at *
    omega

theorem isInstrOf_decodeThumbAlu (format : fld w 10 6 = 16) : IsInstrOf true w (decodeThumbAlu w) := by
  unfold decodeThumbAlu
  dsimp only
  split
  all_goals
    refine ⟨rfl, rfl, (encodeThumb3_eq_iff (k := 4) (by decide) (by decide) (by decide) w).2 ?_⟩
    simp [HasFields, fld] at *
    omega

theorem isInstrOf_decodeThumbHigh (format : fld w 10 6 = 17) : IsInstrOf true w (decodeThumbHigh w) := by
  unfold decodeThumbHigh
  dsimp only
  split
  case h_4 =>
    split
    all_goals
      refine ⟨rfl, rfl, (code_add_reg_eq_iff (by decide) (by decide) w).2 ?_⟩
      simp [HasFields, bit_eq_iff, fld] at *
      omega
  all_goals
    refine ⟨rfl, rfl, (encodeThumbHi_eq_iff (by decide) (by decide) w).2 ?_⟩
    simp only [HasFields, Fin.val_ofNat]
    simp [fld] at *
    omega

theorem isInstrOf_decodeThumbRegOffset (format : fld w 12 4 = 5) : IsInstrOf true w (decodeThumbRegOffset w) := by
  unfold decodeThumbRegOffset
  dsimp only
  split
  all_goals
    refine ⟨rfl, rfl, (encodeThumb3_eq_iff (k := 3) (by omega) (by decide) (by decide) w).2 ?_⟩
    simp [HasFields, fld] at *
    omega

theorem isInstrOf_decodeThumbImmOffset (format : fld w 13 3 = 3) : IsInstrOf true w (decodeThumbImmOffset w) := by
  unfold decodeThumbImmOffset
  split
  all_goals
    refine ⟨rfl, rfl, (encodeThumb3_eq_iff (k := 5) (by omega) (by decide) (by decide) w).2 ?_⟩
    simp [HasFields, fld] at *
    omega

theorem isInstrOf_decodeThumbCond (format : fld w 12 4 = 13) : IsInstrOf true w (decodeThumbCond w) := by
  unfold decodeThumbCond
  dsimp only
  split
  all_goals
    refine ⟨rfl, rfl, (code_add_eq_iff (by decide) (by decide) w).2 ?_⟩
    simp [HasFields, fld] at *
    omega

theorem isInstrOf_decodeThumbMisc (format : fld w 12 4 = 11) : IsInstrOf true w (decodeThumbMisc w) := by
  unfold decodeThumbMisc
  split
  case h_1 =>
    split
    all_goals
      refine ⟨rfl, rfl, (code_add_eq_iff (by decide) (by decide) w).2 ?_⟩
      simp [HasFields, bit_eq_iff, fld] at *
      omega
  case h_5 | h_6 | h_9 | h_10 =>
    refine ⟨rfl, rfl, (code_add_flag_eq_iff (by decide) (by decide) w).2 ?_⟩
    simp [HasFields, fld] at *
    omega
  all_goals
    refine ⟨rfl, rfl, (code_add_eq_iff (by decide) (by decide) w).2 ?_⟩
    simp [HasFields, fld] at *
    omega

theorem isInstrOf_decodeThumb : IsInstrOf true w (decodeThumb w) := by
  unfold decodeThumb
  split
  case h_1 | h_2 => exact isInstrOf_decodeThumbShift short (by unfold fld at *; omega)
  case h_3 | h_4 => exact isInstrOf_decodeThumbImm8 short (by unfold fld at *; omega)
  case h_5 =>
    split
    case h_1 => exact isInstrOf_decodeThumbAlu short (by unfold fld at *; omega)
    case h_2 => exact isInstrOf_decodeThumbHigh short (by unfold fld at *; omega)
    case h_3 =>
      refine ⟨rfl, rfl, (encodeThumb8_eq_iff (by decide) (by decide) w).2 ?_⟩
      simp [HasFields, fld] at *
      omega
  case h_6 => exact isInstrOf_decodeThumbRegOffset short ‹_›
  case h_7 | h_8 => exact isInstrOf_decodeThumbImmOffset short (by unfold fld at *; omega)
  case h_9 =>
    split
    all_goals
      refine ⟨rfl, rfl, (encodeThumb3_eq_iff (k := 5) (by omega) (by decide) (by decide) w).2 ?_⟩
      simp [HasFields, bit_eq_iff, fld] at *
      omega
  case h_10 | h_11 | h_13 =>
    split
    all_goals
      refine ⟨rfl, rfl, (encodeThumb8_eq_iff (by decide) (by decide) w).2 ?_⟩
      simp [HasFields, bit_eq_iff, fld] at *
      omega
  case h_12 => exact isInstrOf_decodeThumbMisc short ‹_›
  case h_14 => exact isInstrOf_decodeThumbCond short ‹_›
  case h_15 | h_16 =>
    split
    all_goals
      refine ⟨rfl, rfl, (code_add_eq_iff (by decide) (by decide) w).2 ?_⟩
      simp [HasFields, bit_eq_iff, fld] at *
      omega

end

end Sys2Proof
end

section
/-! The fields of an ARM word (spec/30_encoding.md section 3): one `_eq_iff` for each family, as for Thumb. Bits 31:28 are the
condition; operand 2 and the offset of a single transfer have bit 25 and bits 11:0 for themselves. -/

namespace Sys2Proof

theorem Cond.code_lt (c : Cond) : c.code < 15 := by cases c <;> decide

theorem Cond.ofCode_code (c : Cond) : Cond.ofCode c.code = some c := by cases c <;> rfl

theorem Cond.code_ofCode {n : Nat} {c : Cond} (h : Cond.ofCode n = some c) : c.code = n := by
  unfold Cond.ofCode at h
  split at h <;> cases h <;> rfl

theorem Cond.ofCode_eq_none {n : Nat} (small : n < 16) (h : Cond.ofCode n = none) : n = 15 := by
  unfold Cond.ofCode at h
  split at h
  case h_16 => simp at *; omega
  all_goals cases h

theorem ShiftTy.code_lt (ty : ShiftTy) : ty.code < 4 := by cases ty <;> decide

theorem ShiftTy.ofCode_code (ty : ShiftTy) : ShiftTy.ofCode ty.code = ty := by cases ty <;> rfl

theorem ShiftTy.code_ofCode {n : Nat} (small : n < 4) : (ShiftTy.ofCode n).code = n := by
  unfold ShiftTy.ofCode
  split
  case h_4 => simp [ShiftTy.code] at *; omega
  all_goals rfl

theorem decodeArm_of_code {w : Nat} {c : Cond} (code : fld w 28 4 = c.code) : decodeArm w = decodeArmClass c w := by
  rw [decodeArm, code, Cond.ofCode_code]

/-- Bit 25 of operand 2. -/
def Op2.form : Op2 → Nat
  | .imm .. => 1
  | _ => 0

/-- The fields of bits 11:0 of operand 2 (R161, R162). -/
def Op2.fields : Op2 → List (Nat × Nat)
  | .imm rotate imm8 => [(8, imm8.toNat), (4, rotate.toNat)]
  | .shiftImm rm ty amount => [(4, rm.val), (1, 0), (2, ty.code), (5, amount.toNat)]
  | .shiftReg rm ty rs => [(4, rm.val), (1, 1), (2, ty.code), (1, 0), (4, rs.val)]

theorem Op2.encode_eq (o : Op2) : o.encode = o.form * 2^25 + packFields o.fields := by
  cases o <;> simp only [Op2.form, Op2.fields, Op2.encode, packFields] <;> omega

theorem Op2.form_lt (o : Op2) : o.form < 2 := by cases o <;> simp [Op2.form]

theorem Op2.packFields_eq_iff (o : Op2) (x : Nat) : packFields o.fields = x ↔ HasFields x 0 o.fields := by
  refine eq_iff_hasFields rfl ?_
  cases o with
  | imm rotate imm8 => simp [Op2.fields, rotate.isLt, imm8.isLt]
  | shiftImm rm ty amount => simp [Op2.fields, ty.code_lt, amount.isLt]
  | shiftReg rm ty rs => simp [Op2.fields, ty.code_lt]

theorem Op2.packFields_lt (o : Op2) : packFields o.fields < 2^12 := by
  have h := (o.packFields_eq_iff _).1 rfl
  cases o with
  | imm => obtain ⟨_, _, h⟩ := h; exact h
  | shiftImm => obtain ⟨_, _, _, _, h⟩ := h; exact h
  | shiftReg => obtain ⟨_, _, _, _, _, h⟩ := h; exact h

theorem decodeOp2_of_fields {w : Nat} {o : Op2} (form : fld w 25 1 = o.form) (low : fld w 0 12 = packFields o.fields) :
    decodeOp2 w = o := by
  have h := (o.packFields_eq_iff _).1 low.symm
  cases o with
  | imm rotate imm8 =>
    obtain ⟨himm, hrot, -⟩ := h
    rw [fld_fld (by decide)] at himm hrot
    simp [decodeOp2, bit, form, bvAt_eq_iff, Op2.form, himm, hrot]
  | shiftImm rm ty amount =>
    obtain ⟨hrm, h4, hty, hamount, -⟩ := h
    rw [fld_fld (by decide)] at hrm h4 hty hamount
    simp [decodeOp2, bit, form, bvAt_eq_iff, regAt_eq_iff, Op2.form, ShiftTy.ofCode_code, hrm, h4, hty, hamount]
  | shiftReg rm ty rs =>
    obtain ⟨hrm, h4, hty, -, hrs, -⟩ := h
    rw [fld_fld (by decide)] at hrm h4 hty hrs
    simp [decodeOp2, bit, form, regAt_eq_iff, Op2.form, ShiftTy.ofCode_code, hrm, h4, hty, hrs]

theorem form_decodeOp2 (w : Nat) : (decodeOp2 w).form = fld w 25 1 := by
  unfold decodeOp2
  split
  case isTrue immediate => exact (bit_eq_iff.1 immediate).symm
  case isFalse register =>
    rw [bit_eq_iff.1 (eq_false_of_ne_true register)]
    split <;> rfl

/-- Bits 7 and 4 of a register operand are not both set: those words are of rows 3a to 5u. -/
theorem packFields_decodeOp2 {w : Nat} (legal : fld w 25 1 = 0 → ¬ (fld w 7 1 = 1 ∧ fld w 4 1 = 1)) :
    packFields (decodeOp2 w).fields = fld w 0 12 := by
  refine (Op2.packFields_eq_iff _ _).2 ?_
  have low := fld_lt w 0 12
  have shift := ShiftTy.code_ofCode (fld_lt w 5 2)
  unfold decodeOp2
  split
  case isTrue => simp [Op2.fields, HasFields, fld_fld]; omega
  case isFalse register =>
    have register := bit_eq_iff.1 (eq_false_of_ne_true register)
    have legal := legal register
    split
    case isTrue byRegister =>
      have bit4 := bit_eq_iff.1 byRegister
      have bit7 := fld_one w 7
      simp [Op2.fields, HasFields, fld_fld, shift] at *; omega
    case isFalse byAmount =>
      have bit4 := bit_eq_iff.1 (eq_false_of_ne_true byAmount)
      simp [Op2.fields, HasFields, fld_fld, shift] at *; omega

/-- Bit 25 of a single data transfer. -/
def Offset.form : Offset → Nat
  | .imm _ => 0
  | .reg .. => 1

/-- The fields of bits 11:0 of a single data transfer (R163). -/
def Offset.fields : Offset → List (Nat × Nat)
  | .imm imm12 => [(12, imm12.toNat)]
  | .reg rm ty amount => [(4, rm.val), (1, 0), (2, ty.code), (5, amount.toNat)]

theorem Offset.encode_eq (o : Offset) : o.encode = o.form * 2^25 + packFields o.fields := by
  cases o <;> simp only [Offset.form, Offset.fields, Offset.encode, packFields] <;> omega

theorem Offset.form_lt (o : Offset) : o.form < 2 := by cases o <;> simp [Offset.form]

theorem Offset.packFields_eq_iff (o : Offset) (x : Nat) : packFields o.fields = x ↔ HasFields x 0 o.fields := by
  refine eq_iff_hasFields rfl ?_
  cases o with
  | imm imm12 => simp [Offset.fields, imm12.isLt]
  | reg rm ty amount => simp [Offset.fields, ty.code_lt, amount.isLt]

theorem Offset.packFields_lt (o : Offset) : packFields o.fields < 2^12 := by
  have h := (o.packFields_eq_iff _).1 rfl
  cases o with
  | imm => obtain ⟨_, h⟩ := h; exact h
  | reg => obtain ⟨_, _, _, _, h⟩ := h; exact h

theorem decodeOffset_of_fields {w : Nat} {o : Offset} (form : fld w 25 1 = o.form) (low : fld w 0 12 = packFields o.fields) :
    decodeOffset w = o := by
  have h := (o.packFields_eq_iff _).1 low.symm
  cases o with
  | imm imm12 =>
    obtain ⟨himm, -⟩ := h
    rw [fld_fld (by decide)] at himm
    simp [decodeOffset, bit, form, bvAt_eq_iff, Offset.form, himm]
  | reg rm ty amount =>
    obtain ⟨hrm, -, hty, hamount, -⟩ := h
    rw [fld_fld (by decide)] at hrm hty hamount
    simp [decodeOffset, bit, form, bvAt_eq_iff, regAt_eq_iff, Offset.form, ShiftTy.ofCode_code, hrm, hty, hamount]

theorem form_decodeOffset (w : Nat) : (decodeOffset w).form = fld w 25 1 := by
  unfold decodeOffset
  split
  case isTrue register => exact (bit_eq_iff.1 register).symm
  case isFalse immediate => exact (bit_eq_iff.1 (eq_false_of_ne_true immediate)).symm

/-- Bit 4 of a register offset is clear: with it set the word is row 7u. -/
theorem packFields_decodeOffset {w : Nat} (legal : fld w 25 1 = 1 → fld w 4 1 = 0) :
    packFields (decodeOffset w).fields = fld w 0 12 := by
  refine (Offset.packFields_eq_iff _ _).2 ?_
  have low := fld_lt w 0 12
  have shift := ShiftTy.code_ofCode (fld_lt w 5 2)
  unfold decodeOffset
  split
  case isTrue register =>
    have bit4 := legal (bit_eq_iff.1 register)
    simp [Offset.fields, HasFields, fld_fld, shift] at *; omega
  case isFalse => simp [Offset.fields, HasFields, fld_fld]; omega

section
variable {c : Cond} {s p u wb n : Bool} {rn rd rm : Reg}

theorem encodeMul_eq_iff {kind r19 r15 r11 r3 : Nat} (hk : kind < 2^7)
    (fits : r19 < 2^4 ∧ r15 < 2^4 ∧ r11 < 2^4 ∧ r3 < 2^4) (w : Nat) : encodeMul c kind s r19 r15 r11 r3 = w ↔
      HasFields w 0 [(4, r3), (4, 9), (4, r11), (4, r15), (4, r19), (1, s.toNat), (7, kind), (4, c.code)] := by
  have code := c.code_lt
  refine eq_iff_hasFields ?_ ?_
  · simp only [packFields, encodeMul]; omega
  · simp [s.toNat_lt]; omega

theorem encodeHalfReg_eq_iff {lsh : Nat} (lshBits : lsh = lsh / 2^20 * 2^20 + lsh / 2^5 % 2^2 * 2^5) (short : lsh / 2^20 < 2)
    (w : Nat) : encodeHalfReg c lsh p u wb rn.val rd.val rm.val = w ↔
      HasFields w 0 [(4, rm.val), (4, 9 + 2 * (lsh / 2^5 % 2^2)), (4, 0), (4, rd.val), (4, rn.val), (1, lsh / 2^20),
        (1, wb.toNat), (1, 0), (1, u.toNat), (1, p.toNat), (3, 0), (4, c.code)] := by
  have code := c.code_lt
  refine eq_iff_hasFields ?_ ?_
  · generalize lsh / 2^20 = l, lsh / 2^5 % 2^2 = sh at *
    subst lshBits
    simp only [packFields, encodeHalfReg, encodeAddr]; omega
  · simp [wb.toNat_lt, u.toNat_lt, p.toNat_lt]; omega

theorem encodeHalfImm_eq_iff {lsh : Nat} {imm8 : BitVec 8} (lshBits : lsh = lsh / 2^20 * 2^20 + lsh / 2^5 % 2^2 * 2^5)
    (short : lsh / 2^20 < 2) (w : Nat) : encodeHalfImm c lsh p u wb rn.val rd.val imm8.toNat = w ↔
      HasFields w 0 [(4, imm8.toNat % 2^4), (4, 9 + 2 * (lsh / 2^5 % 2^2)), (4, imm8.toNat / 2^4), (4, rd.val), (4, rn.val),
        (1, lsh / 2^20), (1, wb.toNat), (1, 1), (1, u.toNat), (1, p.toNat), (3, 0), (4, c.code)] := by
  have code := c.code_lt
  refine eq_iff_hasFields ?_ ?_
  · simp only [packFields, encodeHalfImm, encodeAddr]
    generalize lsh / 2^20 = l, lsh / 2^5 % 2^2 = sh, imm8.toNat / 2^4 = high, imm8.toNat % 2^4 = low at *
    subst lshBits
    omega
  · simp [wb.toNat_lt, u.toNat_lt, p.toNat_lt]; omega

theorem encodeDp_eq_iff {opcode r19 r15 : Nat} {o : Op2} (ho : opcode < 2^4) (fits : r19 < 2^4 ∧ r15 < 2^4) (w : Nat) :
    encodeDp c opcode s r19 r15 o = w ↔
      HasFields w 0 [(12, packFields o.fields), (4, r15), (4, r19), (1, s.toNat), (4, opcode), (1, o.form), (2, 0),
        (4, c.code)] := by
  have code := c.code_lt
  have := o.form_lt
  have := o.packFields_lt
  refine eq_iff_hasFields ?_ ?_
  · rw [encodeDp, o.encode_eq]; simp only [packFields]; omega
  · simp [s.toNat_lt]; omega

theorem encodeTransfer_eq_iff {bl : Nat} {o : Offset} (blBits : bl = bl / 2^22 * 2^22 + bl / 2^20 % 2 * 2^20)
    (short : bl / 2^22 < 2) (w : Nat) : encodeTransfer c bl p u wb rn.val rd.val o = w ↔
      HasFields w 0 [(12, packFields o.fields), (4, rd.val), (4, rn.val), (1, bl / 2^20 % 2), (1, wb.toNat), (1, bl / 2^22),
        (1, u.toNat), (1, p.toNat), (1, o.form), (2, 1), (4, c.code)] := by
  have code := c.code_lt
  have := o.form_lt
  have := o.packFields_lt
  refine eq_iff_hasFields ?_ ?_
  · generalize bl / 2^20 % 2 = l, bl / 2^22 = b at *
    subst blBits
    rw [encodeTransfer, o.encode_eq]; simp only [packFields, encodeAddr]; omega
  · simp [wb.toNat_lt, u.toNat_lt, p.toNat_lt]; omega

theorem encodeBlock_eq_iff {sl : Nat} {list : BitVec 16} (slBits : sl = sl / 2^22 * 2^22 + sl / 2^20 % 2 * 2^20)
    (short : sl / 2^22 < 2) (w : Nat) : encodeBlock c sl p u wb rn.val list.toNat = w ↔
      HasFields w 0 [(16, list.toNat), (4, rn.val), (1, sl / 2^20 % 2), (1, wb.toNat), (1, sl / 2^22), (1, u.toNat),
        (1, p.toNat), (3, 4), (4, c.code)] := by
  have code := c.code_lt
  refine eq_iff_hasFields ?_ ?_
  · generalize sl / 2^20 % 2 = l, sl / 2^22 = b at *
    subst slBits
    simp only [packFields, encodeBlock]; omega
  · simp [wb.toNat_lt, u.toNat_lt, p.toNat_lt]; omega

theorem encodeLdc_eq_iff {l : Nat} {crd cp : BitVec 4} {offset8 : BitVec 8} (lBit : l = l / 2^20 * 2^20) (short : l / 2^20 < 2)
    (w : Nat) : encodeLdc c l p u n wb rn.val crd.toNat cp.toNat offset8.toNat = w ↔
      HasFields w 0 [(8, offset8.toNat), (4, cp.toNat), (4, crd.toNat), (4, rn.val), (1, l / 2^20), (1, wb.toNat),
        (1, n.toNat), (1, u.toNat), (1, p.toNat), (3, 6), (4, c.code)] := by
  have code := c.code_lt
  refine eq_iff_hasFields ?_ ?_
  · generalize l / 2^20 = bit20 at *
    subst lBit
    simp only [packFields, encodeLdc]; omega
  · simp [wb.toNat_lt, u.toNat_lt, p.toNat_lt, n.toNat_lt]; omega

theorem encodeMrc_eq_iff {l : Nat} {opc1 opc2 : BitVec 3} {crn cp crm : BitVec 4} (lBit : l = l / 2^20 * 2^20)
    (short : l / 2^20 < 2) (w : Nat) :
    encodeMrc c l opc1.toNat crn.toNat rd.val cp.toNat opc2.toNat crm.toNat = w ↔
      HasFields w 0 [(4, crm.toNat), (1, 1), (3, opc2.toNat), (4, cp.toNat), (4, rd.val), (4, crn.toNat), (1, l / 2^20),
        (3, opc1.toNat), (4, 14), (4, c.code)] := by
  have code := c.code_lt
  refine eq_iff_hasFields ?_ ?_
  · generalize l / 2^20 = bit20 at *
    subst lBit
    simp only [packFields, encodeMrc]; omega
  · simp; omega

theorem encodeWord_cdp_eq_iff {opc1 crn crd cp crm : BitVec 4} {opc2 : BitVec 3} (w : Nat) :
    encodeWord (.cdp c opc1 crn crd cp opc2 crm) = w ↔
      HasFields w 0 [(4, crm.toNat), (1, 0), (3, opc2.toNat), (4, cp.toNat), (4, crd.toNat), (4, crn.toNat),
        (4, opc1.toNat), (4, 14), (4, c.code)] := by
  have code := c.code_lt
  refine eq_iff_hasFields ?_ ?_
  · simp only [packFields, encodeWord]; omega
  · simp; omega

theorem encodeWord_bx_eq_iff (w : Nat) : encodeWord (.bx c rm) = w ↔
    HasFields w 0 [(4, rm.val), (24, 0x12FFF1), (4, c.code)] := by
  have code := c.code_lt
  refine eq_iff_hasFields ?_ ?_
  · simp only [packFields, encodeWord]; omega
  · simp; omega

theorem encodeWord_mrs_eq_iff {ps : Bool} (w : Nat) : encodeWord (.mrs c ps rd) = w ↔
    HasFields w 0 [(12, 0), (4, rd.val), (6, 15), (1, ps.toNat), (5, 2), (4, c.code)] := by
  have code := c.code_lt
  refine eq_iff_hasFields ?_ ?_
  · simp only [packFields, encodeWord]; omega
  · simp [ps.toNat_lt]; omega

theorem encodeWord_msrReg_eq_iff {pd : Bool} {fields : BitVec 4} (w : Nat) : encodeWord (.msrReg c pd fields rm) = w ↔
    HasFields w 0 [(4, rm.val), (12, 0xF00), (4, fields.toNat), (2, 2), (1, pd.toNat), (5, 2), (4, c.code)] := by
  have code := c.code_lt
  refine eq_iff_hasFields ?_ ?_
  · simp only [packFields, encodeWord]; omega
  · simp [pd.toNat_lt]; omega

theorem encodeWord_msrImm_eq_iff {pd : Bool} {fields rotate : BitVec 4} {imm8 : BitVec 8} (w : Nat) :
    encodeWord (.msrImm c pd fields rotate imm8) = w ↔
      HasFields w 0 [(8, imm8.toNat), (4, rotate.toNat), (4, 15), (4, fields.toNat), (2, 2), (1, pd.toNat), (5, 6),
        (4, c.code)] := by
  have code := c.code_lt
  refine eq_iff_hasFields ?_ ?_
  · simp only [packFields, encodeWord]; omega
  · simp [pd.toNat_lt]; omega

/-- SWP and SWPB; `code` is bits 27:20 and 7:4. -/
theorem encodeSwap_eq_iff {code : Nat} (codeBits : code = code / 2^20 * 2^20 + 9 * 2^4) (short : code / 2^20 < 2^8) (w : Nat) :
    c.code * 2^28 + code + rn.val * 2^16 + rd.val * 2^12 + rm.val = w ↔
      HasFields w 0 [(4, rm.val), (8, 9), (4, rd.val), (4, rn.val), (8, code / 2^20), (4, c.code)] := by
  have code := c.code_lt
  refine eq_iff_hasFields ?_ ?_
  · simp only [packFields]; omega
  · simp; omega

theorem encodeBranch_eq_iff {code : Nat} {offset24 : BitVec 24} (short : code < 2^4) (w : Nat) :
    c.code * 2^28 + code * 2^24 + offset24.toNat = w ↔
      HasFields w 0 [(24, offset24.toNat), (4, code), (4, c.code)] := by
  have code := c.code_lt
  refine eq_iff_hasFields ?_ ?_
  · simp only [packFields]; omega
  · simp; omega

theorem encodeBits_eq_iff {code : Nat} {bits : BitVec 28} (short : code < 2^4) (w : Nat) :
    code * 2^28 + bits.toNat = w ↔ HasFields w 0 [(28, bits.toNat), (4, code)] := by
  refine eq_iff_hasFields ?_ ?_
  · simp only [packFields]; omega
  · simp; omega
end

end Sys2Proof
end

section
/-! Both directions of the round trip for ARM words. Where a row of R152 is chosen before another, the lemma that rules the
earlier row out stands first. -/

namespace Sys2Proof

/-! The three checks of rows 5u, 6u and 7u (R168) speak of the low 28 bits of a word by the decoder's own fields. -/

theorem div_mod_pow (x lo n : Nat) : x / 2^lo % 2^n = fld x lo n := rfl

theorem div_mod_two (x lo : Nat) : x / 2^lo % 2 = fld x lo 1 := rfl

theorem isUndefMul_iff (w : Nat) : isUndefMul (fld w 0 28) = true ↔
    fld w 25 3 = 0 ∧ fld w 7 1 = 1 ∧ fld w 4 1 = 1 ∧ ¬ (fld w 22 6 = 0 ∧ fld w 4 4 = 9)
      ∧ ¬ (fld w 23 5 = 1 ∧ fld w 4 4 = 9) ∧ ¬ (fld w 23 5 = 2 ∧ fld w 20 2 = 0 ∧ fld w 4 8 = 9)
      ∧ ¬ (fld w 5 2 ≠ 0 ∧ ¬ (fld w 20 1 = 0 ∧ fld w 6 1 = 1) ∧ (fld w 22 1 = 1 ∨ fld w 8 4 = 0)) := by
  simp only [isUndefMul, div_mod_pow, div_mod_two, fld_fld, Nat.reduceAdd, Nat.reduceLeDiff, Bool.and_eq_true, Bool.or_eq_true,
    beq_iff_eq, bne_iff_ne, Bool.not_eq_true', ← Bool.not_eq_true, and_assoc]

theorem isUndefCompare_iff (w : Nat) : isUndefCompare (fld w 0 28) = true ↔
    fld w 26 2 = 0 ∧ fld w 23 2 = 2 ∧ fld w 20 1 = 0 ∧ ¬ (fld w 25 1 = 0 ∧ fld w 7 1 = 1 ∧ fld w 4 1 = 1)
      ∧ fld w 4 24 ≠ 0x12FFF1 ∧ ¬ (fld w 23 5 = 2 ∧ fld w 16 6 = 15 ∧ fld w 0 12 = 0)
      ∧ ¬ (fld w 23 5 = 2 ∧ fld w 20 2 = 2 ∧ fld w 4 12 = 0xF00)
      ∧ ¬ (fld w 23 5 = 6 ∧ fld w 20 2 = 2 ∧ fld w 12 4 = 15) := by
  have low : fld w 0 28 % 2^12 = fld (fld w 0 28) 0 12 := by simp [fld]
  simp only [isUndefCompare, div_mod_pow, div_mod_two, low, fld_fld, Nat.reduceAdd, Nat.reduceLeDiff, Bool.and_eq_true,
    beq_iff_eq, Bool.not_eq_true', ← Bool.not_eq_true, and_assoc, ne_eq]

theorem isUndefTransfer_iff (w : Nat) : isUndefTransfer (fld w 0 28) = true ↔ fld w 25 3 = 3 ∧ fld w 4 1 = 1 := by
  simp only [isUndefTransfer, div_mod_pow, div_mod_two, fld_fld, Nat.reduceAdd, Nat.reduceLeDiff, Bool.and_eq_true, beq_iff_eq]

section
variable {c : Cond} {w : Nat}

theorem decodeRegisterForm_dataProcessing (notCompare : ¬ (fld w 23 2 = 2 ∧ fld w 20 1 = 0)) :
    decodeRegisterForm c w = decodeDataProcessing c w := by
  rw [decodeRegisterForm, if_neg, if_neg, if_neg, if_neg notCompare]
  all_goals unfold fld at *; omega

theorem decodeImmediateForm_dataProcessing (notCompare : ¬ (fld w 23 2 = 2 ∧ fld w 20 1 = 0)) :
    decodeImmediateForm c w = decodeDataProcessing c w := by
  rw [decodeImmediateForm, if_neg, if_neg notCompare]
  unfold fld at *; omega

theorem Op2.not_extra {o : Op2} (form : o.form = 0) (low : fld w 0 12 = packFields o.fields) :
    ¬ (bit w 7 = true ∧ bit w 4 = true) := by
  have h := (o.packFields_eq_iff _).1 low.symm
  cases o with
  | imm => cases form
  | shiftImm =>
    obtain ⟨-, h4, -⟩ := h
    rw [fld_fld (by decide)] at h4
    simp [bit, h4]
  | shiftReg =>
    obtain ⟨-, -, -, h7, -⟩ := h
    rw [fld_fld (by decide)] at h7
    simp [bit, h7]

theorem Offset.not_undefined {o : Offset} (form : o.form = 1) (low : fld w 0 12 = packFields o.fields) : fld w 4 1 = 0 := by
  have h := (o.packFields_eq_iff _).1 low.symm
  cases o with
  | imm => cases form
  | reg =>
    obtain ⟨-, h4, -⟩ := h
    rwa [fld_fld (by decide)] at h4

theorem decodeArmClass_dataProcessing {o : Op2} (low : fld w 0 12 = packFields o.fields) (form : fld w 25 1 = o.form)
    (format : fld w 26 2 = 0) (notCompare : ¬ (fld w 23 2 = 2 ∧ fld w 20 1 = 0)) :
    decodeArmClass c w = decodeDataProcessing c w := by
  have kind := fld_append w 25 1 2
  rw [format, form] at kind
  rcases fld_one w 25 with h | h
  · rw [decodeArmClass, kind, ← form, h]
    exact (if_neg (Op2.not_extra (form.symm.trans h) low)).trans (decodeRegisterForm_dataProcessing notCompare)
  · rw [decodeArmClass, kind, ← form, h]
    exact decodeImmediateForm_dataProcessing notCompare

theorem decodeArmClass_transfer {o : Offset} (low : fld w 0 12 = packFields o.fields) (form : fld w 25 1 = o.form)
    (format : fld w 26 2 = 1) : decodeArmClass c w = decodeTransfer c w := by
  have kind := fld_append w 25 1 2
  rw [format] at kind
  rcases fld_one w 25 with h | h
  · simp [decodeArmClass, kind, h]
  · rw [decodeArmClass, kind, h]
    exact if_neg (by rw [bit, Offset.not_undefined (form.symm.trans h) low]; decide)

end

/-- A transfer that is not post-indexed with W set, in the two ways the model writes it. -/
theorem or_not_iff_not_and (p wb : Bool) : (p || !wb) = true ↔ ¬ (p = false ∧ wb = true) := by
  cases p <;> cases wb <;> decide

theorem bv8_halves {w : Nat} {v : BitVec 8} (low : fld w 0 4 = v.toNat % 2^4) (high : fld w 8 4 = v.toNat / 2^4) :
    BitVec.ofNat 8 (fld w 8 4 * 16 + fld w 0 4) = v := by
  rw [low, high]; apply BitVec.eq_of_toNat_eq; simp; omega

theorem decodeArm_encodeWord {i : Instr} {w : Nat} (wf : i.wf = true) (arm : i.isThumb = false) (word : encodeWord i = w) :
    decodeArm w = i ∧ w < 2^32 := by
  cases i with
  | armNever bits =>
    obtain ⟨hbits, hc, hw⟩ := (encodeBits_eq_iff (by decide) w).1 word
    exact ⟨by simp [decodeArm, hc, Cond.ofCode, bvAt_eq_iff, hbits], hw⟩
  | bx c rm =>
    obtain ⟨hrm, hop, hc, hw⟩ := (encodeWord_bx_eq_iff w).1 word
    refine ⟨(decodeArm_of_code hc).trans ?_, hw⟩
    simp [decodeArmClass, decodeRegisterForm, bit, fld_within hop, regAt_eq_iff, hrm]
  | mrs c ps rd =>
    obtain ⟨hlow, hrd, h16, hps, hop, hc, hw⟩ := (encodeWord_mrs_eq_iff w).1 word
    refine ⟨(decodeArm_of_code hc).trans ?_, hw⟩
    have notBx : fld w 4 24 ≠ 0x12FFF1 := fld_ne (i := 4) (k := 1) (fld_within hlow (by decide)) (by decide) (by decide)
    simp [decodeArmClass, decodeRegisterForm, bit, fld_within hop, fld_within h16, fld_within hlow, notBx, regAt_eq_iff,
      hrd, hps]
  | msrReg c pd fields rm =>
    obtain ⟨hrm, h4, hfields, h20, hpd, hop, hc, hw⟩ := (encodeWord_msrReg_eq_iff w).1 word
    refine ⟨(decodeArm_of_code hc).trans ?_, hw⟩
    have notBx : fld w 4 24 ≠ 0x12FFF1 := fld_ne h4 (by decide) (by decide)
    have notMrs : fld w 16 6 ≠ 15 := fld_ne h20 (by decide) (by decide)
    simp [decodeArmClass, decodeRegisterForm, bit, fld_within hop, fld_within h20, fld_within h4, notBx, notMrs, regAt_eq_iff,
      bvAt_eq_iff, hrm, hpd, hfields]
  | msrImm c pd fields rotate imm8 =>
    obtain ⟨himm, hrot, h12, hfields, h20, hpd, hop, hc, hw⟩ := (encodeWord_msrImm_eq_iff w).1 word
    refine ⟨(decodeArm_of_code hc).trans ?_, hw⟩
    simp [decodeArmClass, decodeImmediateForm, bit, fld_within hop, fld_within h20, fld_within h12,
      bvAt_eq_iff, himm, hrot, hpd, hfields]
  | mul c s rd rn rs rm | mla c s rd rn rs rm | umull c s rd rn rs rm | umlal c s rd rn rs rm | smull c s rd rn rs rm
  | smlal c s rd rn rs rm =>
    obtain ⟨hrm, h4, hrs, hrn, hrd, hs, hop, hc, hw⟩ := (encodeMul_eq_iff (by decide) (by omega) w).1 word
    refine ⟨(decodeArm_of_code hc).trans ?_, hw⟩
    simp [decodeArmClass, decodeExtra, bit, fld_within hop, fld_within h4, regAt_eq_iff, bvAt_eq_iff, hrm, hrs, hrn, hrd, hs]
  | swp c rn rd rm | swpb c rn rd rm =>
    obtain ⟨hrm, h4, hrd, hrn, hop, hc, hw⟩ := (encodeSwap_eq_iff (by decide) (by decide) w).1 word
    refine ⟨(decodeArm_of_code hc).trans ?_, hw⟩
    simp [decodeArmClass, decodeExtra, bit, fld_within hop, fld_within h4, regAt_eq_iff, hrm, hrn, hrd]
  | ldrhReg c p u wb rn rd rm | strhReg c p u wb rn rd rm | ldrsbReg c p u wb rn rd rm | ldrshReg c p u wb rn rd rm =>
    obtain ⟨hrm, h4, h8, hrd, hrn, hl, hwb, hi, hu, hp, hop, hc, hw⟩ :=
      (encodeHalfReg_eq_iff (by decide) (by decide) w).1 word
    refine ⟨(decodeArm_of_code hc).trans ?_, hw⟩
    have notSwap : fld w 4 8 ≠ 9 := fld_ne h4 (by decide) (by decide)
    simp [decodeArmClass, decodeExtra, decodeHalfword, bit, fld_within hop, fld_within h4, notSwap, h8, hl, hi,
      regAt_eq_iff, hrm, hrn, hrd, hp, hu, hwb]
  | ldrhImm c p u wb rn rd imm8 | strhImm c p u wb rn rd imm8 | ldrsbImm c p u wb rn rd imm8 | ldrshImm c p u wb rn rd imm8 =>
    obtain ⟨hlow, h4, hhigh, hrd, hrn, hl, hwb, hi, hu, hp, hop, hc, hw⟩ :=
      (encodeHalfImm_eq_iff (by decide) (by decide) w).1 word
    refine ⟨(decodeArm_of_code hc).trans ?_, hw⟩
    have notSwap : fld w 4 8 ≠ 9 := fld_ne h4 (by decide) (by decide)
    simp [decodeArmClass, decodeExtra, decodeHalfword, bit, fld_within hop, fld_within h4, notSwap, hl, hi,
      bv8_halves hlow hhigh, regAt_eq_iff, hrn, hrd, hp, hu, hwb]
  | undefMul c bits =>
    obtain ⟨hbits, hc, hw⟩ := (encodeBits_eq_iff (Nat.lt_trans c.code_lt (by decide)) w).1 word
    refine ⟨(decodeArm_of_code hc).trans ?_, hw⟩
    obtain ⟨h25, h7, h4, short, long, swap, half⟩ := (isUndefMul_iff w).1 (hbits ▸ wf)
    rw [decodeArmClass, h25]
    simp only [bit, h7, h4, decodeExtra, if_neg short, if_neg long, if_neg swap, if_neg half]
    simp [bvAt_eq_iff, hbits]
  | undefCompare c bits =>
    obtain ⟨hbits, hc, hw⟩ := (encodeBits_eq_iff (Nat.lt_trans c.code_lt (by decide)) w).1 word
    refine ⟨(decodeArm_of_code hc).trans ?_, hw⟩
    obtain ⟨h26, h23, h20, extra, notBx, notMrs, notMsrReg, notMsrImm⟩ := (isUndefCompare_iff w).1 (hbits ▸ wf)
    rcases fld_one w 25 with h25 | h25
    · have notExtra : ¬ (bit w 7 = true ∧ bit w 4 = true) := fun h => extra ⟨h25, by simpa [bit] using h⟩
      simp [decodeArmClass, fld_append w 25 1 2, h25, h26, if_neg notExtra, decodeRegisterForm, notBx, if_neg notMrs,
        if_neg notMsrReg, h23, h20, bvAt_eq_iff, hbits]
    · simp [decodeArmClass, fld_append w 25 1 2, h25, h26, decodeImmediateForm, if_neg notMsrImm, h23, h20, bvAt_eq_iff, hbits]
  | undefTransfer c bits =>
    obtain ⟨hbits, hc, hw⟩ := (encodeBits_eq_iff (Nat.lt_trans c.code_lt (by decide)) w).1 word
    refine ⟨(decodeArm_of_code hc).trans ?_, hw⟩
    obtain ⟨h25, h4⟩ := (isUndefTransfer_iff w).1 (hbits ▸ wf)
    simp [decodeArmClass, h25, bit, h4, bvAt_eq_iff, hbits]
  | and c s rn rd o | eor c s rn rd o | sub c s rn rd o | rsb c s rn rd o | add c s rn rd o | adc c s rn rd o
  | sbc c s rn rd o | rsc c s rn rd o | orr c s rn rd o | bic c s rn rd o | mov c s rn rd o | mvn c s rn rd o =>
    obtain ⟨hlow, hrd, hrn, hs, hop, hform, h26, hc, hw⟩ := (encodeDp_eq_iff (by decide) (by omega) w).1 word
    refine ⟨(decodeArm_of_code hc).trans ((decodeArmClass_dataProcessing hlow hform h26 ?_).trans ?_), hw⟩
    · simp [fld_within hop]
    · simp [decodeDataProcessing, bit, fld_within hop, decodeOp2_of_fields hform hlow, regAt_eq_iff, bvAt_eq_iff, hrd, hrn, hs]
  | tst c rn sbz o | teq c rn sbz o | cmp c rn sbz o | cmn c rn sbz o =>
    obtain ⟨hlow, hrd, hrn, hs, hop, hform, h26, hc, hw⟩ := (encodeDp_eq_iff (by decide) (by omega) w).1 word
    refine ⟨(decodeArm_of_code hc).trans ((decodeArmClass_dataProcessing hlow hform h26 ?_).trans ?_), hw⟩
    · simp [hs]
    · simp [decodeDataProcessing, fld_within hop, decodeOp2_of_fields hform hlow, regAt_eq_iff, bvAt_eq_iff, hrd, hrn]
  | ldrt c u rn rd o | strt c u rn rd o | ldrbt c u rn rd o | strbt c u rn rd o =>
    obtain ⟨hlow, hrd, hrn, hl, hwb, hb, hu, hp, hform, h26, hc, hw⟩ :=
      (encodeTransfer_eq_iff (by decide) (by decide) w).1 word
    refine ⟨(decodeArm_of_code hc).trans ((decodeArmClass_transfer hlow hform h26).trans ?_), hw⟩
    simp [decodeTransfer, bit, decodeOffset_of_fields hform hlow, regAt_eq_iff, hrd, hrn, hl, hb, hp, hu, hwb]
  | ldr c p u wb rn rd o | str c p u wb rn rd o | ldrb c p u wb rn rd o | strb c p u wb rn rd o =>
    obtain ⟨hlow, hrd, hrn, hl, hwb, hb, hu, hp, hform, h26, hc, hw⟩ :=
      (encodeTransfer_eq_iff (by decide) (by decide) w).1 word
    refine ⟨(decodeArm_of_code hc).trans ((decodeArmClass_transfer hlow hform h26).trans ?_), hw⟩
    have notT : ¬ (p = false ∧ wb = true) := (or_not_iff_not_and p wb).1 wf
    simp [decodeTransfer, bit, decodeOffset_of_fields hform hlow, regAt_eq_iff, hrd, hrn, hl, hb, hp, hu, hwb,
      if_neg notT]
  | ldmRet c p u wb rn list | ldmUser c p u wb rn list =>
    obtain ⟨hlist, hrn, hl, hwb, hs, hu, hp, hop, hc, hw⟩ := (encodeBlock_eq_iff (by decide) (by decide) w).1 word
    refine ⟨(decodeArm_of_code hc).trans ?_, hw⟩
    have returns : bit w 15 = list.getLsbD 15 := by
      rw [bit, fld_within hlist (by decide), BitVec.getLsbD, Nat.testBit_eq_decide_div_mod_eq]; rfl
    simp [Instr.wf] at wf
    simp [decodeArmClass, decodeBlock, hop, (bit_eq_iff (b := true)).2 hl, (bit_eq_iff (b := true)).2 hs, bit_eq_iff.2 hp,
      bit_eq_iff.2 hu, bit_eq_iff.2 hwb, returns, wf, regAt_eq_iff, bvAt_eq_iff, hrn, hlist]
  | stmUser c p u wb rn list | ldm c p u wb rn list | stm c p u wb rn list =>
    obtain ⟨hlist, hrn, hl, hwb, hs, hu, hp, hop, hc, hw⟩ := (encodeBlock_eq_iff (by decide) (by decide) w).1 word
    refine ⟨(decodeArm_of_code hc).trans ?_, hw⟩
    simp [decodeArmClass, decodeBlock, bit, hop, hl, hs, hp, hu, hwb, regAt_eq_iff, bvAt_eq_iff, hrn, hlist]
  | b c o | bl c o | swi c o =>
    obtain ⟨ho, hop, hc, hw⟩ := (encodeBranch_eq_iff (by decide) w).1 word
    refine ⟨(decodeArm_of_code hc).trans ?_, hw⟩
    simp [decodeArmClass, decodeSwiCoprocessor, bit, fld_within hop, bvAt_eq_iff, ho]
  | ldc c p u n wb rn crd cp o | stc c p u n wb rn crd cp o =>
    obtain ⟨ho, hcp, hcrd, hrn, hl, hwb, hn, hu, hp, hop, hc, hw⟩ := (encodeLdc_eq_iff (by decide) (by decide) w).1 word
    refine ⟨(decodeArm_of_code hc).trans ?_, hw⟩
    simp [decodeArmClass, decodeCoprocessorTransfer, bit, hop, hl, hp, hu, hn, hwb, regAt_eq_iff, bvAt_eq_iff, hrn, ho,
      hcp, hcrd]
  | cdp c opc1 crn crd cp opc2 crm =>
    obtain ⟨hcrm, h4, hopc2, hcp, hcrd, hcrn, hopc1, hop, hc, hw⟩ := (encodeWord_cdp_eq_iff w).1 word
    refine ⟨(decodeArm_of_code hc).trans ?_, hw⟩
    simp [decodeArmClass, decodeSwiCoprocessor, bit, fld_within hop, h4, bvAt_eq_iff, hcrm, hopc2, hcp, hcrd, hcrn, hopc1]
  | mrc c opc1 crn rd cp opc2 crm | mcr c opc1 crn rd cp opc2 crm =>
    obtain ⟨hcrm, h4, hopc2, hcp, hrd, hcrn, hl, hopc1, hop, hc, hw⟩ := (encodeMrc_eq_iff (by decide) (by decide) w).1 word
    refine ⟨(decodeArm_of_code hc).trans ?_, hw⟩
    simp [decodeArmClass, decodeSwiCoprocessor, bit, fld_within hop, h4, hl, regAt_eq_iff, bvAt_eq_iff, hcrm, hopc2, hcp, hrd,
      hcrn, hopc1]
  | _ => cases arm

/-! ## Every word is the encoding of what it decodes to -/

theorem getLsbD_bvAt (w : Nat) : (bvAt w 0 16).getLsbD 15 = bit w 15 := by
  rw [BitVec.getLsbD, bvAt_toNat, Nat.testBit_eq_decide_div_mod_eq]
  exact congrArg (fun n => n == 1) (fld_fld (n := 16) (i := 15) (k := 1) (by decide))

section
variable {w : Nat} {c : Cond} (short : w < 2^32) (code : fld w 28 4 = c.code)
include short code

theorem isInstrOf_decodeDataProcessing (format : fld w 26 2 = 0)
    (notExtra : fld w 25 1 = 0 → ¬ (fld w 7 1 = 1 ∧ fld w 4 1 = 1)) (notCompare : ¬ (fld w 23 2 = 2 ∧ fld w 20 1 = 0)) :
    IsInstrOf false w (decodeDataProcessing c w) := by
  have form := form_decodeOp2 w
  have low := packFields_decodeOp2 notExtra
  unfold decodeDataProcessing
  split
  all_goals
    refine ⟨rfl, rfl, (encodeDp_eq_iff (by decide) (by omega) w).2 ?_⟩
    simp [HasFields, fld] at *
    omega

theorem isInstrOf_decodeHalfword (format : fld w 25 3 = 0) (h7 : fld w 7 1 = 1) (h4 : fld w 4 1 = 1) (signed : fld w 5 2 ≠ 0)
    (store : ¬ (fld w 20 1 = 0 ∧ fld w 6 1 = 1)) (offset : fld w 22 1 = 1 ∨ fld w 8 4 = 0) :
    IsInstrOf false w (decodeHalfword c w) := by
  unfold decodeHalfword
  dsimp only
  split
  case h_1 | h_3 | h_5 | h_7 =>
    refine ⟨rfl, rfl, (encodeHalfReg_eq_iff (by decide) (by decide) w).2 ?_⟩
    simp [HasFields, bit_eq_iff, fld] at *
    omega
  all_goals
    refine ⟨rfl, rfl, (encodeHalfImm_eq_iff (by decide) (by decide) w).2 ?_⟩
    simp [HasFields, bit_eq_iff, fld] at *
    omega

/-- An undefined encoding keeps its low 28 bits as they are. -/
theorem encodeBits_bvAt : c.code * 2^28 + (bvAt w 0 28).toNat = w :=
  (encodeBits_eq_iff (Nat.lt_trans c.code_lt (by decide)) w).2 ⟨(bvAt_toNat w 0 28).symm, code, short⟩

theorem isInstrOf_decodeExtra (format : fld w 25 3 = 0) (h7 : fld w 7 1 = 1) (h4 : fld w 4 1 = 1) :
    IsInstrOf false w (decodeExtra c w) := by
  unfold decodeExtra
  split
  case isTrue =>
    split
    all_goals
      refine ⟨rfl, rfl, (encodeMul_eq_iff (by decide) (by omega) w).2 ?_⟩
      simp [HasFields, bit_eq_iff, fld] at *
      omega
  split
  case isTrue =>
    split
    all_goals
      refine ⟨rfl, rfl, (encodeMul_eq_iff (by decide) (by omega) w).2 ?_⟩
      simp [HasFields, bit_eq_iff, fld] at *
      omega
  split
  case isTrue =>
    split
    all_goals
      refine ⟨rfl, rfl, (encodeSwap_eq_iff (by decide) (by decide) w).2 ?_⟩
      simp [HasFields, bit_eq_iff, fld] at *
      omega
  split
  case isTrue half =>
    obtain ⟨signed, store, offset⟩ := half
    exact isInstrOf_decodeHalfword short code format h7 h4 signed store offset
  case isFalse notShort notLong notSwap notHalf =>
    refine ⟨?_, rfl, encodeBits_bvAt short code⟩
    rw [Instr.wf, bvAt_toNat]
    exact (isUndefMul_iff w).2 ⟨format, h7, h4, notShort, notLong, notSwap, notHalf⟩

theorem isInstrOf_decodeRegisterForm (format : fld w 25 3 = 0) (notExtra : ¬ (fld w 7 1 = 1 ∧ fld w 4 1 = 1)) :
    IsInstrOf false w (decodeRegisterForm c w) := by
  have format' : fld w 26 2 = 0 := fld_within format (by decide)
  have register : fld w 25 1 = 0 := fld_within format (by decide)
  unfold decodeRegisterForm
  split
  case isTrue bx =>
    refine ⟨rfl, rfl, (encodeWord_bx_eq_iff w).2 ?_⟩
    simp [HasFields, fld] at *
    omega
  split
  case isTrue mrs =>
    refine ⟨rfl, rfl, (encodeWord_mrs_eq_iff w).2 ?_⟩
    simp [HasFields, fld] at *
    omega
  split
  case isTrue msr =>
    refine ⟨rfl, rfl, (encodeWord_msrReg_eq_iff w).2 ?_⟩
    simp [HasFields, fld] at *
    omega
  split
  case isTrue notBx notMrs notMsr compare =>
    refine ⟨?_, rfl, encodeBits_bvAt short code⟩
    rw [Instr.wf, bvAt_toNat]
    refine (isUndefCompare_iff w).2 ⟨format', compare.1, compare.2, fun h => notExtra h.2, notBx, notMrs, notMsr, fun h => ?_⟩
    unfold fld at *; omega
  case isFalse compare => exact isInstrOf_decodeDataProcessing short code format' (fun _ => notExtra) compare

theorem isInstrOf_decodeImmediateForm (format : fld w 25 3 = 1) : IsInstrOf false w (decodeImmediateForm c w) := by
  have format' : fld w 26 2 = 0 := fld_within format (by decide)
  have immediate : fld w 25 1 = 1 := fld_within format (by decide)
  unfold decodeImmediateForm
  split
  case isTrue msr =>
    refine ⟨rfl, rfl, (encodeWord_msrImm_eq_iff w).2 ?_⟩
    simp [HasFields, fld] at *
    omega
  split
  case isTrue notMsr compare =>
    refine ⟨?_, rfl, encodeBits_bvAt short code⟩
    rw [Instr.wf, bvAt_toNat]
    refine (isUndefCompare_iff w).2 ⟨format', compare.1, compare.2, ?_, ?_, ?_, ?_, notMsr⟩
    all_goals unfold fld at *; omega
  case isFalse compare => exact isInstrOf_decodeDataProcessing short code format' (by simp [immediate]) compare

theorem isInstrOf_decodeTransfer (format : fld w 26 2 = 1) (legal : fld w 25 1 = 1 → fld w 4 1 = 0) :
    IsInstrOf false w (decodeTransfer c w) := by
  have form := form_decodeOffset w
  have low := packFields_decodeOffset legal
  unfold decodeTransfer
  dsimp only
  split
  case isTrue =>
    split
    all_goals
      refine ⟨rfl, rfl, (encodeTransfer_eq_iff (by decide) (by decide) w).2 ?_⟩
      simp [HasFields, bit_eq_iff, fld] at *
      omega
  case isFalse notT =>
    have wf : (bit w 24 || !bit w 21) = true := (or_not_iff_not_and _ _).2 notT
    split
    all_goals
      refine ⟨wf, rfl, (encodeTransfer_eq_iff (by decide) (by decide) w).2 ?_⟩
      clear wf notT
      simp [HasFields, bit_eq_iff, fld] at *
      omega

theorem isInstrOf_decodeBlock (format : fld w 25 3 = 4) : IsInstrOf false w (decodeBlock c w) := by
  unfold decodeBlock
  dsimp only
  split
  case h_1 =>
    split
    case isTrue pc =>
      refine ⟨(getLsbD_bvAt w).trans pc, rfl, (encodeBlock_eq_iff (by decide) (by decide) w).2 ?_⟩
      simp [HasFields, bit_eq_iff, fld] at *
      omega
    case isFalse pc =>
      refine ⟨?_, rfl, (encodeBlock_eq_iff (by decide) (by decide) w).2 ?_⟩
      · rw [Instr.wf, getLsbD_bvAt w, eq_false_of_ne_true pc, Bool.not_false]
      · simp [HasFields, bit_eq_iff, fld] at *
        omega
  all_goals
    refine ⟨rfl, rfl, (encodeBlock_eq_iff (by decide) (by decide) w).2 ?_⟩
    simp [HasFields, bit_eq_iff, fld] at *
    omega

theorem isInstrOf_decodeCoprocessorTransfer (format : fld w 25 3 = 6) : IsInstrOf false w (decodeCoprocessorTransfer c w) := by
  unfold decodeCoprocessorTransfer
  split
  all_goals
    refine ⟨rfl, rfl, (encodeLdc_eq_iff (by decide) (by decide) w).2 ?_⟩
    simp [HasFields, bit_eq_iff, fld] at *
    omega

theorem isInstrOf_decodeSwiCoprocessor (format : fld w 25 3 = 7) : IsInstrOf false w (decodeSwiCoprocessor c w) := by
  unfold decodeSwiCoprocessor
  split
  case isTrue =>
    refine ⟨rfl, rfl, (encodeBranch_eq_iff (by decide) w).2 ?_⟩
    simp [HasFields, bit_eq_iff, fld] at *
    omega
  split
  case isTrue =>
    refine ⟨rfl, rfl, (encodeWord_cdp_eq_iff w).2 ?_⟩
    simp [HasFields, bit_eq_iff, fld] at *
    omega
  split
  all_goals
    refine ⟨rfl, rfl, (encodeMrc_eq_iff (by decide) (by decide) w).2 ?_⟩
    simp [HasFields, bit_eq_iff, fld] at *
    omega

theorem isInstrOf_decodeArmClass : IsInstrOf false w (decodeArmClass c w) := by
  unfold decodeArmClass
  split
  case h_1 format =>
    split
    case isTrue extra =>
      exact isInstrOf_decodeExtra short code format (bit_eq_iff.1 extra.1) (bit_eq_iff.1 extra.2)
    case isFalse extra =>
      exact isInstrOf_decodeRegisterForm short code format fun h =>
        extra ⟨(bit_eq_iff (b := true)).2 h.1, (bit_eq_iff (b := true)).2 h.2⟩
  case h_2 format => exact isInstrOf_decodeImmediateForm short code format
  case h_3 format =>
    refine isInstrOf_decodeTransfer short code ?_ ?_
    all_goals unfold fld at *; omega
  case h_4 format =>
    split
    case isTrue undef =>
      refine ⟨?_, rfl, encodeBits_bvAt short code⟩
      rw [Instr.wf, bvAt_toNat]
      exact (isUndefTransfer_iff w).2 ⟨format, bit_eq_iff.1 undef⟩
    case isFalse legal =>
      have legal : fld w 4 1 = 0 := bit_eq_iff.1 (eq_false_of_ne_true legal)
      exact isInstrOf_decodeTransfer short code (fld_within format (by decide)) fun _ => legal
  case h_5 format => exact isInstrOf_decodeBlock short code format
  case h_6 format =>
    split
    all_goals
      refine ⟨rfl, rfl, (encodeBranch_eq_iff (by decide) w).2 ?_⟩
      simp [HasFields, bit_eq_iff, fld] at *
      omega
  case h_7 format => exact isInstrOf_decodeCoprocessorTransfer short code format
  case h_8 => exact isInstrOf_decodeSwiCoprocessor short code (by simp [fld] at *; omega)

end

theorem isInstrOf_decodeArm {w : Nat} (short : w < 2^32) : IsInstrOf false w (decodeArm w) := by
  unfold decodeArm
  split
  case h_1 never =>
    exact ⟨rfl, rfl, (encodeBits_eq_iff (by decide) w).2
      ⟨(bvAt_toNat w 0 28).symm, Cond.ofCode_eq_none (fld_lt w 28 4) never, short⟩⟩
  case h_2 c cond => exact isInstrOf_decodeArmClass short (Cond.code_ofCode cond).symm

end Sys2Proof
end

section
/-! The round trip over bytes (R89, R150): the bytes of an instruction are the fields of eight bits of its word. -/

namespace Sys2Proof

theorem byte_toNat (w lo : Nat) : (BitVec.ofNat 8 (fld w lo 8)).toNat = fld w lo 8 := bvAt_toNat w lo 8

theorem two_bytes {w : Nat} (short : w < 2^16) : fld w 0 8 + 2^8 * fld w 8 8 = w := by
  rw [← fld_append w 0 8 8, fld, Nat.pow_zero, Nat.div_one, Nat.mod_eq_of_lt short]

theorem four_bytes {w : Nat} (short : w < 2^32) :
    fld w 0 8 + 2^8 * fld w 8 8 + 2^16 * fld w 16 8 + 2^24 * fld w 24 8 = w := by
  rw [← fld_append w 0 8 8, ← fld_append w 0 16 8, ← fld_append w 0 24 8, fld, Nat.pow_zero, Nat.div_one,
    Nat.mod_eq_of_lt short]

theorem decode_encode {i : Instr} (wf : i.wf = true) (rest : List Byte) :
    decode i.isThumb (encode i ++ rest) = .ok (i, rest) := by
  cases thumb : i.isThumb with
  | true =>
    obtain ⟨decoded, short⟩ := decodeThumb_encodeWord thumb rfl
    simp only [encode, thumb, decode, if_true, List.cons_append, List.nil_append, Nat.reduceMul, byte_toNat, two_bytes short,
      decoded]
  | false =>
    obtain ⟨decoded, short⟩ := decodeArm_encodeWord wf thumb rfl
    simp only [encode, thumb, decode, Bool.false_eq_true, if_false, List.cons_append, List.nil_append, Nat.reduceMul,
      byte_toNat, four_bytes short, decoded]

/-- Settles O40: decoding undoes the encoder on every instruction (`decode_encode`), and every word is the encoding of the
instruction it decodes to, by the cases of the decoder. -/
theorem decodeEncodeRoundTrip : Obligations.DecodeEncodeRoundTrip := by
  unfold Obligations.DecodeEncodeRoundTrip
  exact ⟨fun i rest wf => decode_encode wf rest, fun w short => isInstrOf_decodeArm short,
    fun w short => isInstrOf_decodeThumb short⟩

/-- Settles O39: each word is the encoding of the instruction given, which decoding therefore gives back. -/
theorem decodeSampleWords : Obligations.DecodeSampleWords := by
  unfold Obligations.DecodeSampleWords
  and_intros
  iterate 9 exact (decodeArm_encodeWord (by rfl) (by rfl) (by rfl)).1
  all_goals exact (decodeThumb_encodeWord (by rfl) (by rfl)).1

end Sys2Proof
end

section
/-! A failed condition (R151, R440, R541). -/

namespace Sys2Proof.Machine

/-- An instruction that carries a condition has no meaning but under it. -/
theorem exec_conditional {i : Instr} {c : Cond} (carries : i.condition = some c) (s : State) :
    ∃ effect, exec i s = conditionally c s effect := by
  cases i <;> cases carries
  all_goals exact ⟨_, by rfl⟩

theorem conditionally_neg {c : Cond} {s : State} {f : State → Result} (fails : s.passes c = false) :
    conditionally c s f = .next s.advance := if_neg (by rw [fails]; decide)

/-- Settles O37: an instruction that carries a condition is `conditionally` of it, and the condition 0xF is no condition. -/
theorem failedCondition : Obligations.FailedCondition := by
  unfold Obligations.FailedCondition
  refine fun s i bits => ⟨fun c carries fails => ?_, rfl⟩
  obtain ⟨effect, run⟩ := exec_conditional carries s
  exact run.trans (conditionally_neg fails)
end Sys2Proof.Machine
end
